-- ==== Sys2Proof/Word.lean ====
section
/-! DEFINITION. The word types of the block: a byte of a line or link, and the two words the manual wraps or
masks. Lengths, chainages and counts are not words here: the manual computes them exactly (R1). -/

namespace Sys2Proof

/-- One byte of the host line or of a head link (R56, R187). -/
abbrev Byte := BitVec 8

/-- The check register of the frame check (R1, Frame check). -/
abbrev Word16 := BitVec 16

/-- The time stamp: a 32-bit count of microseconds that wraps (R31). -/
abbrev Stamp := BitVec 32

/-- A 12-bit transducer code (R58). -/
abbrev Code := BitVec 12

end Sys2Proof
end

