-- ==== Sys2Proof/Syntax.lean ====
section
/-! DEFINITION. The commands of the block: one constructor per row of spec/opcode_table.json, in the table's order.
A host command row is the step in which the command interpreter takes the frame at the head of the inbound holding
list (R170), so it has no operand: kind, tag and body are in that frame. The rows of the two kinds of line carry the
bytes that arrive on the line (R33, R169). -/

namespace Sys2Proof

/-- Scan heads are numbered 0 to 3 (R1, Numbering). -/
abbrev HeadNo := Fin 4

/-- The two ends of the car (R1): what the direction input shows movement toward, and what can lead a run. -/
inductive CarEnd where
  | end1
  | end2
deriving DecidableEq, Repr

/-- The commands and events of the CG410. -/
inductive Instr where
  /-- R173 -/
  | getStatus
  /-- R107 -/
  | getTracks
  /-- R41 -/
  | setHead
  /-- R36, HEAD_CONTROL -/
  | headInit
  /-- R36, HEAD_CONTROL -/
  | headRestore
  /-- R38, HEAD_CONTROL -/
  | headIsolate
  /-- R39, HEAD_CONTROL -/
  | headDisable
  /-- R54, HEAD_CONTROL -/
  | testSourceOn
  /-- R54, HEAD_CONTROL -/
  | testSourceOff
  /-- R53 -/
  | setTestProfile
  /-- R57 -/
  | setMotion
  /-- R67 -/
  | setExtract
  /-- R84 -/
  | setTracker
  /-- R109 -/
  | setWearTable
  /-- R121 -/
  | setDefaultSection
  /-- R123 -/
  | clearRoute
  /-- R125 -/
  | appendSection
  /-- R152 -/
  | setRule
  /-- R156 -/
  | setPolicy
  /-- R19 -/
  | setTrigger
  /-- R174 -/
  | setReporting
  /-- R175 -/
  | startRun
  /-- R177 -/
  | stopRun
  /-- R176 -/
  | scanOnce
  /-- R28 -/
  | positionFix
  /-- R179 -/
  | restart
  /-- R170 -/
  | unknownCommand
  /-- R169: `bytes` arrive on the host line. -/
  | hostFrame (bytes : List Byte)
  /-- R171 -/
  | transmissionEnd
  /-- R180 -/
  | powerOnResetAssert
  /-- R180 -/
  | powerOnResetRelease
  /-- R16: the direction input shows movement toward `toward`. -/
  | odometerPulse (toward : CarEnd)
  /-- R30 -/
  | mastPulse
  /-- R22 -/
  | timeTriggerDue
  /-- R37: `bytes` arrive on the link of head `h`. -/
  | ready (h : HeadNo) (bytes : List Byte)
  /-- R45: `bytes` arrive on the link of head `h`. -/
  | profile (h : HeadNo) (bytes : List Byte)
  /-- R34: `bytes` arrive on the link of head `h`. -/
  | headUnusableFrame (h : HeadNo) (bytes : List Byte)
  /-- R33: `bytes` arrive on the link of head `h`. -/
  | headBadFrame (h : HeadNo) (bytes : List Byte)
  /-- R37 -/
  | clearingTimerExpiry (h : HeadNo)
  /-- R48 -/
  | responseWindowExpiry (h : HeadNo)
  /-- R58: the codes the sequence converted, in the order A1, B1, A2, B2. -/
  | motionSequenceEnd (a1 b1 a2 b2 : Code)
  /-- R68 -/
  | scanExtraction
  /-- R81 -/
  | candidateListHandover
  /-- R87 -/
  | trackScan
  /-- R111 -/
  | setValuing
  /-- R118 -/
  | setOffer
  /-- R138 -/
  | spanSetTake
  /-- R159 -/
  | limitSetTake
  /-- R178 -/
  | closingWork
deriving DecidableEq, Repr

end Sys2Proof
end

