-- ==== Sys2Proof/Config.lean ====
section
/-! DEFINITION. What the manual fixes once for the part, and the one value it leaves unstated. -/

namespace Sys2Proof.Config

/-- The largest body of a head link frame (R33, R56). -/
def headBodyLimit : Nat := 2405

/-- The largest body of a host frame (R169, R187). -/
def hostBodyLimit : Nat := 506

/-- The clearing timer of a head, 2000 ms in microseconds (R36). -/
def clearingTime : Nat := 2000000

/-- Where a counter stops (R1, Counters). -/
def counterStop : Nat := 65535

/-- The scan number after which every due trigger is an overrun (R25, R43). -/
def lastScan : Nat := 4294967295

/-- The bound of a chainage, in mm (R1, Chainage and direction). -/
def chainageBound : Int := 2000000000

/-- FREE VALUE (log entry 3). What a record field of `n` bytes carries when the value `v` it is to show does not
fit in the field: R186 and R187 state no result. Nothing constrains it. -/
opaque unstatedField (n : Nat) (v : Int) : Nat

end Sys2Proof.Config
end

