-- ==== Sys2Proof/Machine/Types.lean ====
section
/-! DEFINITION. The plain data the blocks of the CG410 hold and hand on, block by block, under the manual's names. -/

namespace Sys2Proof.Machine

/-! ## Modes, directions and settings that are fixed sets of names -/

/-- The part mode (R172). -/
inductive Mode where
  | standby
  | running
  | stopping
deriving DecidableEq, Repr

/-- The sense in which a run or a route advances along the chainage (R1). -/
inductive Dir where
  | ascending
  | descending
deriving DecidableEq, Repr

/-- R19. -/
inductive TriggerMode where
  | distance
  | time
  | command
deriving DecidableEq, Repr

/-- R27. -/
inductive ReverseWatch where
  | forward
  | reversed
deriving DecidableEq, Repr

/-- The result codes of R170. -/
inductive Result where
  | done
  | unknownKind
  | badLength
  | badValue
  | badTable
  | invalidCombination
  | wrongMode
  | locked
  | queueFull
  | noHeads
deriving DecidableEq, Repr

/-- The role of a track (R100). -/
inductive Role where
  | running
  | raised
deriving DecidableEq, Repr

/-! ## Travel unit (chapter 2) -/

/-- The travel configuration (R19). -/
structure TravelConfig where
  mode : TriggerMode
  spacing : Nat
  interval : Nat
  ppm : Nat
  fixLimit : Nat
deriving DecidableEq, Repr

/-- The scan header (R26). `fix` is the FIX mark with its jump indication, `mast` the mast mark's chainage. -/
structure Header where
  scan : Nat
  stamp : Stamp
  chainage : Int
  gap : Nat
  fix : Option Bool
  mast : Option Int
deriving DecidableEq, Repr

/-- The state of the travel unit (chapter 2, and the run counters of R24 and R30). -/
structure Tu where
  p : Int
  high : Int
  base : Int
  dir : Dir
  nextTrigger : Nat
  nextDue : Option Stamp
  scan : Nat
  gap : Nat
  pendingFix : Option Int
  mast : Option Int
  watch : ReverseWatch
  stamp : Stamp
  config : TravelConfig
  accepted : Nat
  overruns : Nat
  mastsIgnored : Nat
deriving DecidableEq, Repr

/-! ## Section unit (chapter 8) -/

/-- What a section snapshot holds (R132), and the default descriptor (R121): a descriptor of R120 less its start and
end chainages. `id` is 0 for the default. -/
structure Design where
  id : Nat
  wireType : Fin 8
  expectedMin : Nat
  expectedMax : Nat
  height : Nat
  band : Nat
  staggerLimit : Nat
  minThickness : Nat
  neutral : Bool
deriving DecidableEq, Repr

/-- A route section descriptor (R120). -/
structure RouteSection where
  start : Int
  stop : Int
  design : Design
deriving DecidableEq, Repr

/-- The state of the section unit. `cache = none` is DEFAULT (R127); the queue's head is the next to become active. -/
structure Scu where
  dir : Dir
  queue : List RouteSection
  cache : Option RouteSection
  default : Design
  armed : Bool
deriving DecidableEq, Repr

/-! ## Head link controller (chapter 3) -/

/-- The isolation reasons (section 3.2). -/
inductive Reason where
  | command
  | noAnswer
  | frameCheck
  | malformed
  | headFault
  | clearFailed
deriving DecidableEq, Repr

/-- The head states (section 3.2). -/
inductive HeadState where
  | disabled
  | clearing
  | active
  | isolated (reason : Reason)
deriving DecidableEq, Repr

/-- A head point (R2). -/
structure Point where
  u : Int
  v : Nat
  intensity : Nat
deriving DecidableEq, Repr

/-- One head as the controller holds it. `clearing` is what remains of a running clearing timer, in microseconds;
`rx` holds the bytes of a frame its receiver is taking, empty when it hunts (R33). -/
structure Head where
  state : HeadState
  clearing : Option Nat
  misses : Nat
  window : Bool
  responseWindow : Nat
  missLimit : Nat
  testSource : Bool
  missed : Nat
  late : Nat
  frameErrors : Nat
  rx : List Byte
deriving DecidableEq, Repr

/-- One profile bank: the status and the points of one answer; the point count is the list's length (section 3.4). -/
structure Bank where
  status : Byte
  points : List Point
deriving DecidableEq, Repr

/-- The owner of a bank pair (R42). -/
inductive Owner where
  | free
  | filling
  | processing
deriving DecidableEq, Repr

/-- The four banks of one parity, which are always owned together. -/
structure BankPair where
  owner : Owner
  banks : Vector Bank 4
deriving DecidableEq, Repr

/-- One head's answer in one scan. An open answer holds what remains of its response window, in microseconds; a
present one its copy of the latched WINDOW (R44, R45). -/
inductive Answer where
  | open (remaining : Nat)
  | notAsked
  | present (window : Bool)
  | absent (reason : Reason)
deriving DecidableEq, Repr

/-- The flags of a motion sample (R64). -/
structure MotionFlags where
  rollLost : Bool
  riseLost : Bool
  held : Bool
deriving DecidableEq, Repr

/-- The motion sample of a scan (R65): roll in 1/65536 rad and rise in tenths. -/
structure MotionSample where
  roll : Int
  rise : Int
  flags : MotionFlags
deriving DecidableEq, Repr

/-- How far a scan record has come: gathering its answers, complete and waiting for the extractor, or taken by it. -/
inductive ScanStage where
  | gathering
  | complete
  | taken
deriving DecidableEq, Repr

/-- A scan record (R44). -/
structure ScanRecord where
  header : Header
  snapshot : Design
  motion : Option MotionSample
  answers : Vector Answer 4
  stage : ScanStage
deriving DecidableEq, Repr

/-- A synthetic wire of the test profile (R53). -/
structure TestWire where
  centre : Int
  v : Nat
  width : Nat
  face : Nat
deriving DecidableEq, Repr

/-- The state of the head link controller. `sent` is the MODEL's own: the frames sent on the head links since
power-on, oldest first, as the bytes of R56 with the head's number. -/
structure Hlc where
  heads : Vector Head 4
  pairs : Vector BankPair 2
  scans : List ScanRecord
  profile : List TestWire
  sent : List (HeadNo × List Byte)
deriving DecidableEq, Repr

/-! ## Motion converter (chapter 4) -/

/-- The settings of one channel (R57). -/
structure ChannelConfig where
  enable : Bool
  zero : Nat
  scale : Nat
  low : Nat
  high : Nat
deriving DecidableEq, Repr

/-- Channel states (R59 to R62). -/
inductive ChannelState where
  | armed
  | failed
  | off
deriving DecidableEq, Repr

/-- One transducer channel. -/
structure Channel where
  config : ChannelConfig
  state : ChannelState
  last : Option Int
  count : Nat
deriving DecidableEq, Repr

/-- The state of the motion converter; the channels stand in the order A1, B1, A2, B2. `sequences` holds the scan
numbers of the conversion sequences in flight, oldest first. -/
structure Mcv where
  channels : Vector Channel 4
  spacing : Nat
  rollCentre : Nat
  sequences : List Nat
deriving DecidableEq, Repr

/-! ## Profile extractor (chapters 1 and 5) -/

/-- A head's calibration record (R5). -/
structure Calibration where
  offset : Int
  height : Nat
  mirrored : Bool
  pitch : Nat
  floor : Nat
  wear : Bool
deriving DecidableEq, Repr

/-- The extraction settings (R67). -/
structure ExtractSettings where
  gapX : Nat
  gapZ : Nat
  minPoints : Nat
  minExtent : Nat
  maxExtent : Nat
  faceIntensity : Nat
  faceTolerance : Nat
  mergeX : Nat
  mergeZ : Nat
deriving DecidableEq, Repr

/-- A track-frame point (R12), less its head number, which its answer gives. -/
structure TrackPoint where
  index : Nat
  x : Int
  z : Int
  intensity : Nat
deriving DecidableEq, Repr

/-- A candidate: one accepted cluster (R73). -/
structure Candidate where
  head : HeadNo
  x : Int
  z : Int
  count : Nat
  face : Option Nat
deriving DecidableEq, Repr

/-- A group: an entry of the candidate list (R79). -/
structure Group where
  x : Int
  z : Int
  face : Option Nat
  merged : Bool
deriving DecidableEq, Repr

/-- A scan as the extractor hands it to the tracker (R81). -/
structure HandedScan where
  header : Header
  snapshot : Design
  flags : MotionFlags
  blind : Bool
  groups : List Group
deriving DecidableEq, Repr

/-- The run counters of R82. -/
structure ExtractCounters where
  outOfFrame : Nat
  short : Nat
  narrow : Nat
  wide : Nat
  outOfWindow : Nat
  dropped : Nat
deriving DecidableEq, Repr

/-- The state of the profile extractor. `current` is the scan being extracted, with its groups. -/
structure Pxu where
  calibration : Vector Calibration 4
  leading : CarEnd
  settings : ExtractSettings
  current : Option HandedScan
  counters : ExtractCounters
deriving DecidableEq, Repr

/-! ## Wire tracker (chapter 6) -/

/-- The tracker settings (R84). -/
structure TrackerSettings where
  gateX : Nat
  gateZ : Nat
  confirm : Nat
  coast : Nat
  band : Nat
  mismatch : Nat
deriving DecidableEq, Repr

/-- What every non-EMPTY slot holds of its track (R85). -/
structure Seen where
  id : Nat
  x : Int
  z : Int
  face : Option Nat
  age : Nat
deriving DecidableEq, Repr

/-- A slot of the track table: the tag, and the fields the tag says are held (R85). The misses of a CONFIRMED track
are always 0 and are not kept. -/
inductive Slot where
  | empty
  | tentative (track : Seen) (hits : Nat)
  | confirmed (track : Seen) (role : Role)
  | coasting (track : Seen) (misses : Nat) (role : Role)
deriving DecidableEq, Repr

/-- The wire-count watch (R103). -/
inductive CountWatch where
  | normal
  | pending (onset : Int)
  | reported
deriving DecidableEq, Repr

/-- Why a track ended (R99). -/
inductive EndReason where
  | lost
  | replaced
  | runEnd
deriving DecidableEq, Repr

/-- A track-end notice (R99). -/
structure Notice where
  slot : Fin 8
  id : Nat
  reason : EndReason
deriving DecidableEq, Repr

/-- A sample, valued or not (R101, R117). The values and the table flags are the wear unit's. -/
structure Sample where
  id : Nat
  slot : Fin 8
  role : Role
  x : Int
  z : Int
  face : Option Nat
  thickness : Option Int
  wear : Option Int
  merged : Bool
  flags : MotionFlags
  belowTable : Bool
  beyondTable : Bool
deriving DecidableEq, Repr

/-- A sample set (R102), or the end-of-run set when `runEnd` is set (R105). -/
structure SampleSet where
  header : Header
  snapshot : Design
  blind : Bool
  runEnd : Bool
  notices : List Notice
  samples : List Sample
deriving DecidableEq, Repr

/-- The state of the wire tracker. `inbox` holds the scans handed on and not yet tracked, `outbox` the sets handed on
and not yet taken by the wear unit, `lastTaken` the header and snapshot of the last scan taken in the run (R105). -/
structure Wtr where
  table : Vector Slot 8
  nextId : Nat
  settings : TrackerSettings
  watch : CountWatch
  lastScan : Nat
  lastTaken : Option (Header × Design)
  tableFull : Nat
  inbox : List HandedScan
  outbox : List SampleSet
deriving DecidableEq, Repr

/-! ## Wear unit (chapter 7) -/

/-- A LOADED wear table (R108): the breakpoints are pairs of face width and remaining thickness. -/
structure WearTable where
  nominal : Nat
  points : List (Nat × Nat)
deriving DecidableEq, Repr

/-- The offered set, and which of the two consumers it waits for have taken it (R118). -/
structure Offered where
  set : SampleSet
  spanTaken : Bool
  limitTaken : Bool
deriving DecidableEq, Repr

/-- The state of the wear unit; `none` in `tables` is UNLOADED. -/
structure Wru where
  tables : Vector (Option WearTable) 8
  valuing : Option SampleSet
  offered : Option Offered
deriving DecidableEq, Repr

/-! ## Span unit (chapter 9) -/

/-- The five flags of a span (R142). -/
structure SpanFlags where
  isPartial : Bool
  blind : Bool
  uncompensated : Bool
  exceedanceLost : Bool
  chainageFix : Bool
deriving DecidableEq, Repr

/-- The header of the open span (R137). -/
structure OpenSpan where
  number : Nat
  inSection? : Option Nat
  start : Int
  scans : Nat
  skipped : Nat
  flags : SpanFlags
deriving DecidableEq, Repr

/-- An accumulator that holds samples (R144): a value, or an extreme with its chainage. -/
structure Accumulator where
  samples : Nat
  id : Nat
  runningSeen : Bool
  minThickness : Option (Int × Int)
  maxStagger : Int × Int
  minHeight : Int
  maxHeight : Int
deriving DecidableEq, Repr

/-- The state of the span unit; a zeroed accumulator is `none`. Settings are in metres (R136). -/
structure Spu where
  minSpan : Nat
  maxSpan : Nat
  span : Option OpenSpan
  accumulators : Vector (Option Accumulator) 8
  retain : List Accumulator
  losses : List Nat
  closed : Nat
deriving DecidableEq, Repr

/-- Why a span closed (R139, R141). -/
inductive SpanReason where
  | fix
  | sectionChange
  | mast
  | noMast
  | runEnd
deriving DecidableEq, Repr

/-- An entry of a span record (R149): an accumulator, with its standing. -/
structure SpanEntry where
  ended : Bool
  values : Accumulator
deriving DecidableEq, Repr

/-- A span record (R148), less its lost-before count. -/
structure SpanRecord where
  number : Nat
  sectionId : Nat
  start : Int
  stop : Int
  reason : SpanReason
  scans : Nat
  skipped : Nat
  flags : SpanFlags
  entries : List SpanEntry
deriving DecidableEq, Repr

/-! ## Limit evaluator (chapter 10) -/

/-- The five quantities (R153). -/
inductive Quantity where
  | thickness
  | wear
  | stagger
  | heightLow
  | heightHigh
deriving DecidableEq, Repr

/-- R151. -/
inductive Severity where
  | advise
  | action
  | urgent
deriving DecidableEq, Repr

/-- A limit rule (R151). -/
structure LimitRule where
  enabled : Bool
  quantity : Quantity
  firstId : Nat
  lastId : Nat
  runningOnly : Bool
  threshold : Nat
  severity : Severity
  report : Bool
  lock : Bool
deriving DecidableEq, Repr

/-- An open exceedance (R158); reference 16 is the design policy. -/
structure Exceedance where
  id : Nat
  ref : Nat
  quantity : Quantity
  severity : Severity
  report : Bool
  sectionId : Nat
  start : Int
  last : Int
  worst : Int
  worstAt : Int
  role : Role
  count : Nat
deriving DecidableEq, Repr

/-- Why an exceedance closed (R164, R165). -/
inductive CloseReason where
  | recovered
  | ruleChanged
  | trackEnded
  | runEnd
deriving DecidableEq, Repr

/-- The state of the limit evaluator: `design` is the unmatched policy DESIGN, and its absence IGNORE (R155). -/
structure Lev where
  rules : Vector LimitRule 16
  design : Bool
  bypass : Bool
  entries : List Exceedance
  opened : Nat
  overflow : Nat
deriving DecidableEq, Repr

/-! ## Records, frames and the host line (chapter 11) -/

/-- What caused STARTED (R184). -/
inductive StartCause where
  | powerOn
  | restart
deriving DecidableEq, Repr

/-- The events of R184 with what each holds. -/
inductive Event where
  | started (cause : StartCause)
  | headState (h : HeadNo) (state : HeadState)
  | allHeadsLost
  | motionChannelFailed (channel : Fin 4)
  | routeStarved (chainage : Int)
  | sectionSkipped (id : Nat)
  | wireCount (restored : Bool) (count expectedMin expectedMax : Nat) (chainage : Int)
  | travelReversed (chainage : Int)
  | travelResumed (chainage : Int)
  | positionFixed (offset : Int)
  | runStarted (start : Int) (dir : Dir) (leading : CarEnd)
  | runStopped (scans spans exceedances : Nat)
deriving DecidableEq, Repr

/-- A trace record (R183); its entries are the samples. -/
structure TraceRecord where
  scan : Nat
  chainage : Int
  stamp : Stamp
  sectionId : Nat
  flags : MotionFlags
  samples : List Sample
deriving DecidableEq, Repr

/-- A report record, less its lost-before count. An exceedance record is an ONSET when it has no close reason
(R167). -/
inductive Report where
  | trace (t : TraceRecord)
  | span (r : SpanRecord)
  | exceedance (e : Exceedance) (closed : Option CloseReason)
  | event (e : Event)
deriving DecidableEq, Repr

/-- A record in the outbound queue with the lost-before count it took on entry (R182); a trace record carries none
and its count here is 0. -/
structure Queued where
  report : Report
  lostBefore : Nat
deriving DecidableEq, Repr

/-- A host frame less its start byte, length and check (R187, Host frame). -/
structure HostFrame where
  kind : Byte
  tag : Byte
  body : List Byte
deriving DecidableEq, Repr

/-- A reply (R170): the command's kind and tag, the result code and the data. -/
structure Reply where
  kind : Byte
  tag : Byte
  result : Result
  data : List Byte
deriving DecidableEq, Repr

/-- The class gates (R174). -/
structure Gates where
  span : Bool
  advise : Bool
  action : Bool
  urgent : Bool
  event : Bool
deriving DecidableEq, Repr

/-- The state of the host line interface. `rx` holds the bytes of a frame the receiver is taking and is empty while it
hunts; `tx` is the frame being sent, `none` when the transmitter is IDLE. The span settings of SET_REPORTING are
held by the span unit (R136). -/
structure Hli where
  rx : List Byte
  inbound : List HostFrame
  slot : Option Reply
  queue : List Queued
  loss : Nat
  gates : Gates
  decimation : Nat
  tx : Option HostFrame
  traceDropped : Nat
  reportsLost : Nat
  badFrames : Nat
  inboundOverruns : Nat
deriving DecidableEq, Repr

end Sys2Proof.Machine
end

