-- ==== Sys2Proof/Machine/Bytes.lean ====
section
/-! DEFINITION. Byte order, the frame check, the receiver shared by the host line and the head links, and the layout
of their frames (R1, R33, R34, R56, R169, R187). -/

namespace Sys2Proof.Machine

/-! ## Byte order: most significant byte first (R1) -/

/-- The unsigned number a list of bytes spells. -/
def beNat (bytes : List Byte) : Nat :=
  bytes.foldl (fun acc b => 256 * acc + b.toNat) 0

/-- The low `n` bytes of `v`. -/
def beBytes : Nat → Nat → List Byte
  | 0, _ => []
  | n + 1, v => beBytes n (v / 256) ++ [BitVec.ofNat 8 v]

/-- The signed number that the unsigned `v` of `n` bytes stands for in two's complement. -/
def signedOf (n v : Nat) : Int :=
  if 2 * v < 256 ^ n then (v : Int) else (v : Int) - (256 ^ n : Nat)

/-- An unsigned field of `n` bytes (R187); a value that does not fit is a free value (log entry 3). -/
def fieldU (n : Nat) (v : Int) : List Byte :=
  if 0 ≤ v ∧ v < ((256 ^ n : Nat) : Int) then beBytes n v.toNat else beBytes n (Config.unstatedField n v)

/-- A signed field of `n` bytes in two's complement (R187); a value that does not fit is a free value (log entry 3). -/
def fieldS (n : Nat) (v : Int) : List Byte :=
  if -((256 ^ n / 2 : Nat) : Int) ≤ v ∧ v < ((256 ^ n / 2 : Nat) : Int) then
    beBytes n (v % ((256 ^ n : Nat) : Int)).toNat
  else beBytes n (Config.unstatedField n v)

/-- OFF or clear 0, ON or set 1 (R187). -/
def boolByte (b : Bool) : Byte := if b then 1 else 0

/-- A body cut into unsigned fields of the given sizes; `none` when the body's length is not their sum. -/
def splitFields : List Nat → List Byte → Option (List Nat)
  | [], [] => some []
  | [], _ :: _ => none
  | n :: sizes, bytes =>
    if bytes.length < n then none
    else (splitFields sizes (bytes.drop n)).map (beNat (bytes.take n) :: ·)

/-! ## The frame check (R1, Frame check) -/

/-- One bit of the cyclic check with generator x^16 + x^12 + x^5 + 1. -/
def crcBit (r : Word16) : Word16 :=
  if r.msb then (r <<< 1) ^^^ 0x1021#16 else r <<< 1

/-- One byte, most significant bit first. -/
def crcByte (r : Word16) (b : Byte) : Word16 :=
  crcBit (crcBit (crcBit (crcBit (crcBit (crcBit (crcBit (crcBit (r ^^^ (b.setWidth 16 <<< 8)))))))))

/-- The check of a list of bytes: preset to all ones, no final inversion. -/
def frameCheck (bytes : List Byte) : Word16 :=
  bytes.foldl crcByte 0xFFFF#16

/-- The two check bytes, high byte first. -/
def checkBytes (bytes : List Byte) : List Byte :=
  beBytes 2 (frameCheck bytes).toNat

/-! ## Frames and the receiver -/

/-- A frame with `lead` (the kind, or the kind and the tag) and `body` between its length field and its check. -/
def frameBytes (lead body : List Byte) : List Byte :=
  let covered := beBytes 2 body.length ++ lead ++ body
  0xA5 :: covered ++ checkBytes covered

/-- The bytes of a host frame (R187). -/
def HostFrame.bytes (f : HostFrame) : List Byte :=
  frameBytes [f.kind, f.tag] f.body

/-- The bytes of a head link frame (R56). -/
def headFrameBytes (kind : Byte) (body : List Byte) : List Byte :=
  frameBytes [kind] body

/-- The receiver of R33 and R169 over the bytes it holds: the frames it finds, `none` for a bad one and what stands
between length and check for a good one, and the bytes of the frame it is still taking. `limit` is the largest
body, `lead` the number of bytes between the length and the body. `fuel` bounds the bytes looked at. -/
def hunt (limit lead : Nat) : Nat → List Byte → List (Option (List Byte)) × List Byte
  | 0, buf => ([], buf)
  | _ + 1, [] => ([], [])
  | fuel + 1, b :: rest =>
    if b = 0xA5#8 then
      match rest with
      | hi :: lo :: more =>
        let len := beNat [hi, lo]
        if limit < len then
          let r := hunt limit lead fuel rest
          (none :: r.1, r.2)
        else if more.length < lead + len + 2 then ([], b :: rest)
        else if checkBytes (hi :: lo :: more.take (lead + len)) = (more.drop (lead + len)).take 2 then
          let r := hunt limit lead fuel (more.drop (lead + len + 2))
          (some (more.take (lead + len)) :: r.1, r.2)
        else
          let r := hunt limit lead fuel rest
          (none :: r.1, r.2)
      | _ => ([], b :: rest)
    else hunt limit lead fuel rest

/-- What the host line's receiver makes of the bytes it held and the bytes that arrive (R169): good frames, `none` for
each bad one, and what it still holds. -/
def hostReceive (held arriving : List Byte) : List (Option HostFrame) × List Byte :=
  let buf := held ++ arriving
  let r := hunt Config.hostBodyLimit 2 buf.length buf
  (r.1.map fun c => match c with
    | some (kind :: tag :: body) => some { kind, tag, body }
    | _ => none, r.2)

/-! ## Head link frames (R34, R56) -/

/-- What one frame on a head link is to the controller. -/
inductive HeadEvent where
  | bad
  | unusable
  | ready (status : Byte)
  | profile (scan : Nat) (status : Byte) (points : List Point)
deriving DecidableEq, Repr

/-- Status bit 0 (R56). -/
def statusFault (status : Byte) : Bool := status.getLsbD 0

/-- Status bit 1 (R56). -/
def statusWindow (status : Byte) : Bool := status.getLsbD 1

/-- The points of a PROFILE body, five bytes each (R56). -/
def pointsOf : List Byte → List Point
  | u1 :: u0 :: v1 :: v0 :: i :: rest =>
    { u := signedOf 2 (beNat [u1, u0]), v := beNat [v1, v0], intensity := i.toNat } :: pointsOf rest
  | _ => []

/-- The bytes of one point (R56). -/
def Point.bytes (p : Point) : List Byte :=
  fieldS 2 p.u ++ fieldU 2 p.v ++ fieldU 1 p.intensity

/-- A good frame sorted by R34: usable when kind and body agree. -/
def headEventOf : List Byte → HeadEvent
  | [0x81#8, status] => .ready status
  | 0x82#8 :: n1 :: n0 :: status :: c1 :: c0 :: points =>
    if points.length = 5 * beNat [c1, c0] then .profile (beNat [n1, n0]) status (pointsOf points) else .unusable
  | _ => .unusable

/-- What the receiver of a head link makes of the bytes it held and the bytes that arrive (R33, R34). -/
def headReceive (held arriving : List Byte) : List HeadEvent × List Byte :=
  let buf := held ++ arriving
  let r := hunt Config.headBodyLimit 1 buf.length buf
  (r.1.map fun c => match c with
    | some content => headEventOf content
    | none => .bad, r.2)

/-- A READY frame (R56). -/
def readyBytes (status : Byte) : List Byte := headFrameBytes 0x81 [status]

/-- A PROFILE frame (R56). -/
def profileBytes (scan : Nat) (status : Byte) (points : List Point) : List Byte :=
  headFrameBytes 0x82 (fieldU 2 scan ++ [status] ++ fieldU 2 points.length ++ points.flatMap Point.bytes)

/-- A CLEAR frame (R56). -/
def clearBytes : List Byte := headFrameBytes 0x01 []

/-- A SCAN frame, carrying the low 16 bits of the scan number (R56). -/
def scanBytes (scan : Nat) : List Byte := headFrameBytes 0x02 (beBytes 2 scan)

end Sys2Proof.Machine
end

