-- ==== Sys2Proof/Machine/Flags.lean ====
section
/-! DEFINITION. The codes of the enumerated fields and the bits of the flag bytes, as section 11.9 assigns them (R187). -/

namespace Sys2Proof.Machine

/-- A flag byte with the given bits, bit 0 first. -/
def flagByte (bits : List Bool) : Byte :=
  bits.foldr (fun b (acc : Byte) => (acc <<< 1) ||| boolByte b) 0

def Mode.code : Mode → Byte
  | .standby => 0
  | .running => 1
  | .stopping => 2

def Dir.code : Dir → Byte
  | .ascending => 0
  | .descending => 1

def endCode : CarEnd → Byte
  | .end1 => 0
  | .end2 => 1

def ReverseWatch.code : ReverseWatch → Byte
  | .forward => 0
  | .reversed => 1

def Result.code : Result → Byte
  | .done => 0
  | .unknownKind => 1
  | .badLength => 2
  | .badValue => 3
  | .badTable => 4
  | .invalidCombination => 5
  | .wrongMode => 6
  | .locked => 7
  | .queueFull => 8
  | .noHeads => 9

def Role.code : Role → Byte
  | .running => 0
  | .raised => 1

def HeadState.code : HeadState → Byte
  | .disabled => 0
  | .clearing => 1
  | .active => 2
  | .isolated _ => 3

def Reason.code : Reason → Byte
  | .command => 1
  | .noAnswer => 2
  | .frameCheck => 3
  | .malformed => 4
  | .headFault => 5
  | .clearFailed => 6

/-- The reason field of HEAD_STATE and of GET_STATUS: 0 when the head is not ISOLATED. -/
def HeadState.reasonCode : HeadState → Byte
  | .isolated r => r.code
  | _ => 0

def ChannelState.code : ChannelState → Byte
  | .armed => 0
  | .failed => 1
  | .off => 2

def SpanReason.code : SpanReason → Byte
  | .fix => 0
  | .sectionChange => 1
  | .mast => 2
  | .noMast => 3
  | .runEnd => 4

def Quantity.code : Quantity → Byte
  | .thickness => 0
  | .wear => 1
  | .stagger => 2
  | .heightLow => 3
  | .heightHigh => 4

def Severity.code : Severity → Byte
  | .advise => 0
  | .action => 1
  | .urgent => 2

def CloseReason.code : CloseReason → Byte
  | .recovered => 0
  | .ruleChanged => 1
  | .trackEnded => 2
  | .runEnd => 3

/-- Motion flags of a trace record: bit 0 ROLL_LOST, 1 RISE_LOST, 2 HELD. -/
def MotionFlags.byte (f : MotionFlags) : Byte := flagByte [f.rollLost, f.riseLost, f.held]

/-- Flags of a span record, bit 0 PARTIAL to bit 4 CHAINAGE_FIX. -/
def SpanFlags.byte (f : SpanFlags) : Byte :=
  flagByte [f.isPartial, f.blind, f.uncompensated, f.exceedanceLost, f.chainageFix]

/-- The enumerated fields of command bodies: `none` for a code that is not assigned (R170). -/
def boolOf : Nat → Option Bool
  | 0 => some false
  | 1 => some true
  | _ => none

def dirOf : Nat → Option Dir
  | 0 => some .ascending
  | 1 => some .descending
  | _ => none

def endOf : Nat → Option CarEnd
  | 0 => some .end1
  | 1 => some .end2
  | _ => none

def triggerModeOf : Nat → Option TriggerMode
  | 0 => some .distance
  | 1 => some .time
  | 2 => some .command
  | _ => none

def quantityOf : Nat → Option Quantity
  | 0 => some .thickness
  | 1 => some .wear
  | 2 => some .stagger
  | 3 => some .heightLow
  | 4 => some .heightHigh
  | _ => none

def severityOf : Nat → Option Severity
  | 0 => some .advise
  | 1 => some .action
  | 2 => some .urgent
  | _ => none

/-- The class gates byte (R174, R187): bits 5 to 7 must be 0. -/
def gatesOf (v : Nat) : Option Gates :=
  if v < 32 then
    some { span := v.testBit 0, advise := v.testBit 1, action := v.testBit 2, urgent := v.testBit 3,
           event := v.testBit 4 }
  else none

/-- A wire type or a slot number, 0 to 7. -/
def fin8Of (v : Nat) : Option (Fin 8) := if h : v < 8 then some ⟨v, h⟩ else none

/-- A head number, 0 to 3. -/
def headOf (v : Nat) : Option HeadNo := if h : v < 4 then some ⟨v, h⟩ else none

end Sys2Proof.Machine
end

