-- ==== Sys2Proof/Machine/State.lean ====
section
/-! DEFINITION. The state of the CG410: the eleven blocks, the part mode, the power-on reset pin, and the queue of
commands that wait; and the machine as it stands after power-on reset. -/

namespace Sys2Proof.Machine

/-- No command of the CG410 stops the part: there is no fault (INVENTORY.md, Faults). A step never ends in one; the
type has no constructor. -/
inductive Fault where
deriving DecidableEq, Repr

/-- Why a step may have no meaning. -/
inductive Refusal where
  /-- Raised by `exec`'s arm for a command the model gives no meaning; safe. No arm raises it: every row is modelled. -/
  | notModelled (mnemonic : String)
deriving DecidableEq, Repr

/-- The whole state. `pending` is the model's queue of waiting commands, first in, first out; `pin` says that the
power-on reset pin is held active (R180); `closing` that the run's closing work has begun and not ended (R178). -/
structure State where
  pending : List Instr
  pin : Bool
  mode : Mode
  closing : Bool
  tu : Tu
  hlc : Hlc
  mcv : Mcv
  pxu : Pxu
  wtr : Wtr
  wru : Wru
  scu : Scu
  spu : Spu
  lev : Lev
  hli : Hli
deriving DecidableEq, Repr

/-! ## Power-on values, block by block -/

/-- R19, R32. -/
def Tu.powerOn : Tu :=
  { p := 0, high := 0, base := 0, dir := .ascending, nextTrigger := 1, nextDue := none, scan := 0, gap := 0,
    pendingFix := none, mast := none, watch := .forward, stamp := 0,
    config := { mode := .distance, spacing := 50, interval := 1000, ppm := 2048, fixLimit := 5000 },
    accepted := 0, overruns := 0, mastsIgnored := 0 }

/-- R35, R41, R55. -/
def Head.powerOn : Head :=
  { state := .disabled, clearing := none, misses := 0, window := false, responseWindow := 400, missLimit := 4,
    testSource := false, missed := 0, late := 0, frameErrors := 0, rx := [] }

/-- R42. What the banks hold is a DESIGN CHOICE (log entry 4): the manual gives none. -/
def BankPair.powerOn : BankPair :=
  { owner := .free, banks := Vector.replicate 4 { status := 0, points := [] } }

/-- R55. -/
def Hlc.powerOn : Hlc :=
  { heads := Vector.replicate 4 Head.powerOn, pairs := Vector.replicate 2 BankPair.powerOn, scans := [],
    profile := [], sent := [] }

/-- R57, R66. -/
def Channel.powerOn : Channel :=
  { config := { enable := true, zero := 2048, scale := 512, low := 64, high := 4031 },
    state := .armed, last := none, count := 0 }

/-- R57, R66. -/
def Mcv.powerOn : Mcv :=
  { channels := Vector.replicate 4 Channel.powerOn, spacing := 20000, rollCentre := 12000, sequences := [] }

/-- R82. -/
def ExtractCounters.zero : ExtractCounters :=
  { outOfFrame := 0, short := 0, narrow := 0, wide := 0, outOfWindow := 0, dropped := 0 }

/-- R5. -/
def Calibration.powerOn : Calibration :=
  { offset := 0, height := 40000, mirrored := false, pitch := 10, floor := 20, wear := true }

/-- R5, R7, R67, R83. -/
def Pxu.powerOn : Pxu :=
  { calibration := Vector.replicate 4 Calibration.powerOn, leading := .end1,
    settings := { gapX := 30, gapZ := 50, minPoints := 4, minExtent := 60, maxExtent := 200, faceIntensity := 200,
                  faceTolerance := 5, mergeX := 40, mergeZ := 60 },
    current := none, counters := ExtractCounters.zero }

/-- R84, R106. -/
def Wtr.powerOn : Wtr :=
  { table := Vector.replicate 8 .empty, nextId := 1,
    settings := { gateX := 80, gateZ := 150, confirm := 3, coast := 8, band := 300, mismatch := 10 },
    watch := .normal, lastScan := 0, lastTaken := none, tableFull := 0, inbox := [], outbox := [] }

/-- R119. -/
def Wru.powerOn : Wru :=
  { tables := Vector.replicate 8 none, valuing := none, offered := none }

/-- R121. -/
def Design.powerOn : Design :=
  { id := 0, wireType := 0, expectedMin := 1, expectedMax := 4, height := 53000, band := 3000, staggerLimit := 4000,
    minThickness := 90, neutral := false }

/-- R135. -/
def Scu.powerOn : Scu :=
  { dir := .ascending, queue := [], cache := none, default := Design.powerOn, armed := false }

/-- R136, R150. -/
def Spu.powerOn : Spu :=
  { minSpan := 20, maxSpan := 85, span := none, accumulators := Vector.replicate 8 none, retain := [], losses := [],
    closed := 0 }

/-- R151. -/
def LimitRule.powerOn : LimitRule :=
  { enabled := false, quantity := .stagger, firstId := 0, lastId := 0, runningOnly := false, threshold := 0,
    severity := .advise, report := false, lock := false }

/-- R168. -/
def Lev.powerOn : Lev :=
  { rules := Vector.replicate 16 LimitRule.powerOn, design := false, bypass := false, entries := [], opened := 0,
    overflow := 0 }

/-- R174, R180. -/
def Hli.powerOn : Hli :=
  { rx := [], inbound := [], slot := none, queue := [], loss := 0,
    gates := { span := true, advise := true, action := true, urgent := true, event := true },
    decimation := 0, tx := none, traceDropped := 0, reportsLost := 0, badFrames := 0, inboundOverruns := 0 }

/-- Every block at its power-on values, the pin released and the mode STANDBY, before STARTED is offered (R180). -/
def State.powerOn : State :=
  { pending := [], pin := false, mode := .standby, closing := false, tu := Tu.powerOn, hlc := Hlc.powerOn,
    mcv := Mcv.powerOn, pxu := Pxu.powerOn, wtr := Wtr.powerOn, wru := Wru.powerOn, scu := Scu.powerOn,
    spu := Spu.powerOn, lev := Lev.powerOn, hli := Hli.powerOn }

/-- The part right after power-on reset (R180): the power-on values, and STARTED with cause POWER_ON already on the
line, since the transmitter was IDLE when it was offered (R171; log entry 6). The frame is that record by R187: kind
0xA3, tag 0, lost-before 0, code 0x01, cause 0. -/
def State.reset : State :=
  { State.powerOn with hli := { Hli.powerOn with tx := some { kind := 0xA3, tag := 0, body := [0, 0, 1, 0] } } }

end Sys2Proof.Machine
end

