-- ==== Sys2Proof/Machine/HostLine.lean ====
section
/-! DEFINITION. The host line interface: record layouts (R186, R187), admission to the outbound queue (R181, R182),
the gates of R174, and the transmitter (R171). -/

namespace Sys2Proof.Machine

/-- R1, Counters: a counter stops at 65535. -/
def countUp (n : Nat) : Nat := if n < Config.counterStop then n + 1 else n

/-- A counter raised by `k`. -/
def countBy (n k : Nat) : Nat := max n (min (n + k) Config.counterStop)

/-! ## Record layouts (R187) -/

def Event.body : Event → List Byte
  | .started cause => [0x01, match cause with | .powerOn => 0 | .restart => 1]
  | .headState h state => 0x02 :: fieldU 1 h.val ++ [state.code, state.reasonCode]
  | .allHeadsLost => [0x03]
  | .motionChannelFailed c => 0x04 :: fieldU 1 c.val
  | .routeStarved c => 0x05 :: fieldS 4 c
  | .sectionSkipped id => 0x06 :: fieldU 2 id
  | .wireCount restored count lo hi c =>
    [0x07, boolByte restored] ++ fieldU 1 count ++ fieldU 1 lo ++ fieldU 1 hi ++ fieldS 4 c
  | .travelReversed c => 0x08 :: fieldS 4 c
  | .travelResumed c => 0x09 :: fieldS 4 c
  | .positionFixed offset => 0x0A :: fieldS 4 offset
  | .runStarted start dir leading => 0x0B :: fieldS 4 start ++ [dir.code, endCode leading]
  | .runStopped scans spans exceedances => 0x0C :: fieldU 2 scans ++ fieldU 2 spans ++ fieldU 2 exceedances

/-- A trace entry, 16 bytes. -/
def Sample.bytes (m : Sample) : List Byte :=
  fieldU 2 m.id ++
  [flagByte [m.role = .running, m.merged, m.belowTable, m.beyondTable], flagByte [m.face.isSome, m.thickness.isSome]] ++
  fieldS 2 m.x ++ fieldU 4 m.z ++ fieldU 2 ((m.face.getD 0 : Nat) : Int) ++ fieldU 2 (m.thickness.getD 0) ++
  fieldU 2 (m.wear.getD 0)

def TraceRecord.body (t : TraceRecord) : List Byte :=
  fieldU 4 t.scan ++ fieldS 4 t.chainage ++ beBytes 4 t.stamp.toNat ++ fieldU 2 t.sectionId ++ [t.flags.byte] ++
  fieldU 1 t.samples.length ++ t.samples.flatMap Sample.bytes

/-- A span entry, 26 bytes. -/
def SpanEntry.bytes (e : SpanEntry) : List Byte :=
  fieldU 2 e.values.id ++ [flagByte [e.values.runningSeen, e.ended], flagByte [e.values.minThickness.isSome]] ++
  fieldU 2 e.values.samples ++ fieldU 2 (e.values.minThickness.getD (0, 0)).1 ++
  fieldS 4 (e.values.minThickness.getD (0, 0)).2 ++ fieldS 2 e.values.maxStagger.1 ++
  fieldS 4 e.values.maxStagger.2 ++ fieldU 4 e.values.minHeight ++ fieldU 4 e.values.maxHeight

def SpanRecord.body (r : SpanRecord) : List Byte :=
  fieldU 4 r.number ++ fieldU 2 r.sectionId ++ fieldS 4 r.start ++ fieldS 4 r.stop ++ [r.reason.code] ++
  fieldU 2 r.scans ++ fieldU 2 r.skipped ++ [r.flags.byte] ++ fieldU 1 r.entries.length ++
  r.entries.flatMap SpanEntry.bytes

/-- An exceedance record after its lost-before count (R167): in an ONSET the end chainage and the close reason are
absent and sent as 0. -/
def Exceedance.body (e : Exceedance) (closed : Option CloseReason) : List Byte :=
  [boolByte closed.isSome] ++ fieldU 1 e.ref ++ [e.severity.code, e.quantity.code] ++ fieldU 2 e.id ++
  [e.role.code] ++ fieldU 2 e.sectionId ++ fieldS 4 e.start ++
  (match closed with | some _ => fieldS 4 e.last | none => [0, 0, 0, 0]) ++
  fieldS 4 e.worst ++ fieldS 4 e.worstAt ++ fieldU 2 e.count ++
  [match closed with | some r => r.code | none => 0]

/-- The host frame of a queued record. Report records carry a tag of 0 (R171). -/
def Queued.frame (q : Queued) : HostFrame :=
  match q.report with
  | .trace t => { kind := 0xA0, tag := 0, body := t.body }
  | .span r => { kind := 0xA1, tag := 0, body := fieldU 2 q.lostBefore ++ r.body }
  | .exceedance e closed => { kind := 0xA2, tag := 0, body := fieldU 2 q.lostBefore ++ e.body closed }
  | .event e => { kind := 0xA3, tag := 0, body := fieldU 2 q.lostBefore ++ e.body }

/-- The host frame of a reply (R187, Replies). -/
def Reply.frame (r : Reply) : HostFrame :=
  { kind := 0x80, tag := r.tag, body := [r.kind, r.result.code] ++ r.data }

/-! ## The outbound queue -/

def Report.isTrace : Report → Bool
  | .trace _ => true
  | _ => false

/-- The number of trace records in the queue. -/
def traceCount (q : List Queued) : Nat := q.countP (·.report.isTrace)

/-- The queue less its oldest trace record (R181). -/
def dropOldestTrace (q : List Queued) : List Queued := q.eraseP (·.report.isTrace)

/-- A non-trace record enters at the tail: it takes the loss count, which is then 0 (R182). -/
def Hli.enter (l : Hli) (r : Report) : Hli :=
  { l with queue := l.queue ++ [{ report := r, lostBefore := l.loss }], loss := 0 }

/-- Admission to the outbound queue (R181). -/
def Hli.enqueue (l : Hli) (r : Report) : Hli :=
  if r.isTrace then
    if traceCount l.queue < 64 ∧ l.queue.length < 96 then
      { l with queue := l.queue ++ [{ report := r, lostBefore := 0 }] }
    else { l with traceDropped := countUp l.traceDropped }
  else if l.queue.length < 96 then l.enter r
  else if 0 < traceCount l.queue then
    { l with queue := dropOldestTrace l.queue, traceDropped := countUp l.traceDropped }.enter r
  else { l with loss := countUp l.loss, reportsLost := countUp l.reportsLost }

/-- The gate a record passes or not at the offer (R174, R184): the line tests SPAN and EVENT; the limit evaluator has
tested the severity classes (R166); trace records and STARTED pass. -/
def Hli.passes (l : Hli) : Report → Bool
  | .trace _ => true
  | .span _ => l.gates.span
  | .exceedance _ _ => true
  | .event (.started _) => true
  | .event _ => l.gates.event

/-- A record is offered (R174, R181). -/
def Hli.offer (l : Hli) (r : Report) : Hli := if l.passes r then l.enqueue r else l

/-- Records offered in one step of one block enter in the order of that step (R181). -/
def Hli.offerAll (l : Hli) (rs : List Report) : Hli := rs.foldl Hli.offer l

/-- The choice of the next frame when the transmitter is IDLE or a transmission ends (R171). -/
def Hli.choose (l : Hli) : Hli :=
  match l.slot, l.queue with
  | some r, _ => { l with slot := none, tx := some r.frame }
  | none, q :: rest => { l with queue := rest, tx := some q.frame }
  | none, [] => { l with tx := none }

/-- An IDLE transmitter chooses; a busy one goes on (R171). -/
def Hli.kick (l : Hli) : Hli := if l.tx.isNone then l.choose else l

/-! ## The line on the state -/

def State.offer (s : State) (r : Report) : State := { s with hli := s.hli.offer r }

def State.offerAll (s : State) (rs : List Report) : State := { s with hli := s.hli.offerAll rs }

def State.event (s : State) (e : Event) : State := s.offer (.event e)

def State.kick (s : State) : State := { s with hli := s.hli.kick }

/-- The CI places a reply in the reply slot (R170). -/
def State.reply (s : State) (f : HostFrame) (result : Result) (data : List Byte) : State :=
  { s with hli := { s.hli with slot := some { kind := f.kind, tag := f.tag, result, data } } }

end Sys2Proof.Machine
end

