-- ==== Sys2Proof/Machine/Ops.lean ====
section
/-! DEFINITION. The operations every block shares: rounding (R1), chainage comparisons (R1), and how a command acts
on the state. -/

namespace Sys2Proof.Machine

/-! ## Arithmetic (R1, Rounding and arithmetic) -/

/-- The nearest integer to `n / d`, halves away from zero; `d` is positive wherever the manual divides. -/
def roundDiv (n d : Int) : Int :=
  if 0 ≤ n then (2 * n + d) / (2 * d) else -((-(2 * n) + d) / (2 * d))

/-- The least integer not less than `n / d`. -/
def ceilDiv (n d : Nat) : Nat := (n + (d - 1)) / d

/-- A value beyond `lo` or `hi` is given as that bound. -/
def clamp (lo hi v : Int) : Int := if v < lo then lo else if hi < v then hi else v

def within (lo hi v : Int) : Bool := lo ≤ v && v ≤ hi

/-- A chainage lies in the range of R1. -/
def chainageOk (c : Int) : Bool := within (-Config.chainageBound) Config.chainageBound c

/-- `c` has reached `x`: it lies at or beyond it in the route direction (R1). -/
def Dir.reached (d : Dir) (c x : Int) : Bool :=
  match d with
  | .ascending => x ≤ c
  | .descending => c ≤ x

/-- The direction's sign (R18). -/
def Dir.sign : Dir → Int
  | .ascending => 1
  | .descending => -1

/-! ## Sorting, kept stable -/

/-- Inserts before the first element that it is strictly less than. -/
def insertBy {α : Type} (less : α → α → Bool) (a : α) : List α → List α
  | [] => [a]
  | b :: rest => if less a b then a :: b :: rest else b :: insertBy less a rest

/-- A stable sort: equal elements keep their order. -/
def sortBy {α : Type} (less : α → α → Bool) (l : List α) : List α :=
  l.foldl (fun acc a => insertBy less a acc) []

/-! ## Vectors of the part, by name of the elements -/

def heads4 : List (Fin 4) := [0, 1, 2, 3]

def slots8 : List (Fin 8) := [0, 1, 2, 3, 4, 5, 6, 7]

def map4 {α β : Type} (f : α → β) (v : Vector α 4) : Vector β 4 := #v[f v[0], f v[1], f v[2], f v[3]]

def map8 {α β : Type} (f : Fin 8 → α → β) (v : Vector α 8) : Vector β 8 :=
  #v[f 0 v[0], f 1 v[1], f 2 v[2], f 3 v[3], f 4 v[4], f 5 v[5], f 6 v[6], f 7 v[7]]

/-- The bank pair of a scan number: its parity (section 3.4). -/
def parity (n : Nat) : Fin 2 := ⟨n % 2, Nat.mod_lt _ (by decide)⟩

/-! ## How a command acts -/

/-- A command or event takes place: nothing happens while the power-on reset pin is held (R180); otherwise its
effect, after which an IDLE transmitter chooses the next frame (R171; log entry 6). -/
def act (effect : State → State) (s : State) : Host.Outcome State Fault Refusal :=
  .next (if s.pin then s else (effect s).kick)

/-- What the command interpreter makes of a command that passed kind and mode (R170). -/
inductive Verdict where
  | refused (result : Result)
  | taken (s : State) (data : List Byte)

/-- The CI takes the frame at the head of the inbound holding list when the reply slot is EMPTY (R170). `row` says
whether the frame is one this row takes, `modes` in which modes the command is taken (R172), and `work` judges it by
form and by its own stages and makes its effects. With the slot full, no frame held, or another row's frame at the
head, nothing is taken (log entry 7). -/
def takeCommand (row : HostFrame → Bool) (modes : Mode → Bool) (work : HostFrame → State → Verdict) (s : State) :
    State :=
  match s.hli.slot, s.hli.inbound with
  | none, f :: rest =>
    if row f then
      let s0 := { s with hli := { s.hli with inbound := rest } }
      if modes s.mode then
        match work f s0 with
        | .refused r => s0.reply f r []
        | .taken s1 data => s1.reply f .done data
      else s0.reply f .wrongMode []
    else s
  | _, _ => s

/-- A row whose command has the kind `k`. -/
def ofKind (k : Byte) (f : HostFrame) : Bool := f.kind == k

/-- Taken in every mode (R172). -/
def inAny (_ : Mode) : Bool := true

/-- Taken in STANDBY (R172). -/
def inStandby (m : Mode) : Bool := m == .standby

/-- Taken in RUNNING (R172). -/
def inRunning (m : Mode) : Bool := m == .running

/-- A judged body: the effect when the settings it carries are in order, and the refusal otherwise. -/
def judged {α : Type} (parsed : Except Result α) (effect : α → State → State) (s : State) : Verdict :=
  match parsed with
  | .error r => .refused r
  | .ok a => .taken (effect a s) []

end Sys2Proof.Machine
end

