-- ==== Sys2Proof/Machine/Heads.lean ====
section
/-! DEFINITION. The head link controller (chapter 3): head states, answers, misses, completion, the test source, and
the rows and commands that act on it. -/

namespace Sys2Proof.Machine

/-! ## Heads -/

def State.head (s : State) (h : HeadNo) : Head := s.hlc.heads[h]

def State.setHead (s : State) (h : HeadNo) (x : Head) : State :=
  { s with hlc := { s.hlc with heads := s.hlc.heads.set h x } }

/-- Some head is ACTIVE. -/
def State.anyActive (s : State) : Bool := heads4.any fun h => (s.head h).state == .active

/-- A head's state changes: HEAD_STATE is queued, and ALL_HEADS_LOST after it when the head leaves ACTIVE during
RUNNING and no head remains ACTIVE (R35). `x` is the head with its new state. -/
def State.moveHead (s : State) (h : HeadNo) (x : Head) : State :=
  let s1 := (s.setHead h x).event (.headState h x.state)
  if (s.head h).state = .active ∧ x.state ≠ .active ∧ s.mode = .running ∧ !s1.anyActive then s1.event .allHeadsLost
  else s1

/-- A frame is sent on a head link (the model's record of it). -/
def State.send (s : State) (h : HeadNo) (bytes : List Byte) : State :=
  { s with hlc := { s.hlc with sent := s.hlc.sent ++ [(h, bytes)] } }

/-! ## Scan records and answers -/

def Answer.isOpen : Answer → Bool
  | .open _ => true
  | _ => false

def Answer.isPresent : Answer → Bool
  | .present _ => true
  | _ => false

/-- Every answer of the record is closed. -/
def ScanRecord.closed (r : ScanRecord) : Bool := heads4.all fun h => !(r.answers[h]).isOpen

/-- No answer of the record is present (R81, R88). -/
def ScanRecord.blind (r : ScanRecord) : Bool := heads4.all fun h => !(r.answers[h]).isPresent

/-- The owner of a bank pair changes (R42). -/
def setOwner (pairs : Vector BankPair 2) (k : Fin 2) (o : Owner) : Vector BankPair 2 :=
  pairs.set k { pairs[k] with owner := o }

/-- The scan record that holds the head's open answer; a head has at most one (R44). -/
def State.openScan (s : State) (h : HeadNo) : Option ScanRecord :=
  s.hlc.scans.find? fun r => (r.answers[h]).isOpen

/-- The first record with an open answer of the head takes `a` as that answer. -/
def answerIn (h : HeadNo) (a : Answer) : List ScanRecord → List ScanRecord
  | [] => []
  | r :: rest =>
    if (r.answers[h]).isOpen then { r with answers := r.answers.set h a } :: rest else r :: answerIn h a rest

/-- A record still gathering whose answers are all closed and whose motion sample has arrived (R51). -/
def ScanRecord.isComplete (r : ScanRecord) : Bool := r.stage == .gathering && r.closed && r.motion.isSome

/-- Completion (R51): every record that has become complete is handed to the extractor and its bank pair passes from
FILLING to PROCESSING. -/
def Hlc.complete (c : Hlc) : Hlc :=
  let done := c.scans.filter ScanRecord.isComplete
  { c with
    scans := c.scans.map fun r => if r.isComplete then { r with stage := .complete } else r
    pairs := done.foldl (fun p r => setOwner p (parity r.header.scan) .processing) c.pairs }

def State.complete (s : State) : State := { s with hlc := s.hlc.complete }

/-- The head's open answer closes as `a`, which may complete its scan. -/
def State.closeAnswer (s : State) (h : HeadNo) (a : Answer) : State :=
  { s with hlc := { s.hlc with scans := answerIn h a s.hlc.scans } }.complete

/-- A miss (R50): both counts rise, and at the miss limit the head becomes ISOLATED with the miss's reason. -/
def State.miss (s : State) (h : HeadNo) (reason : Reason) : State :=
  let x := s.head h
  let x1 := { x with misses := x.misses + 1, missed := countUp x.missed }
  if x.missLimit ≤ x.misses + 1 then s.moveHead h { x1 with state := .isolated reason } else s.setHead h x1

/-- The open answer of a head closes ABSENT as a miss (R46 to R48, R50); nothing when it has none. -/
def State.missAnswer (s : State) (h : HeadNo) (reason : Reason) : State :=
  if (s.openScan h).isSome then (s.closeAnswer h (.absent reason)).miss h reason else s

def State.frameError (s : State) (h : HeadNo) : State :=
  s.setHead h { s.head h with frameErrors := countUp (s.head h).frameErrors }

/-! ## The test source (R53, R54) -/

def TestWire.half (w : TestWire) : Int := roundDiv w.width 2

/-- The points one wire contributes, at the head's point pitch, at most 480 of them (R54). -/
def TestWire.points (w : TestWire) (pitch : Nat) : List Point :=
  (List.range (min 480 ((2 * w.half).toNat / pitch + 1))).map fun (i : Nat) =>
    let u := w.centre - w.half + i * pitch
    { u, v := w.v, intensity := if ((u - w.centre).natAbs : Int) ≤ roundDiv w.face 2 then 250 else 100 }

/-- The points written for a present answer while the test source is ON (R54). -/
def testPoints (profile : List TestWire) (pitch : Nat) : List Point :=
  (profile.flatMap fun w => w.points pitch).take 480

/-! ## Frames from the heads -/

/-- u is strictly increasing from each point to the next. -/
def increasing : List Point → Bool
  | a :: b :: rest => a.u < b.u && increasing (b :: rest)
  | _ => true

/-- A point list is well formed when it is not malformed by R46. -/
def wellFormedPoints (ps : List Point) : Bool :=
  increasing ps && ps.all fun p => within (-6000) 6000 p.u && p.v ≤ 20000

/-- A usable READY (R37, R40). -/
def State.takeReady (s : State) (h : HeadNo) (status : Byte) : State :=
  let x := s.head h
  if x.state = .clearing then
    if statusFault status then s.moveHead h { x with state := .isolated .clearFailed, clearing := none }
    else s.moveHead h { x with state := .active, clearing := none, misses := 0, window := statusWindow status }
  else s

/-- An answer closes PRESENT (R45, R54): the bank of the head and of the scan's parity is written, the miss count is
set to 0 and the latched WINDOW is set when the status carries it. -/
def State.presentAnswer (s : State) (h : HeadNo) (scan : Nat) (status : Byte) (points : List Point) : State :=
  let x := s.head h
  let window := x.window || statusWindow status
  let written := if x.testSource then testPoints s.hlc.profile (s.pxu.calibration[h]).pitch else points
  let pair := s.hlc.pairs[parity scan]
  let s1 := s.setHead h { x with misses := 0, window := window }
  let s2 := { s1 with hlc := { s1.hlc with
    pairs := s1.hlc.pairs.set (parity scan) { pair with banks := pair.banks.set h { status, points := written } } } }
  s2.closeAnswer h (.present window)

/-- A usable PROFILE (R40, R45, R46, R49). -/
def State.takeProfile (s : State) (h : HeadNo) (scan : Nat) (status : Byte) (points : List Point) : State :=
  let x := s.head h
  let late := s.setHead h { x with late := countUp x.late }
  match x.state with
  | .clearing => late
  | .active =>
    match s.openScan h with
    | none => late
    | some r =>
      if scan ≠ r.header.scan % 65536 then late
      else if statusFault status then
        (s.closeAnswer h (.absent .headFault)).moveHead h { x with state := .isolated .headFault }
      else if !wellFormedPoints points then (s.frameError h).missAnswer h .malformed
      else s.presentAnswer h r.header.scan status points
  | _ => s

/-- A good frame that is not usable (R34, R40, R46). -/
def State.takeUnusable (s : State) (h : HeadNo) : State :=
  match (s.head h).state with
  | .clearing => s.frameError h
  | .active => (s.frameError h).missAnswer h .malformed
  | _ => s

/-- A bad frame (R33, R47). -/
def State.takeBad (s : State) (h : HeadNo) : State :=
  match (s.head h).state with
  | .clearing => s.frameError h
  | .active => (s.frameError h).missAnswer h .frameCheck
  | _ => s

/-- One frame of a head link goes to the head's state handling. -/
def State.headEvent (s : State) (h : HeadNo) : HeadEvent → State
  | .bad => s.takeBad h
  | .unusable => s.takeUnusable h
  | .ready status => s.takeReady h status
  | .profile scan status points => s.takeProfile h scan status points

/-- Bytes arrive on a head link (R33): the receiver keeps what it is still taking, and each frame it finds is handled
in order. -/
def State.headBytes (s : State) (h : HeadNo) (bytes : List Byte) : State :=
  let r := headReceive (s.head h).rx bytes
  r.1.foldl (fun t e => t.headEvent h e) (s.setHead h { s.head h with rx := r.2 })

/-- The clearing timer of a head expires (R37); it runs only while the head is CLEARING. -/
def State.clearingExpires (s : State) (h : HeadNo) : State :=
  let x := s.head h
  if x.state = .clearing then s.moveHead h { x with state := .isolated .clearFailed, clearing := none } else s

/-- READY (R37): its bytes arrive. -/
def execReady (h : HeadNo) (bytes : List Byte) (s : State) : Host.Outcome State Fault Refusal :=
  act (fun t => t.headBytes h bytes) s

/-- PROFILE (R45): its bytes arrive. -/
def execProfile (h : HeadNo) (bytes : List Byte) (s : State) : Host.Outcome State Fault Refusal :=
  act (fun t => t.headBytes h bytes) s

/-- HEAD_UNUSABLE_FRAME (R34): its bytes arrive. -/
def execHeadUnusableFrame (h : HeadNo) (bytes : List Byte) (s : State) : Host.Outcome State Fault Refusal :=
  act (fun t => t.headBytes h bytes) s

/-- HEAD_BAD_FRAME (R33): its bytes arrive. -/
def execHeadBadFrame (h : HeadNo) (bytes : List Byte) (s : State) : Host.Outcome State Fault Refusal :=
  act (fun t => t.headBytes h bytes) s

/-- CLEARING_TIMER_EXPIRY (R37). -/
def execClearingTimerExpiry (h : HeadNo) (s : State) : Host.Outcome State Fault Refusal :=
  act (fun t => t.clearingExpires h) s

/-- RESPONSE_WINDOW_EXPIRY (R48). -/
def execResponseWindowExpiry (h : HeadNo) (s : State) : Host.Outcome State Fault Refusal :=
  act (fun t => t.missAnswer h .noAnswer) s

/-! ## HEAD_CONTROL (R36 to R39, R54) -/

/-- The frame is a HEAD_CONTROL that the row of action `code` takes: one with that action, or one whose body does not
name an action at all, which each of the six rows takes and refuses (log entry 8). -/
def headControlRow (code : Byte) (f : HostFrame) : Bool :=
  f.kind == 0x11 &&
  match f.body with
  | [_, a] => a == code || 5 < a.toNat
  | _ => true

/-- HEAD_CONTROL past kind and mode: form, ranges, then the action on the head it names (section 3.2, R170). -/
def headControlWork (code : Byte) (action : HeadNo → State → Verdict) (f : HostFrame) (s : State) : Verdict :=
  match f.body with
  | [h, a] =>
    match headOf h.toNat with
    | some hd => if a = code then action hd s else .refused .badValue
    | none => .refused .badValue
  | _ => .refused .badLength

/-- CLEAR is sent, the head moves to CLEARING and its clearing timer starts (R36). -/
def State.startClearing (s : State) (h : HeadNo) : State :=
  (s.send h clearBytes).moveHead h { s.head h with state := .clearing, clearing := some Config.clearingTime }

/-- INIT (R36). -/
def headInitAction (h : HeadNo) (s : State) : Verdict :=
  match (s.head h).state with
  | .disabled => .taken (s.startClearing h) []
  | .isolated _ => .taken (s.startClearing h) []
  | _ => .refused .invalidCombination

/-- RESTORE (R36). -/
def headRestoreAction (h : HeadNo) (s : State) : Verdict :=
  match (s.head h).state with
  | .isolated _ => .taken (s.startClearing h) []
  | _ => .refused .invalidCombination

/-- An open answer closes as absent with reason COMMAND, without a miss (R38, R39). -/
def State.closeByCommand (s : State) (h : HeadNo) : State :=
  if (s.openScan h).isSome then s.closeAnswer h (.absent .command) else s

/-- ISOLATE (R38). -/
def headIsolateAction (h : HeadNo) (s : State) : Verdict :=
  match (s.head h).state with
  | .active =>
    .taken ((s.closeByCommand h).moveHead h { s.head h with state := .isolated .command, clearing := none }) []
  | .clearing => .taken (s.moveHead h { s.head h with state := .isolated .command, clearing := none }) []
  | _ => .refused .invalidCombination

/-- DISABLE (R39). -/
def headDisableAction (h : HeadNo) (s : State) : Verdict :=
  let x := { s.head h with state := .disabled, clearing := none, misses := 0, window := false }
  match (s.head h).state with
  | .disabled => .taken s []
  | .active => .taken ((s.closeByCommand h).moveHead h x) []
  | _ => .taken (s.moveHead h x) []

/-- TEST_SOURCE ON and OFF (R54). -/
def testSourceAction (on : Bool) (h : HeadNo) (s : State) : Verdict :=
  .taken (s.setHead h { s.head h with testSource := on }) []

def execHeadInit (s : State) : Host.Outcome State Fault Refusal :=
  act (takeCommand (headControlRow 0) inAny (headControlWork 0 headInitAction)) s

def execHeadRestore (s : State) : Host.Outcome State Fault Refusal :=
  act (takeCommand (headControlRow 1) inAny (headControlWork 1 headRestoreAction)) s

def execHeadIsolate (s : State) : Host.Outcome State Fault Refusal :=
  act (takeCommand (headControlRow 2) inAny (headControlWork 2 headIsolateAction)) s

def execHeadDisable (s : State) : Host.Outcome State Fault Refusal :=
  act (takeCommand (headControlRow 3) inAny (headControlWork 3 headDisableAction)) s

def execTestSourceOn (s : State) : Host.Outcome State Fault Refusal :=
  act (takeCommand (headControlRow 4) inAny (headControlWork 4 (testSourceAction true))) s

def execTestSourceOff (s : State) : Host.Outcome State Fault Refusal :=
  act (takeCommand (headControlRow 5) inAny (headControlWork 5 (testSourceAction false))) s

/-! ## SET_TEST_PROFILE (R53) -/

/-- The wires of a SET_TEST_PROFILE body after its count, eight bytes each (R187). -/
def wiresOf : List Byte → List TestWire
  | u1 :: u0 :: v1 :: v0 :: w1 :: w0 :: f1 :: f0 :: rest =>
    { centre := signedOf 2 (beNat [u1, u0]), v := beNat [v1, v0], width := beNat [w1, w0], face := beNat [f1, f0] } ::
      wiresOf rest
  | _ => []

def TestWire.inRange (w : TestWire) : Bool :=
  within (-6000) 6000 w.centre && w.v ≤ 20000 && w.width ≤ 4000 && w.face ≤ w.width

def TestWire.low (w : TestWire) : Int := w.centre - w.half

def TestWire.high (w : TestWire) : Int := w.centre + w.half

/-- No run reaches beyond the window, and the first of two ends below the start of the second (R53). -/
def profileCombines (ws : List TestWire) : Bool :=
  (ws.all fun w => -6000 ≤ w.low && w.high ≤ 6000) &&
  match ws with
  | [a, b] => a.high < b.low
  | _ => true

/-- SET_TEST_PROFILE past kind and mode (R53). -/
def setTestProfileWork (f : HostFrame) (s : State) : Verdict :=
  match f.body with
  | n :: rest =>
    if rest.length ≠ 8 * n.toNat then .refused .badLength
    else if 2 < n.toNat ∨ !(wiresOf rest).all TestWire.inRange then .refused .badValue
    else if !profileCombines (wiresOf rest) then .refused .invalidCombination
    else .taken { s with hlc := { s.hlc with profile := wiresOf rest } } []
  | [] => .refused .badLength

/-- SET_TEST_PROFILE (R53). -/
def execSetTestProfile (s : State) : Host.Outcome State Fault Refusal :=
  act (takeCommand (ofKind 0x12) inAny setTestProfileWork) s

/-! ## SET_HEAD (R5, R41) -/

/-- What SET_HEAD carries (R187). -/
structure HeadSettings where
  head : HeadNo
  calibration : Calibration
  responseWindow : Nat
  missLimit : Nat
deriving DecidableEq, Repr

/-- The form and range stages of SET_HEAD (R5, R41). -/
def parseSetHead (body : List Byte) : Except Result HeadSettings :=
  match splitFields [1, 2, 2, 1, 1, 1, 1, 2, 1] body with
  | some [h, x, z, mirror, pitch, floor, wear, window, limit] =>
    match headOf h, boolOf mirror, boolOf wear with
    | some hd, some m, some w =>
      if within (-10000) 10000 (signedOf 2 x) ∧ z ≤ 60000 ∧ (1 ≤ pitch ∧ pitch ≤ 50) ∧ floor ≤ 255 ∧
          (100 ≤ window ∧ window ≤ 5000) ∧ (1 ≤ limit ∧ limit ≤ 16) then
        .ok { head := hd, calibration := { offset := signedOf 2 x, height := z, mirrored := m, pitch, floor, wear := w },
              responseWindow := window, missLimit := limit }
      else .error .badValue
    | _, _, _ => .error .badValue
  | _ => .error .badLength

/-- SET_HEAD's effect: the calibration record of the extractor and the link settings of the controller. -/
def State.setHeadSettings (a : HeadSettings) (s : State) : State :=
  let s1 := s.setHead a.head { s.head a.head with responseWindow := a.responseWindow, missLimit := a.missLimit }
  { s1 with pxu := { s1.pxu with calibration := s1.pxu.calibration.set a.head a.calibration } }

/-- SET_HEAD (R41). -/
def execSetHead (s : State) : Host.Outcome State Fault Refusal :=
  act (takeCommand (ofKind 0x10) inStandby
    (fun f t => judged (parseSetHead f.body) State.setHeadSettings t)) s

end Sys2Proof.Machine
end

