-- ==== Sys2Proof/Machine/Motion.lean ====
section
/-! DEFINITION. The motion converter (chapter 4): channel judgement, side sums, the motion sample, and SET_MOTION. -/

namespace Sys2Proof.Machine

/-- What a channel gives one sample: its state after its code was judged, its value when usable, whether that value
was held, and whether it failed on this code. -/
structure Judged where
  channel : Channel
  value : Option Int
  held : Bool
  failed : Bool
deriving DecidableEq, Repr

/-- R59: the displacement of an in-range code, in tenths. -/
def displacement (cfg : ChannelConfig) (code : Nat) : Int :=
  clamp (-2000) 2000 (roundDiv (((code : Int) - cfg.zero) * cfg.scale) 1024)

/-- A channel's code is judged (R59 to R62). -/
def judgeCode (c : Channel) (code : Nat) : Judged :=
  match c.state with
  | .armed =>
    if c.config.low ≤ code ∧ code ≤ c.config.high then
      let d := displacement c.config code
      { channel := { c with last := some d, count := 0 }, value := some d, held := false, failed := false }
    else if c.count + 1 < 16 then
      { channel := { c with count := c.count + 1 }, value := some (c.last.getD 0), held := true, failed := false }
    else
      { channel := { c with count := c.count + 1, state := .failed }, value := none, held := false, failed := true }
  | _ => { channel := c, value := none, held := false, failed := false }

/-- A side sum (R63): `none` when the side is lost. -/
def sideSum : Option Int → Option Int → Option Int
  | some a, some b => some (a + b)
  | some a, none => some (2 * a)
  | none, some b => some (2 * b)
  | none, none => none

/-- Roll, rise and flags from the side sums and the transducer spacing (R64). -/
def motionSample (spacing : Nat) (sa sb : Option Int) (held : Bool) : MotionSample :=
  match sa, sb with
  | some a, some b =>
    { roll := roundDiv ((a - b) * 32768) spacing, rise := roundDiv (a + b) 4,
      flags := { rollLost := false, riseLost := false, held } }
  | some a, none => { roll := 0, rise := roundDiv a 2, flags := { rollLost := true, riseLost := false, held } }
  | none, some b => { roll := 0, rise := roundDiv b 2, flags := { rollLost := true, riseLost := false, held } }
  | none, none => { roll := 0, rise := 0, flags := { rollLost := true, riseLost := true, held } }

/-- The codes of one sequence judged, in the order A1, B1, A2, B2 (R58). -/
def judgeAll (chs : Vector Channel 4) (codes : Vector Nat 4) : Vector Judged 4 :=
  #v[judgeCode chs[0] codes[0], judgeCode chs[1] codes[1], judgeCode chs[2] codes[2], judgeCode chs[3] codes[3]]

/-- The sample of one sequence, from the channels as they stand after judgement (R63, R64). -/
def sampleOf (spacing : Nat) (j : Vector Judged 4) : MotionSample :=
  motionSample spacing (sideSum j[0].value j[2].value) (sideSum j[1].value j[3].value)
    (j[0].held || j[1].held || j[2].held || j[3].held)

/-- The MOTION_CHANNEL_FAILED events of one sequence, in channel order (R58, R61). -/
def failures (j : Vector Judged 4) : List Report :=
  (heads4.filter fun k => (j[k]).failed).map fun k => .event (.motionChannelFailed k)

/-- The sample is written into the place of scan `n`'s record (R65). -/
def deliver (n : Nat) (sample : MotionSample) (scans : List ScanRecord) : List ScanRecord :=
  scans.map fun r => if r.header.scan = n then { r with motion := some sample } else r

/-- The oldest conversion sequence in flight ends with these codes (R58); nothing when none is in flight. -/
def State.motionEnd (s : State) (codes : Vector Nat 4) : State :=
  match s.mcv.sequences with
  | [] => s
  | n :: rest =>
    let j := judgeAll s.mcv.channels codes
    let s1 := { s with mcv := { s.mcv with channels := map4 Judged.channel j, sequences := rest } }
    let s2 := s1.offerAll (failures j)
    { s2 with hlc := { s2.hlc with scans := deliver n (sampleOf s.mcv.spacing j) s2.hlc.scans } }.complete

/-- A channel re-armed by its enable (R57, R62, R66). -/
def Channel.rearm (c : Channel) : Channel :=
  { c with state := if c.config.enable then .armed else .off, last := none, count := 0 }

/-- START_RUN's effect on a channel (R60, R66): the count of an ARMED channel is set to 0. -/
def Channel.startRun (c : Channel) : Channel := if c.state = .armed then { c with count := 0 } else c

/-- What SET_MOTION carries (R187). -/
structure MotionConfig where
  channels : Vector ChannelConfig 4
  spacing : Nat
  rollCentre : Nat
deriving DecidableEq, Repr

/-- One channel's fields, in range (R57). -/
def channelOf (enable zeroCode scale low high : Nat) : Option ChannelConfig :=
  match boolOf enable with
  | some e =>
    if zeroCode ≤ 4095 ∧ (1 ≤ scale ∧ scale ≤ 4096) ∧ low ≤ 4095 ∧ high ≤ 4095 then
      some { enable := e, zero := zeroCode, scale, low, high }
    else none
  | none => none

/-- The stages of SET_MOTION: form, ranges, then each channel's limits (R57, R6). -/
def parseMotion (body : List Byte) : Except Result MotionConfig :=
  match splitFields [1, 2, 2, 2, 2, 1, 2, 2, 2, 2, 1, 2, 2, 2, 2, 1, 2, 2, 2, 2, 2, 2] body with
  | some [e1, z1, s1, l1, h1, e2, z2, s2, l2, h2, e3, z3, s3, l3, h3, e4, z4, s4, l4, h4, t, zr] =>
    match channelOf e1 z1 s1 l1 h1, channelOf e2 z2 s2 l2 h2, channelOf e3 z3 s3 l3 h3, channelOf e4 z4 s4 l4 h4 with
    | some a1, some b1, some a2, some b2 =>
      if (5000 ≤ t ∧ t ≤ 40000) ∧ zr ≤ 40000 then
        if a1.low < a1.high ∧ b1.low < b1.high ∧ a2.low < a2.high ∧ b2.low < b2.high then
          .ok { channels := #v[a1, b1, a2, b2], spacing := t, rollCentre := zr }
        else .error .invalidCombination
      else .error .badValue
    | _, _, _, _ => .error .badValue
  | _ => .error .badLength

/-- A channel takes new settings and is set afresh (R57). -/
def Channel.configure (cfg : ChannelConfig) (c : Channel) : Channel := { c with config := cfg }.rearm

/-- SET_MOTION's effect (R57). -/
def State.setMotionConfig (a : MotionConfig) (s : State) : State :=
  let chs := s.mcv.channels
  { s with mcv := { s.mcv with
      channels := #v[chs[0].configure a.channels[0], chs[1].configure a.channels[1], chs[2].configure a.channels[2],
                     chs[3].configure a.channels[3]]
      spacing := a.spacing
      rollCentre := a.rollCentre } }

/-- SET_MOTION (R57). -/
def execSetMotion (s : State) : Host.Outcome State Fault Refusal :=
  act (takeCommand (ofKind 0x13) inStandby (fun f t => judged (parseMotion f.body) State.setMotionConfig t)) s

/-- MOTION_SEQUENCE_END (R58). -/
def execMotionSequenceEnd (a1 b1 a2 b2 : Code) (s : State) : Host.Outcome State Fault Refusal :=
  act (fun t => t.motionEnd #v[a1.toNat, b1.toNat, a2.toNat, b2.toNat]) s

end Sys2Proof.Machine
end

