-- ==== Sys2Proof/Machine/Sections.lean ====
section
/-! DEFINITION. The section unit (chapter 8): activation at an acceptance, and the commands that load the route. -/

namespace Sys2Proof.Machine

/-- The section id in force (R127). -/
def Scu.inForce (u : Scu) : Design :=
  match u.cache with
  | some sec => sec.design
  | none => u.default

/-- Skipping (R129): the descriptors at the head whose end has been reached, and the queue that is left. -/
def skipReached (dir : Dir) (c : Int) : List RouteSection → List RouteSection × List RouteSection
  | [] => ([], [])
  | sec :: rest =>
    if dir.reached c sec.stop then
      let r := skipReached dir c rest
      (sec :: r.1, r.2)
    else ([], sec :: rest)

/-- The chainage lies within the section (R120): it has reached the start and has not reached the end. -/
def RouteSection.covers (sec : RouteSection) (dir : Dir) (c : Int) : Bool :=
  dir.reached c sec.start && !dir.reached c sec.stop

/-- Retirement (R128): the active section leaves the cache when its end has been reached. -/
def Scu.retire (u : Scu) (c : Int) : Scu :=
  match u.cache with
  | some sec => if u.dir.reached c sec.stop then { u with cache := none } else u
  | none => u

/-- Skipping and loading, with the cache DEFAULT (R129, R130). -/
def Scu.load (u : Scu) (c : Int) : Scu × List Event :=
  let r := skipReached u.dir c u.queue
  let skipped := r.1.map fun sec => Event.sectionSkipped sec.design.id
  match r.2 with
  | sec :: rest =>
    if sec.covers u.dir c then ({ u with queue := rest, cache := some sec, armed := true }, skipped)
    else ({ u with queue := sec :: rest }, skipped)
  | [] => ({ u with queue := [] }, skipped)

/-- The starvation test (R131). -/
def Scu.starve (u : Scu) (c : Int) : Scu × List Event :=
  if u.armed && u.cache.isNone && u.queue.isEmpty then ({ u with armed := false }, [.routeStarved c]) else (u, [])

/-- Activation at an accepted trigger with the header's chainage `c` (R128 to R131), with its events in order. -/
def Scu.activate (u : Scu) (c : Int) : Scu × List Event :=
  let u1 := u.retire c
  let l := match u1.cache with
    | some _ => (u1, [])
    | none => u1.load c
  let w := l.1.starve c
  (w.1, l.2 ++ w.2)

/-- RESTART and CLEAR_ROUTE empty the queue and set the cache to DEFAULT and the watch to DISARMED (R123, R135). -/
def Scu.cleared (u : Scu) : Scu := { u with queue := [], cache := none, armed := false }

/-! ## Command bodies -/

/-- The design fields that SET_DEFAULT_SECTION and APPEND_SECTION share, in the order wire type, expected minimum and
maximum, design height, band, stagger limit, minimum thickness, NEUTRAL (R187); `none` when one is outside its range of
R120. -/
def designOf (id wire lo hi height band stagger thickness neutral : Nat) : Option Design :=
  match fin8Of wire, boolOf neutral with
  | some w, some n =>
    if (1 ≤ lo ∧ lo ≤ 4) ∧ (1 ≤ hi ∧ hi ≤ 4) ∧ (30000 ≤ height ∧ height ≤ 80000) ∧ (500 ≤ band ∧ band ≤ 10000) ∧
        (500 ≤ stagger ∧ stagger ≤ 7000) ∧ thickness ≤ 250 then
      some { id, wireType := w, expectedMin := lo, expectedMax := hi, height, band, staggerLimit := stagger,
             minThickness := thickness, neutral := n }
    else none
  | _, _ => none

/-- The form and range stages of SET_DEFAULT_SECTION (R121). -/
def parseDefaultSection (body : List Byte) : Except Result Design :=
  match splitFields [1, 1, 1, 4, 2, 2, 1, 1] body with
  | some [wire, lo, hi, height, band, stagger, thickness, neutral] =>
    match designOf 0 wire lo hi height band stagger thickness neutral with
    | some d => .ok d
    | none => .error .badValue
  | _ => .error .badLength

/-- The wear table of a design's wire type is LOADED (R121, R125). -/
def State.tableLoaded (s : State) (d : Design) : Bool := (s.wru.tables[d.wireType]).isSome

/-- SET_DEFAULT_SECTION past kind and mode (R121). -/
def setDefaultSectionWork (f : HostFrame) (s : State) : Verdict :=
  match parseDefaultSection f.body with
  | .error r => .refused r
  | .ok d =>
    if d.expectedMax < d.expectedMin then .refused .invalidCombination
    else if !s.tableLoaded d then .refused .badTable
    else .taken { s with scu := { s.scu with default := d } } []

/-- CLEAR_ROUTE past kind and mode (R123). The run's direction is the chainage direction START_RUN gave (R18). -/
def clearRouteWork (f : HostFrame) (s : State) : Verdict :=
  match splitFields [1] f.body with
  | some [d] =>
    match dirOf d with
    | some dir =>
      if s.mode ≠ .standby ∧ dir ≠ s.tu.dir then .refused .invalidCombination
      else .taken { s with scu := { s.scu.cleared with dir := dir } } []
    | none => .refused .badValue
  | _ => .refused .badLength

/-- The form and range stages of APPEND_SECTION (R125). -/
def parseSection (body : List Byte) : Except Result RouteSection :=
  match splitFields [2, 4, 4, 1, 1, 1, 4, 2, 2, 1, 1] body with
  | some [id, start, stop, wire, lo, hi, height, band, stagger, thickness, neutral] =>
    match designOf id wire lo hi height band stagger thickness neutral with
    | some d =>
      if 1 ≤ id ∧ chainageOk (signedOf 4 start) ∧ chainageOk (signedOf 4 stop) then
        .ok { start := signedOf 4 start, stop := signedOf 4 stop, design := d }
      else .error .badValue
    | none => .error .badValue
  | _ => .error .badLength

/-- The combination stage of APPEND_SECTION (R125). -/
def Scu.combines (u : Scu) (sec : RouteSection) : Bool :=
  sec.start ≠ sec.stop && u.dir.reached sec.stop sec.start && sec.design.expectedMin ≤ sec.design.expectedMax &&
  !(u.queue.any fun q => q.design.id == sec.design.id) &&
  !(match u.cache with | some a => a.design.id == sec.design.id | none => false)

/-- The placement stage of APPEND_SECTION (R125). -/
def Scu.places (u : Scu) (sec : RouteSection) : Bool :=
  match u.queue.getLast?, u.cache with
  | some tail, _ => u.dir.reached sec.start tail.stop
  | none, some a => u.dir.reached sec.start a.stop
  | none, none => true

/-- APPEND_SECTION past kind and mode (R125, R126). -/
def appendSectionWork (f : HostFrame) (s : State) : Verdict :=
  match parseSection f.body with
  | .error r => .refused r
  | .ok sec =>
    if !s.scu.combines sec then .refused .invalidCombination
    else if !s.tableLoaded sec.design then .refused .badTable
    else if !s.scu.places sec then .refused .badValue
    else if 32 ≤ s.scu.queue.length then .refused .queueFull
    else .taken { s with scu := { s.scu with queue := s.scu.queue ++ [sec] } } []

/-- SET_DEFAULT_SECTION (R121). -/
def execSetDefaultSection (s : State) : Host.Outcome State Fault Refusal :=
  act (takeCommand (ofKind 0x17) inStandby setDefaultSectionWork) s

/-- CLEAR_ROUTE (R123). -/
def execClearRoute (s : State) : Host.Outcome State Fault Refusal :=
  act (takeCommand (ofKind 0x18) inAny clearRouteWork) s

/-- APPEND_SECTION (R125). -/
def execAppendSection (s : State) : Host.Outcome State Fault Refusal :=
  act (takeCommand (ofKind 0x19) inAny appendSectionWork) s

end Sys2Proof.Machine
end

