-- ==== Sys2Proof/Machine/Travel.lean ====
section
/-! DEFINITION. The travel unit (chapter 2), and the acceptance of a trigger as the one event seen by the travel unit,
the head link controller, the motion converter and the section unit (R24, R43, R44, R58, R128). -/

namespace Sys2Proof.Machine

/-- The chainage of pulse position `p` (R18). -/
def Tu.chainageOf (t : Tu) (p : Int) : Int :=
  clamp (-Config.chainageBound) Config.chainageBound (t.base + t.dir.sign * roundDiv (p * 1000) t.config.ppm)

/-- The chainage of the current p. -/
def Tu.chainage (t : Tu) : Int := t.chainageOf t.p

/-- The trigger position T_k (R20). -/
def TravelConfig.position (c : TravelConfig) (k : Nat) : Nat := ceilDiv (k * c.spacing * c.ppm) 1000

/-! ## Acceptance -/

/-- R29, the pending fix applied: the base and a held mast mark rise by the offset, and no fix is pending. DESIGN CHOICE,
unsafe: neither sum is limited to the chainage range of R1, as R18 limits only the chainages formed from p (log entry
24). -/
def Tu.applyFix (t : Tu) : Tu :=
  match t.pendingFix with
  | none => t
  | some offset => { t with base := t.base + offset, mast := t.mast.map (· + offset), pendingFix := none }

/-- The FIX mark of the header (R29): present when a fix was applied, with its jump indication. -/
def Tu.fixMark (t : Tu) : Option Bool := t.pendingFix.map fun offset => decide (t.config.fixLimit < offset.natAbs)

/-- The POSITION_FIXED event of R29. -/
def Tu.fixEvents (t : Tu) : List Report :=
  match t.pendingFix with
  | none => []
  | some offset => [.event (.positionFixed offset)]

/-- The scan header (R25, R26), built after any fix is applied. -/
def Tu.header (t : Tu) : Header :=
  let f := t.applyFix
  { scan := t.scan + 1, stamp := t.stamp, chainage := f.chainage, gap := t.gap, fix := t.fixMark, mast := f.mast }

/-- The travel unit after an acceptance (R24, R25, R29, R30). -/
def Tu.accept (t : Tu) : Tu :=
  { t.applyFix with scan := t.scan + 1, gap := 0, mast := none, accepted := countUp t.accepted }

/-- The travel unit after a trigger overrun (R24). -/
def Tu.overrun (t : Tu) : Tu := { t with overruns := countUp t.overruns, gap := countUp t.gap }

/-- R48: an acceptance closes every open answer of the scan before as NO_ANSWER, a miss. DESIGN CHOICE, unsafe: the heads
are taken from 0 to 3, and so are the events of those that become ISOLATED (R184); the manual gives no order (log entry
25). -/
def State.closePrevious (s : State) : State := heads4.foldl (fun t h => t.missAnswer h .noAnswer) s

/-- The answer a head starts a scan with (R44). -/
def Head.firstAnswer (x : Head) : Answer := if x.state = .active then .open x.responseWindow else .notAsked

/-- SCAN is sent to every ACTIVE head (R44). -/
def scanFrames (heads : Vector Head 4) (n : Nat) : List (HeadNo × List Byte) :=
  (heads4.filter fun h => (heads[h]).state == .active).map fun h => (h, scanBytes n)

/-- The head link controller opens the scan record, takes the bank pair of its parity and asks the heads (R44). -/
def Hlc.openScan (c : Hlc) (header : Header) (snapshot : Design) : Hlc :=
  { c with
    scans := c.scans ++ [{ header, snapshot, motion := none, answers := map4 Head.firstAnswer c.heads,
                           stage := .gathering }]
    pairs := setOwner c.pairs (parity header.scan) .filling
    sent := c.sent ++ scanFrames c.heads header.scan }

/-- A due trigger is accepted: the travel unit's header and counts, the closing of the previous scan's open answers,
activation and snapshot, the new scan record, and a conversion sequence (R24, R29, R44, R48, R58, R128 to R132; the
order among blocks is log entry 9). -/
def State.accept (s : State) : State :=
  let header := s.tu.header
  let s1 := { s with tu := s.tu.accept }.offerAll s.tu.fixEvents
  let s2 := s1.closePrevious
  let a := s2.scu.activate header.chainage
  let s3 := { s2 with scu := a.1 }.offerAll (a.2.map Report.event)
  { s3 with hlc := s3.hlc.openScan header s3.scu.inForce
            mcv := { s3.mcv with sequences := s3.mcv.sequences ++ [header.scan] } }

/-- The acceptance test (R43). -/
def State.accepts (s : State) : Bool :=
  (s.hlc.pairs[parity (s.tu.scan + 1)]).owner == .free && s.tu.scan < Config.lastScan

/-- A trigger falls due and is presented for acceptance (R24, R43). -/
def State.trigger (s : State) : State := if s.accepts then s.accept else { s with tu := s.tu.overrun }

/-! ## Pulses (R16, R17, R21, R27, R30) -/

/-- R16, R17: the count moves by one, and the high-water mark follows it up. -/
def Tu.pulse (t : Tu) (forward : Bool) : Tu :=
  let p := if forward then t.p + 1 else t.p - 1
  { t with p := p, high := if t.high < p then p else t.high }

/-- R27, during RUNNING: the watch after the pulse that made `old` into `t`, and its event. -/
def Tu.watchPulse (old t : Tu) : Tu × List Event :=
  match t.watch with
  | .forward =>
    if t.p < old.p ∧ t.p ≤ t.high - t.config.ppm then ({ t with watch := .reversed }, [.travelReversed t.chainage])
    else (t, [])
  | .reversed =>
    if old.high < t.p then ({ t with watch := .forward }, [.travelResumed t.chainage]) else (t, [])

/-- R21: the pulse that made `old` into `t` raised p to the next trigger position, above the high-water mark before. -/
def Tu.distanceDue (old t : Tu) : Bool :=
  t.config.mode == .distance && old.p < t.p && t.p == t.config.position t.nextTrigger &&
  old.high < t.config.position t.nextTrigger

/-- An odometer pulse (R16, R17, R21, R27). -/
def State.pulse (s : State) (toward : CarEnd) : State :=
  let t := s.tu.pulse (toward == s.pxu.leading)
  if s.mode = .running then
    let w := s.tu.watchPulse t
    let s1 := { s with tu := w.1 }.offerAll (w.2.map Report.event)
    if s.tu.distanceDue t then { s1 with tu := { s1.tu with nextTrigger := s1.tu.nextTrigger + 1 } }.trigger else s1
  else { s with tu := t }

/-- A mast pulse (R30). -/
def Tu.mastPulse (t : Tu) : Tu :=
  if t.high ≤ t.p ∧ t.mast = none then { t with mast := some t.chainage }
  else { t with mastsIgnored := countUp t.mastsIgnored }

/-- The time stamp reaches the next due time in TIME mode during RUNNING (R22). -/
def State.timeDue (s : State) : State :=
  match s.mode, s.tu.config.mode, s.tu.nextDue with
  | .running, .time, some due =>
    { s with tu := { s.tu with stamp := due, nextDue := some (due + BitVec.ofNat 32 s.tu.config.interval) } }.trigger
  | _, _, _ => s

/-- ODOMETER_PULSE (R16). -/
def execOdometerPulse (toward : CarEnd) (s : State) : Host.Outcome State Fault Refusal :=
  act (fun t => t.pulse toward) s

/-- MAST_PULSE (R30). -/
def execMastPulse (s : State) : Host.Outcome State Fault Refusal :=
  act (fun t => if t.mode = .running then { t with tu := t.tu.mastPulse } else t) s

/-- TIME_TRIGGER_DUE (R22): the event is that the time stamp has reached the due time, so the stamp stands there
(log entry 2). -/
def execTimeTriggerDue (s : State) : Host.Outcome State Fault Refusal :=
  act State.timeDue s

/-! ## The travel unit's commands -/

/-- The stages of SET_TRIGGER (R19). -/
def parseTrigger (body : List Byte) : Except Result TravelConfig :=
  match splitFields [1, 2, 2, 2, 4] body with
  | some [m, spacing, interval, ppm, limit] =>
    match triggerModeOf m with
    | some mode =>
      if (10 ≤ spacing ∧ spacing ≤ 500) ∧ (100 ≤ interval ∧ interval ≤ 50000) ∧ (100 ≤ ppm ∧ ppm ≤ 20000) ∧
          (100 ≤ limit ∧ limit ≤ 100000) then
        .ok { mode, spacing, interval, ppm, fixLimit := limit }
      else .error .badValue
    | none => .error .badValue
  | _ => .error .badLength

/-- SET_TRIGGER's effect (R19). -/
def State.setTravelConfig (a : TravelConfig) (s : State) : State := { s with tu := { s.tu with config := a } }

/-- SET_TRIGGER (R19). -/
def execSetTrigger (s : State) : Host.Outcome State Fault Refusal :=
  act (takeCommand (ofKind 0x1C) inStandby (fun f t => judged (parseTrigger f.body) State.setTravelConfig t)) s

/-- SCAN_ONCE past kind and mode (R23, R176). -/
def scanOnceWork (f : HostFrame) (s : State) : Verdict :=
  if f.body ≠ [] then .refused .badLength
  else if s.tu.config.mode ≠ .command then .refused .invalidCombination
  else .taken s.trigger []

/-- SCAN_ONCE (R176). -/
def execScanOnce (s : State) : Host.Outcome State Fault Refusal :=
  act (takeCommand (ofKind 0x22) inRunning scanOnceWork) s

/-- The offset a POSITION_FIX of chainage `c` has (R28). -/
def Tu.fixOffset (t : Tu) (c : Int) : Int := c - t.chainage

/-- POSITION_FIX past kind and mode (R28). -/
def positionFixWork (f : HostFrame) (s : State) : Verdict :=
  match splitFields [4] f.body with
  | some [v] =>
    let c := signedOf 4 v
    if !chainageOk c then .refused .badValue
    else if !chainageOk (s.tu.fixOffset c) then .refused .invalidCombination
    else .taken { s with tu := { s.tu with pendingFix := some (s.tu.fixOffset c) } } []
  | _ => .refused .badLength

/-- POSITION_FIX (R28). -/
def execPositionFix (s : State) : Host.Outcome State Fault Refusal :=
  act (takeCommand (ofKind 0x23) inRunning positionFixWork) s

end Sys2Proof.Machine
end

