-- ==== Sys2Proof/Machine/Extraction.lean ====
section
/-! DEFINITION. The profile extractor (chapters 1 and 5): the point transform, clustering, acceptance, faces, the caps
and merging; the rows that take a scan and hand its list on; SET_EXTRACT. -/

namespace Sys2Proof.Machine

/-! ## The transform (R8 to R13) -/

/-- The sign e of the leading end (R7). -/
def leadSign : CarEnd → Int
  | .end1 => 1
  | .end2 => -1

/-- R8: the point in the car frame. -/
def carFrame (cal : Calibration) (p : Point) : Int × Int :=
  (cal.offset + (if cal.mirrored then -p.u else p.u), (cal.height : Int) + p.v)

/-- R10: the body correction, from the car-frame coordinates. -/
def bodyCorrect (m : MotionSample) (rollCentre : Nat) (c : Int × Int) : Int × Int :=
  (c.1 - roundDiv (m.roll * (c.2 - rollCentre)) 65536, c.2 + m.rise + roundDiv (m.roll * c.1) 65536)

/-- R8 to R11: the point in the track frame, stagger first. -/
def trackFrame (cal : Calibration) (m : MotionSample) (rollCentre : Nat) (leading : CarEnd) (p : Point) : Int × Int :=
  let b := bodyCorrect m rollCentre (carFrame cal p)
  (leadSign leading * b.1, b.2)

/-- R13: the reportable frame. -/
def inFrame (c : Int × Int) : Bool := within (-7000) 7000 c.1 && within 0 99999 c.2

/-- The points of one answer above the noise floor, transformed, with their indices (R12, R69). -/
def transformed (cal : Calibration) (m : MotionSample) (rollCentre : Nat) (leading : CarEnd) :
    Nat → List Point → List TrackPoint
  | _, [] => []
  | i, p :: rest =>
    if p.intensity < cal.floor then transformed cal m rollCentre leading (i + 1) rest
    else
      let c := trackFrame cal m rollCentre leading p
      { index := i, x := c.1, z := c.2, intensity := p.intensity } ::
        transformed cal m rollCentre leading (i + 1) rest

/-! ## Clusters (R70 to R75) -/

/-- R70: whether a point joins the cluster of the point immediately before it. -/
def joins (set : ExtractSettings) (a b : TrackPoint) : Bool :=
  (b.x - a.x).natAbs ≤ set.gapX && (b.z - a.z).natAbs ≤ set.gapZ

/-- R70: the clusters of one answer's points, each in sending order. -/
def clusters (set : ExtractSettings) : List TrackPoint → List (List TrackPoint)
  | [] => []
  | a :: rest =>
    match rest, clusters set rest with
    | b :: _, c :: cs => if joins set a b then (a :: c) :: cs else [a] :: c :: cs
    | _, cs => [a] :: cs

/-- R71: the figures of a cluster. -/
def clusterFirst (c : List TrackPoint) : Int := (c.head?.map (·.x)).getD 0

def clusterLast (c : List TrackPoint) : Int := (c.getLast?.map (·.x)).getD 0

def clusterLow : List TrackPoint → Int
  | [] => 0
  | a :: rest => rest.foldl (fun m p => min m p.z) a.z

def extent (pitch : Nat) (c : List TrackPoint) : Nat := (clusterLast c - clusterFirst c).natAbs + pitch

/-- What the acceptance tests make of a cluster, in their order (R72). -/
inductive Acceptance where
  | accepted
  | short
  | narrow
  | wide
  | outOfWindow
deriving DecidableEq, Repr

def acceptance (set : ExtractSettings) (pitch : Nat) (snapshot : Design) (c : List TrackPoint) : Acceptance :=
  if c.length < set.minPoints then .short
  else if extent pitch c < set.minExtent then .narrow
  else if set.maxExtent < extent pitch c then .wide
  else if clusterLow c < (snapshot.height : Int) - snapshot.band ∨ (snapshot.height : Int) + snapshot.band < clusterLow c
  then .outOfWindow
  else .accepted

/-- R74: a face point of the cluster whose lowest height is `low`. -/
def isFace (set : ExtractSettings) (low : Int) (p : TrackPoint) : Bool :=
  set.faceIntensity ≤ p.intensity && p.z ≤ low + set.faceTolerance

/-- R74: the face runs of a cluster: consecutive members that are face points and whose indices rise by one. -/
def faceRuns (set : ExtractSettings) (low : Int) : List TrackPoint → List (List TrackPoint)
  | [] => []
  | a :: rest =>
    let runs := faceRuns set low rest
    if !isFace set low a then runs
    else match rest, runs with
      | b :: _, r :: rs =>
        if isFace set low b && b.index == a.index + 1 then (a :: r) :: rs else [a] :: r :: rs
      | _, rs => [a] :: rs

/-- The first of the longest runs. -/
def longestRun : List (List TrackPoint) → List TrackPoint
  | [] => []
  | r :: rs => if r.length < (longestRun rs).length then longestRun rs else r

/-- R74: the face width of a cluster, absent without a run of two or more points. -/
def faceWidth (set : ExtractSettings) (pitch : Nat) (c : List TrackPoint) : Option Nat :=
  let r := longestRun (faceRuns set (clusterLow c) c)
  if 2 ≤ r.length then some ((clusterLast r - clusterFirst r).natAbs + pitch) else none

/-- R73, R75: the candidate of an accepted cluster; a face is sought when wear is enabled and WINDOW is clear. -/
def candidateOf (set : ExtractSettings) (h : HeadNo) (cal : Calibration) (window : Bool) (c : List TrackPoint) :
    Candidate :=
  { head := h, x := roundDiv (clusterFirst c + clusterLast c) 2, z := clusterLow c, count := c.length,
    face := if cal.wear && !window then faceWidth set cal.pitch c else none }

/-! ## Caps and merging (R76 to R80) -/

/-- R76: which of two candidates is kept before the other: the lower, then the one with more points. -/
def keptBefore (a b : Candidate) : Bool := a.z < b.z || (a.z == b.z && b.count < a.count)

/-- The elements of `l`, in their order, that are among the first `n` when sorted by `less` (stable). -/
def keepFirst {α : Type} (less : α → α → Bool) (n : Nat) (l : List α) : List α :=
  let numbered := l.zipIdx
  let kept := ((sortBy (fun a b => less a.1 b.1) numbered).take n).map (·.2)
  (numbered.filter fun a => kept.contains a.2).map (·.1)

/-- R76: the per-head cap. -/
def headCap (cs : List Candidate) : List Candidate := if cs.length ≤ 6 then cs else keepFirst keptBefore 6 cs

/-- R78: a candidate joins the current group. -/
def joinsGroup (set : ExtractSettings) (members : List Candidate) (c : Candidate) : Bool :=
  match members with
  | [] => false
  | first :: _ =>
    !(members.any fun m => m.head == c.head) && (c.x - first.x).natAbs ≤ set.mergeX &&
    (c.z - first.z).natAbs ≤ set.mergeZ

/-- R78: the groups of the sequence, each with its members in order; `current` is the group opened last. -/
def groupsFrom (set : ExtractSettings) (current : List Candidate) : List Candidate → List (List Candidate)
  | [] => [current]
  | c :: rest =>
    if joinsGroup set current c then groupsFrom set (current ++ [c]) rest else current :: groupsFrom set [c] rest

def groups (set : ExtractSettings) : List Candidate → List (List Candidate)
  | [] => []
  | c :: rest => groupsFrom set [c] rest

/-- The larger of two faces, an absent one not lowering a present one (R79). -/
def maxFace : Option Nat → Option Nat → Option Nat
  | some a, some b => some (max a b)
  | some a, none => some a
  | none, b => b

/-- R79: the values of a group. -/
def groupOf (members : List Candidate) : Group :=
  { x := roundDiv (members.map (·.x)).sum members.length
    z := roundDiv (members.map (·.z)).sum members.length
    face := (members.map (·.face)).foldl maxFace none
    merged := 2 ≤ members.length }

/-- R80: the scan cap, which drops the highest, and of equals the one opened later. -/
def scanCap (gs : List Group) : List Group :=
  if gs.length ≤ 12 then gs else keepFirst (fun a b => a.z < b.z) 12 gs

/-! ## One scan -/

/-- What one head's answer gives: its kept candidates, and the counts it adds. -/
structure HeadYield where
  candidates : List Candidate
  outOfFrame : Nat
  verdicts : List Acceptance
  dropped : Nat
deriving DecidableEq, Repr

/-- One present answer, from its points to its capped candidates (R69 to R76). -/
def headYield (x : Pxu) (rollCentre : Nat) (m : MotionSample) (snapshot : Design) (h : HeadNo) (window : Bool)
    (points : List Point) : HeadYield :=
  let cal := x.calibration[h]
  let all := transformed cal m rollCentre x.leading 0 points
  let kept := all.filter fun p => inFrame (p.x, p.z)
  let cls := clusters x.settings kept
  let judge := acceptance x.settings cal.pitch snapshot
  let cands := (cls.filter fun c => judge c == .accepted).map (candidateOf x.settings h cal window)
  let capped := headCap cands
  { candidates := capped, outOfFrame := all.length - kept.length, verdicts := cls.map judge,
    dropped := cands.length - capped.length }

/-- The answers of a record that are present, in increasing head number, with their points (R2, R51). -/
def presentAnswers (r : ScanRecord) (pair : BankPair) : List (HeadNo × Bool × List Point) :=
  heads4.filterMap fun h =>
    match r.answers[h] with
    | .present window => some (h, window, (pair.banks[h]).points)
    | _ => none

/-- The sequence of R77: all kept candidates by increasing x, then head number, then order of formation. -/
def sequenceOf (ys : List HeadYield) : List Candidate :=
  sortBy (fun a b => a.x < b.x) (ys.flatMap (·.candidates))

/-- The counts one scan adds to the run counters (R13, R72, R76, R80). -/
def ExtractCounters.add (c : ExtractCounters) (ys : List HeadYield) (groupsDropped : Nat) : ExtractCounters :=
  let tally (a : Acceptance) := (ys.map fun y => y.verdicts.count a).sum
  { outOfFrame := countBy c.outOfFrame (ys.map (·.outOfFrame)).sum
    short := countBy c.short (tally .short)
    narrow := countBy c.narrow (tally .narrow)
    wide := countBy c.wide (tally .wide)
    outOfWindow := countBy c.outOfWindow (tally .outOfWindow)
    dropped := countBy c.dropped ((ys.map (·.dropped)).sum + groupsDropped) }

/-- The extraction of one complete scan with its motion sample (R68 to R80). -/
def extract (x : Pxu) (rollCentre : Nat) (r : ScanRecord) (m : MotionSample) (pair : BankPair) : Pxu :=
  let ys := (presentAnswers r pair).map fun a => headYield x rollCentre m r.snapshot a.1 a.2.1 a.2.2
  let all := (groups x.settings (sequenceOf ys)).map groupOf
  let kept := scanCap all
  { x with
    current := some { header := r.header, snapshot := r.snapshot, flags := m.flags, blind := r.blind, groups := kept }
    counters := x.counters.add ys (all.length - kept.length) }

/-- The first complete scan record, marked as taken by the extractor. -/
def takeComplete : List ScanRecord → List ScanRecord
  | [] => []
  | r :: rest => if r.stage = .complete then { r with stage := .taken } :: rest else r :: takeComplete rest

/-- The extractor takes the next complete scan, once it has handed the last one on (R68). The whole extraction is
made at the taking and the list handed on at the hand-over (log entry 10). -/
def State.extractNext (s : State) : State :=
  match s.pxu.current, s.hlc.scans.find? (fun r => r.stage == .complete) with
  | none, some r =>
    match r.motion with
    | some m =>
      { s with pxu := extract s.pxu s.mcv.rollCentre r m s.hlc.pairs[parity r.header.scan]
               hlc := { s.hlc with scans := takeComplete s.hlc.scans } }
    | none => s
  | _, _ => s

/-- The candidate list is handed to the tracker (R81). -/
def State.handOver (s : State) : State :=
  match s.pxu.current with
  | some scan =>
    { s with pxu := { s.pxu with current := none }, wtr := { s.wtr with inbox := s.wtr.inbox ++ [scan] } }
  | none => s

/-- SCAN_EXTRACTION (R68). -/
def execScanExtraction (s : State) : Host.Outcome State Fault Refusal := act State.extractNext s

/-- CANDIDATE_LIST_HANDOVER (R81). -/
def execCandidateListHandover (s : State) : Host.Outcome State Fault Refusal := act State.handOver s

/-! ## SET_EXTRACT (R67) -/

/-- The stages of SET_EXTRACT. -/
def parseExtract (body : List Byte) : Except Result ExtractSettings :=
  match splitFields [2, 2, 2, 2, 2, 2, 2, 2, 2] body with
  | some [gc, gv, n, wmin, wmax, fi, ft, dm, dz] =>
    if (1 ≤ gc ∧ gc ≤ 500) ∧ (1 ≤ gv ∧ gv ≤ 500) ∧ (2 ≤ n ∧ n ≤ 32) ∧ (10 ≤ wmin ∧ wmin ≤ 2000) ∧
        (10 ≤ wmax ∧ wmax ≤ 2000) ∧ fi ≤ 255 ∧ ft ≤ 200 ∧ dm ≤ 500 ∧ dz ≤ 1000 then
      if wmin < wmax then
        .ok { gapX := gc, gapZ := gv, minPoints := n, minExtent := wmin, maxExtent := wmax, faceIntensity := fi,
              faceTolerance := ft, mergeX := dm, mergeZ := dz }
      else .error .invalidCombination
    else .error .badValue
  | _ => .error .badLength

def State.setExtractSettings (a : ExtractSettings) (s : State) : State :=
  { s with pxu := { s.pxu with settings := a } }

/-- SET_EXTRACT (R67). -/
def execSetExtract (s : State) : Host.Outcome State Fault Refusal :=
  act (takeCommand (ofKind 0x14) inStandby (fun f t => judged (parseExtract f.body) State.setExtractSettings t)) s

end Sys2Proof.Machine
end

