-- ==== Sys2Proof/Machine/Tracker.lean ====
section
/-! DEFINITION. The wire tracker (chapter 6): association, moves, births, roles, samples, the wire-count watch, the
end of a run; TRACK_SCAN and SET_TRACKER. -/

namespace Sys2Proof.Machine

/-- The track of a slot that is not EMPTY. -/
def Slot.track? : Slot → Option Seen
  | .empty => none
  | .tentative t _ => some t
  | .confirmed t _ => some t
  | .coasting t _ _ => some t

def Slot.isEmpty (s : Slot) : Bool := s.track?.isNone

/-- CONFIRMED or COASTING: the tracks the watch counts (R103). -/
def Slot.established : Slot → Bool
  | .confirmed _ _ => true
  | .coasting _ _ _ => true
  | _ => false

/-- The misses of a COASTING slot. -/
def Slot.coastMisses : Slot → Option Nat
  | .coasting _ m _ => some m
  | _ => none

/-! ## Association (R89 to R91) -/

/-- The lateral and vertical distance of a candidate from a track's last position. -/
def apart (g : Group) (t : Seen) : Nat × Nat := ((g.x - t.x).natAbs, (g.z - t.z).natAbs)

/-- R89: the distances of an eligible slot, `none` when it is not eligible. `taken` are the slots associated so far. -/
def eligible (set : TrackerSettings) (table : Vector Slot 8) (taken : List (Fin 8)) (g : Group) (k : Fin 8) :
    Option (Nat × Nat) :=
  match (table[k]).track? with
  | none => none
  | some t =>
    if taken.contains k then none
    else if (apart g t).1 ≤ set.gateX ∧ (apart g t).2 ≤ set.gateZ then some (apart g t) else none

/-- The first distances are strictly nearer (R90). -/
def nearer (a b : Nat × Nat) : Bool := a.1 < b.1 || (a.1 == b.1 && a.2 < b.2)

/-- R90: the nearest eligible slot, the lowest among equals. -/
def nearest (set : TrackerSettings) (table : Vector Slot 8) (taken : List (Fin 8)) (g : Group) : Option (Fin 8) :=
  (slots8.foldl (fun (best : Option (Fin 8 × Nat × Nat)) k =>
    match eligible set table taken g k, best with
    | none, _ => best
    | some d, none => some (k, d)
    | some d, some (k', d') => if nearer d d' then some (k, d) else some (k', d')) none).map (·.1)

/-- R90: every candidate in list order with the slot it is associated with. -/
def associate (set : TrackerSettings) (table : Vector Slot 8) :
    List (Fin 8) → List Group → List (Group × Option (Fin 8))
  | _, [] => []
  | taken, g :: rest =>
    match nearest set table taken g with
    | some k => (g, some k) :: associate set table (k :: taken) rest
    | none => (g, none) :: associate set table taken rest

/-- The candidate a slot is associated with. -/
def candidateAt (pairs : List (Group × Option (Fin 8))) (k : Fin 8) : Option Group :=
  (pairs.find? fun a => a.2 == some k).map (·.1)

/-! ## State moves (R91 to R95) -/

/-- R91, R95: the track after its candidate of the scan, or without one, with its age raised. -/
def Seen.look (t : Seen) : Option Group → Seen
  | some g => { t with x := g.x, z := g.z, face := g.face, age := countUp t.age }
  | none => { t with age := countUp t.age }

/-- The move of one slot (R92 to R95), and the LOST notice it may give. A track that becomes CONFIRMED takes its role
by R100 in the same scan; until then it stands here as RUNNING. -/
def moveSlot (set : TrackerSettings) (k : Fin 8) (g : Option Group) (s : Slot) : Slot × Option Notice :=
  match s, g with
  | .empty, _ => (.empty, none)
  | .tentative t hits, some c =>
    if set.confirm ≤ hits + 1 then (.confirmed (t.look (some c)) .running, none)
    else (.tentative (t.look (some c)) (hits + 1), none)
  | .tentative _ _, none => (.empty, none)
  | .confirmed t role, some c => (.confirmed (t.look (some c)) role, none)
  | .confirmed t role, none =>
    if set.coast ≤ 1 then (.empty, some { slot := k, id := t.id, reason := .lost })
    else (.coasting (t.look none) 1 role, none)
  | .coasting t _ role, some c => (.confirmed (t.look (some c)) role, none)
  | .coasting t misses role, none =>
    if set.coast ≤ misses + 1 then (.empty, some { slot := k, id := t.id, reason := .lost })
    else (.coasting (t.look none) (misses + 1) role, none)

/-- The moves of every slot, in increasing slot order (R87 stage 2), with the LOST notices in that order (R99). -/
def moveAll (set : TrackerSettings) (pairs : List (Group × Option (Fin 8))) (table : Vector Slot 8) :
    Vector Slot 8 × List Notice :=
  let moved := map8 (fun k s => moveSlot set k (candidateAt pairs k) s) table
  (map8 (fun _ m => m.1) moved, slots8.filterMap fun k => (moved[k]).2)

/-! ## Births (R86, R96 to R98) -/

/-- The value after a track id, wrapping from 65535 to 1 (R86). -/
def nextTrackId (v : Nat) : Nat := if v < 65535 then v + 1 else 1

/-- The ids of the non-EMPTY slots. -/
def heldIds (table : Vector Slot 8) : List Nat := slots8.filterMap fun k => (table[k]).track?.map (·.id)

/-- R86 step 1: the first value from `v` on that no non-EMPTY slot holds. -/
def freeTrackId (held : List Nat) : Nat → Nat → Nat
  | 0, v => v
  | fuel + 1, v => if held.contains v then freeTrackId held fuel (nextTrackId v) else v

/-- R96: the lowest EMPTY slot. -/
def lowestEmpty (table : Vector Slot 8) : Option (Fin 8) := slots8.find? fun k => (table[k]).isEmpty

/-- R97: the COASTING slot with the greatest misses, the lowest among equals. -/
def worstCoasting (table : Vector Slot 8) : Option (Fin 8) :=
  (slots8.foldl (fun (best : Option (Fin 8 × Nat)) k =>
    match (table[k]).coastMisses, best with
    | none, _ => best
    | some m, none => some (k, m)
    | some m, some (k', m') => if m' < m then some (k, m) else some (k', m')) none).map (·.1)

/-- The tracker's table during the births of one scan. -/
structure Births where
  table : Vector Slot 8
  nextId : Nat
  notices : List Notice
  full : Nat
deriving DecidableEq, Repr

/-- R96: a track is born into slot `k`, which is EMPTY. DESIGN CHOICE, unsafe: by the steps of R86 its id may be that of a
track that ended in the same scan, once the counter has wrapped onto it; R99 remarks that a set's notices and samples
never share an id (log entry 26). So it may be that of an ended track still on the span unit's retain list, though R148
remarks that the entries of a span record never share one (log entry 27). -/
def Births.bear (set : TrackerSettings) (b : Births) (k : Fin 8) (g : Group) : Births :=
  let id := freeTrackId (heldIds b.table) 8 b.nextId
  let t : Seen := { id, x := g.x, z := g.z, face := g.face, age := 1 }
  { b with table := b.table.set k (if set.confirm ≤ 1 then .confirmed t .running else .tentative t 1)
           nextId := nextTrackId id }

/-- R97: slot `k`'s COASTING track ends with a REPLACED notice. -/
def Births.replace (b : Births) (k : Fin 8) : Births :=
  { b with table := b.table.set k .empty
           notices := b.notices ++ ((b.table[k]).track?.map fun t =>
             ({ slot := k, id := t.id, reason := .replaced } : Notice)).toList }

/-- One unassociated candidate (R96 to R98), and the slot it is born into. -/
def birth (set : TrackerSettings) (b : Births) (g : Group) : Births × Option (Fin 8) :=
  match lowestEmpty b.table with
  | some k => (b.bear set k g, some k)
  | none =>
    match worstCoasting b.table with
    | some k => ((b.replace k).bear set k g, some k)
    | none => ({ b with full := countUp b.full }, none)

/-- R87 stage 3: births from the candidates left unassociated, in list order; the list with every candidate's slot. -/
def births (set : TrackerSettings) : Births → List (Group × Option (Fin 8)) →
    Births × List (Group × Option (Fin 8))
  | b, [] => (b, [])
  | b, (g, some k) :: rest =>
    let r := births set b rest
    (r.1, (g, some k) :: r.2)
  | b, (g, none) :: rest =>
    let n := birth set b g
    let r := births set n.1 rest
    (r.1, (g, n.2) :: r.2)

/-! ## Roles and samples (R100, R101) -/

/-- The height of a CONFIRMED slot. -/
def Slot.confirmedHeight : Slot → Option Int
  | .confirmed t _ => some t.z
  | _ => none

/-- R100: zmin, the least height over the CONFIRMED tracks associated in the scan. -/
def lowestConfirmed (table : Vector Slot 8) (pairs : List (Group × Option (Fin 8))) : Option Int :=
  (pairs.filterMap fun a => a.2.bind fun k => (table[k]).confirmedHeight).foldl
    (fun m z => some (match m with | some v => min v z | none => z)) none

/-- R100: the role of each CONFIRMED track associated in the scan; every other slot is left as it is. -/
def giveRoles (set : TrackerSettings) (pairs : List (Group × Option (Fin 8))) (table : Vector Slot 8) : Vector Slot 8 :=
  match lowestConfirmed table pairs with
  | none => table
  | some zmin => map8 (fun k s =>
      match s, candidateAt pairs k with
      | .confirmed t _, some _ => .confirmed t (if t.z ≤ zmin + set.band then .running else .raised)
      | s, _ => s) table

/-- R101: the sample of one candidate, when it is associated with a CONFIRMED track. -/
def sampleFor (flags : MotionFlags) (table : Vector Slot 8) (a : Group × Option (Fin 8)) : Option Sample :=
  match a.2 with
  | none => none
  | some k =>
    match table[k] with
    | .confirmed t role =>
      some { id := t.id, slot := k, role, x := a.1.x, z := a.1.z, face := a.1.face, thickness := none, wear := none,
             merged := a.1.merged, flags, belowTable := false, beyondTable := false }
    | _ => none

/-! ## The wire-count watch (R103, R104) -/

/-- The number of CONFIRMED and COASTING tracks. -/
def establishedCount (table : Vector Slot 8) : Nat := slots8.countP fun k => (table[k]).established

/-- One non-blind scan of the watch, with its event. -/
def watchScan (w : CountWatch) (mismatch : Nat) (snapshot : Design) (chainage : Int) (count : Nat) :
    CountWatch × List Event :=
  let inRange := snapshot.expectedMin ≤ count ∧ count ≤ snapshot.expectedMax
  let report (restored : Bool) : Event :=
    .wireCount restored count snapshot.expectedMin snapshot.expectedMax chainage
  let pending (onset : Int) : CountWatch × List Event :=
    if mismatch * 1000 ≤ (chainage - onset).natAbs then (.reported, [report false]) else (.pending onset, [])
  match w with
  | .normal => if inRange then (.normal, []) else pending chainage
  | .pending onset => if inRange then (.normal, []) else pending onset
  | .reported => if inRange then (.normal, [report true]) else (.reported, [])

/-! ## One scan (R87, R88, R102) -/

/-- The sample set a tracked scan gives. -/
def setOf (scan : HandedScan) (notices : List Notice) (samples : List Sample) : SampleSet :=
  { header := scan.header, snapshot := scan.snapshot, blind := scan.blind, runEnd := false, notices, samples }

/-- The tracker's whole update for a scan with a present answer: table, counter and watch, the set and the events. -/
def Wtr.trackSeen (w : Wtr) (scan : HandedScan) : Wtr × SampleSet × List Event :=
  let pairs := associate w.settings w.table [] scan.groups
  let moved := moveAll w.settings pairs w.table
  let born := births w.settings { table := moved.1, nextId := w.nextId, notices := moved.2, full := w.tableFull } pairs
  let table := giveRoles w.settings born.2 born.1.table
  let watch := watchScan w.watch w.settings.mismatch scan.snapshot scan.header.chainage (establishedCount table)
  ({ w with table, nextId := born.1.nextId, tableFull := born.1.full, watch := watch.1 },
   setOf scan born.1.notices (born.2.filterMap (sampleFor scan.flags table)), watch.2)

/-- The tracker's update for any scan: a blind one leaves table, counter and watch untouched (R88). -/
def Wtr.track (w : Wtr) (scan : HandedScan) : Wtr × SampleSet × List Event :=
  if scan.blind then (w, setOf scan [] [], []) else w.trackSeen scan

/-- The tracker takes the next handed-on scan in one whole update and hands its set to the wear unit (R87, R102). -/
def State.trackNext (s : State) : State :=
  match s.wtr.inbox with
  | [] => s
  | scan :: rest =>
    let r := s.wtr.track scan
    { s with wtr := { r.1 with
        inbox := rest
        outbox := r.1.outbox ++ [r.2.1]
        lastScan := scan.header.scan
        lastTaken := some (scan.header, scan.snapshot) } }.offerAll (r.2.2.map Report.event)

/-- TRACK_SCAN (R87). -/
def execTrackScan (s : State) : Host.Outcome State Fault Refusal := act State.trackNext s

/-! ## The end of a run (R105, R178) -/

/-- R105: the RUN_END notices, in increasing slot order. -/
def runEndNotices (table : Vector Slot 8) : List Notice :=
  slots8.filterMap fun k =>
    if (table[k]).established then
      (table[k]).track?.map fun t => { slot := k, id := t.id, reason := .runEnd }
    else none

/-- R105: the header and snapshot of the end-of-run set. The base is the run's start chainage when no scan was
accepted, since only an acceptance moves it (R29). -/
def State.runEndSource (s : State) : Header × Design :=
  s.wtr.lastTaken.getD
    ({ scan := 0, stamp := s.tu.stamp, chainage := s.tu.base, gap := 0, fix := none, mast := none }, s.scu.default)

/-- R105: the end-of-run set. -/
def State.runEndSet (s : State) : SampleSet :=
  { header := s.runEndSource.1, snapshot := s.runEndSource.2, blind := false, runEnd := true,
    notices := runEndNotices s.wtr.table, samples := [] }

/-- The closing work begins with the tracker's end of run (R105, R178). -/
def State.beginClosing (s : State) : State :=
  { s with
    closing := true
    wtr := { s.wtr with table := Vector.replicate 8 .empty, watch := .normal,
                        outbox := s.wtr.outbox ++ [s.runEndSet] } }

/-- The closing work begins when the mode is STOPPING, no scan record remains and it has not begun (R178). -/
def State.closeIfDue (s : State) : State :=
  if s.mode = .stopping ∧ s.hlc.scans = [] ∧ s.closing = false then s.beginClosing else s

/-- CLOSING_WORK (R178). -/
def execClosingWork (s : State) : Host.Outcome State Fault Refusal := act State.closeIfDue s

/-! ## SET_TRACKER (R84) -/

def parseTracker (body : List Byte) : Except Result TrackerSettings :=
  match splitFields [2, 2, 1, 1, 2, 2] body with
  | some [gx, gz, nc, nd, h, d] =>
    if (1 ≤ gx ∧ gx ≤ 1000) ∧ (1 ≤ gz ∧ gz ≤ 2000) ∧ (1 ≤ nc ∧ nc ≤ 8) ∧ (1 ≤ nd ∧ nd ≤ 64) ∧ h ≤ 5000 ∧ d ≤ 1000 then
      .ok { gateX := gx, gateZ := gz, confirm := nc, coast := nd, band := h, mismatch := d }
    else .error .badValue
  | _ => .error .badLength

def State.setTrackerSettings (a : TrackerSettings) (s : State) : State :=
  { s with wtr := { s.wtr with settings := a } }

/-- SET_TRACKER (R84). -/
def execSetTracker (s : State) : Host.Outcome State Fault Refusal :=
  act (takeCommand (ofKind 0x15) inStandby (fun f t => judged (parseTracker f.body) State.setTrackerSettings t)) s

end Sys2Proof.Machine
end

