-- ==== Sys2Proof/Machine/Wear.lean ====
section
/-! DEFINITION. The wear unit (chapter 7): valuing, offering, SET_WEAR_TABLE; and the trace record the host line builds
from an offered set (R183). -/

namespace Sys2Proof.Machine

/-- R113: the thickness of a face width within the table, by the segment that holds it; the last segment also holds
its end. -/
def interpolate (w : Nat) : List (Nat × Nat) → Int
  | (w0, r0) :: (w1, r1) :: rest =>
    if w < w1 ∨ rest = [] then (r0 : Int) + roundDiv (((w : Int) - w0) * ((r1 : Int) - r0)) ((w1 : Int) - w0)
    else interpolate w ((w1, r1) :: rest)
  | [(_, r)] => r
  | [] => 0

/-- What a face width gives under a table: thickness, BELOW_TABLE and BEYOND_TABLE (R113, R114). -/
def WearTable.thickness (t : WearTable) (w : Nat) : Int × Bool × Bool :=
  match t.points.head?, t.points.getLast? with
  | some (w0, r0), some (wl, rl) =>
    if w < w0 then ((r0 : Int), true, false)
    else if wl < w then ((rl : Int), false, true)
    else (interpolate w t.points, false, false)
  | _, _ => (0, false, false)

/-- R115: wear in per mille of the nominal height. -/
def WearTable.wear (t : WearTable) (r : Int) : Int := roundDiv (((t.nominal : Int) - r) * 1000) t.nominal

/-- R112: one sample valued by the table of the snapshot's wire type. -/
def valueSample (table : Option WearTable) (m : Sample) : Sample :=
  match m.face, table with
  | some w, some t =>
    let r := t.thickness w
    { m with thickness := some r.1, wear := some (t.wear r.1), belowTable := r.2.1, beyondTable := r.2.2 }
  | _, _ => { m with thickness := none, wear := none, belowTable := false, beyondTable := false }

/-- R111, R112: a set valued. A set with no samples is left as it is. -/
def Wru.value (u : Wru) (set : SampleSet) : SampleSet :=
  { set with samples := set.samples.map (valueSample u.tables[set.snapshot.wireType]) }

/-- The wear unit takes the next set from the tracker, once it holds none (R111). -/
def State.takeSet (s : State) : State :=
  match s.wru.valuing, s.wru.offered, s.wtr.outbox with
  | none, none, set :: rest =>
    { s with wru := { s.wru with valuing := some set }, wtr := { s.wtr with outbox := rest } }
  | _, _, _ => s

/-- The motion flags of a set's trace record: the same on every sample of the set (R117, R183). -/
def SampleSet.flags (set : SampleSet) : MotionFlags :=
  match set.samples with
  | m :: _ => m.flags
  | [] => { rollLost := false, riseLost := false, held := false }

/-- R183: the trace record the host line builds from an offered set, when it builds one. -/
def traceOf (decimation : Nat) (set : SampleSet) : List Report :=
  if !set.runEnd && decimation ≠ 0 && set.header.scan % decimation == 0 && !set.samples.isEmpty then
    [.trace { scan := set.header.scan, chainage := set.header.chainage, stamp := set.header.stamp,
              sectionId := set.snapshot.id, flags := set.flags, samples := set.samples }]
  else []

/-- Valuing is complete: the valued set is offered to its consumers, and the host line takes it at once (R118). -/
def State.offerSet (s : State) : State :=
  match s.wru.valuing with
  | some set =>
    let valued := s.wru.value set
    { s with wru := { s.wru with
        valuing := none
        offered := some { set := valued, spanTaken := false, limitTaken := false } } }.offerAll
      (traceOf s.hli.decimation valued)
  | none => s

/-- SET_VALUING (R111). -/
def execSetValuing (s : State) : Host.Outcome State Fault Refusal := act State.takeSet s

/-- SET_OFFER (R118). -/
def execSetOffer (s : State) : Host.Outcome State Fault Refusal := act State.offerSet s

/-! ## Taking by both consumers (R52, R118, R178) -/

/-- A scan record ends and its bank pair becomes FREE (R52). -/
def Hlc.release (c : Hlc) (scan : Nat) : Hlc :=
  { c with scans := c.scans.filter (fun r => r.header.scan ≠ scan), pairs := setOwner c.pairs (parity scan) .free }

/-- The end of the closing work (R134, R178 steps 4 to 6). -/
def State.endRun (s : State) : State :=
  { { s with scu := { s.scu with cache := none } }.event
      (.runStopped s.tu.accepted s.spu.closed s.lev.opened) with mode := .standby, closing := false }

/-- A consumer has taken the offered set; `o` says by whom it is now taken. When both have, the set is gone, and the
scan's banks are released or the run ends (R118). -/
def State.setTaken (s : State) (o : Offered) : State :=
  if o.spanTaken && o.limitTaken then
    let s1 := { s with wru := { s.wru with offered := none } }
    if o.set.runEnd then s1.endRun else { s1 with hlc := s1.hlc.release o.set.header.scan }
  else { s with wru := { s.wru with offered := some o } }

/-! ## SET_WEAR_TABLE (R109, R110) -/

/-- The breakpoints of a body, three bytes each (R187). -/
def breakpointsOf : List Byte → List (Nat × Nat)
  | w1 :: w0 :: r :: rest => (beNat [w1, w0], r.toNat) :: breakpointsOf rest
  | _ => []

/-- R109 stage 3: each width greater than the one before, each thickness not greater than the one before. -/
def descending : List (Nat × Nat) → Bool
  | a :: b :: rest => a.1 < b.1 && b.2 ≤ a.2 && descending (b :: rest)
  | _ => true

/-- The stages of SET_WEAR_TABLE (R109). -/
def parseWearTable (body : List Byte) : Except Result (Fin 8 × WearTable) :=
  match body with
  | t :: h :: n :: rest =>
    let points := breakpointsOf rest
    if rest.length ≠ 3 * n.toNat then .error .badLength
    else match fin8Of t.toNat with
      | some k =>
        if (50 ≤ h.toNat ∧ h.toNat ≤ 250) ∧ points.all (fun p => p.1 ≤ 400 && p.2 ≤ 250) then
          if (2 ≤ n.toNat ∧ n.toNat ≤ 16) ∧ descending points ∧ points.all (fun p => p.2 ≤ h.toNat) then
            .ok (k, { nominal := h.toNat, points })
          else .error .badTable
        else .error .badValue
      | none => .error .badValue
  | _ => .error .badLength

def State.loadTable (a : Fin 8 × WearTable) (s : State) : State :=
  { s with wru := { s.wru with tables := s.wru.tables.set a.1 (some a.2) } }

/-- SET_WEAR_TABLE (R109). -/
def execSetWearTable (s : State) : Host.Outcome State Fault Refusal :=
  act (takeCommand (ofKind 0x16) inStandby (fun f t => judged (parseWearTable f.body) State.loadTable t)) s

end Sys2Proof.Machine
end

