-- ==== Sys2Proof/Machine/Spans.lean ====
section
/-! DEFINITION. The span unit (chapter 9): notices, close tests, counting, folding, span records; SPAN_SET_TAKE and
SET_REPORTING. -/

namespace Sys2Proof.Machine

/-! ## Accumulators and the retain list (R144 to R147) -/

/-- The accumulator a sample starts (R145). -/
def Accumulator.first (m : Sample) (chainage : Int) : Accumulator :=
  { samples := 1, id := m.id, runningSeen := m.role = .running, minThickness := m.thickness.map (·, chainage),
    maxStagger := (m.x, chainage), minHeight := m.z, maxHeight := m.z }

/-- The held minimum thickness after a sample's (R145). -/
def minThicknessOf (held : Option (Int × Int)) (thickness : Option Int) (chainage : Int) : Option (Int × Int) :=
  match held, thickness with
  | some h, some t => if t < h.1 then some (t, chainage) else some h
  | none, some t => some (t, chainage)
  | h, none => h

/-- R145: a sample folds into an accumulator that holds samples. -/
def Accumulator.fold (a : Accumulator) (m : Sample) (chainage : Int) : Accumulator :=
  { samples := countUp a.samples, id := a.id, runningSeen := a.runningSeen || m.role = .running,
    minThickness := minThicknessOf a.minThickness m.thickness chainage,
    maxStagger := if a.maxStagger.1.natAbs < m.x.natAbs then (m.x, chainage) else a.maxStagger,
    minHeight := if m.z < a.minHeight then m.z else a.minHeight,
    maxHeight := if a.maxHeight < m.z then m.z else a.maxHeight }

/-- R145: a sample folds into its slot's accumulator. -/
def foldSample (chainage : Int) (v : Vector (Option Accumulator) 8) (m : Sample) : Vector (Option Accumulator) 8 :=
  v.set m.slot (some (match v[m.slot] with
    | some a => a.fold m chainage
    | none => Accumulator.first m chainage))

/-- The fewest samples of a list of entries. -/
def fewest : List Accumulator → Nat
  | [] => 0
  | a :: rest => rest.foldl (fun n b => min n b.samples) a.samples

/-- R147: an entry joins the retain list; from nine, the one with the fewest samples that ended first is dropped. The
second result says that one was dropped. -/
def retainEntry (l : List Accumulator) (a : Accumulator) : List Accumulator × Bool :=
  if l.length < 8 then (l ++ [a], false)
  else
    let nine := l ++ [a]
    (nine.eraseP fun b => b.samples == fewest nine, true)

/-- What a notice changes in the span unit (R146). -/
structure Applied where
  accumulators : Vector (Option Accumulator) 8
  retain : List Accumulator
  isPartial : Bool
deriving DecidableEq, Repr

/-- R146: a track-end notice is applied to its slot's accumulator. -/
def applyNotice (u : Applied) (n : Notice) : Applied :=
  match u.accumulators[n.slot] with
  | some a =>
    let r := retainEntry u.retain a
    { accumulators := u.accumulators.set n.slot none, retain := r.1, isPartial := u.isPartial || r.2 }
  | none => u

/-! ## Closing (R139 to R141, R148, R149) -/

/-- What the close tests find (R139): the reason and chainage of a close, if any, and whether a mast mark was counted
as ignored. -/
def closeTest (minSpan maxSpan : Nat) (sp : OpenSpan) (h : Header) (snapshotId : Nat) :
    Option (SpanReason × Int) × Bool :=
  if h.fix = some true then (some (.fix, h.chainage), h.mast.isSome)
  else if sp.inSection? ≠ some snapshotId then (some (.sectionChange, h.chainage), h.mast.isSome)
  else
    let byLength : Option (SpanReason × Int) :=
      if maxSpan * 1000 ≤ (h.chainage - sp.start).natAbs then some (.noMast, h.chainage) else none
    match h.mast with
    | some m => if minSpan * 1000 ≤ (m - sp.start).natAbs then (some (.mast, m), false) else (byLength, true)
    | none => (byLength, false)

/-- The entries of a span record (R148): the retain list, then the accumulators that hold samples, in slot order. DESIGN
CHOICE, unsafe: once the id counter has wrapped within the span, an entry of each may carry one track id, since R86 bars
only the ids of non-EMPTY slots; R148 remarks that an id appears at most once (log entry 27). -/
def spanEntries (retain : List Accumulator) (v : Vector (Option Accumulator) 8) : List SpanEntry :=
  retain.map (fun a => { ended := true, values := a }) ++
  slots8.filterMap fun k => (v[k]).map fun a => { ended := false, values := a }

/-- The record of the open span at its close (R148). -/
def Spu.record (u : Spu) (sp : OpenSpan) (reason : SpanReason) (stop : Int) : SpanRecord :=
  { number := sp.number, sectionId := sp.inSection?.getD 0, start := sp.start, stop, reason, scans := sp.scans,
    skipped := sp.skipped, flags := sp.flags, entries := spanEntries u.retain u.accumulators }

def SpanFlags.clear : SpanFlags :=
  { isPartial := false, blind := false, uncompensated := false, exceedanceLost := false, chainageFix := false }

/-- A span opened by a close (R140), or by START_RUN with no section id (R137). -/
def OpenSpan.fresh (number : Nat) (id : Option Nat) (start : Int) : OpenSpan :=
  { number, inSection? := id, start, scans := 0, skipped := 0, flags := SpanFlags.clear }

/-- R140 steps 2 and 4: the count of spans closed, the accumulators and the retain list after a close. -/
def Spu.emptied (u : Spu) : Spu :=
  { u with closed := countUp u.closed, accumulators := Vector.replicate 8 none, retain := [] }

/-- R138 steps 1 and 2: the open span takes a section id if it has none, and the notices are applied. -/
def Spu.prepare (u : Spu) (sp : OpenSpan) (set : SampleSet) : Spu × OpenSpan :=
  let a := set.notices.foldl applyNotice
    { accumulators := u.accumulators, retain := u.retain, isPartial := sp.flags.isPartial }
  let sp1 := { sp with
    inSection? := some (sp.inSection?.getD set.snapshot.id)
    flags := { sp.flags with isPartial := a.isPartial } }
  ({ u with accumulators := a.accumulators, retain := a.retain, span := some sp1 }, sp1)

/-- R142, R143: the open span counts a set from a scan; `lost` says that a loss was pending for the scan. -/
def OpenSpan.account (sp : OpenSpan) (set : SampleSet) (lost : Bool) : OpenSpan :=
  { sp with
    scans := countUp sp.scans
    skipped := countBy sp.skipped set.header.gap
    flags := { sp.flags with
      blind := sp.flags.blind || set.blind
      uncompensated := sp.flags.uncompensated || set.samples.any fun m => m.flags.rollLost || m.flags.riseLost
      exceedanceLost := sp.flags.exceedanceLost || lost
      chainageFix := sp.flags.chainageFix || set.header.fix == some false } }

/-- The span unit works a set from a scan (R138): its state after, the record of a close, and whether a mast mark was
ignored. -/
def Spu.workScan (u : Spu) (sp : OpenSpan) (set : SampleSet) : Spu × List Report × Bool :=
  let p := u.prepare sp set
  let t := closeTest u.minSpan u.maxSpan p.2 set.header set.snapshot.id
  let c : Spu × OpenSpan × List Report := match t.1 with
    | some (reason, stop) =>
      (p.1.emptied, OpenSpan.fresh (p.2.number + 1) (some set.snapshot.id) stop, [.span (p.1.record p.2 reason stop)])
    | none => (p.1, p.2, [])
  let sp2 := c.2.1.account set (c.1.losses.contains set.header.scan)
  ({ c.1 with
      span := some sp2
      losses := c.1.losses.filter (· ≠ set.header.scan)
      accumulators := set.samples.foldl (foldSample set.header.chainage) c.1.accumulators }, c.2.2, t.2)

/-- The span unit works the end-of-run set (R141). -/
def Spu.workRunEnd (u : Spu) (sp : OpenSpan) (set : SampleSet) : Spu × List Report :=
  let p := u.prepare sp set
  ({ p.1.emptied with span := none }, [.span (p.1.record p.2 .runEnd set.header.chainage)])

/-- The span unit works the set (R138, R141). With no open span, which no run reaches, it only takes it. -/
def State.spanWork (s : State) (set : SampleSet) : State :=
  match s.spu.span with
  | none => s
  | some sp =>
    if set.runEnd then
      let r := s.spu.workRunEnd sp set
      { s with spu := r.1 }.offerAll r.2
    else
      let r := s.spu.workScan sp set
      { s with spu := r.1
               tu := { s.tu with mastsIgnored := if r.2.2 then countUp s.tu.mastsIgnored else s.tu.mastsIgnored }
      }.offerAll r.2.1

/-- The span unit takes the offered set when it has not yet taken it (R118, R138). -/
def State.spanTake (s : State) : State :=
  match s.wru.offered with
  | some o => if o.spanTaken then s else (s.spanWork o.set).setTaken { o with spanTaken := true }
  | none => s

/-- SPAN_SET_TAKE (R138). -/
def execSpanSetTake (s : State) : Host.Outcome State Fault Refusal := act State.spanTake s

/-! ## SET_REPORTING (R136, R174) -/

/-- What SET_REPORTING carries. -/
structure Reporting where
  gates : Gates
  decimation : Nat
  minSpan : Nat
  maxSpan : Nat
deriving DecidableEq, Repr

def parseReporting (body : List Byte) : Except Result Reporting :=
  match splitFields [1, 2, 1, 1] body with
  | some [g, d, lo, hi] =>
    match gatesOf g with
    | some gates =>
      if d ≤ 1000 ∧ (5 ≤ lo ∧ lo ≤ 100) ∧ (20 ≤ hi ∧ hi ≤ 200) then
        if lo < hi then .ok { gates, decimation := d, minSpan := lo, maxSpan := hi } else .error .invalidCombination
      else .error .badValue
    | none => .error .badValue
  | _ => .error .badLength

def State.setReporting (a : Reporting) (s : State) : State :=
  { s with hli := { s.hli with gates := a.gates, decimation := a.decimation }
           spu := { s.spu with minSpan := a.minSpan, maxSpan := a.maxSpan } }

/-- SET_REPORTING (R174). -/
def execSetReporting (s : State) : Host.Outcome State Fault Refusal :=
  act (takeCommand (ofKind 0x1D) inAny (fun f t => judged (parseReporting f.body) State.setReporting t)) s

end Sys2Proof.Machine
end

