-- ==== Sys2Proof/Machine/Limits.lean ====
section
/-! DEFINITION. The limit evaluator (chapter 10): deciding, judging, opening, extending and closing exceedances;
LIMIT_SET_TAKE, SET_RULE and SET_POLICY. -/

namespace Sys2Proof.Machine

/-! ## Judging a quantity (R153 to R155) -/

/-- The five quantities in their order (R160). -/
def quantities : List Quantity := [.thickness, .wear, .stagger, .heightLow, .heightHigh]

/-- The sample's value for a quantity (R153). -/
def Sample.value (m : Sample) : Quantity → Option Int
  | .thickness => m.thickness
  | .wear => m.wear
  | .stagger => some m.x
  | .heightLow => some m.z
  | .heightHigh => some m.z

/-- R153: the value violates the threshold; every test is strict. -/
def Quantity.violates (q : Quantity) (value threshold : Int) : Bool :=
  match q with
  | .thickness => value < threshold
  | .wear => threshold < value
  | .stagger => threshold < (value.natAbs : Int)
  | .heightLow => value < threshold
  | .heightHigh => threshold < value

/-- R163: a value is strictly worse than the worst one held. -/
def Quantity.worse (q : Quantity) (value held : Int) : Bool :=
  match q with
  | .thickness => value < held
  | .wear => held < value
  | .stagger => held.natAbs < value.natAbs
  | .heightLow => value < held
  | .heightHigh => held < value

/-- R154 step 3: the rule passes a sample of the section with this role. -/
def LimitRule.passes (r : LimitRule) (q : Quantity) (sectionId : Nat) (role : Role) : Bool :=
  r.enabled && r.quantity == q && r.firstId ≤ sectionId && sectionId ≤ r.lastId &&
  (!r.runningOnly || role == .running)

/-- R154 step 3: the enabled rule of lowest index that passes, with its index. -/
def decidingRule (rules : Vector LimitRule 16) (q : Quantity) (sectionId : Nat) (role : Role) :
    Option (LimitRule × Nat) :=
  rules.toList.zipIdx.find? fun a => a.1.passes q sectionId role

/-- R155: the threshold of reference 16, `none` for the quantity it does not cover. -/
def designThreshold (d : Design) : Quantity → Option Int
  | .thickness => some d.minThickness
  | .wear => none
  | .stagger => some d.staggerLimit
  | .heightLow => some ((d.height : Int) - d.band)
  | .heightHigh => some ((d.height : Int) + d.band)

/-- What is decided for one quantity of one sample (R154, R155, R164). -/
inductive Decision where
  | absent
  | undecided
  | decided (ref : Nat) (severity : Severity) (report : Bool) (violates : Bool)
deriving DecidableEq, Repr

/-- R154, R155. An absent value is no decision at all, in a NEUTRAL section as in any other (log entry 11). -/
def Lev.decision (l : Lev) (d : Design) (m : Sample) (q : Quantity) : Decision :=
  match m.value q with
  | none => .absent
  | some v =>
    if d.neutral then .undecided
    else match decidingRule l.rules q d.id m.role with
      | some (r, i) => .decided i r.severity r.report (q.violates v r.threshold)
      | none =>
        if l.design then
          match designThreshold d q with
          | some t => .decided 16 .action true (q.violates v t)
          | none => .undecided
        else .undecided

/-! ## Opening, extending and closing (R160 to R166) -/

/-- The class of a severity is enabled (R166). -/
def Gates.severity (g : Gates) : Severity → Bool
  | .advise => g.advise
  | .action => g.action
  | .urgent => g.urgent

/-- The CLOSED record of an entry, when its gate passes (R166). -/
def closedRecord (g : Gates) (e : Exceedance) (reason : CloseReason) : List Report :=
  if e.report && g.severity e.severity then [.exceedance e (some reason)] else []

/-- The ONSET record of an entry, when its gate passes and it is URGENT (R166). -/
def onsetRecord (g : Gates) (e : Exceedance) : List Report :=
  if e.report && g.severity e.severity && e.severity == .urgent then [.exceedance e none] else []

/-- The evaluator during one set: its list and counters, the records it offers in order, and whether it lost a
violation. -/
structure Work where
  entries : List Exceedance
  opened : Nat
  overflow : Nat
  records : List Report
  lost : Bool
deriving DecidableEq, Repr

/-- R164: why an entry closes under the decision for its quantity, `none` when it stays. -/
def closeReasonOf (e : Exceedance) : Decision → Option CloseReason
  | .absent => none
  | .undecided => some .ruleChanged
  | .decided ref _ _ violates =>
    if ref ≠ e.ref then some .ruleChanged else if violates then none else some .recovered

/-- The closes of a list of entries, in list order, by `why`. -/
def closeBy (g : Gates) (why : Exceedance → Option CloseReason) (w : Work) : Work :=
  { w with
    entries := w.entries.filter fun e => (why e).isNone
    records := w.records ++ w.entries.flatMap fun e =>
      match why e with
      | some r => closedRecord g e r
      | none => [] }

/-- The entry with a key (R158). -/
def hasKey (id ref : Nat) (e : Exceedance) : Bool := e.id == id && e.ref == ref

/-- R163: an entry is extended by a violating value. -/
def Exceedance.extend (e : Exceedance) (v chainage : Int) (role : Role) : Exceedance :=
  let worse := e.quantity.worse v e.worst
  { e with
    count := countUp e.count
    last := chainage
    worst := if worse then v else e.worst
    worstAt := if worse then chainage else e.worstAt
    role := if worse then role else e.role }

/-- The first entry with the key is replaced by its extension. -/
def extendIn (id ref : Nat) (v chainage : Int) (role : Role) : List Exceedance → List Exceedance
  | [] => []
  | e :: rest => if hasKey id ref e then e.extend v chainage role :: rest else e :: extendIn id ref v chainage role rest

/-- R162: a violating value is lost. -/
def Work.lose (w : Work) : Work := { w with overflow := countUp w.overflow, lost := true }

/-- R161: an entry opens. -/
def Work.openEntry (g : Gates) (w : Work) (e : Exceedance) : Work :=
  { w with entries := w.entries ++ [e], opened := countUp w.opened, records := w.records ++ onsetRecord g e }

/-- The third stage for one quantity (R160 to R163). -/
def judgeQuantity (g : Gates) (set : SampleSet) (m : Sample) (decide : Quantity → Decision) (w : Work) (q : Quantity) :
    Work :=
  match decide q, m.value q with
  | .decided ref severity report true, some v =>
    match w.entries.find? (hasKey m.id ref) with
    | some e =>
      if e.quantity = q then { w with entries := extendIn m.id ref v set.header.chainage m.role w.entries } else w.lose
    | none =>
      if w.entries.length < 16 then
        w.openEntry g { id := m.id, ref, quantity := q, severity, report, sectionId := set.snapshot.id,
                        start := set.header.chainage, last := set.header.chainage, worst := v,
                        worstAt := set.header.chainage, role := m.role, count := 1 }
      else w.lose
  | _, _ => w

/-- One sample judged in its three stages (R160). -/
def Lev.judgeSample (l : Lev) (g : Gates) (set : SampleSet) (w : Work) (m : Sample) : Work :=
  let decide := l.decision set.snapshot m
  let closed := closeBy g (fun e => if e.id = m.id then closeReasonOf e (decide e.quantity) else none) w
  quantities.foldl (judgeQuantity g set m decide) closed

/-- R165: a track-end notice closes every entry of its track. -/
def noticeCloses (g : Gates) (w : Work) (n : Notice) : Work :=
  closeBy g (fun e => if e.id = n.id then some .trackEnded else none) w

/-- The evaluator works a set (R159, R165). -/
def Lev.work (l : Lev) (g : Gates) (set : SampleSet) : Work :=
  let w : Work := { entries := l.entries, opened := l.opened, overflow := l.overflow, records := [], lost := false }
  if set.runEnd then closeBy g (fun _ => some .runEnd) w
  else set.samples.foldl (l.judgeSample g set) (set.notices.foldl (noticeCloses g) w)

/-- R143: the loss indication for a scan reaches the span unit: at once in the open span when it has taken the set,
and as pending when it has not. -/
def Spu.loseScan (u : Spu) (spanTaken : Bool) (scan : Nat) : Spu :=
  if spanTaken then
    { u with span := u.span.map fun sp => { sp with flags := { sp.flags with exceedanceLost := true } } }
  else { u with losses := if u.losses.contains scan then u.losses else u.losses ++ [scan] }

/-- The limit evaluator works the offered set (R159). -/
def State.limitWork (s : State) (o : Offered) : State :=
  let w := s.lev.work s.hli.gates o.set
  { s with
    lev := { s.lev with entries := w.entries, opened := w.opened, overflow := w.overflow }
    spu := if w.lost then s.spu.loseScan o.spanTaken o.set.header.scan else s.spu }.offerAll w.records

/-- The limit evaluator takes the offered set when it has not yet taken it (R118, R159). -/
def State.limitTake (s : State) : State :=
  match s.wru.offered with
  | some o => if o.limitTaken then s else (s.limitWork o).setTaken { o with limitTaken := true }
  | none => s

/-- LIMIT_SET_TAKE (R159). -/
def execLimitSetTake (s : State) : Host.Outcome State Fault Refusal := act State.limitTake s

/-! ## SET_RULE (R151 to R153) and SET_POLICY (R156) -/

/-- R153: the greatest threshold of a quantity. -/
def Quantity.maxThreshold : Quantity → Nat
  | .thickness => 250
  | .wear => 1000
  | .stagger => 7000
  | .heightLow => 99999
  | .heightHigh => 99999

/-- The form and range stages of SET_RULE (R152), with the combination stage. -/
def parseRule (body : List Byte) : Except Result (Fin 16 × LimitRule) :=
  match splitFields [1, 1, 1, 2, 2, 1, 4, 1, 1, 1] body with
  | some [i, en, q, first, last, filter, threshold, sev, rep, lk] =>
    match boolOf en, quantityOf q, boolOf filter, severityOf sev, boolOf rep, boolOf lk with
    | some enabled, some quantity, some runningOnly, some severity, some report, some lock =>
      if h : i < 16 then
        if threshold ≤ quantity.maxThreshold then
          if first ≤ last then
            .ok (⟨i, h⟩, { enabled, quantity, firstId := first, lastId := last, runningOnly, threshold, severity,
                           report, lock })
          else .error .invalidCombination
        else .error .badValue
      else .error .badValue
    | _, _, _, _, _, _ => .error .badValue
  | _ => .error .badLength

/-- SET_RULE past kind and mode (R152). -/
def setRuleWork (f : HostFrame) (s : State) : Verdict :=
  match parseRule f.body with
  | .error r => .refused r
  | .ok (i, rule) =>
    if (s.lev.rules[i]).lock && !s.lev.bypass then .refused .locked
    else .taken { s with lev := { s.lev with rules := s.lev.rules.set i rule } } []

/-- The number of rules whose lock is ON (R151). -/
def Lev.lockedCount (l : Lev) : Nat := l.rules.toList.countP (·.lock)

/-- SET_POLICY past kind and mode (R156). -/
def setPolicyWork (f : HostFrame) (s : State) : Verdict :=
  match splitFields [1, 1] f.body with
  | some [p, b] =>
    match boolOf p, boolOf b with
    | some design, some bypass =>
      if (s.lev.design && !design) || (!s.lev.bypass && bypass && 0 < s.lev.lockedCount) then .refused .locked
      else .taken { s with lev := { s.lev with design, bypass } } []
    | _, _ => .refused .badValue
  | _ => .refused .badLength

/-- SET_RULE (R152). -/
def execSetRule (s : State) : Host.Outcome State Fault Refusal :=
  act (takeCommand (ofKind 0x1A) inStandby setRuleWork) s

/-- SET_POLICY (R156). -/
def execSetPolicy (s : State) : Host.Outcome State Fault Refusal :=
  act (takeCommand (ofKind 0x1B) inStandby setPolicyWork) s

end Sys2Proof.Machine
end

