-- ==== Sys2Proof/Machine/Runs.lean ====
section
/-! DEFINITION. The host line's receiver and transmitter rows, the reading commands, runs, RESTART and power-on reset
(chapter 11), and the passing of time while nothing is commanded. -/

namespace Sys2Proof.Machine

/-! ## Reception and transmission (R169, R171) -/

/-- One frame the receiver found (R169): a bad one is counted; a good one joins the holding list, or is counted as an
inbound overrun when the list holds 4. -/
def Hli.received (l : Hli) : Option HostFrame → Hli
  | none => { l with badFrames := countUp l.badFrames }
  | some f =>
    if l.inbound.length < 4 then { l with inbound := l.inbound ++ [f] }
    else { l with inboundOverruns := countUp l.inboundOverruns }

/-- Bytes arrive on the host line (R169). -/
def Hli.bytes (l : Hli) (bytes : List Byte) : Hli :=
  let r := hostReceive l.rx bytes
  r.1.foldl Hli.received { l with rx := r.2 }

/-- HOST_FRAME (R169). -/
def execHostFrame (bytes : List Byte) (s : State) : Host.Outcome State Fault Refusal :=
  act (fun t => { t with hli := t.hli.bytes bytes }) s

/-- TRANSMISSION_END (R171): the frame has been sent, and the transmitter chooses the next. -/
def execTransmissionEnd (s : State) : Host.Outcome State Fault Refusal :=
  act (fun t => { t with hli := { t.hli with tx := none } }) s

/-! ## GET_STATUS and GET_TRACKS (R107, R173) -/

/-- A command with an empty body (R173, R177). -/
def emptyBody (work : State → Verdict) (f : HostFrame) (s : State) : Verdict :=
  if f.body = [] then work s else .refused .badLength

/-- One head in GET_STATUS data, 10 bytes (R187). -/
def Head.status (x : Head) : List Byte :=
  [x.state.code, x.state.reasonCode] ++ fieldU 1 x.misses ++ [boolByte x.testSource] ++ fieldU 2 x.missed ++
  fieldU 2 x.late ++ fieldU 2 x.frameErrors

def Slot.isTentative : Slot → Bool
  | .tentative _ _ => true
  | _ => false

def Slot.isConfirmed : Slot → Bool
  | .confirmed _ _ => true
  | _ => false

def Slot.isCoasting : Slot → Bool
  | .coasting _ _ _ => true
  | _ => false

/-- The fourteen run counters of R173, in its order. -/
def State.runCounters (s : State) : List Nat :=
  [s.tu.accepted, s.tu.overruns, s.pxu.counters.outOfFrame, s.pxu.counters.short, s.pxu.counters.narrow,
   s.pxu.counters.wide, s.pxu.counters.outOfWindow, s.pxu.counters.dropped, s.wtr.tableFull, s.tu.mastsIgnored,
   s.lev.opened, s.lev.overflow, s.hli.traceDropped, s.hli.reportsLost]

/-- GET_STATUS data, 118 bytes (R173, R187). -/
def State.statusData (s : State) : List Byte :=
  [s.mode.code] ++ beBytes 4 s.tu.stamp.toNat ++ fieldS 4 s.tu.chainage ++ fieldS 6 s.tu.p ++ fieldS 6 s.tu.high ++
  fieldU 4 s.tu.scan ++ [s.tu.watch.code] ++ (heads4.flatMap fun h => (s.head h).status) ++
  (heads4.map fun k => (s.mcv.channels[k]).state.code) ++ fieldU 2 s.scu.inForce.id ++ [s.scu.dir.code] ++
  fieldU 1 s.scu.queue.length ++ fieldU 1 (slots8.countP fun k => (s.wtr.table[k]).isTentative) ++
  fieldU 1 (slots8.countP fun k => (s.wtr.table[k]).isConfirmed) ++
  fieldU 1 (slots8.countP fun k => (s.wtr.table[k]).isCoasting) ++ fieldU 1 s.lev.entries.length ++
  [boolByte s.lev.design, boolByte s.lev.bypass] ++ fieldU 1 s.lev.lockedCount ++ fieldU 1 s.hli.queue.length ++
  fieldU 1 (traceCount s.hli.queue) ++ fieldU 1 s.hli.inbound.length ++ fieldU 2 s.hli.loss ++
  (s.runCounters.flatMap fun (n : Nat) => fieldU 2 n) ++ fieldU 2 s.hli.badFrames ++ fieldU 2 s.hli.inboundOverruns

/-- The track's part of a slot entry of GET_TRACKS: presence, id, x_last, z_last, face_last and age. -/
def Seen.bytes (t : Seen) : List Byte :=
  [boolByte t.face.isSome] ++ fieldU 2 t.id ++ fieldS 2 t.x ++ fieldU 4 t.z ++
  fieldU 2 ((t.face.getD 0 : Nat) : Int) ++ fieldU 2 t.age

/-- A slot entry of GET_TRACKS, 17 bytes (R187): a field the tag does not hold is sent as 0. -/
def Slot.bytes : Slot → List Byte
  | .empty => 0 :: beBytes 16 0
  | .tentative t hits => 1 :: t.bytes ++ fieldU 1 hits ++ [0, 0]
  | .confirmed t role => 2 :: t.bytes ++ [0, 0, role.code]
  | .coasting t misses role => 3 :: t.bytes ++ [0] ++ fieldU 1 misses ++ [role.code]

/-- The wire-count watch in GET_TRACKS data: its code, and the onset, sent as 0 when it is not PENDING. -/
def CountWatch.bytes : CountWatch → List Byte
  | .normal => 0 :: fieldS 4 0
  | .pending onset => 1 :: fieldS 4 onset
  | .reported => 2 :: fieldS 4 0

/-- GET_TRACKS data (R107, R187). -/
def Wtr.tracksData (w : Wtr) : List Byte :=
  fieldU 2 w.nextId ++ fieldU 4 w.lastScan ++ w.watch.bytes ++ slots8.flatMap fun k => (w.table[k]).bytes

/-- GET_STATUS (R173). -/
def execGetStatus (s : State) : Host.Outcome State Fault Refusal :=
  act (takeCommand (ofKind 0x01) inAny (emptyBody fun t => .taken t t.statusData)) s

/-- GET_TRACKS (R107). -/
def execGetTracks (s : State) : Host.Outcome State Fault Refusal :=
  act (takeCommand (ofKind 0x02) inAny (emptyBody fun t => .taken t t.wtr.tracksData)) s

/-- The command kinds of section 11.9. -/
def commandKinds : List Byte :=
  [0x01, 0x02, 0x10, 0x11, 0x12, 0x13, 0x14, 0x15, 0x16, 0x17, 0x18, 0x19, 0x1A, 0x1B, 0x1C, 0x1D, 0x20, 0x21, 0x22,
   0x23, 0x2F]

/-- UNKNOWN_COMMAND (R170): a frame whose kind is not a command kind. -/
def execUnknownCommand (s : State) : Host.Outcome State Fault Refusal :=
  act (takeCommand (fun f => !commandKinds.contains f.kind) inAny (fun _ _ => .refused .unknownKind)) s

/-! ## START_RUN (R175) -/

/-- What START_RUN carries. -/
structure RunStart where
  start : Int
  dir : Dir
  leading : CarEnd
deriving DecidableEq, Repr

/-- Form and ranges of START_RUN (R175 stage 1). -/
def parseStart (body : List Byte) : Except Result RunStart :=
  match splitFields [4, 1, 1] body with
  | some [c, d, e] =>
    match dirOf d, endOf e with
    | some dir, some leading =>
      if chainageOk (signedOf 4 c) then .ok { start := signedOf 4 c, dir, leading } else .error .badValue
    | _, _ => .error .badValue
  | _ => .error .badLength

/-- The travel unit at START_RUN (R32). -/
def Tu.startRun (t : Tu) (a : RunStart) : Tu :=
  { t with p := 0, high := 0, base := a.start, dir := a.dir, nextTrigger := 1,
           nextDue := some (t.stamp + BitVec.ofNat 32 t.config.interval), scan := 0, gap := 0, pendingFix := none,
           mast := none, watch := .forward, accepted := 0, overruns := 0, mastsIgnored := 0 }

/-- A head's counts at START_RUN and at RESTART (R50, R55). -/
def Head.zeroCounts (x : Head) : Head := { x with misses := 0, missed := 0, late := 0, frameErrors := 0 }

/-- The tracker at START_RUN (R106). -/
def Wtr.startRun (w : Wtr) : Wtr :=
  { w with table := Vector.replicate 8 .empty, nextId := 1, watch := .normal, lastScan := 0, lastTaken := none,
           tableFull := 0, inbox := [], outbox := [] }

/-- The span unit at START_RUN (R137, R150). -/
def Spu.startRun (u : Spu) (start : Int) : Spu :=
  { u with span := some (OpenSpan.fresh 1 none start), accumulators := Vector.replicate 8 none, retain := [],
           losses := [], closed := 0 }

/-- Every block's START_RUN values, RUN_STARTED, and RUNNING (R175). -/
def State.startRun (s : State) (a : RunStart) : State :=
  { { s with
      tu := s.tu.startRun a
      hlc := { s.hlc with heads := map4 Head.zeroCounts s.hlc.heads }
      mcv := { s.mcv with channels := map4 Channel.startRun s.mcv.channels, sequences := [] }
      pxu := { s.pxu with leading := a.leading, current := none, counters := ExtractCounters.zero }
      wtr := s.wtr.startRun
      wru := { s.wru with valuing := none, offered := none }
      scu := { s.scu with armed := false }
      spu := s.spu.startRun a.start
      lev := { s.lev with opened := 0, overflow := 0 }
      hli := { s.hli with traceDropped := 0, reportsLost := 0 } }.event
    (.runStarted a.start a.dir a.leading) with mode := .running }

/-- START_RUN past kind and mode (R175). -/
def startRunWork (f : HostFrame) (s : State) : Verdict :=
  match parseStart f.body with
  | .error r => .refused r
  | .ok a =>
    if a.dir ≠ s.scu.dir then .refused .invalidCombination
    else if !s.anyActive then .refused .noHeads
    else .taken (s.startRun a) []

/-- START_RUN (R175). -/
def execStartRun (s : State) : Host.Outcome State Fault Refusal :=
  act (takeCommand (ofKind 0x20) inStandby startRunWork) s

/-! ## STOP_RUN (R177) -/

/-- STOPPING, with the pending fix and the mast mark dropped; the closing work begins at once when no scan record is
in flight (R177). -/
def State.stopRun (s : State) : State :=
  { s with mode := .stopping, tu := { s.tu with pendingFix := none, mast := none } }.closeIfDue

/-- STOP_RUN (R177). -/
def execStopRun (s : State) : Host.Outcome State Fault Refusal :=
  act (takeCommand (ofKind 0x21) inRunning (emptyBody fun t => .taken t.stopRun [])) s

/-! ## RESTART (R179) -/

/-- The travel unit at RESTART (R32). -/
def Tu.restart (t : Tu) : Tu :=
  { t with gap := 0, pendingFix := none, mast := none, watch := .forward, accepted := 0, overruns := 0,
           mastsIgnored := 0 }

/-- The head link controller at RESTART (R52, R55). -/
def Hlc.restart (c : Hlc) : Hlc :=
  { c with heads := map4 Head.zeroCounts c.heads, scans := [],
           pairs := #v[{ c.pairs[0] with owner := .free }, { c.pairs[1] with owner := .free }] }

/-- The tracker at RESTART (R106). -/
def Wtr.restart (w : Wtr) : Wtr :=
  { w with table := Vector.replicate 8 .empty, watch := .normal, tableFull := 0, inbox := [], outbox := [] }

/-- The span unit at RESTART (R150). -/
def Spu.restart (u : Spu) : Spu :=
  { u with span := none, accumulators := Vector.replicate 8 none, retain := [], losses := [], closed := 0 }

/-- Every block's RESTART values, the outbound queue emptied, STANDBY, and STARTED with cause RESTART (R179). -/
def State.restart (s : State) : State :=
  { s with
    mode := .standby
    closing := false
    tu := s.tu.restart
    hlc := s.hlc.restart
    mcv := { s.mcv with channels := map4 Channel.rearm s.mcv.channels, sequences := [] }
    pxu := { s.pxu with current := none, counters := ExtractCounters.zero }
    wtr := s.wtr.restart
    wru := { s.wru with valuing := none, offered := none }
    scu := s.scu.cleared
    spu := s.spu.restart
    lev := { s.lev with entries := [], opened := 0, overflow := 0 }
    hli := { s.hli with queue := [], loss := 0, traceDropped := 0, reportsLost := 0 } }.event (.started .restart)

/-- RESTART (R179). -/
def execRestart (s : State) : Host.Outcome State Fault Refusal :=
  act (takeCommand (ofKind 0x2F) inAny (emptyBody fun t => .taken t.restart [])) s

/-! ## Power-on reset (R180) -/

/-- POWER_ON_RESET_ASSERT (R180): the part stops, and a frame being sent is cut short. -/
def execPowerOnResetAssert (s : State) : Host.Outcome State Fault Refusal :=
  .next { s with pin := true, hli := { s.hli with tx := none } }

/-- POWER_ON_RESET_RELEASE (R180): every block at its power-on values, then STARTED with cause POWER_ON. -/
def execPowerOnResetRelease (s : State) : Host.Outcome State Fault Refusal :=
  .next (({ State.powerOn with pending := s.pending }).event (.started .powerOn)).kick

/-! ## Time (R22, R31, R37, R48): what a step does when no command waits (log entry 1) -/

/-- One microsecond less of a running clearing timer. -/
def Head.tick (x : Head) : Head := { x with clearing := x.clearing.map (· - 1) }

def Answer.tick : Answer → Answer
  | .open n => .open (n - 1)
  | a => a

def ScanRecord.tick (r : ScanRecord) : ScanRecord := { r with answers := map4 Answer.tick r.answers }

/-- The head's open answer has run out of its response window. -/
def State.windowOut (s : State) (h : HeadNo) : Bool :=
  match s.openScan h with
  | some r => r.answers[h] == .open 0
  | none => false

/-- The time stamp and every running timer move by one microsecond. -/
def State.elapse (s : State) : State :=
  { s with
    tu := { s.tu with stamp := s.tu.stamp + 1 }
    hlc := { s.hlc with heads := map4 Head.tick s.hlc.heads, scans := s.hlc.scans.map ScanRecord.tick } }

/-- The response windows that have run out expire, in head order. -/
def State.expireWindows (s : State) : State :=
  heads4.foldl (fun t h => if t.windowOut h then t.missAnswer h .noAnswer else t) s

/-- The clearing timers that have run out expire, in head order. -/
def State.expireClearing (s : State) : State :=
  heads4.foldl (fun t h => if (t.head h).clearing == some 0 then t.clearingExpires h else t) s

/-- One microsecond passes: timers that have run out expire, and a TIME-mode trigger whose due time the time stamp has
reached falls due. -/
def State.tick (s : State) : State :=
  let s1 := s.elapse.expireWindows.expireClearing
  if s1.tu.nextDue = some s1.tu.stamp then s1.timeDue else s1

/-- A microsecond in which nothing is commanded; nothing moves while the pin is held (R180). -/
def State.idle (s : State) : State := if s.pin then s else s.tick.kick

end Sys2Proof.Machine
end

