-- ==== Sys2Proof/Machine/Dispatch.lean ====
section
/-! DEFINITION. The commands of the CG410 and their meanings: one arm per row of spec/opcode_table.json. -/

namespace Sys2Proof.Machine

def exec (i : Instr) (s : State) : Host.Outcome State Fault Refusal :=
  match i with
  | .getStatus => Sys2Proof.Machine.execGetStatus s
  | .getTracks => Sys2Proof.Machine.execGetTracks s
  | .setHead => Sys2Proof.Machine.execSetHead s
  | .headInit => Sys2Proof.Machine.execHeadInit s
  | .headRestore => Sys2Proof.Machine.execHeadRestore s
  | .headIsolate => Sys2Proof.Machine.execHeadIsolate s
  | .headDisable => Sys2Proof.Machine.execHeadDisable s
  | .testSourceOn => Sys2Proof.Machine.execTestSourceOn s
  | .testSourceOff => Sys2Proof.Machine.execTestSourceOff s
  | .setTestProfile => Sys2Proof.Machine.execSetTestProfile s
  | .setMotion => Sys2Proof.Machine.execSetMotion s
  | .setExtract => Sys2Proof.Machine.execSetExtract s
  | .setTracker => Sys2Proof.Machine.execSetTracker s
  | .setWearTable => Sys2Proof.Machine.execSetWearTable s
  | .setDefaultSection => Sys2Proof.Machine.execSetDefaultSection s
  | .clearRoute => Sys2Proof.Machine.execClearRoute s
  | .appendSection => Sys2Proof.Machine.execAppendSection s
  | .setRule => Sys2Proof.Machine.execSetRule s
  | .setPolicy => Sys2Proof.Machine.execSetPolicy s
  | .setTrigger => Sys2Proof.Machine.execSetTrigger s
  | .setReporting => Sys2Proof.Machine.execSetReporting s
  | .startRun => Sys2Proof.Machine.execStartRun s
  | .stopRun => Sys2Proof.Machine.execStopRun s
  | .scanOnce => Sys2Proof.Machine.execScanOnce s
  | .positionFix => Sys2Proof.Machine.execPositionFix s
  | .restart => Sys2Proof.Machine.execRestart s
  | .unknownCommand => Sys2Proof.Machine.execUnknownCommand s
  | .hostFrame bytes => Sys2Proof.Machine.execHostFrame bytes s
  | .transmissionEnd => Sys2Proof.Machine.execTransmissionEnd s
  | .powerOnResetAssert => Sys2Proof.Machine.execPowerOnResetAssert s
  | .powerOnResetRelease => Sys2Proof.Machine.execPowerOnResetRelease s
  | .odometerPulse toward => Sys2Proof.Machine.execOdometerPulse toward s
  | .mastPulse => Sys2Proof.Machine.execMastPulse s
  | .timeTriggerDue => Sys2Proof.Machine.execTimeTriggerDue s
  | .ready h bytes => Sys2Proof.Machine.execReady h bytes s
  | .profile h bytes => Sys2Proof.Machine.execProfile h bytes s
  | .headUnusableFrame h bytes => Sys2Proof.Machine.execHeadUnusableFrame h bytes s
  | .headBadFrame h bytes => Sys2Proof.Machine.execHeadBadFrame h bytes s
  | .clearingTimerExpiry h => Sys2Proof.Machine.execClearingTimerExpiry h s
  | .responseWindowExpiry h => Sys2Proof.Machine.execResponseWindowExpiry h s
  | .motionSequenceEnd a1 b1 a2 b2 => Sys2Proof.Machine.execMotionSequenceEnd a1 b1 a2 b2 s
  | .scanExtraction => Sys2Proof.Machine.execScanExtraction s
  | .candidateListHandover => Sys2Proof.Machine.execCandidateListHandover s
  | .trackScan => Sys2Proof.Machine.execTrackScan s
  | .setValuing => Sys2Proof.Machine.execSetValuing s
  | .setOffer => Sys2Proof.Machine.execSetOffer s
  | .spanSetTake => Sys2Proof.Machine.execSpanSetTake s
  | .limitSetTake => Sys2Proof.Machine.execLimitSetTake s
  | .closingWork => Sys2Proof.Machine.execClosingWork s

end Sys2Proof.Machine
end

