-- ==== Sys2Proof/Safety.lean ====
section
/-! DEFINITION. The terms the claims use: what it is for a frame to wait at the command interpreter and for a reply to
be given, rounding as the manual words it, bodies of fields, and the invariants of the part, block by block. -/

namespace Sys2Proof.Machine

/-! ## Commands and replies -/

/-- The frame `f` stands at the head of the holding list, `rest` behind it, and the CI can take it (R170). -/
def State.holds (s : State) (f : HostFrame) (rest : List HostFrame) : Prop :=
  s.pin = false ∧ s.hli.slot = none ∧ s.hli.inbound = f :: rest

/-- The frame at the head has left the holding list. -/
def State.popped (s : State) (rest : List HostFrame) : State := { s with hli := { s.hli with inbound := rest } }

/-- The CI has answered `f`: the reply is in the slot, or on the line when the transmitter was IDLE (R170, R171). -/
def State.answered (s : State) (f : HostFrame) (result : Result) (data : List Byte) : State :=
  (s.reply f result data).kick

/-- A command frame's body of fixed-size fields: each a size in bytes and a value (R187). -/
def bodyOf (fields : List (Nat × Nat)) : List Byte := fields.flatMap fun a => beBytes a.1 a.2

/-- Each field's value is one its bytes can spell. -/
def fits (fields : List (Nat × Nat)) : Prop := ∀ a ∈ fields, a.2 < 256 ^ a.1

/-- `q` is `n / d` rounded to the nearest integer, halves away from zero (R1), for a positive `d`. -/
def Rounds (n d q : Int) : Prop :=
  2 * (n - q * d).natAbs ≤ d ∧ (2 * (n - q * d).natAbs = d → n.natAbs < (q * d).natAbs)

/-- The frame has been answered on the line alone (R170, R171). -/
def Hli.answered (l : Hli) (f : HostFrame) (result : Result) (data : List Byte) : Hli :=
  { l with slot := some { kind := f.kind, tag := f.tag, result, data } }.kick

/-- The head `h` is the last ACTIVE one and the part is RUNNING (R35). -/
def State.lastActive (s : State) (h : HeadNo) : Bool :=
  s.mode == .running && (s.head h).state == .active && heads4.all fun j => j == h || (s.head j).state != .active

/-- The line after a head's change of state was reported: HEAD_STATE, and ALL_HEADS_LOST after it when `last` (R35). -/
def Hli.headMoved (l : Hli) (h : HeadNo) (state : HeadState) (last : Bool) : Hli :=
  let m := l.offer (.event (.headState h state))
  if last then m.offer (.event .allHeadsLost) else m

/-- The two states agree in every block but the host line and the head link controller, and in mode, pin and queue. -/
def State.sameBehindHeads (s t : State) : Prop :=
  t.pending = s.pending ∧ t.pin = s.pin ∧ t.mode = s.mode ∧ t.closing = s.closing ∧ t.tu = s.tu ∧ t.mcv = s.mcv ∧
  t.pxu = s.pxu ∧ t.wtr = s.wtr ∧ t.wru = s.wru ∧ t.scu = s.scu ∧ t.spu = s.spu ∧ t.lev = s.lev

/-- The two states agree in what the banks hold, in the test profile and in the frames sent to the heads. -/
def State.sameBanks (s t : State) : Prop :=
  (∀ k : Fin 2, (t.hlc.pairs[k]).banks = (s.hlc.pairs[k]).banks) ∧ t.hlc.profile = s.hlc.profile ∧
  t.hlc.sent = s.hlc.sent

/-- The record of scan `n` holds `a` as the head's answer. -/
def State.answerIs (s : State) (n : Nat) (h : HeadNo) (a : Answer) : Prop :=
  ∃ r ∈ s.hlc.scans, r.header.scan = n ∧ r.answers[h] = a

/-- The owner a bank pair has while the scan record that uses it stands at a stage (R42). -/
def ScanStage.owner : ScanStage → Owner
  | .gathering => .filling
  | .complete => .processing
  | .taken => .processing

/-- R51, of what a scan record now holds: one still gathering is complete when its four answers are closed and its motion
sample has arrived. -/
def ScanRecord.settled (r : ScanRecord) : ScanRecord :=
  { r with stage :=
      if r.stage = .gathering ∧ (∀ h : HeadNo, (r.answers[h]).isOpen = false) ∧ r.motion.isSome then .complete
      else r.stage }

/-- The record of scan `n`, and no other, takes the change `f` and is settled by R51; each record's bank pair is FILLING
while it gathers and PROCESSING from then on (R42, R51), and a pair that no record uses keeps its owner. -/
def State.recordTakes (s t : State) (n : Nat) (f : ScanRecord → ScanRecord) : Prop :=
  t.hlc.scans = s.hlc.scans.map (fun r => if r.header.scan = n then (f r).settled else r) ∧
  (∀ r ∈ t.hlc.scans, (t.hlc.pairs[parity r.header.scan]).owner = r.stage.owner) ∧
  ∀ k : Fin 2, (∀ r ∈ s.hlc.scans, parity r.header.scan ≠ k) → (t.hlc.pairs[k]).owner = (s.hlc.pairs[k]).owner

/-- The record of the scan of `r` takes `a` as the answer of head `h`, and is settled by R51. -/
def State.answerTakes (s t : State) (r : ScanRecord) (h : HeadNo) (a : Answer) : Prop :=
  s.recordTakes t r.header.scan fun x => { x with answers := x.answers.set h a }

/-- A byte of flags, bit 0 first; unlisted bits are 0 (R187). -/
def bitsByte (bits : List Bool) : Byte := BitVec.ofNat 8 (bits.foldr (fun b n => b.toNat + 2 * n) 0)

/-- R63: the sum a side has from its two values. -/
def isSideSum : Option Int → Option Int → Option Int
  | some a, some b => some (a + b)
  | some a, none => some (2 * a)
  | none, some b => some (2 * b)
  | none, none => none

/-- R64: the roll, the rise and the two lost flags that the side sums give, with the rounding of R1. -/
def isMotionSample (spacing : Nat) (sa sb : Option Int) (m : MotionSample) : Prop :=
  match sa, sb with
  | some a, some b => Rounds ((a - b) * 32768) spacing m.roll ∧ Rounds (a + b) 4 m.rise ∧ m.flags.rollLost = false ∧
      m.flags.riseLost = false
  | some a, none => m.roll = 0 ∧ Rounds a 2 m.rise ∧ m.flags.rollLost = true ∧ m.flags.riseLost = false
  | none, some b => m.roll = 0 ∧ Rounds b 2 m.rise ∧ m.flags.rollLost = true ∧ m.flags.riseLost = false
  | none, none => m.roll = 0 ∧ m.rise = 0 ∧ m.flags.rollLost = true ∧ m.flags.riseLost = true

/-- A host command row: the kind its frame has, the modes it is taken in (R172), and the length of its body when that
is fixed (R187). HEAD_CONTROL stands once per action. -/
structure HostRow where
  command : Instr
  kind : Byte
  modes : Mode → Bool
  length : Option Nat

/-- The host command rows with a kind of section 11.9. -/
def hostRows : List HostRow :=
  [⟨.getStatus, 0x01, inAny, some 0⟩, ⟨.getTracks, 0x02, inAny, some 0⟩, ⟨.setHead, 0x10, inStandby, some 12⟩,
   ⟨.headInit, 0x11, inAny, some 2⟩, ⟨.headRestore, 0x11, inAny, some 2⟩, ⟨.headIsolate, 0x11, inAny, some 2⟩,
   ⟨.headDisable, 0x11, inAny, some 2⟩, ⟨.testSourceOn, 0x11, inAny, some 2⟩,
   ⟨.testSourceOff, 0x11, inAny, some 2⟩, ⟨.setTestProfile, 0x12, inAny, none⟩,
   ⟨.setMotion, 0x13, inStandby, some 40⟩, ⟨.setExtract, 0x14, inStandby, some 18⟩,
   ⟨.setTracker, 0x15, inStandby, some 10⟩, ⟨.setWearTable, 0x16, inStandby, none⟩,
   ⟨.setDefaultSection, 0x17, inStandby, some 13⟩, ⟨.clearRoute, 0x18, inAny, some 1⟩,
   ⟨.appendSection, 0x19, inAny, some 23⟩, ⟨.setRule, 0x1A, inStandby, some 15⟩,
   ⟨.setPolicy, 0x1B, inStandby, some 2⟩, ⟨.setTrigger, 0x1C, inStandby, some 11⟩,
   ⟨.setReporting, 0x1D, inAny, some 5⟩, ⟨.startRun, 0x20, inStandby, some 6⟩, ⟨.stopRun, 0x21, inRunning, some 0⟩,
   ⟨.scanOnce, 0x22, inRunning, some 0⟩, ⟨.positionFix, 0x23, inRunning, some 4⟩, ⟨.restart, 0x2F, inAny, some 0⟩]

/-! ## Invariants -/

/-- The host line (R169, R171, R181): the outbound queue holds at most 96 records, at most 64 of them trace records,
the holding list at most 4 frames, and an IDLE transmitter leaves nothing waiting unless the pin is held. -/
def State.lineBounded (s : State) : Prop :=
  s.hli.queue.length ≤ 96 ∧ (s.hli.queue.filter (·.report.isTrace)).length ≤ 64 ∧ s.hli.inbound.length ≤ 4 ∧
  (s.pin = false → s.hli.tx = none → s.hli.slot = none ∧ s.hli.queue = [])

/-- The track table (R86): the ids of the non-EMPTY slots are distinct and lie from 1 to 65535, as the counter does. -/
def Wtr.idsDistinct (w : Wtr) : Prop :=
  (1 ≤ w.nextId ∧ w.nextId ≤ 65535) ∧
  (∀ k t, (w.table[(k : Fin 8)]).track? = some t → 1 ≤ t.id ∧ t.id ≤ 65535) ∧
  ∀ j k t u, (w.table[(j : Fin 8)]).track? = some t → (w.table[(k : Fin 8)]).track? = some u → t.id = u.id → j = k

/-- The open exceedance list (R158): at most 16 entries, no two with one key, and references 0 to 16. -/
def Lev.keyed (l : Lev) : Prop :=
  l.entries.length ≤ 16 ∧ (l.entries.map fun e => (e.id, e.ref)).Nodup ∧ ∀ e ∈ l.entries, e.ref ≤ 16

/-- The route (R124): at most 32 queued descriptors, each wholly beyond every one before it and each with its end beyond
its start, and no id twice among the queue and the cache. -/
def Scu.ordered (u : Scu) : Prop :=
  u.queue.length ≤ 32 ∧ u.queue.Pairwise (fun a b => u.dir.reached b.start a.stop = true) ∧
  (∀ a ∈ u.queue, a.start ≠ a.stop ∧ u.dir.reached a.stop a.start = true) ∧
  ((u.cache.toList ++ u.queue).map (·.design.id)).Nodup

/-- The sample sets between the tracker's hand-over and their taking, oldest first. -/
def State.sets (s : State) : List SampleSet :=
  (s.wru.offered.map (·.set)).toList ++ s.wru.valuing.toList ++ s.wtr.outbox

/-- The numbers of the scans that the extractor has taken and whose sets have not been taken by both consumers, in the
places where the scan path holds them. -/
def State.pathScans (s : State) : List Nat :=
  ((s.sets.filter fun set => !set.runEnd).map (·.header.scan)) ++ s.wtr.inbox.map (·.header.scan) ++
  (s.pxu.current.map (·.header.scan)).toList

/-- The scan path and the bank pairs (R42 to R44, R52): no two scan records share a parity, a pair is FREE when no
record uses it and is otherwise owned as its record's stage says, the scans on the path behind the extractor are the
records it has taken, and what a mode excludes is absent: in STANDBY nothing is in flight, and an end-of-run set is on
the path only once closing work has begun, which is in STOPPING with no record left, and is then the one set on it. The
wear unit holds one set at a time (R111). The conversion sequences in flight are those of the records that lack their
motion sample, oldest first (R58), so none is in flight in STANDBY; and no record that has become complete still gathers
(R51). -/
def State.banksOwned (s : State) : Prop :=
  (s.hlc.scans.Pairwise fun a b => parity a.header.scan ≠ parity b.header.scan) ∧
  (∀ r ∈ s.hlc.scans, (s.hlc.pairs[parity r.header.scan]).owner = r.stage.owner) ∧
  (∀ k : Fin 2, (∀ r ∈ s.hlc.scans, parity r.header.scan ≠ k) → (s.hlc.pairs[k]).owner = .free) ∧
  s.pathScans.Perm ((s.hlc.scans.filter fun r => r.stage == .taken).map (·.header.scan)) ∧
  (s.mode = .standby → s.hlc.scans = [] ∧ s.sets = [] ∧ s.mcv.sequences = []) ∧
  (s.closing = true → s.mode = .stopping ∧ s.hlc.scans = [] ∧ s.sets.length = 1) ∧
  (s.closing = false → s.sets.all (fun set => !set.runEnd)) ∧
  (s.wru.valuing = none ∨ s.wru.offered = none) ∧
  s.mcv.sequences = (s.hlc.scans.filter fun r => r.motion.isNone).map (·.header.scan) ∧
  (∀ r ∈ s.hlc.scans, r.stage = .gathering →
    r.motion = none ∨ ∃ h : HeadNo, (r.answers[h]).isOpen = true) ∧
  ∀ r ∈ s.hlc.scans, r.stage ≠ .gathering → r.motion ≠ none

/-- R50 with R51: from `s` to `t` the open answer that head `h` has in record `r` closed ABSENT with a miss for `reason`.
Both counts rise, the frame errors are `errors`, and at the miss limit the head is ISOLATED and reported. -/
def State.missed (s t : State) (h : HeadNo) (r : ScanRecord) (reason : Reason) (errors : Nat) : Prop :=
  let limit := (s.head h).missLimit ≤ (s.head h).misses + 1
  t.head h = { s.head h with
    misses := (s.head h).misses + 1
    missed := countUp (s.head h).missed
    frameErrors := errors
    state := if limit then .isolated reason else .active } ∧
  (∀ j, j ≠ h → t.head j = s.head j) ∧ t.answerIs r.header.scan h (.absent reason) ∧ s.sameBehindHeads t ∧
  s.sameBanks t ∧ (s.banksOwned → s.answerTakes t r h (.absent reason)) ∧
  (limit → t.hli = (s.hli.headMoved h (.isolated reason) (s.lastActive h)).kick) ∧ (¬ limit → t.hli = s.hli.kick)

/-- A stagger and a height of the reportable frame (R13, R14). -/
def framed (x z : Int) : Prop := (-7000 ≤ x ∧ x ≤ 7000) ∧ 0 ≤ z ∧ z ≤ 99999

/-- The shape of a LOADED wear table (R108): the nominal height, the number of breakpoints and the values of each are in
range, the widths rise, and the thicknesses do not and lie within the nominal height. -/
def WearTable.shaped (t : WearTable) : Prop :=
  (50 ≤ t.nominal ∧ t.nominal ≤ 250) ∧ (2 ≤ t.points.length ∧ t.points.length ≤ 16) ∧
  t.points.Pairwise (fun a b => a.1 < b.1 ∧ b.2 ≤ a.2) ∧ ∀ p ∈ t.points, p.1 ≤ 400 ∧ p.2 ≤ t.nominal

/-- A remaining thickness of some table of R108. -/
def thicknessOk (r : Int) : Prop := 0 ≤ r ∧ r ≤ 250

/-- A wear value (R115, R116). -/
def wearOk (q : Int) : Prop := 0 ≤ q ∧ q ≤ 1000

/-- A sample's position is in the frame, and what values it has are in range. -/
def Sample.framed (m : Sample) : Prop :=
  Machine.framed m.x m.z ∧ (∀ r, m.thickness = some r → thicknessOk r) ∧ ∀ q, m.wear = some q → wearOk q

/-- An accumulator's extremes are in the frame, and its minimum thickness is in range. -/
def Accumulator.framed (a : Accumulator) : Prop :=
  Machine.framed a.maxStagger.1 a.minHeight ∧ Machine.framed a.maxStagger.1 a.maxHeight ∧
  ∀ r, a.minThickness = some r → thicknessOk r.1

/-- An exceedance's worst value is in the range of its quantity. -/
def Exceedance.framed (e : Exceedance) : Prop :=
  match e.quantity with
  | .stagger => Machine.framed e.worst 0
  | .heightLow => Machine.framed 0 e.worst
  | .heightHigh => Machine.framed 0 e.worst
  | .thickness => thicknessOk e.worst
  | .wear => wearOk e.worst

/-- Every stagger and height of a report is in the frame, and every thickness and wear in its range. -/
def Report.framed : Report → Prop
  | .trace t => ∀ m ∈ t.samples, m.framed
  | .span r => ∀ e ∈ r.entries, e.values.framed
  | .exceedance e _ => e.framed
  | .event _ => True

/-- R14 over the whole state: every stagger and height on the path, in the track table, in the span unit, in the limit
evaluator and in the outbound queue is in the frame. With it the bounds of R108 and R116: every LOADED wear table has its
shape, and every thickness and wear held in those places is in its range. -/
def State.geometryFramed (s : State) : Prop :=
  (∀ scan ∈ s.pxu.current.toList ++ s.wtr.inbox, ∀ g ∈ scan.groups, framed g.x g.z) ∧
  (∀ k t, (s.wtr.table[(k : Fin 8)]).track? = some t → framed t.x t.z) ∧
  (∀ set ∈ s.sets, ∀ m ∈ set.samples, m.framed) ∧
  (∀ k a, s.spu.accumulators[(k : Fin 8)] = some a → a.framed) ∧ (∀ a ∈ s.spu.retain, a.framed) ∧
  (∀ e ∈ s.lev.entries, e.framed) ∧ (∀ q ∈ s.hli.queue, q.report.framed) ∧
  ∀ (k : Fin 8) (t : WearTable), s.wru.tables[k] = some t → t.shaped

/-- Everything that stops at 65535 by R1: the run and link counters of R185, the heads' counts, the gap count and the loss
count, the spans closed, the open span's scans and skipped triggers, the samples of the accumulators and of the retain
list, the counts of the open exceedances, and the ages of the tracks. -/
def State.counters (s : State) : List Nat :=
  s.runCounters ++ (heads4.flatMap fun h => [(s.head h).missed, (s.head h).late, (s.head h).frameErrors]) ++
  [s.hli.badFrames, s.hli.inboundOverruns, s.hli.loss, s.tu.gap] ++
  s.spu.closed :: (s.spu.span.toList.flatMap fun sp => [sp.scans, sp.skipped]) ++
  ((slots8.filterMap fun k => s.spu.accumulators[k]) ++ s.spu.retain).map (·.samples) ++
  s.lev.entries.map (·.count) ++ (slots8.filterMap fun k => (s.wtr.table[k]).track?).map (·.age)

/-- Every counter has stopped at 65535 or stands below it (R1, R185). -/
def State.countersStopped (s : State) : Prop := ∀ n ∈ s.counters, n ≤ 65535

/-- The settings that only their own commands and power-on reset change (R5, R19, R41, R57, R67, R84, R110, R121, R152,
R156). -/
def State.settings (s : State) :=
  (s.tu.config, s.pxu.calibration, s.pxu.settings, (s.hlc.heads[0].responseWindow, s.hlc.heads[1].responseWindow,
    s.hlc.heads[2].responseWindow, s.hlc.heads[3].responseWindow), (s.hlc.heads[0].missLimit,
    s.hlc.heads[1].missLimit, s.hlc.heads[2].missLimit, s.hlc.heads[3].missLimit),
    (s.mcv.channels[0].config, s.mcv.channels[1].config, s.mcv.channels[2].config, s.mcv.channels[3].config),
    (s.mcv.spacing, s.mcv.rollCentre), s.wtr.settings, s.wru.tables, s.scu.default, s.lev.rules,
    (s.lev.design, s.lev.bypass))

/-- The passages between modes that a command may make (R172, R178, R180). -/
def modePassage (c : Instr) (a b : Mode) : Bool :=
  a == b ||
  match c with
  | .startRun => a == .standby && b == .running
  | .stopRun => a == .running && b == .stopping
  | .spanSetTake => a == .stopping && b == .standby
  | .limitSetTake => a == .stopping && b == .standby
  | .restart => b == .standby
  | .powerOnResetRelease => b == .standby
  | _ => false

end Sys2Proof.Machine
end

