-- ==== Sys2Proof/Certificates/Slice0/Obligations.lean ====
section
/-! DEFINITION. The statements for the provers, each a proposition about the model. A docstring names the rule of the
manual that its statement formalises, or says what it rests on. -/

open Sys2Proof Sys2Proof.Machine

/-! ## The machine, reset and time -/

/-- The front command of the queue is run on the state with the queue's rest. -/
def Obligations.StepRunsFrontCommand : Prop :=
  ∀ (s : State) (c : Instr) (rest : List Instr), s.pending = c :: rest → step s = exec c { s with pending := rest }

/-- With no command waiting a step is one microsecond (the model's choice, log entry 1): the time stamp rises by one and
wraps, as R31 says it does in every mode, and the running response windows (R44, R48) and clearing timers (R37) fall by
one. What has run out then expires, as its event would have it, windows before timers and each in head order (log entry
1), and a TIME-mode trigger whose due time the stamp has reached falls due (R22). -/
def Obligations.IdleStepIsOneMicrosecond : Prop :=
  (∀ s : State, s.pending = [] →
    (s.pin = true → step s = .next s) ∧
    (s.pin = false → ∃ t, step s = .next t ∧ t.tu.stamp = s.tu.stamp + 1 ∧ t.pending = [] ∧ t.pin = false ∧
      t.mode = s.mode ∧ t.tu.p = s.tu.p ∧ t.tu.high = s.tu.high ∧ t.settings = s.settings ∧ t.pxu = s.pxu ∧
      t.wtr = s.wtr ∧ t.wru = s.wru ∧ t.spu = s.spu ∧ t.lev = s.lev ∧ t.hli.inbound = s.hli.inbound ∧
      t.hli.rx = s.hli.rx)) ∧
  (∀ s : State, s.pending = [] → s.pin = false →
    let answered := fun a : Answer => match a with
      | .open n => Answer.open (n - 1)
      | a => a
    let u : State := { s with
      tu := { s.tu with stamp := s.tu.stamp + 1 }
      hlc := { s.hlc with
        heads := map4 (fun x : Head => { x with clearing := x.clearing.map (· - 1) }) s.hlc.heads
        scans := s.hlc.scans.map fun r => { r with answers := map4 answered r.answers } } }
    let windows := heads4.filter fun h => ((u.openScan h).map fun r => r.answers[h]) = some (Answer.open 0)
    let timers := heads4.filter fun h => (u.head h).clearing = some 0
    let v := timers.foldl (fun t h => t.clearingExpires h) (windows.foldl (fun t h => t.missAnswer h .noAnswer) u)
    let due := s.mode = .running ∧ s.tu.config.mode = .time ∧ s.tu.nextDue = some (s.tu.stamp + 1)
    (due → step s = .next v.timeDue.kick) ∧ (¬ due → step s = .next v.kick)) ∧
  ∀ (s : State) (h : HeadNo), s.pin = false →
    exec (.responseWindowExpiry h) s = .next (s.missAnswer h .noAnswer).kick ∧
    exec (.clearingTimerExpiry h) s = .next (s.clearingExpires h).kick ∧ exec .timeTriggerDue s = .next s.timeDue.kick

/-- The power-on values that the chapters' tables give (R5, R32, R41, R55, R57, R66, R67, R83, R84, R106, R119, R121, R135,
R136, R150, R151, R168, R174, R180). -/
def Obligations.ResetHoldsPowerOnValues : Prop :=
  let s := State.reset
  (s.mode = .standby ∧ s.tu.p = 0 ∧ s.tu.high = 0 ∧ s.tu.base = 0 ∧ s.tu.dir = .ascending ∧ s.tu.nextTrigger = 1 ∧
    s.tu.nextDue = none ∧ s.tu.scan = 0 ∧ s.tu.gap = 0 ∧ s.tu.pendingFix = none ∧ s.tu.mast = none ∧
    s.tu.watch = .forward ∧ s.tu.stamp = 0 ∧
    s.tu.config = { mode := .distance, spacing := 50, interval := 1000, ppm := 2048, fixLimit := 5000 }) ∧
  (∀ h, (s.head h).state = .disabled ∧ (s.head h).misses = 0 ∧ (s.head h).window = false ∧
    (s.head h).responseWindow = 400 ∧ (s.head h).missLimit = 4 ∧ (s.head h).testSource = false ∧
    (s.head h).clearing = none ∧ s.pxu.calibration[h] =
      { offset := 0, height := 40000, mirrored := false, pitch := 10, floor := 20, wear := true }) ∧
  ((∀ k : Fin 2, (s.hlc.pairs[k]).owner = .free) ∧ s.hlc.scans = [] ∧ s.hlc.profile = []) ∧
  (∀ k : Fin 4, (s.mcv.channels[k]).state = .armed ∧ (s.mcv.channels[k]).last = none ∧ (s.mcv.channels[k]).count = 0 ∧
    (s.mcv.channels[k]).config = { enable := true, zero := 2048, scale := 512, low := 64, high := 4031 }) ∧
  (s.mcv.spacing = 20000 ∧ s.mcv.rollCentre = 12000 ∧ s.mcv.sequences = [] ∧ s.pxu.leading = .end1 ∧
    s.pxu.current = none ∧ s.pxu.settings =
      { gapX := 30, gapZ := 50, minPoints := 4, minExtent := 60, maxExtent := 200, faceIntensity := 200,
        faceTolerance := 5, mergeX := 40, mergeZ := 60 }) ∧
  ((∀ k : Fin 8, s.wtr.table[k] = .empty) ∧ s.wtr.nextId = 1 ∧ s.wtr.watch = .normal ∧ s.wtr.lastScan = 0 ∧
    s.wtr.inbox = [] ∧ s.wtr.outbox = [] ∧
    s.wtr.settings = { gateX := 80, gateZ := 150, confirm := 3, coast := 8, band := 300, mismatch := 10 }) ∧
  ((∀ k : Fin 8, s.wru.tables[k] = none) ∧ s.wru.valuing = none ∧ s.wru.offered = none) ∧
  (s.scu.dir = .ascending ∧ s.scu.queue = [] ∧ s.scu.cache = none ∧ s.scu.armed = false ∧
    s.scu.default = { id := 0, wireType := 0, expectedMin := 1, expectedMax := 4, height := 53000, band := 3000,
                      staggerLimit := 4000, minThickness := 90, neutral := false }) ∧
  (s.spu.minSpan = 20 ∧ s.spu.maxSpan = 85 ∧ s.spu.span = none ∧ s.spu.retain = [] ∧ s.spu.losses = [] ∧
    s.spu.closed = 0 ∧ ∀ k : Fin 8, s.spu.accumulators[k] = none) ∧
  ((∀ k : Fin 16, s.lev.rules[k] =
      { enabled := false, quantity := .stagger, firstId := 0, lastId := 0, runningOnly := false, threshold := 0,
        severity := .advise, report := false, lock := false }) ∧
    s.lev.design = false ∧ s.lev.bypass = false ∧ s.lev.entries = []) ∧
  (s.hli.rx = [] ∧ s.hli.inbound = [] ∧ s.hli.slot = none ∧ s.hli.queue = [] ∧ s.hli.loss = 0 ∧
    s.hli.decimation = 0 ∧ s.hli.gates = { span := true, advise := true, action := true, urgent := true, event := true }) ∧
  ∀ n ∈ s.counters, n = 0

/-- R180: the pin stops the part and cuts the frame being sent; a release leaves every block at its power-on values with
STARTED (POWER_ON) as the first frame sent. The model's queue of waiting commands is not the part's and stays. The
model's own choices in it: while the pin is held every row but the pin's two does nothing, the assertion changes the pin
and the frame being sent alone, and a release gives the power-on values whether or not the pin was held (log entry 12);
and what the banks hold in State.reset (log entry 4). -/
def Obligations.PowerOnResetStopsAndRestores : Prop :=
  (∀ s : State, exec .powerOnResetAssert s = .next { s with pin := true, hli := { s.hli with tx := none } }) ∧
  (∀ (s : State) (c : Instr), s.pin = true → c ≠ .powerOnResetAssert → c ≠ .powerOnResetRelease → exec c s = .next s) ∧
  (∀ s : State, exec .powerOnResetRelease s = .next { State.reset with pending := s.pending }) ∧
  State.reset = { State.powerOn with
    hli := { Hli.powerOn with tx := some { kind := 0xA3, tag := 0, body := [0, 0, 0x01, 0] } } } ∧
  (State.reset.tu.stamp = 0 ∧ State.reset.hli.rx = [] ∧ State.reset.hli.inbound = [] ∧ State.reset.hli.slot = none ∧
    State.reset.hli.queue = [] ∧ State.reset.hli.loss = 0 ∧ State.reset.hli.badFrames = 0 ∧
    State.reset.hli.inboundOverruns = 0 ∧ State.reset.hli.decimation = 0 ∧ State.reset.mode = .standby ∧
    State.reset.hli.gates = { span := true, advise := true, action := true, urgent := true, event := true } ∧
    State.reset.spu.minSpan = 20 ∧ State.reset.spu.maxSpan = 85) ∧
  (∀ h, (State.reset.head h).state = .disabled) ∧ ∀ k : Fin 8, State.reset.wru.tables[k] = none

/-! ## The host line -/

/-- R169, of a receiver that hunts: a good frame joins the tail of the holding list, or is counted as an inbound overrun
when the list holds 4; a frame whose check fails, or whose length is above 506, is counted as bad and the hunt goes on
at the byte after its start byte. -/
def Obligations.HostFrameReceived : Prop :=
  (∀ (s : State) (f : HostFrame), s.pin = false → s.hli.rx = [] → f.body.length ≤ 506 →
    exec (.hostFrame f.bytes) s = .next ({ s with hli :=
      if s.hli.inbound.length < 4 then { s.hli with inbound := s.hli.inbound ++ [f] }
      else { s.hli with inboundOverruns := countUp s.hli.inboundOverruns } }.kick)) ∧
  (∀ (s : State) (lead body : List Byte) (c1 c0 : Byte), s.pin = false → s.hli.rx = [] → lead.length = 2 →
    body.length ≤ 506 → checkBytes (beBytes 2 body.length ++ lead ++ body) ≠ [c1, c0] →
    exec (.hostFrame (0xA5 :: (beBytes 2 body.length ++ lead ++ body ++ [c1, c0]))) s =
      exec (.hostFrame (beBytes 2 body.length ++ lead ++ body ++ [c1, c0]))
        { s with hli := { s.hli with badFrames := countUp s.hli.badFrames } }) ∧
  (∀ (s : State) (hi lo : Byte) (more : List Byte), s.pin = false → s.hli.rx = [] → 506 < beNat [hi, lo] →
    exec (.hostFrame (0xA5 :: hi :: lo :: more)) s =
      exec (.hostFrame (hi :: lo :: more)) { s with hli := { s.hli with badFrames := countUp s.hli.badFrames } }) ∧
  ∀ (s : State) (b : Byte) (more : List Byte), s.pin = false → s.hli.rx = [] → b ≠ 0xA5 →
    exec (.hostFrame (b :: more)) s = exec (.hostFrame more) s

/-- R33, R56, R169 and R187: a receiver finds the same frames however the bytes that arrive are cut into pieces, and every
frame a sender writes by the layouts of sections 3.9 and 11.9 is read back as it was written.
R1, R56 and R187: the layout of those frames; numbers, most significant byte first and signed ones in two's complement;
and the frame check, bit by bit. -/
def Obligations.ReceiversReadWhatSendersWrite : Prop :=
  ((∀ f : HostFrame, f.bytes = 0xA5 :: (beBytes 2 f.body.length ++ [f.kind, f.tag] ++ f.body ++
     checkBytes (beBytes 2 f.body.length ++ [f.kind, f.tag] ++ f.body))) ∧
   (∀ (kind : Byte) (body : List Byte), headFrameBytes kind body = 0xA5 :: (beBytes 2 body.length ++ [kind] ++ body ++
     checkBytes (beBytes 2 body.length ++ [kind] ++ body))) ∧
   (clearBytes = headFrameBytes 0x01 [] ∧ (∀ n, scanBytes n = headFrameBytes 0x02 (beBytes 2 (n % 65536))) ∧
     (∀ status, readyBytes status = headFrameBytes 0x81 [status]) ∧
     ∀ (n : Nat) (status : Byte) (points : List Point), profileBytes n status points = headFrameBytes 0x82
       (fieldU 2 n ++ [status] ++ fieldU 2 points.length ++
         points.flatMap fun p => fieldS 2 p.u ++ fieldU 2 p.v ++ fieldU 1 p.intensity)) ∧
   (∀ n v : Nat, (beBytes n v).length = n ∧ beNat (beBytes n v) = v % 256 ^ n) ∧
   (∀ (b : Byte) (bytes : List Byte), beNat (b :: bytes) = b.toNat * 256 ^ bytes.length + beNat bytes) ∧
   (∀ n v : Nat, v < 256 ^ n → fieldU n v = beBytes n v) ∧
   (∀ (n : Nat) (v : Int), 0 < n → -((256 ^ n / 2 : Nat) : Int) ≤ v → v < ((256 ^ n / 2 : Nat) : Int) →
     (fieldS n v).length = n ∧ signedOf n (beNat (fieldS n v)) = v ∧
     (beNat (fieldS n v) : Int) = if v < 0 then v + (256 ^ n : Nat) else v) ∧
   ∀ bytes : List Byte,
     let shift := fun (r : BitVec 16) (b : Bool) => if (r.msb != b) then (r <<< 1) ^^^ 0x1021#16 else r <<< 1
     frameCheck bytes = (bytes.flatMap fun x => (List.range 8).map fun i => x.getMsbD i).foldl shift 0xFFFF#16 ∧
     checkBytes bytes = beBytes 2 (frameCheck bytes).toNat) ∧
  (∀ held a b : List Byte,
     hostReceive held (a ++ b) =
       ((hostReceive held a).1 ++ (hostReceive (hostReceive held a).2 b).1, (hostReceive (hostReceive held a).2 b).2) ∧
     headReceive held (a ++ b) =
       ((headReceive held a).1 ++ (headReceive (headReceive held a).2 b).1, (headReceive (headReceive held a).2 b).2)) ∧
  ((∀ f : HostFrame, f.body.length ≤ 506 → hostReceive [] f.bytes = ([some f], [])) ∧
   (∀ status : Byte, headReceive [] (readyBytes status) = ([.ready status], [])) ∧
   ∀ (n : Nat) (status : Byte) (points : List Point), n < 65536 → points.length ≤ 480 →
     (∀ p ∈ points, (-32768 ≤ p.u ∧ p.u ≤ 32767) ∧ p.v < 65536 ∧ p.intensity < 256) →
     headReceive [] (profileBytes n status points) = ([.profile n status points], []))

/-- R171, the choice at the end of a transmission: the reply before the records, the record at the head, or IDLE; an IDLE
transmitter makes it at the end of each row (log entry 6), and one that sends goes on. R170: a reply takes the slot.
R187, with R183, R148, R149, R167 and R184: the frame a queued record is sent as, a field that is absent being sent as 0;
and the codes of its enumerated fields. A value that does not fit its field is a free value (log entry 3). -/
def Obligations.TransmitterChoosesNext : Prop :=
  ((∀ (s : State) (r : Reply), s.pin = false → s.hli.slot = some r →
     exec .transmissionEnd s = .next { s with hli := { s.hli with
       slot := none, tx := some { kind := 0x80, tag := r.tag, body := r.kind :: r.result.code :: r.data } } }) ∧
   (∀ (s : State) (q : Queued) (rest : List Queued), s.pin = false → s.hli.slot = none → s.hli.queue = q :: rest →
     exec .transmissionEnd s = .next { s with hli := { s.hli with queue := rest, tx := some q.frame } } ∧
     q.frame.tag = 0) ∧
   (∀ s : State, s.pin = false → s.hli.slot = none → s.hli.queue = [] →
     exec .transmissionEnd s = .next { s with hli := { s.hli with tx := none } }) ∧
   (∀ l : Hli, (l.tx ≠ none → l.kick = l) ∧
     (l.tx = none → ∀ r, l.slot = some r → l.kick = { l with
       slot := none, tx := some { kind := 0x80, tag := r.tag, body := r.kind :: r.result.code :: r.data } }) ∧
     (l.tx = none → l.slot = none → ∀ q rest, l.queue = q :: rest →
       l.kick = { l with queue := rest, tx := some q.frame }) ∧
     (l.tx = none → l.slot = none → l.queue = [] → l.kick = l)) ∧
   ∀ s : State, s.kick = { s with hli := s.hli.kick } ∧
     ∀ (f : HostFrame) (result : Result) (data : List Byte), s.reply f result data =
       { s with hli := { s.hli with slot := some { kind := f.kind, tag := f.tag, result, data } } }) ∧
  (∀ (n : Nat) (r : TraceRecord), ({ report := .trace r, lostBefore := n } : Queued).frame =
    { kind := 0xA0, tag := 0, body := fieldU 4 r.scan ++ fieldS 4 r.chainage ++ beBytes 4 r.stamp.toNat ++
        fieldU 2 r.sectionId ++ [bitsByte [r.flags.rollLost, r.flags.riseLost, r.flags.held]] ++
        fieldU 1 r.samples.length ++ r.samples.flatMap fun m =>
          fieldU 2 m.id ++ [bitsByte [m.role == .running, m.merged, m.belowTable, m.beyondTable],
            bitsByte [m.face.isSome, m.thickness.isSome]] ++ fieldS 2 m.x ++ fieldU 4 m.z ++
          fieldU 2 ((m.face.getD 0 : Nat) : Int) ++ fieldU 2 (m.thickness.getD 0) ++ fieldU 2 (m.wear.getD 0) }) ∧
  (∀ (n : Nat) (r : SpanRecord), ({ report := .span r, lostBefore := n } : Queued).frame =
    { kind := 0xA1, tag := 0, body := fieldU 2 n ++ (fieldU 4 r.number ++ fieldU 2 r.sectionId ++ fieldS 4 r.start ++
        fieldS 4 r.stop ++ [r.reason.code] ++ fieldU 2 r.scans ++ fieldU 2 r.skipped ++
        [bitsByte [r.flags.isPartial, r.flags.blind, r.flags.uncompensated, r.flags.exceedanceLost,
          r.flags.chainageFix]] ++
        fieldU 1 r.entries.length ++ r.entries.flatMap fun e => let a := e.values
          fieldU 2 a.id ++ [bitsByte [a.runningSeen, e.ended], bitsByte [a.minThickness.isSome]] ++
          fieldU 2 a.samples ++ fieldU 2 ((a.minThickness.map (·.1)).getD 0) ++
          fieldS 4 ((a.minThickness.map (·.2)).getD 0) ++ fieldS 2 a.maxStagger.1 ++ fieldS 4 a.maxStagger.2 ++
          fieldU 4 a.minHeight ++ fieldU 4 a.maxHeight) }) ∧
  (∀ (n : Nat) (e : Exceedance) (closed : Option CloseReason),
    ({ report := .exceedance e closed, lostBefore := n } : Queued).frame =
    { kind := 0xA2, tag := 0, body := fieldU 2 n ++ ([if closed.isSome then 1 else 0] ++ fieldU 1 e.ref ++
        [e.severity.code, e.quantity.code] ++ fieldU 2 e.id ++ [e.role.code] ++ fieldU 2 e.sectionId ++
        fieldS 4 e.start ++ (match closed with
          | some _ => fieldS 4 e.last
          | none => [0, 0, 0, 0]) ++
        fieldS 4 e.worst ++ fieldS 4 e.worstAt ++ fieldU 2 e.count ++ [match closed with
          | some r => r.code
          | none => 0]) }) ∧
  (∀ (n : Nat) (e : Event), ({ report := .event e, lostBefore := n } : Queued).frame =
    { kind := 0xA3, tag := 0, body := fieldU 2 n ++ (match e with
        | .started cause => [0x01, if cause = .powerOn then 0 else 1]
        | .headState h state => 0x02 :: fieldU 1 h.val ++ [state.code, state.reasonCode]
        | .allHeadsLost => [0x03]
        | .motionChannelFailed c => 0x04 :: fieldU 1 c.val
        | .routeStarved c => 0x05 :: fieldS 4 c
        | .sectionSkipped id => 0x06 :: fieldU 2 id
        | .wireCount restored count lo hi c =>
          [0x07, if restored then 1 else 0] ++ fieldU 1 count ++ fieldU 1 lo ++ fieldU 1 hi ++ fieldS 4 c
        | .travelReversed c => 0x08 :: fieldS 4 c
        | .travelResumed c => 0x09 :: fieldS 4 c
        | .positionFixed offset => 0x0A :: fieldS 4 offset
        | .runStarted start dir leading => 0x0B :: fieldS 4 start ++ [dir.code, endCode leading]
        | .runStopped scans spans exceedances => 0x0C :: fieldU 2 scans ++ fieldU 2 spans ++
          fieldU 2 exceedances) }) ∧
  ([Result.done, .unknownKind, .badLength, .badValue, .badTable, .invalidCombination, .wrongMode, .locked, .queueFull,
      .noHeads].map (·.code) = [0, 1, 2, 3, 4, 5, 6, 7, 8, 9] ∧
   [SpanReason.fix, .sectionChange, .mast, .noMast, .runEnd].map (·.code) = [0, 1, 2, 3, 4] ∧
   [Severity.advise, .action, .urgent].map (·.code) = [0, 1, 2] ∧
   [Quantity.thickness, .wear, .stagger, .heightLow, .heightHigh].map (·.code) = [0, 1, 2, 3, 4] ∧
   [Role.running, .raised].map (·.code) = [0, 1] ∧ [Dir.ascending, .descending].map (·.code) = [0, 1] ∧
   [CarEnd.end1, .end2].map endCode = [0, 1] ∧
   [CloseReason.recovered, .ruleChanged, .trackEnded, .runEnd].map (·.code) = [0, 1, 2, 3] ∧
   ([HeadState.disabled, .clearing, .active].map fun h => (h.code, h.reasonCode)) = [(0, 0), (1, 0), (2, 0)] ∧
   ([Reason.command, .noAnswer, .frameCheck, .malformed, .headFault, .clearFailed].map fun r =>
      ((HeadState.isolated r).code, (HeadState.isolated r).reasonCode)) =
     [(3, 1), (3, 2), (3, 3), (3, 4), (3, 5), (3, 6)])

/-- The admission table of R181, with the lost-before count of R182, of a record that no gate holds back.
R174 and R184: what the line does with a record that is offered. The SPAN and EVENT gates hold back span records, and
event records other than STARTED, without a count; a trace record, STARTED, and an exceedance record, whose gate the
limit evaluator has tested, pass. Records offered in one step enter in their order. -/
def Obligations.OutboundAdmission : Prop :=
  (∀ (l : Hli) (r : Report),
    (r.isTrace = true → (l.queue.filter (·.report.isTrace)).length < 64 → l.queue.length < 96 →
      l.enqueue r = { l with queue := l.queue ++ [{ report := r, lostBefore := 0 }] }) ∧
    (r.isTrace = true → (64 ≤ (l.queue.filter (·.report.isTrace)).length ∨ 96 ≤ l.queue.length) →
      l.enqueue r = { l with traceDropped := countUp l.traceDropped }) ∧
    (r.isTrace = false → l.queue.length < 96 →
      l.enqueue r = { l with queue := l.queue ++ [{ report := r, lostBefore := l.loss }], loss := 0 }) ∧
    (r.isTrace = false → 96 ≤ l.queue.length → ∀ a q b, l.queue = a ++ q :: b → (∀ x ∈ a, x.report.isTrace = false) →
      q.report.isTrace = true →
      l.enqueue r = { l with queue := a ++ b ++ [{ report := r, lostBefore := l.loss }], loss := 0,
                             traceDropped := countUp l.traceDropped }) ∧
    (r.isTrace = false → 96 ≤ l.queue.length → (∀ x ∈ l.queue, x.report.isTrace = false) →
      l.enqueue r = { l with loss := countUp l.loss, reportsLost := countUp l.reportsLost })) ∧
  (∀ l : Hli,
    (∀ t, l.offer (.trace t) = l.enqueue (.trace t)) ∧
    (∀ r, (l.gates.span = true → l.offer (.span r) = l.enqueue (.span r)) ∧
      (l.gates.span = false → l.offer (.span r) = l)) ∧
    (∀ e closed, l.offer (.exceedance e closed) = l.enqueue (.exceedance e closed)) ∧
    (∀ cause, l.offer (.event (.started cause)) = l.enqueue (.event (.started cause))) ∧
    ∀ e, (∀ cause, e ≠ .started cause) →
      (l.gates.event = true → l.offer (.event e) = l.enqueue (.event e)) ∧
      (l.gates.event = false → l.offer (.event e) = l)) ∧
  (∀ r : Report, r.isTrace = true ↔ ∃ t, r = .trace t) ∧
  ∀ (l : Hli) (r : Report) (rs : List Report), l.offerAll [] = l ∧ l.offerAll (r :: rs) = (l.offer r).offerAll rs

/-! ## Taking commands -/

/-- R170, checks 1 to 3, with the modes of R172 and the body lengths of section 11.9: an unknown kind, a mode the command
is not taken in, and a body of another length each give their result, and nothing else changes. That each of the six
HEAD_CONTROL rows takes, and refuses, a 0x11 frame whose body is not of two bytes is the model's choice (log entry 8). -/
def Obligations.KindModeAndFormChecked : Prop :=
  (∀ m : Mode, inAny m = true ∧ (inStandby m = true ↔ m = .standby) ∧ (inRunning m = true ↔ m = .running)) ∧
  (∀ (s : State) (f : HostFrame) (rest : List HostFrame), s.holds f rest → f.kind ∉ hostRows.map (·.kind) →
    exec .unknownCommand s = .next ((s.popped rest).answered f .unknownKind [])) ∧
  ∀ row ∈ hostRows, ∀ (s : State) (f : HostFrame) (rest : List HostFrame), s.holds f rest → f.kind = row.kind →
    (row.modes s.mode = false → exec row.command s = .next ((s.popped rest).answered f .wrongMode [])) ∧
    ∀ n, row.length = some n → row.modes s.mode = true → f.body.length ≠ n →
      exec row.command s = .next ((s.popped rest).answered f .badLength [])

/-- R170: a command that fails a check changes no state and is refused whole. A row whose frame is not the one at the
head, or that finds the slot full or the list empty, takes nothing (log entry 7). -/
def Obligations.RefusedCommandChangesNothing : Prop :=
  ∀ row ∈ hostRows, ∀ s : State, s.pin = false →
    (s.hli.slot ≠ none ∨ s.hli.inbound = [] → exec row.command s = .next s.kick) ∧
    ∀ (f : HostFrame) (rest : List HostFrame), s.holds f rest →
      (f.kind ≠ row.kind → exec row.command s = .next s.kick) ∧
      ∀ t, exec row.command s = .next t → t = s.kick ∨ ∃ (u : State) (result : Result) (data : List Byte),
        t = u.answered f result data ∧ (result ≠ .done → u = s.popped rest ∧ data = [])

/-- R173 and R107: the reading commands change nothing, and their data has the length and the places of section 11.9. That
the status data is that of the state with the command's own frame already out of the holding list is the model's reading
(log entry 14); a value that does not fit its field is a free value (log entry 3). -/
def Obligations.StatusAndTracksRead : Prop :=
  (∀ (s : State) (f : HostFrame) (rest : List HostFrame), s.holds f rest → f.body = [] →
    (f.kind = 0x01 →
      exec .getStatus s = .next ((s.popped rest).answered f .done (s.popped rest).statusData)) ∧
    (f.kind = 0x02 →
      exec .getTracks s = .next ((s.popped rest).answered f .done s.wtr.tracksData))) ∧
  (∀ s : State, s.statusData.length = 118 ∧ s.statusData.take 5 = s.mode.code :: beBytes 4 s.tu.stamp.toNat ∧
    (s.statusData.drop 86).take 28 = s.runCounters.flatMap (fun (n : Nat) => fieldU 2 n) ∧
    s.runCounters = [s.tu.accepted, s.tu.overruns, s.pxu.counters.outOfFrame, s.pxu.counters.short,
      s.pxu.counters.narrow, s.pxu.counters.wide, s.pxu.counters.outOfWindow, s.pxu.counters.dropped, s.wtr.tableFull,
      s.tu.mastsIgnored, s.lev.opened, s.lev.overflow, s.hli.traceDropped, s.hli.reportsLost] ∧
    s.statusData.drop 114 = fieldU 2 s.hli.badFrames ++ fieldU 2 s.hli.inboundOverruns ∧
    s.wtr.tracksData.length = 139 + 8 ∧ s.wtr.tracksData.take 2 = fieldU 2 s.wtr.nextId ∧
    ∀ k : Fin 8, (s.wtr.tracksData.drop (11 + 17 * k.val)).take 17 = (s.wtr.table[k]).bytes) ∧
  (∀ s : State,
    let number := fun (is : Slot → Bool) => fieldU 1 ((List.finRange 8).filter fun k => is s.wtr.table[k]).length
    (s.statusData.drop 5).take 21 = fieldS 4 s.tu.chainage ++ fieldS 6 s.tu.p ++ fieldS 6 s.tu.high ++
      fieldU 4 s.tu.scan ++ [if s.tu.watch = .forward then 0 else 1] ∧
    (∀ h : HeadNo, (s.statusData.drop (26 + 10 * h.val)).take 10 = [(s.head h).state.code, (s.head h).state.reasonCode] ++
      fieldU 1 (s.head h).misses ++ [if (s.head h).testSource then 1 else 0] ++ fieldU 2 (s.head h).missed ++
      fieldU 2 (s.head h).late ++ fieldU 2 (s.head h).frameErrors) ∧
    (∀ k : Fin 4, s.statusData[66 + k.val]? = some (match (s.mcv.channels[k]).state with
      | .armed => 0
      | .failed => 1
      | .off => 2)) ∧
    (s.statusData.drop 70).take 16 = fieldU 2 s.scu.inForce.id ++ [s.scu.dir.code] ++ fieldU 1 s.scu.queue.length ++
      number (fun x => match x with | .tentative _ _ => true | _ => false) ++
      number (fun x => match x with | .confirmed _ _ => true | _ => false) ++
      number (fun x => match x with | .coasting _ _ _ => true | _ => false) ++
      fieldU 1 s.lev.entries.length ++ [if s.lev.design then 1 else 0] ++ [if s.lev.bypass then 1 else 0] ++
      fieldU 1 ((List.finRange 16).filter fun k => (s.lev.rules[k]).lock).length ++ fieldU 1 s.hli.queue.length ++
      fieldU 1 (s.hli.queue.filter (·.report.isTrace)).length ++ fieldU 1 s.hli.inbound.length ++
      fieldU 2 s.hli.loss ∧
    s.scu.inForce.id = ((s.scu.cache.map (·.design.id)).getD s.scu.default.id) ∧
    [Mode.standby, .running, .stopping].map (·.code) = [0, 1, 2] ∧
    (s.wtr.tracksData.drop 2).take 9 = fieldU 4 s.wtr.lastScan ++ match s.wtr.watch with
      | .normal => [0] ++ fieldS 4 0
      | .pending onset => [1] ++ fieldS 4 onset
      | .reported => [2] ++ fieldS 4 0) ∧
  let held := fun t : Seen => [if t.face.isSome then 1 else 0] ++ fieldU 2 t.id ++ fieldS 2 t.x ++ fieldU 4 t.z ++
    fieldU 2 ((t.face.getD 0 : Nat) : Int) ++ fieldU 2 t.age
  Slot.empty.bytes = List.replicate 17 0 ∧
  ∀ (t : Seen) (n : Nat) (role : Role),
    (Slot.tentative t n).bytes = [1] ++ held t ++ fieldU 1 n ++ [0, 0] ∧
    (Slot.confirmed t role).bytes = [2] ++ held t ++ [0, 0, if role = .running then 0 else 1] ∧
    (Slot.coasting t n role).bytes = [3] ++ held t ++ [0] ++ fieldU 1 n ++ [if role = .running then 0 else 1]

/-! ## Settings -/

/-- R5 and R41: SET_HEAD replaces the calibration record and the link settings of one head, or refuses the whole. -/
def Obligations.SetHeadLoadsOrRefuses : Prop :=
  ∀ (s : State) (f : HostFrame) (rest : List HostFrame) (h x z m p i w win lim : Nat),
    s.holds f rest → f.kind = 0x10 → s.mode = .standby →
    fits [(1, h), (2, x), (2, z), (1, m), (1, p), (1, i), (1, w), (2, win), (1, lim)] →
    f.body = bodyOf [(1, h), (2, x), (2, z), (1, m), (1, p), (1, i), (1, w), (2, win), (1, lim)] →
    (∀ hd : HeadNo, hd.val = h → (-10000 ≤ signedOf 2 x ∧ signedOf 2 x ≤ 10000) → z ≤ 60000 → m ≤ 1 →
      (1 ≤ p ∧ p ≤ 50) → w ≤ 1 → (100 ≤ win ∧ win ≤ 5000) → (1 ≤ lim ∧ lim ≤ 16) →
      let u := (s.popped rest).setHead hd { s.head hd with responseWindow := win, missLimit := lim }
      let cal : Calibration :=
        { offset := signedOf 2 x, height := z, mirrored := m == 1, pitch := p, floor := i, wear := w == 1 }
      exec .setHead s = .next (({ u with pxu := { s.pxu with
        calibration := s.pxu.calibration.set hd cal } }).answered f .done [])) ∧
    (4 ≤ h ∨ signedOf 2 x < -10000 ∨ 10000 < signedOf 2 x ∨ 60000 < z ∨ 1 < m ∨ p < 1 ∨ 50 < p ∨ 1 < w ∨ win < 100 ∨
        5000 < win ∨ lim < 1 ∨ 16 < lim →
      exec .setHead s = .next ((s.popped rest).answered f .badValue []))

/-- R53: SET_TEST_PROFILE in every mode; a body that is not of the length its count gives is refused. The half-width is half
the width, rounded.
R54: TEST_SOURCE ON and OFF, and the points one wire of the test profile contributes at pitch `p`: at steps of `p`
from the wire's low end while its high end is not passed, 250 within half the face width and 100 beyond. -/
def Obligations.TestProfileAndTestSource : Prop :=
  (∀ (s : State) (f : HostFrame) (rest : List HostFrame), s.holds f rest → f.kind = 0x12 →
     (∀ n wires, f.body = n :: wires → wires.length ≠ 8 * n.toNat) →
     exec .setTestProfile s = .next ((s.popped rest).answered f .badLength [])) ∧
  (∀ (s : State) (f : HostFrame) (rest : List HostFrame) (ws : List TestWire),
     s.holds f rest → f.kind = 0x12 → ws.length < 256 →
     (∀ w ∈ ws, (-32768 ≤ w.centre ∧ w.centre ≤ 32767) ∧ w.v < 65536 ∧ w.width < 65536 ∧ w.face < 65536) →
     f.body = beBytes 1 ws.length ++
       ws.flatMap (fun w => fieldS 2 w.centre ++ fieldU 2 w.v ++ fieldU 2 w.width ++ fieldU 2 w.face) →
     let inRange := ws.length ≤ 2 ∧
       ∀ w ∈ ws, (-6000 ≤ w.centre ∧ w.centre ≤ 6000) ∧ w.v ≤ 20000 ∧ w.width ≤ 4000 ∧ w.face ≤ w.width
     let half := fun w : TestWire => ((w.width + 1) / 2 : Int)
     let clear := (∀ w ∈ ws, -6000 ≤ w.centre - half w ∧ w.centre + half w ≤ 6000) ∧
       ∀ a b, ws = [a, b] → a.centre + half a < b.centre - half b
     (inRange → clear → exec .setTestProfile s =
       .next (({ s.popped rest with hlc := { s.hlc with profile := ws } }).answered f .done [])) ∧
     (¬ inRange → exec .setTestProfile s = .next ((s.popped rest).answered f .badValue [])) ∧
     (inRange → ¬ clear → exec .setTestProfile s = .next ((s.popped rest).answered f .invalidCombination []))) ∧
  ((∀ (s : State) (f : HostFrame) (rest : List HostFrame) (h : HeadNo), s.holds f rest → f.kind = 0x11 →
     (f.body = [BitVec.ofNat 8 h.val, 4] → exec .testSourceOn s =
       .next (((s.popped rest).setHead h { s.head h with testSource := true }).answered f .done [])) ∧
     (f.body = [BitVec.ofNat 8 h.val, 5] → exec .testSourceOff s =
       .next (((s.popped rest).setHead h { s.head h with testSource := false }).answered f .done []))) ∧
   (∀ (w : TestWire) (p i : Nat), 0 < p →
     let half := ((w.width + 1) / 2 : Nat)
     let u : Int := w.centre - half + i * p
     (u ≤ w.centre + half → i < 480 → (testPoints [w] p)[i]? = some
       { u, v := w.v, intensity := if (u - w.centre).natAbs ≤ (w.face + 1) / 2 then 250 else 100 }) ∧
     (w.centre + half < u ∨ 480 ≤ i → (testPoints [w] p)[i]? = none)) ∧
   (∀ (a b : TestWire) (p : Nat), testPoints [a, b] p = (testPoints [a] p ++ testPoints [b] p).take 480) ∧
   ∀ p : Nat, testPoints [] p = [])

/-- R57 (and R6): SET_MOTION replaces the motion configuration and sets every channel afresh, or refuses the whole. That it
leaves the list of conversion sequences as it is, is the model's reading (log entry 22): R57 and R58 leave none there. -/
def Obligations.SetMotionLoadsOrRefuses : Prop :=
  ∀ (s : State) (f : HostFrame) (rest : List HostFrame) (e : Fin 4 → Nat) (c : Fin 4 → ChannelConfig) (t zr : Nat),
    let fields := (heads4.flatMap fun k =>
      [(1, e k), (2, (c k).zero), (2, (c k).scale), (2, (c k).low), (2, (c k).high)]) ++ [(2, t), (2, zr)]
    s.holds f rest → f.kind = 0x13 → s.mode = .standby → fits fields → f.body = bodyOf fields →
    let inRange := (∀ k, e k ≤ 1 ∧ (c k).zero ≤ 4095 ∧ (1 ≤ (c k).scale ∧ (c k).scale ≤ 4096) ∧ (c k).low ≤ 4095 ∧
      (c k).high ≤ 4095) ∧ (5000 ≤ t ∧ t ≤ 40000) ∧ zr ≤ 40000
    let channel := fun k : Fin 4 =>
      ({ config := { c k with enable := e k == 1 }, state := if e k = 1 then .armed else .off, last := none,
         count := 0 } : Channel)
    (inRange → (∀ k, (c k).low < (c k).high) → exec .setMotion s =
      .next (({ s.popped rest with mcv := { s.mcv with
        channels := #v[channel 0, channel 1, channel 2, channel 3], spacing := t, rollCentre := zr } }).answered
          f .done [])) ∧
    (¬ inRange → exec .setMotion s = .next ((s.popped rest).answered f .badValue [])) ∧
    (inRange → (∃ k, (c k).high ≤ (c k).low) →
      exec .setMotion s = .next ((s.popped rest).answered f .invalidCombination []))

/-- R67, R84, R19, R136 and R174: SET_EXTRACT, SET_TRACKER, SET_TRIGGER (the mode spelled by its code) and, in every mode,
SET_REPORTING, its gates as the bits of one byte. Each replaces its settings or refuses the whole. -/
def Obligations.SettingCommandsLoadOrRefuse : Prop :=
  (∀ (s : State) (f : HostFrame) (rest : List HostFrame) (a : ExtractSettings),
     let fields := [(2, a.gapX), (2, a.gapZ), (2, a.minPoints), (2, a.minExtent), (2, a.maxExtent),
       (2, a.faceIntensity), (2, a.faceTolerance), (2, a.mergeX), (2, a.mergeZ)]
     s.holds f rest → f.kind = 0x14 → s.mode = .standby → fits fields → f.body = bodyOf fields →
     let inRange := (1 ≤ a.gapX ∧ a.gapX ≤ 500) ∧ (1 ≤ a.gapZ ∧ a.gapZ ≤ 500) ∧ (2 ≤ a.minPoints ∧ a.minPoints ≤ 32) ∧
       (10 ≤ a.minExtent ∧ a.minExtent ≤ 2000) ∧ (10 ≤ a.maxExtent ∧ a.maxExtent ≤ 2000) ∧ a.faceIntensity ≤ 255 ∧
       a.faceTolerance ≤ 200 ∧ a.mergeX ≤ 500 ∧ a.mergeZ ≤ 1000
     (inRange → a.minExtent < a.maxExtent → exec .setExtract s =
       .next (({ s.popped rest with pxu := { s.pxu with settings := a } }).answered f .done [])) ∧
     (¬ inRange → exec .setExtract s = .next ((s.popped rest).answered f .badValue [])) ∧
     (inRange → a.maxExtent ≤ a.minExtent →
       exec .setExtract s = .next ((s.popped rest).answered f .invalidCombination []))) ∧
  (∀ (s : State) (f : HostFrame) (rest : List HostFrame) (a : TrackerSettings),
     let fields := [(2, a.gateX), (2, a.gateZ), (1, a.confirm), (1, a.coast), (2, a.band), (2, a.mismatch)]
     s.holds f rest → f.kind = 0x15 → s.mode = .standby → fits fields → f.body = bodyOf fields →
     let inRange := (1 ≤ a.gateX ∧ a.gateX ≤ 1000) ∧ (1 ≤ a.gateZ ∧ a.gateZ ≤ 2000) ∧ (1 ≤ a.confirm ∧ a.confirm ≤ 8) ∧
       (1 ≤ a.coast ∧ a.coast ≤ 64) ∧ a.band ≤ 5000 ∧ a.mismatch ≤ 1000
     (inRange → exec .setTracker s =
       .next (({ s.popped rest with wtr := { s.wtr with settings := a } }).answered f .done [])) ∧
     (¬ inRange → exec .setTracker s = .next ((s.popped rest).answered f .badValue []))) ∧
  (∀ (s : State) (f : HostFrame) (rest : List HostFrame) (m : Nat) (a : TravelConfig),
     let fields := [(1, m), (2, a.spacing), (2, a.interval), (2, a.ppm), (4, a.fixLimit)]
     s.holds f rest → f.kind = 0x1C → s.mode = .standby → fits fields → f.body = bodyOf fields →
     let inRange := (10 ≤ a.spacing ∧ a.spacing ≤ 500) ∧ (100 ≤ a.interval ∧ a.interval ≤ 50000) ∧
       (100 ≤ a.ppm ∧ a.ppm ≤ 20000) ∧ (100 ≤ a.fixLimit ∧ a.fixLimit ≤ 100000)
     (inRange → (m = 0 ∧ a.mode = .distance ∨ m = 1 ∧ a.mode = .time ∨ m = 2 ∧ a.mode = .command) →
       exec .setTrigger s =
         .next (({ s.popped rest with tu := { s.tu with config := a } }).answered f .done [])) ∧
     (¬ inRange ∨ 2 < m → exec .setTrigger s = .next ((s.popped rest).answered f .badValue []))) ∧
  (∀ (s : State) (f : HostFrame) (rest : List HostFrame) (g d lo hi : Nat),
     s.holds f rest → f.kind = 0x1D → fits [(1, g), (2, d), (1, lo), (1, hi)] →
     f.body = bodyOf [(1, g), (2, d), (1, lo), (1, hi)] →
     let inRange := g < 32 ∧ d ≤ 1000 ∧ (5 ≤ lo ∧ lo ≤ 100) ∧ (20 ≤ hi ∧ hi ≤ 200)
     (inRange → lo < hi → exec .setReporting s = .next (({ s.popped rest with
       hli := { (s.popped rest).hli with
         gates := { span := g % 2 == 1, advise := g / 2 % 2 == 1, action := g / 4 % 2 == 1, urgent := g / 8 % 2 == 1,
                    event := g / 16 % 2 == 1 }
         decimation := d }
       spu := { s.spu with minSpan := lo, maxSpan := hi } }).answered f .done [])) ∧
     (¬ inRange → exec .setReporting s = .next ((s.popped rest).answered f .badValue [])) ∧
     (inRange → hi ≤ lo → exec .setReporting s = .next ((s.popped rest).answered f .invalidCombination [])))

/-- R109 and R110: SET_WEAR_TABLE loads one table, or refuses by its stage and leaves every table as it was. The first part
is the form stage: a body that is not of the length its count gives. -/
def Obligations.SetWearTableLoadsOrRefuses : Prop :=
  (∀ (s : State) (f : HostFrame) (rest : List HostFrame), s.holds f rest → f.kind = 0x16 → s.mode = .standby →
    (∀ t h n points, f.body = t :: h :: n :: points → points.length ≠ 3 * n.toNat) →
    exec .setWearTable s = .next ((s.popped rest).answered f .badLength [])) ∧
  ∀ (s : State) (f : HostFrame) (rest : List HostFrame) (t h : Nat) (points : List (Nat × Nat)),
    let fields := [(1, t), (1, h), (1, points.length)] ++ points.flatMap (fun p => [(2, p.1), (1, p.2)])
    s.holds f rest → f.kind = 0x16 → s.mode = .standby → fits fields → f.body = bodyOf fields →
    let inRange := t < 8 ∧ (50 ≤ h ∧ h ≤ 250) ∧ ∀ p ∈ points, p.1 ≤ 400 ∧ p.2 ≤ 250
    let shaped := (2 ≤ points.length ∧ points.length ≤ 16) ∧ points.Pairwise (fun a b => a.1 < b.1 ∧ b.2 ≤ a.2) ∧
      ∀ p ∈ points, p.2 ≤ h
    (inRange → shaped → ∀ k : Fin 8, k.val = t → exec .setWearTable s =
      .next (({ s.popped rest with wru := { s.wru with
        tables := s.wru.tables.set k (some { nominal := h, points }) } }).answered f .done [])) ∧
    (¬ inRange → exec .setWearTable s = .next ((s.popped rest).answered f .badValue [])) ∧
    (inRange → ¬ shaped → exec .setWearTable s = .next ((s.popped rest).answered f .badTable []))

/-! ## The route -/

/-- R121: SET_DEFAULT_SECTION, stage by stage. -/
def Obligations.SetDefaultSectionStages : Prop :=
  ∀ (s : State) (f : HostFrame) (rest : List HostFrame) (wire n : Nat) (d : Design),
    let fields := [(1, wire), (1, d.expectedMin), (1, d.expectedMax), (4, d.height), (2, d.band), (2, d.staggerLimit),
      (1, d.minThickness), (1, n)]
    s.holds f rest → f.kind = 0x17 → s.mode = .standby → fits fields → f.body = bodyOf fields → d.id = 0 →
    (d.wireType.val = wire ∨ 8 ≤ wire) → (d.neutral = (n == 1)) →
    let inRange := wire < 8 ∧ (1 ≤ d.expectedMin ∧ d.expectedMin ≤ 4) ∧ (1 ≤ d.expectedMax ∧ d.expectedMax ≤ 4) ∧
      (30000 ≤ d.height ∧ d.height ≤ 80000) ∧ (500 ≤ d.band ∧ d.band ≤ 10000) ∧
      (500 ≤ d.staggerLimit ∧ d.staggerLimit ≤ 7000) ∧ d.minThickness ≤ 250 ∧ n ≤ 1
    (¬ inRange → exec .setDefaultSection s = .next ((s.popped rest).answered f .badValue [])) ∧
    (inRange → d.expectedMax < d.expectedMin →
      exec .setDefaultSection s = .next ((s.popped rest).answered f .invalidCombination [])) ∧
    (inRange → d.expectedMin ≤ d.expectedMax → s.wru.tables[d.wireType] = none →
      exec .setDefaultSection s = .next ((s.popped rest).answered f .badTable [])) ∧
    (inRange → d.expectedMin ≤ d.expectedMax → s.wru.tables[d.wireType] ≠ none → exec .setDefaultSection s =
      .next (({ s.popped rest with scu := { s.scu with default := d } }).answered f .done []))

/-- R123: CLEAR_ROUTE in every mode; in RUNNING and STOPPING it keeps the run's direction. -/
def Obligations.ClearRouteStages : Prop :=
  (∀ (s : State) (f : HostFrame) (rest : List HostFrame), s.holds f rest → f.kind = 0x18 → f.body.length ≠ 1 →
    exec .clearRoute s = .next ((s.popped rest).answered f .badLength [])) ∧
  ∀ (s : State) (f : HostFrame) (rest : List HostFrame) (b : Byte), s.holds f rest → f.kind = 0x18 → f.body = [b] →
    (2 ≤ b.toNat → exec .clearRoute s = .next ((s.popped rest).answered f .badValue [])) ∧
    ∀ d : Dir, (d = .ascending ∧ b = 0 ∨ d = .descending ∧ b = 1) →
      (s.mode ≠ .standby → d ≠ s.tu.dir →
        exec .clearRoute s = .next ((s.popped rest).answered f .invalidCombination [])) ∧
      (s.mode = .standby ∨ d = s.tu.dir → exec .clearRoute s = .next (({ s.popped rest with
        scu := { s.scu with dir := d, queue := [], cache := none, armed := false } }).answered f .done []))

/-- R125 and R126: APPEND_SECTION, its stages after the form, in their order. -/
def Obligations.AppendSectionStages : Prop :=
  ∀ (s : State) (f : HostFrame) (rest : List HostFrame) (a b wire n : Nat) (sec : RouteSection),
    let d := sec.design
    let fields := [(2, d.id), (4, a), (4, b), (1, wire), (1, d.expectedMin), (1, d.expectedMax), (4, d.height),
      (2, d.band), (2, d.staggerLimit), (1, d.minThickness), (1, n)]
    s.holds f rest → f.kind = 0x19 → fits fields → f.body = bodyOf fields → sec.start = signedOf 4 a →
    sec.stop = signedOf 4 b → (d.wireType.val = wire ∨ 8 ≤ wire) → (d.neutral = (n == 1)) →
    let inRange := 1 ≤ d.id ∧ (-2000000000 ≤ sec.start ∧ sec.start ≤ 2000000000) ∧
      (-2000000000 ≤ sec.stop ∧ sec.stop ≤ 2000000000) ∧ wire < 8 ∧ (1 ≤ d.expectedMin ∧ d.expectedMin ≤ 4) ∧
      (1 ≤ d.expectedMax ∧ d.expectedMax ≤ 4) ∧ (30000 ≤ d.height ∧ d.height ≤ 80000) ∧
      (500 ≤ d.band ∧ d.band ≤ 10000) ∧ (500 ≤ d.staggerLimit ∧ d.staggerLimit ≤ 7000) ∧ d.minThickness ≤ 250 ∧ n ≤ 1
    let combined := (s.scu.dir = .ascending → sec.start < sec.stop) ∧ (s.scu.dir = .descending → sec.stop < sec.start) ∧
      d.expectedMin ≤ d.expectedMax ∧ (∀ q ∈ s.scu.queue, q.design.id ≠ d.id) ∧
      ∀ q, s.scu.cache = some q → q.design.id ≠ d.id
    let placed := (∀ q, s.scu.queue.getLast? = some q → s.scu.dir.reached sec.start q.stop = true) ∧
      ∀ q, s.scu.queue = [] → s.scu.cache = some q → s.scu.dir.reached sec.start q.stop = true
    let loaded := s.wru.tables[d.wireType] ≠ none
    (¬ inRange → exec .appendSection s = .next ((s.popped rest).answered f .badValue [])) ∧
    (inRange → ¬ combined → exec .appendSection s = .next ((s.popped rest).answered f .invalidCombination [])) ∧
    (inRange → combined → ¬ loaded → exec .appendSection s = .next ((s.popped rest).answered f .badTable [])) ∧
    (inRange → combined → loaded → ¬ placed →
      exec .appendSection s = .next ((s.popped rest).answered f .badValue [])) ∧
    (inRange → combined → loaded → placed → 32 ≤ s.scu.queue.length →
      exec .appendSection s = .next ((s.popped rest).answered f .queueFull [])) ∧
    (inRange → combined → loaded → placed → s.scu.queue.length < 32 → exec .appendSection s =
      .next (({ s.popped rest with scu := { s.scu with queue := s.scu.queue ++ [sec] } }).answered f .done []))

/-! ## Rules and the policy -/

/-- R152 with the threshold ranges of R153: SET_RULE, its stages after the form. The enumerated fields are spelled by
their codes.
R156: SET_POLICY, its ranges and its protection stage. -/
def Obligations.RuleAndPolicyStages : Prop :=
  (∀ (s : State) (f : HostFrame) (rest : List HostFrame) (i en q flt sev rep lk : Nat) (r : LimitRule),
     let fields := [(1, i), (1, en), (1, q), (2, r.firstId), (2, r.lastId), (1, flt), (4, r.threshold), (1, sev),
       (1, rep), (1, lk)]
     s.holds f rest → f.kind = 0x1A → s.mode = .standby → fits fields → f.body = bodyOf fields →
     r.enabled = (en == 1) → r.runningOnly = (flt == 1) → r.report = (rep == 1) → r.lock = (lk == 1) →
     (r.quantity.code = BitVec.ofNat 8 q ∨ 5 ≤ q) → (r.severity.code = BitVec.ofNat 8 sev ∨ 3 ≤ sev) →
     let limit := match r.quantity with
       | .thickness => 250
       | .wear => 1000
       | .stagger => 7000
       | .heightLow => 99999
       | .heightHigh => 99999
     let inRange := i < 16 ∧ en ≤ 1 ∧ q < 5 ∧ flt ≤ 1 ∧ sev < 3 ∧ rep ≤ 1 ∧ lk ≤ 1 ∧ r.threshold ≤ limit
     (¬ inRange → exec .setRule s = .next ((s.popped rest).answered f .badValue [])) ∧
     (inRange → r.lastId < r.firstId → exec .setRule s = .next ((s.popped rest).answered f .invalidCombination [])) ∧
     ∀ k : Fin 16, k.val = i → inRange → r.firstId ≤ r.lastId →
       ((s.lev.rules[k]).lock = true → s.lev.bypass = false →
         exec .setRule s = .next ((s.popped rest).answered f .locked [])) ∧
       ((s.lev.rules[k]).lock = false ∨ s.lev.bypass = true → exec .setRule s =
         .next (({ s.popped rest with lev := { s.lev with rules := s.lev.rules.set k r } }).answered f .done []))) ∧
  (∀ (s : State) (f : HostFrame) (rest : List HostFrame) (p b : Byte), s.holds f rest → f.kind = 0x1B →
     s.mode = .standby → f.body = [p, b] →
     let inRange := p.toNat ≤ 1 ∧ b.toNat ≤ 1
     let guarded := (s.lev.design = true ∧ p = 0) ∨
       (s.lev.bypass = false ∧ b = 1 ∧ ∃ k : Fin 16, (s.lev.rules[k]).lock = true)
     (¬ inRange → exec .setPolicy s = .next ((s.popped rest).answered f .badValue [])) ∧
     (inRange → guarded → exec .setPolicy s = .next ((s.popped rest).answered f .locked [])) ∧
     (inRange → ¬ guarded → exec .setPolicy s = .next (({ s.popped rest with
       lev := { s.lev with design := p == 1, bypass := b == 1 } }).answered f .done [])))

/-! ## Heads -/

/-- R36: INIT from DISABLED or ISOLATED, RESTORE from ISOLATED alone; each sends CLEAR, moves the head to CLEARING, reports
it and starts the timer at 2000 ms. A head number or an action of no meaning is refused by every row. -/
def Obligations.HeadInitAndRestore : Prop :=
  (∀ (s : State) (f : HostFrame) (rest : List HostFrame) (h : HeadNo), s.holds f rest → f.kind = 0x11 →
    let moved := s.popped rest |>.setHead h { s.head h with state := .clearing, clearing := some 2000000 }
    let begun := ({ moved with
      hlc := { moved.hlc with sent := s.hlc.sent ++ [(h, clearBytes)] }
      hli := moved.hli.headMoved h .clearing false } : State)
    let refused := (s.popped rest).answered f .invalidCombination []
    (f.body = [BitVec.ofNat 8 h.val, 0] →
      ((s.head h).state = .disabled ∨ (∃ r, (s.head h).state = .isolated r) →
        exec .headInit s = .next (begun.answered f .done [])) ∧
      ((s.head h).state = .clearing ∨ (s.head h).state = .active → exec .headInit s = .next refused)) ∧
    (f.body = [BitVec.ofNat 8 h.val, 1] →
      ((∃ r, (s.head h).state = .isolated r) → exec .headRestore s = .next (begun.answered f .done [])) ∧
      ((∀ r, (s.head h).state ≠ .isolated r) → exec .headRestore s = .next refused))) ∧
  (∀ (s : State) (f : HostFrame) (rest : List HostFrame) (h a : Byte), s.holds f rest → f.kind = 0x11 →
    f.body = [h, a] → 4 ≤ h.toNat ∨ 6 ≤ a.toNat →
    ∀ row ∈ ([(.headInit, 0), (.headRestore, 1), (.headIsolate, 2), (.headDisable, 3), (.testSourceOn, 4),
      (.testSourceOff, 5)] : List (Instr × Byte)),
      a = row.2 ∨ 6 ≤ a.toNat → exec row.1 s = .next ((s.popped rest).answered f .badValue [])) ∧
  clearBytes.take 4 = [0xA5, 0, 0, 0x01] ∧ clearBytes.length = 6

/-- R38 and R39: ISOLATE of an ACTIVE or CLEARING head, DISABLE of any; an open answer of the head closes absent with
reason COMMAND and without a miss, which may complete its scan (R51). With none open the scan records and pairs stay; the
banks, the test profile and the frames sent stay in every case. -/
def Obligations.HeadIsolateAndDisable : Prop :=
  ∀ (s : State) (f : HostFrame) (rest : List HostFrame) (h : HeadNo), s.holds f rest → f.kind = 0x11 →
    let reported := fun st : HeadState => ((s.popped rest).hli.headMoved h st (s.lastActive h)).answered f .done []
    (f.body = [BitVec.ofNat 8 h.val, 2] →
      ((s.head h).state = .active ∨ (s.head h).state = .clearing → ∃ t, exec .headIsolate s = .next t ∧
        t.head h = { s.head h with state := .isolated .command, clearing := none } ∧
        (∀ j, j ≠ h → t.head j = s.head j) ∧ s.sameBehindHeads t ∧ t.hli = reported (.isolated .command) ∧
        s.sameBanks t ∧ ((s.head h).state = .clearing ∨ s.openScan h = none →
          t.hlc.scans = s.hlc.scans ∧ t.hlc.pairs = s.hlc.pairs) ∧
        ((s.head h).state = .active → ∀ r, s.openScan h = some r →
          t.answerIs r.header.scan h (.absent .command) ∧ (s.banksOwned → s.answerTakes t r h (.absent .command)))) ∧
      ((s.head h).state = .disabled ∨ (∃ r, (s.head h).state = .isolated r) →
        exec .headIsolate s = .next ((s.popped rest).answered f .invalidCombination []))) ∧
    (f.body = [BitVec.ofNat 8 h.val, 3] →
      ((s.head h).state = .disabled → exec .headDisable s = .next ((s.popped rest).answered f .done [])) ∧
      ((s.head h).state ≠ .disabled → ∃ t, exec .headDisable s = .next t ∧
        t.head h = { s.head h with state := .disabled, clearing := none, misses := 0, window := false } ∧
        (∀ j, j ≠ h → t.head j = s.head j) ∧ s.sameBehindHeads t ∧ t.hli = reported .disabled ∧
        s.sameBanks t ∧ ((s.head h).state ≠ .active ∨ s.openScan h = none →
          t.hlc.scans = s.hlc.scans ∧ t.hlc.pairs = s.hlc.pairs) ∧
        ((s.head h).state = .active → ∀ r, s.openScan h = some r →
          t.answerIs r.header.scan h (.absent .command) ∧ (s.banksOwned → s.answerTakes t r h (.absent .command)))))

/-- R37 and R40: what ends clearing, and a READY or an expiry that finds the head in another state (R40 discards the
READY; that an expiry then does nothing is the model's choice, log entry 7). The receiver hunts. -/
def Obligations.ReadyOrTimerEndsClearing : Prop :=
  ∀ (s : State) (h : HeadNo) (status : Byte), s.pin = false → (s.head h).rx = [] →
    let becomes := fun x : Head => ({ s.setHead h x with hli := s.hli.headMoved h x.state false } : State).kick
    let failed := becomes { s.head h with state := .isolated .clearFailed, clearing := none }
    ((s.head h).state = .clearing → status.getLsbD 0 = false →
      exec (.ready h (readyBytes status)) s = .next (becomes
        { s.head h with state := .active, clearing := none, misses := 0, window := status.getLsbD 1 })) ∧
    ((s.head h).state = .clearing → status.getLsbD 0 = true →
      exec (.ready h (readyBytes status)) s = .next failed) ∧
    ((s.head h).state = .clearing → exec (.clearingTimerExpiry h) s = .next failed) ∧
    ((s.head h).state ≠ .clearing → exec (.ready h (readyBytes status)) s = .next s.kick ∧
      exec (.clearingTimerExpiry h) s = .next s.kick)

/-- R45 (test 3) and R54: a matching, well-formed PROFILE without FAULT closes its answer PRESENT, writes the head's bank
of the scan's parity, zeroes the miss count and sets the latched WINDOW when its status carries it.
R45 (tests 1 and 2), R46, R49 and R40: a matching PROFILE with FAULT isolates the head without a miss; one without FAULT
whose point list is malformed is a frame error and a miss; a PROFILE that matches no open answer is late, and only
counted; a PROFILE to a DISABLED or ISOLATED head is discarded.
R51: the record whose last answer so closes is complete, its bank pair PROCESSING, when its motion sample has arrived, and
gathers on, its pair FILLING, otherwise. R44: the record found is the first that holds an open answer of the head. -/
def Obligations.ProfileClosesItsAnswer : Prop :=
  (∀ (s : State) (h : HeadNo),
     let owed := fun r : ScanRecord => ∃ n, r.answers[h] = .open n
     (∀ r, s.openScan h = some r ↔ ∃ a b, s.hlc.scans = a ++ r :: b ∧ owed r ∧ ∀ x ∈ a, ¬ owed x) ∧
     (s.openScan h = none ↔ ∀ r ∈ s.hlc.scans, ¬ owed r)) ∧
  (∀ (s : State) (h : HeadNo) (r : ScanRecord) (status : Byte) (points : List Point), s.pin = false →
     (s.head h).rx = [] → (s.head h).state = .active → s.openScan h = some r → points.length ≤ 480 →
     points.Pairwise (fun a b => a.u < b.u) →
     (∀ p ∈ points, (-6000 ≤ p.u ∧ p.u ≤ 6000) ∧ p.v ≤ 20000 ∧ p.intensity < 256) → status.getLsbD 0 = false →
     let window := (s.head h).window || status.getLsbD 1
     let written := if (s.head h).testSource then testPoints s.hlc.profile (s.pxu.calibration[h]).pitch else points
     ∃ t, exec (.profile h (profileBytes (r.header.scan % 65536) status points)) s = .next t ∧
       t.head h = { s.head h with misses := 0, window } ∧ (∀ j, j ≠ h → t.head j = s.head j) ∧
       t.answerIs r.header.scan h (.present window) ∧
       (s.banksOwned → s.answerTakes t r h (.present window)) ∧
       (t.hlc.pairs[parity r.header.scan]).banks[h] = { status, points := written } ∧
       (∀ (k : Fin 2) (j : HeadNo), k ≠ parity r.header.scan ∨ j ≠ h →
         (t.hlc.pairs[k]).banks[j] = (s.hlc.pairs[k]).banks[j]) ∧ t.hlc.profile = s.hlc.profile ∧
       t.hlc.sent = s.hlc.sent ∧ s.sameBehindHeads t ∧ t.hli = s.hli.kick) ∧
  (∀ (s : State) (h : HeadNo) (n : Nat) (status : Byte) (points : List Point), s.pin = false → (s.head h).rx = [] →
     n < 65536 → points.length ≤ 480 →
     (∀ p ∈ points, (-32768 ≤ p.u ∧ p.u ≤ 32767) ∧ p.v < 65536 ∧ p.intensity < 256) →
     let run := exec (.profile h (profileBytes n status points)) s
     let late := (s.setHead h { s.head h with late := countUp (s.head h).late }).kick
     ((s.head h).state = .active → status.getLsbD 0 = true → ∀ r, s.openScan h = some r → n = r.header.scan % 65536 →
       ∃ t, run = .next t ∧ t.head h = { s.head h with state := .isolated .headFault } ∧
         (∀ j, j ≠ h → t.head j = s.head j) ∧ t.answerIs r.header.scan h (.absent .headFault) ∧
         (s.banksOwned → s.answerTakes t r h (.absent .headFault)) ∧ s.sameBanks t ∧ s.sameBehindHeads t ∧
         t.hli = (s.hli.headMoved h (.isolated .headFault) (s.lastActive h)).kick) ∧
     ((s.head h).state = .active → status.getLsbD 0 = false → ¬ (points.Pairwise (fun a b => a.u < b.u) ∧
         ∀ p ∈ points, (-6000 ≤ p.u ∧ p.u ≤ 6000) ∧ p.v ≤ 20000) →
       ∀ r, s.openScan h = some r → n = r.header.scan % 65536 →
       ∃ t, run = .next t ∧ s.missed t h r .malformed (countUp (s.head h).frameErrors)) ∧
     ((s.head h).state = .clearing → run = .next late) ∧
     ((s.head h).state = .active → (∀ r, s.openScan h = some r → n ≠ r.header.scan % 65536) → run = .next late) ∧
     ((s.head h).state = .disabled ∨ (∃ r, (s.head h).state = .isolated r) → run = .next s.kick))

/-- R33, R34, R40, R46, R47, R48 and R50: what costs an ACTIVE head its open answer, with the reason it closes with and
whether it is a frame error; at the miss limit the head is ISOLATED with that reason. The closing may complete the scan
(R51). Without an open answer, and in CLEARING, a bad or unusable frame is only counted, and a DISABLED or ISOLATED
head's is not. That RESPONSE_WINDOW_EXPIRY with no open answer does nothing is the model's choice (log entry 7). -/
def Obligations.MissClosesAnswer : Prop :=
  ∀ (s : State) (h : HeadNo) (bytes : List Byte) (reason : Reason) (c : Instr) (counted : Bool), s.pin = false →
    (s.head h).rx = [] →
    (c = .headBadFrame h bytes ∧ headReceive [] bytes = ([.bad], []) ∧ reason = .frameCheck ∧ counted = true ∨
      c = .headUnusableFrame h bytes ∧ headReceive [] bytes = ([.unusable], []) ∧ reason = .malformed ∧ counted = true ∨
      c = .responseWindowExpiry h ∧ reason = .noAnswer ∧ counted = false) →
    let errors := if counted then countUp (s.head h).frameErrors else (s.head h).frameErrors
    (∀ r, (s.head h).state = .active → s.openScan h = some r →
      ∃ t, exec c s = .next t ∧ s.missed t h r reason errors) ∧
    ((s.head h).state = .active ∧ s.openScan h = none ∨ (s.head h).state = .clearing ∧ counted = true →
      exec c s = .next (s.setHead h { s.head h with frameErrors := errors }).kick) ∧
    (counted = true → (s.head h).state = .disabled ∨ (∃ r, (s.head h).state = .isolated r) →
      exec c s = .next s.kick)

/-! ## Travel -/

/-- R16, R17, R21 and R27: a pulse moves p by one, h follows it up, and in RUNNING the reverse watch moves, offering
TRAVEL_REVERSED or TRAVEL_RESUMED with the chainage of the new p, and, in DISTANCE mode, the pulse that first reaches the
next trigger position makes the trigger due: it is presented for acceptance as R43 says, the index having risen. -/
def Obligations.OdometerPulseCounts : Prop :=
  ∀ (s : State) (toward : CarEnd), s.pin = false → ∃ t, exec (.odometerPulse toward) s = .next t ∧
    let p := if toward = s.pxu.leading then s.tu.p + 1 else s.tu.p - 1
    let k := s.tu.nextTrigger
    let position : Int := ((k * s.tu.config.spacing * s.tu.config.ppm + 999) / 1000 : Nat)
    t.tu.p = p ∧ t.tu.high = max s.tu.high p ∧ t.pxu = s.pxu ∧ t.wtr = s.wtr ∧ t.wru = s.wru ∧ t.spu = s.spu ∧
    t.lev = s.lev ∧ t.mode = s.mode ∧
    (s.mode ≠ .running → t = { s with tu := { s.tu with p := p, high := max s.tu.high p } }.kick) ∧
    (s.mode = .running →
      t.tu.watch = (match s.tu.watch with
        | .forward => if p < s.tu.p ∧ p ≤ max s.tu.high p - s.tu.config.ppm then .reversed else .forward
        | .reversed => if s.tu.high < p then .forward else .reversed) ∧
      (s.tu.config.mode = .distance ∧ s.tu.p < p ∧ p = position ∧ s.tu.high < position →
        t.tu.nextTrigger = k + 1 ∧ t.tu.scan = (if s.accepts then s.tu.scan + 1 else s.tu.scan) ∧
        t.tu.overruns = if s.accepts then s.tu.overruns else countUp s.tu.overruns) ∧
      (¬ (s.tu.config.mode = .distance ∧ s.tu.p < p ∧ p = position ∧ s.tu.high < position) →
        t.tu.nextTrigger = k ∧ t.tu.scan = s.tu.scan ∧ t.hlc = s.hlc ∧ t.scu = s.scu ∧ t.mcv = s.mcv) ∧
      ∃ u : State,
        ((u.tu.watch = s.tu.watch ∧ u.hli = s.hli) ∨
          (s.tu.watch = .forward ∧ u.tu.watch = .reversed ∧
            u.hli = s.hli.offer (.event (.travelReversed (s.tu.chainageOf p)))) ∨
          (s.tu.watch = .reversed ∧ u.tu.watch = .forward ∧
            u.hli = s.hli.offer (.event (.travelResumed (s.tu.chainageOf p))))) ∧
        u = { s with
          tu := { s.tu with p := p, high := max s.tu.high p, watch := t.tu.watch, nextTrigger := t.tu.nextTrigger }
          hli := u.hli } ∧
        (s.tu.config.mode = .distance ∧ s.tu.p < p ∧ p = position ∧ s.tu.high < position → t = u.trigger.kick) ∧
        (¬ (s.tu.config.mode = .distance ∧ s.tu.p < p ∧ p = position ∧ s.tu.high < position) → t = u.kick))

/-- R24, R25, R26, R29, R43, R44, R48, R58, R129 and R131: a due trigger is accepted when the bank pair of the next scan's
parity is FREE and the scan number is below its limit, and is an overrun otherwise. An acceptance closes the open answers
of the scan before as NO_ANSWER misses. POSITION_FIXED, what those misses report and the section events are offered in
that order, which the model chooses among the blocks (log entry 9), and among the heads in their order (log entry 25).
That a held mast mark raised by the offset is not limited to the range of R1 is the model's choice (log entry 24).
R22, R23 and R176: what makes a trigger due in TIME and in COMMAND mode. That the time stamp stands at the due time
after TIME_TRIGGER_DUE, and that the event does nothing where it cannot occur, are the model's choices (log entries 2
and 7). -/
def Obligations.TriggersDueAcceptedOrOverrun : Prop :=
  (∀ n : Nat, (parity n).val = n % 2 ∧ scanBytes n = [0xA5, 0, 2, 0x02] ++ beBytes 2 (n % 65536) ++
    checkBytes ([0, 2, 0x02] ++ beBytes 2 (n % 65536))) ∧
  (∀ s : State,
     let n := s.tu.scan + 1
     let offset := s.tu.pendingFix.getD 0
     let free := (s.hlc.pairs[parity n]).owner = .free ∧ s.tu.scan < 4294967295
     (s.accepts = true ↔ free) ∧
     (free → ∃ r, s.trigger.hlc.scans.getLast? = some r ∧
       r.header = { scan := n, stamp := s.tu.stamp, chainage := { s.tu with base := s.tu.base + offset }.chainage,
                    gap := s.tu.gap, fix := s.tu.pendingFix.map fun o => decide (s.tu.config.fixLimit < o.natAbs),
                    mast := s.tu.mast.map (· + offset) } ∧
       r.snapshot = s.trigger.scu.inForce ∧
       r.snapshot = (s.trigger.scu.cache.map (·.design)).getD s.trigger.scu.default ∧
       r.motion = none ∧ r.stage = .gathering ∧
       (∀ h : HeadNo, r.answers[h] =
         if (s.trigger.head h).state = .active then .open (s.trigger.head h).responseWindow else .notAsked) ∧
       (s.trigger.hlc.pairs[parity n]).owner = .filling ∧
       s.trigger.mcv = { s.mcv with sequences := s.mcv.sequences ++ [n] } ∧
       s.trigger.hlc.sent = s.hlc.sent ++
         (heads4.filter fun h => (s.trigger.head h).state == .active).map (fun h => (h, scanBytes n)) ∧
       s.trigger.tu = { s.tu with scan := n, gap := 0, base := s.tu.base + offset, pendingFix := none, mast := none,
                                  accepted := countUp s.tu.accepted } ∧
       s.trigger.scu = (s.scu.activate r.header.chainage).1 ∧ s.trigger.pxu = s.pxu ∧ s.trigger.wtr = s.wtr ∧
       s.trigger.wru = s.wru ∧ s.trigger.spu = s.spu ∧ s.trigger.lev = s.lev ∧ s.trigger.mode = s.mode ∧
       s.trigger.pending = s.pending ∧ s.trigger.pin = s.pin ∧ s.trigger.closing = s.closing ∧
       s.trigger.hlc.profile = s.hlc.profile ∧
       (∀ k : Fin 2, (s.trigger.hlc.pairs[k]).banks = (s.hlc.pairs[k]).banks) ∧
       let fixed := s.hli.offerAll (s.tu.pendingFix.map fun o => Report.event (.positionFixed o)).toList
       let waiting := heads4.filter fun h => (s.openScan h).isSome
       let before := waiting.foldl (fun t h => t.missAnswer h .noAnswer) { s with hli := fixed }
       s.trigger.hli = before.hli.offerAll ((s.scu.activate r.header.chainage).2.map Report.event) ∧
       s.trigger.hlc.scans = before.hlc.scans ++ [r] ∧
       (∀ k : Fin 2, k ≠ parity n → (s.trigger.hlc.pairs[k]).owner = (before.hlc.pairs[k]).owner) ∧
       (∀ h, waiting = [h] → before.hli = if (s.head h).missLimit ≤ (s.head h).misses + 1 then
         fixed.headMoved h (.isolated .noAnswer) (s.lastActive h) else fixed) ∧
       (waiting = [] → before.hli = fixed ∧ before.hlc = s.hlc) ∧
       ∀ h : HeadNo, (∀ q, s.openScan h = some q → s.trigger.answerIs q.header.scan h (.absent .noAnswer) ∧
           s.trigger.head h = { s.head h with
             misses := (s.head h).misses + 1
             missed := countUp (s.head h).missed
             state := if (s.head h).missLimit ≤ (s.head h).misses + 1 then .isolated .noAnswer
               else (s.head h).state }) ∧
         (s.openScan h = none → s.trigger.head h = s.head h)) ∧
     (¬ free → s.trigger = { s with tu := { s.tu with
       overruns := countUp s.tu.overruns, gap := countUp s.tu.gap } })) ∧
  ((∀ (s : State) (due : Stamp), s.pin = false → s.mode = .running → s.tu.config.mode = .time →
     s.tu.nextDue = some due → exec .timeTriggerDue s = .next ({ s with tu := { s.tu with
       stamp := due, nextDue := some (due + BitVec.ofNat 32 s.tu.config.interval) } }.trigger.kick)) ∧
   (∀ s : State, s.pin = false → (s.mode ≠ .running ∨ s.tu.config.mode ≠ .time ∨ s.tu.nextDue = none) →
     exec .timeTriggerDue s = .next s.kick) ∧
   ∀ (s : State) (f : HostFrame) (rest : List HostFrame), s.holds f rest → f.kind = 0x22 → f.body = [] →
     s.mode = .running →
     (s.tu.config.mode = .command → exec .scanOnce s = .next ((s.popped rest).trigger.answered f .done [])) ∧
     (s.tu.config.mode ≠ .command →
       exec .scanOnce s = .next ((s.popped rest).answered f .invalidCombination [])))

/-- R28 and R30: a mast pulse is recorded, or counted as ignored, in RUNNING alone; POSITION_FIX holds the offset of the
true chainage from the chainage of the current p. -/
def Obligations.MastPulseAndPositionFix : Prop :=
  (∀ s : State, s.pin = false →
    (s.mode = .running → s.tu.high ≤ s.tu.p → s.tu.mast = none →
      exec .mastPulse s = .next ({ s with tu := { s.tu with mast := some s.tu.chainage } }.kick)) ∧
    (s.mode = .running → (s.tu.p < s.tu.high ∨ s.tu.mast ≠ none) →
      exec .mastPulse s = .next ({ s with tu := { s.tu with mastsIgnored := countUp s.tu.mastsIgnored } }.kick)) ∧
    (s.mode ≠ .running → exec .mastPulse s = .next s.kick)) ∧
  ∀ (s : State) (f : HostFrame) (rest : List HostFrame) (v : Nat), s.holds f rest → f.kind = 0x23 →
    s.mode = .running → v < 256 ^ 4 → f.body = bodyOf [(4, v)] →
    let c := signedOf 4 v
    let offset := c - s.tu.chainage
    let inRange := -2000000000 ≤ c ∧ c ≤ 2000000000
    let near := -2000000000 ≤ offset ∧ offset ≤ 2000000000
    (¬ inRange → exec .positionFix s = .next ((s.popped rest).answered f .badValue [])) ∧
    (inRange → ¬ near → exec .positionFix s = .next ((s.popped rest).answered f .invalidCombination [])) ∧
    (inRange → near → exec .positionFix s =
      .next (({ s.popped rest with tu := { s.tu with pendingFix := some offset } }).answered f .done []))

/-- R18 and the rounding of R1: a rounded quotient is the nearest integer, halves away from zero, and the chainage of a
pulse position is formed with it and limited to its bounds. -/
def Obligations.RoundingAndChainage : Prop :=
  (∀ n d q : Int, 0 < d → (Rounds n d q ↔ q = roundDiv n d)) ∧
  (∀ t : Tu, t.chainage = t.chainageOf t.p) ∧
  ∀ (t : Tu) (p : Int), 0 < t.config.ppm → ∃ q, Rounds (p * 1000) t.config.ppm q ∧
    t.chainageOf p = max (-2000000000) (min 2000000000 (match t.dir with
      | .ascending => t.base + q
      | .descending => t.base - q))

/-! ## Motion -/

/-- R59 to R62: what a channel makes of its code. -/
def Obligations.ChannelJudgement : Prop :=
  ∀ (c : Channel) (code : Nat),
    (c.state = .armed → c.config.low ≤ code → code ≤ c.config.high →
      ∃ q, Rounds (((code : Int) - c.config.zero) * c.config.scale) 1024 q ∧
        judgeCode c code =
          { channel := { c with last := some (max (-2000) (min 2000 q)), count := 0 },
            value := some (max (-2000) (min 2000 q)), held := false, failed := false }) ∧
    (c.state = .armed → (code < c.config.low ∨ c.config.high < code) → c.count < 15 →
      judgeCode c code = { channel := { c with count := c.count + 1 }, value := some (c.last.getD 0), held := true,
                           failed := false }) ∧
    (c.state = .armed → (code < c.config.low ∨ c.config.high < code) → 15 ≤ c.count →
      judgeCode c code = { channel := { c with count := c.count + 1, state := .failed }, value := none, held := false,
                           failed := true }) ∧
    (c.state ≠ .armed → judgeCode c code = { channel := c, value := none, held := false, failed := false })

/-- R58, R63, R64 and R65: the oldest sequence ends, every channel judges its code, the failures are reported in channel
order, and the motion sample stands in the scan's record, which it may complete (R51). With no sequence in flight the
event does nothing (log entry 7). -/
def Obligations.MotionSequenceDelivers : Prop :=
  ∀ (s : State) (a1 b1 a2 b2 : Code), s.pin = false →
    (s.mcv.sequences = [] → exec (.motionSequenceEnd a1 b1 a2 b2) s = .next s.kick) ∧
    ∀ (n : Nat) (rest : List Nat), s.mcv.sequences = n :: rest → 0 < s.mcv.spacing →
      let ja1 := judgeCode s.mcv.channels[0] a1.toNat
      let jb1 := judgeCode s.mcv.channels[1] b1.toNat
      let ja2 := judgeCode s.mcv.channels[2] a2.toNat
      let jb2 := judgeCode s.mcv.channels[3] b2.toNat
      let failed := ([(0, ja1), (1, jb1), (2, ja2), (3, jb2)] : List (Fin 4 × Judged)).filter (·.2.failed)
      ∃ t m, exec (.motionSequenceEnd a1 b1 a2 b2) s = .next t ∧
        t.mcv = { s.mcv with channels := #v[ja1.channel, jb1.channel, ja2.channel, jb2.channel], sequences := rest } ∧
        isMotionSample s.mcv.spacing (isSideSum ja1.value ja2.value) (isSideSum jb1.value jb2.value) m ∧
        m.flags.held = (ja1.held || jb1.held || ja2.held || jb2.held) ∧
        t.hlc.scans.map (fun r => (r.header, r.snapshot, r.answers, r.motion)) = s.hlc.scans.map (fun r =>
          (r.header, r.snapshot, r.answers, if r.header.scan = n then some m else r.motion)) ∧
        (s.banksOwned → s.recordTakes t n fun r => { r with motion := some m }) ∧
        t.hli = (s.hli.offerAll (failed.map fun a => .event (.motionChannelFailed a.1))).kick ∧
        t.hlc.heads = s.hlc.heads ∧ s.sameBanks t ∧ t.tu = s.tu ∧ t.mode = s.mode ∧ t.pxu = s.pxu ∧ t.wtr = s.wtr ∧
        t.wru = s.wru ∧ t.scu = s.scu ∧ t.spu = s.spu ∧ t.lev = s.lev ∧ t.pending = s.pending ∧ t.pin = s.pin ∧
        t.closing = s.closing

/-! ## Extraction -/

/-- R8, R10 and R11: the transform of one point. -/
def Obligations.PointTransform : Prop :=
  ∀ (cal : Calibration) (m : MotionSample) (zr : Nat) (lead : CarEnd) (p : Point),
    let xcar : Int := cal.offset + (if cal.mirrored then -1 else 1) * p.u
    let zcar : Int := cal.height + p.v
    ∃ a b, Rounds (m.roll * xcar) 65536 a ∧ Rounds (m.roll * (zcar - zr)) 65536 b ∧
      trackFrame cal m zr lead p = ((match lead with
        | .end1 => 1
        | .end2 => -1) * (xcar - b), zcar + m.rise + a)

/-- R68 and R81: the extractor takes the first complete scan once it holds none, and hands its list on. That the whole
extraction is made at the taking is the model's choice (log entry 10); where neither can occur nothing happens (log entry
7). R1: a counter counts up, by one or by more, and stops at 65535.
R51, R69, R77, R80, R81 and R82: what an extraction makes of the present answers, head by head, and what it counts.
R12, R13, R69 to R72 and R76: what one answer gives: the points at or above the noise floor keep their indices, those out
of the frame are counted and dropped, clusters are cut where a step is too large, each cluster is judged by the first test
it fails, and the candidates of the accepted ones are capped.
R73 to R75: the candidate of a cluster, and its face: the first of the longest runs of two or more. -/
def Obligations.ScanExtractedAndHandedOver : Prop :=
  ((∀ (s : State) (a b : List ScanRecord) (r : ScanRecord) (m : MotionSample), s.pin = false → s.pxu.current = none →
     s.hlc.scans = a ++ r :: b → (∀ x ∈ a, x.stage ≠ .complete) → r.stage = .complete → r.motion = some m →
     exec .scanExtraction s = .next ({ s with
       pxu := extract s.pxu s.mcv.rollCentre r m s.hlc.pairs[parity r.header.scan]
       hlc := { s.hlc with scans := a ++ { r with stage := .taken } :: b } }.kick)) ∧
   (∀ s : State, s.pin = false → (s.pxu.current ≠ none ∨ ∀ r ∈ s.hlc.scans, r.stage ≠ .complete) →
     exec .scanExtraction s = .next s.kick) ∧
   (∀ (s : State) (c : HandedScan), s.pin = false → s.pxu.current = some c →
     exec .candidateListHandover s = .next ({ s with
       pxu := { s.pxu with current := none }, wtr := { s.wtr with inbox := s.wtr.inbox ++ [c] } }.kick)) ∧
   ∀ s : State, s.pin = false → s.pxu.current = none → exec .candidateListHandover s = .next s.kick) ∧
  (∀ (x : Pxu) (zr : Nat) (r : ScanRecord) (m : MotionSample) (pair : BankPair),
     let present : List (HeadNo × Bool) := heads4.filterMap fun h => match r.answers[h] with
       | .present window => some (h, window)
       | _ => none
     let yields := present.map fun a => headYield x zr m r.snapshot a.1 a.2 (pair.banks[a.1]).points
     let formed := (groups x.settings (sequenceOf yields)).map groupOf
     let rejected := fun v : Acceptance => (yields.flatMap (·.verdicts)).count v
     let c := x.counters
     extract x zr r m pair = { x with
       current := some { header := r.header, snapshot := r.snapshot, flags := m.flags,
                         blind := decide (present = []), groups := scanCap formed }
       counters := {
         outOfFrame := countBy c.outOfFrame (yields.map (·.outOfFrame)).sum
         short := countBy c.short (rejected .short)
         narrow := countBy c.narrow (rejected .narrow)
         wide := countBy c.wide (rejected .wide)
         outOfWindow := countBy c.outOfWindow (rejected .outOfWindow)
         dropped := countBy c.dropped ((yields.map (·.dropped)).sum + (formed.length - 12)) } } ∧
     (present = [] → formed = [] ∧ (extract x zr r m pair).counters = c)) ∧
  (∀ n k : Nat, n ≤ 65535 → countBy n k = min 65535 (n + k) ∧ countUp n = min 65535 (n + 1)) ∧
  (∀ (x : Pxu) (zr : Nat) (m : MotionSample) (d : Design) (h : HeadNo) (window : Bool) (points : List Point),
     let cal := x.calibration[h]
     let floored := (points.zipIdx.filter fun a => cal.floor ≤ a.1.intensity).map fun a =>
       let c := trackFrame cal m zr x.leading a.1
       ({ index := a.2, x := c.1, z := c.2, intensity := a.1.intensity } : TrackPoint)
     let reportable := fun p : TrackPoint => decide (-7000 ≤ p.x ∧ p.x ≤ 7000 ∧ 0 ≤ p.z ∧ p.z ≤ 99999)
     let cut := clusters x.settings (floored.filter reportable)
     let judge := acceptance x.settings cal.pitch d
     let accepted := cut.filter fun c => judge c = .accepted
     headYield x zr m d h window points =
       { candidates := headCap (accepted.map (candidateOf x.settings h cal window))
         outOfFrame := (floored.filter fun p => !reportable p).length
         verdicts := cut.map judge
         dropped := accepted.length - 6 }) ∧
  (∀ (set : ExtractSettings) (points : List TrackPoint),
     let near := fun a b : TrackPoint => (b.x - a.x).natAbs ≤ set.gapX ∧ (b.z - a.z).natAbs ≤ set.gapZ
     (clusters set points).flatten = points ∧
     (∀ c ∈ clusters set points, c ≠ [] ∧ ∀ a p q b, c = a ++ p :: q :: b → near p q) ∧
     ∀ a c d b p q, clusters set points = a ++ c :: d :: b → c.getLast? = some p → d.head? = some q → ¬ near p q) ∧
  ∀ (set : ExtractSettings) (pitch : Nat) (d : Design) (cluster : List TrackPoint) (first last lowest : TrackPoint),
    cluster.head? = some first → cluster.getLast? = some last → lowest ∈ cluster → (∀ p ∈ cluster, lowest.z ≤ p.z) →
    let extent := (last.x - first.x).natAbs + pitch
    let shape := fun p : TrackPoint => set.faceIntensity ≤ p.intensity ∧ p.z ≤ lowest.z + set.faceTolerance
    let run := fun l : List TrackPoint => (∀ p ∈ l, shape p) ∧
      ∀ a p q b, l = a ++ p :: q :: b → q.index = p.index + 1
    acceptance set pitch d cluster =
      (if cluster.length < set.minPoints then .short
      else if extent < set.minExtent then .narrow
      else if set.maxExtent < extent then .wide
      else if lowest.z < (d.height : Int) - d.band ∨ (d.height : Int) + d.band < lowest.z then .outOfWindow
      else .accepted) ∧
    (∀ (h : HeadNo) (cal : Calibration) (window : Bool), ∃ x, Rounds (first.x + last.x) 2 x ∧
      candidateOf set h cal window cluster =
        { head := h, x := x, z := lowest.z, count := cluster.length,
          face := if cal.wear = true ∧ window = false then faceWidth set cal.pitch cluster else none }) ∧
    (∀ w, faceWidth set pitch cluster = some w → ∃ before face after a b, cluster = before ++ face ++ after ∧ run face ∧
      2 ≤ face.length ∧ face.head? = some a ∧ face.getLast? = some b ∧ w = (b.x - a.x).natAbs + pitch ∧
      ∀ pre other post, cluster = pre ++ other ++ post → run other →
        other.length ≤ face.length ∧ (other.length = face.length → before.length ≤ pre.length)) ∧
    (faceWidth set pitch cluster = none → ∀ pre other post, cluster = pre ++ other ++ post → run other →
      other.length ≤ 1)

/-- R13, R14, R79 and R80: whatever the points, the candidate list of a scan holds at most 12 groups, in non-decreasing
stagger, each within the reportable frame.
R76, R77 and R80: the per-head cap keeps the candidates that fewer than 6 others come before, by height, then by the
greater point count, then by formation, and in the order of formation; the sequence is by rising x, then as formed,
head by head; the scan cap keeps the groups that fewer than 12 others come before, by height, then by opening.
R78: the groups of a sequence are its consecutive pieces; no head stands twice in one, every member lies within the
merge distances of the first, and the first candidate behind a group did not satisfy all three.
R79: the values of a group. -/
def Obligations.CandidateListAndGroups : Prop :=
  (∀ (x : Pxu) (zr : Nat) (r : ScanRecord) (m : MotionSample) (pair : BankPair), ∃ c,
     (extract x zr r m pair).current = some c ∧ c.groups.length ≤ 12 ∧ c.groups.Pairwise (fun a b => a.x ≤ b.x) ∧
     ∀ g ∈ c.groups, framed g.x g.z) ∧
  (∀ (set : ExtractSettings) (cs : List Candidate),
     (groups set cs).flatten = cs ∧
     (∀ g ∈ groups set cs, g ≠ [] ∧ (g.map (·.head)).Nodup ∧ g.length ≤ 4 ∧ ∀ first rest, g = first :: rest →
       ∀ c ∈ rest, (c.x - first.x).natAbs ≤ set.mergeX ∧ (c.z - first.z).natAbs ≤ set.mergeZ) ∧
     ∀ a first tail next more b, groups set cs = a ++ (first :: tail) :: (next :: more) :: b →
       next.head ∈ (first :: tail).map (·.head) ∨ set.mergeX < (next.x - first.x).natAbs ∨
       set.mergeZ < (next.z - first.z).natAbs) ∧
  (∀ cs : List Candidate,
     let ahead := fun b a : Candidate × Nat => b.1.z < a.1.z ∨ (b.1.z = a.1.z ∧
       (a.1.count < b.1.count ∨ (b.1.count = a.1.count ∧ b.2 < a.2)))
     headCap cs = (cs.zipIdx.filter fun a => (cs.zipIdx.filter fun b => ahead b a).length < 6).map (·.1)) ∧
  (∀ gs : List Group,
     let ahead := fun b a : Group × Nat => b.1.z < a.1.z ∨ (b.1.z = a.1.z ∧ b.2 < a.2)
     scanCap gs = (gs.zipIdx.filter fun a => (gs.zipIdx.filter fun b => ahead b a).length < 12).map (·.1)) ∧
  (∀ ys : List HeadYield,
     let all := ys.flatMap (·.candidates)
     (sequenceOf ys).Perm all ∧ (sequenceOf ys).Pairwise (fun a b => a.x ≤ b.x) ∧
     ∀ v : Int, (sequenceOf ys).filter (fun c => c.x = v) = all.filter (fun c => c.x = v)) ∧
  ∀ members : List Candidate, members ≠ [] →
    let g := groupOf members
    Rounds (members.map (·.x)).sum members.length g.x ∧ Rounds (members.map (·.z)).sum members.length g.z ∧
    (g.merged = true ↔ 2 ≤ members.length) ∧
    (g.face = none ↔ ∀ c ∈ members, c.face = none) ∧
    ∀ w, g.face = some w → (∃ c ∈ members, c.face = some w) ∧ ∀ c ∈ members, ∀ v, c.face = some v → v ≤ w

/-! ## Tracks -/

/-- R87, R88 and R102: the tracker takes the next scan whole and hands on exactly one set for it; a blind scan leaves
table, counter and watch untouched and gives no samples and no notices. That a blind scan, too, becomes the last scan
taken is the model's choice (log entry 16), and that nothing happens with no scan waiting is another (log entry 7). A scan
that is not blind is associated, moved, born from, given roles, sampled and watched in that order.
R91 to R95: the move of one slot. R86 and R96 to R98: what one unassociated candidate gives, in candidate order, while the
id counter is in its range (an invariant stated below). R100: the roles. R101: the sample that one candidate gives, and
that it gives when the track it is associated with is CONFIRMED. That a birth may, by the steps of R86, take the id of a
track that ended in the same scan, or of one still on the span unit's retain list, is the model's choice against the
remarks of R99 and R148 on ids (log entries 26 and 27). -/
def Obligations.ScanTracked : Prop :=
  (∀ (s : State) (scan : HandedScan) (rest : List HandedScan), s.pin = false → s.wtr.inbox = scan :: rest →
    let taken := fun (w : Wtr) (set : SampleSet) => { w with
      inbox := rest, outbox := s.wtr.outbox ++ [set], lastScan := scan.header.scan,
      lastTaken := some (scan.header, scan.snapshot) }
    let unseen : SampleSet :=
      { header := scan.header, snapshot := scan.snapshot, blind := true, runEnd := false, notices := [], samples := [] }
    (scan.blind = true → exec .trackScan s = .next ({ s with wtr := taken s.wtr unseen }.kick)) ∧
    (scan.blind = false →
      let seen := s.wtr.trackSeen scan
      exec .trackScan s = .next ({ s with
        wtr := taken seen.1 seen.2.1, hli := s.hli.offerAll (seen.2.2.map Report.event) }.kick))) ∧
  (∀ s : State, s.pin = false → s.wtr.inbox = [] → exec .trackScan s = .next s.kick) ∧
  (∀ (w : Wtr) (scan : HandedScan),
    let pairs := associate w.settings w.table [] scan.groups
    let moved := moveAll w.settings pairs w.table
    let born := births w.settings { table := moved.1, nextId := w.nextId, notices := moved.2, full := w.tableFull } pairs
    let table := giveRoles w.settings born.2 born.1.table
    let count := ((List.finRange 8).filter fun k => (table[k]).established).length
    let watched := watchScan w.watch w.settings.mismatch scan.snapshot scan.header.chainage count
    w.trackSeen scan =
      ({ w with table := table, nextId := born.1.nextId, tableFull := born.1.full, watch := watched.1 },
       { header := scan.header, snapshot := scan.snapshot, blind := scan.blind, runEnd := false,
         notices := born.1.notices, samples := born.2.filterMap (sampleFor scan.flags table) }, watched.2)) ∧
  (∀ (set : TrackerSettings) (pairs : List (Group × Option (Fin 8))) (table : Vector Slot 8),
    (∀ k : Fin 8, (moveAll set pairs table).1[k] = (moveSlot set k (candidateAt pairs k) table[k]).1 ∧
      ∀ g, candidateAt pairs k = some g → (g, some k) ∈ pairs) ∧
    (∀ k : Fin 8, candidateAt pairs k = none → some k ∉ pairs.map (·.2)) ∧
    (moveAll set pairs table).2 =
      (List.finRange 8).filterMap fun k => (moveSlot set k (candidateAt pairs k) table[k]).2) ∧
  (∀ (set : TrackerSettings) (k : Fin 8) (t : Seen) (g : Group) (n : Nat) (role : Role),
    let followed : Seen := { id := t.id, x := g.x, z := g.z, face := g.face, age := countUp t.age }
    let older : Seen := { t with age := countUp t.age }
    let lost : Slot × Option Notice := (.empty, some { slot := k, id := t.id, reason := .lost })
    (∀ c, moveSlot set k c .empty = (.empty, none)) ∧
    moveSlot set k (some g) (.tentative t n) =
      (if set.confirm ≤ n + 1 then .confirmed followed .running else .tentative followed (n + 1), none) ∧
    moveSlot set k none (.tentative t n) = (.empty, none) ∧
    moveSlot set k (some g) (.confirmed t role) = (.confirmed followed role, none) ∧
    moveSlot set k none (.confirmed t role) = (if set.coast ≤ 1 then lost else (.coasting older 1 role, none)) ∧
    moveSlot set k (some g) (.coasting t n role) = (.confirmed followed role, none) ∧
    moveSlot set k none (.coasting t n role) =
      (if set.coast ≤ n + 1 then lost else (.coasting older (n + 1) role, none))) ∧
  (∀ (set : TrackerSettings) (b : Births) (g : Group), 1 ≤ b.nextId → b.nextId ≤ 65535 →
    let after := fun v : Nat => if v < 65535 then v + 1 else 1
    let bornAt := fun (k : Fin 8) (u : Births) =>
      let held := fun v : Nat => ∃ j t, j ≠ k ∧ (b.table[(j : Fin 8)]).track? = some t ∧ t.id = v
      ∃ n, (∀ i, i < n → held (after^[i] b.nextId)) ∧ ¬ held (after^[n] b.nextId) ∧
        u.nextId = after (after^[n] b.nextId) ∧ u.full = b.full ∧
        let t : Seen := { id := after^[n] b.nextId, x := g.x, z := g.z, face := g.face, age := 1 }
        u.table = b.table.set k (if set.confirm ≤ 1 then .confirmed t .running else .tentative t 1)
    (∀ k : Fin 8, b.table[k] = .empty → (∀ j, j < k → b.table[j] ≠ .empty) →
      ∃ u, birth set b g = (u, some k) ∧ bornAt k u ∧ u.notices = b.notices) ∧
    (∀ (k : Fin 8) (t : Seen) (m : Nat) (role : Role), (∀ j : Fin 8, b.table[j] ≠ .empty) →
      b.table[k] = .coasting t m role →
      (∀ (j : Fin 8) (v : Seen) (n : Nat) (r : Role), b.table[j] = .coasting v n r → n < m ∨ (n = m ∧ k ≤ j)) →
      ∃ u, birth set b g = (u, some k) ∧ bornAt k u ∧
        u.notices = b.notices ++ [{ slot := k, id := t.id, reason := .replaced }]) ∧
    ((∀ j : Fin 8, b.table[j] ≠ .empty ∧ ∀ v n r, b.table[j] ≠ .coasting v n r) →
      birth set b g = ({ b with full := countUp b.full }, none))) ∧
  (∀ (set : TrackerSettings) (b : Births) (g : Group) (k : Fin 8) (rest : List (Group × Option (Fin 8))),
    births set b [] = (b, []) ∧
    births set b ((g, some k) :: rest) = ((births set b rest).1, (g, some k) :: (births set b rest).2) ∧
    births set b ((g, none) :: rest) =
      ((births set (birth set b g).1 rest).1, (g, (birth set b g).2) :: (births set (birth set b g).1 rest).2)) ∧
  (∀ (flags : MotionFlags) (table : Vector Slot 8) (g : Group),
    sampleFor flags table (g, none) = none ∧
    ∀ k : Fin 8,
      (∀ t role, table[k] = .confirmed t role → sampleFor flags table (g, some k) = some
        { id := t.id, slot := k, role := role, x := g.x, z := g.z, face := g.face, thickness := none, wear := none,
          merged := g.merged, flags := flags, belowTable := false, beyondTable := false }) ∧
      ((∀ t role, table[k] ≠ .confirmed t role) → sampleFor flags table (g, some k) = none)) ∧
  ∀ (set : TrackerSettings) (pairs : List (Group × Option (Fin 8))) (table : Vector Slot 8) (k : Fin 8),
    let seen := fun j : Fin 8 => some j ∈ pairs.map (·.2)
    (∀ t role, table[k] = .confirmed t role → seen k →
      ((∀ (j : Fin 8) (u : Seen) (r : Role), table[j] = .confirmed u r → seen j → t.z ≤ u.z + set.band) →
        (giveRoles set pairs table)[k] = .confirmed t .running) ∧
      (∀ (j : Fin 8) (u : Seen) (r : Role), table[j] = .confirmed u r → seen j → u.z + set.band < t.z →
        (giveRoles set pairs table)[k] = .confirmed t .raised)) ∧
    ((∀ t role, table[k] ≠ .confirmed t role) ∨ ¬ seen k → (giveRoles set pairs table)[k] = table[k])

/-- R89 and R90: every candidate stands once in the result, no slot takes two; a candidate's track lies within the gates,
and no track that is still free and within the gates is nearer by stagger, then height, then slot; a candidate is left
over only when no such track is free. -/
def Obligations.AssociationTakesNearest : Prop :=
  ∀ (set : TrackerSettings) (table : Vector Slot 8) (gs : List Group),
    let pairs := associate set table [] gs
    pairs.map (·.1) = gs ∧ (pairs.filterMap (·.2)).Nodup ∧
    ∀ a g chosen b, pairs = a ++ (g, chosen) :: b →
      let fits := fun (j : Fin 8) (t : Seen) => (table[j]).track? = some t ∧ j ∉ a.filterMap (·.2) ∧
        (g.x - t.x).natAbs ≤ set.gateX ∧ (g.z - t.z).natAbs ≤ set.gateZ
      (∀ k, chosen = some k → ∃ t, fits k t ∧ ∀ j u, fits j u →
        (g.x - t.x).natAbs < (g.x - u.x).natAbs ∨ ((g.x - t.x).natAbs = (g.x - u.x).natAbs ∧
          ((g.z - t.z).natAbs < (g.z - u.z).natAbs ∨ ((g.z - t.z).natAbs = (g.z - u.z).natAbs ∧ k ≤ j)))) ∧
      (chosen = none → ∀ j u, ¬ fits j u)

/-- R101: every sample belongs to a CONFIRMED slot of the table after the scan, with that track's id, role and position,
and no slot gives two samples.
R99: a CONFIRMED or COASTING track still holds its slot as such after a scan, or its set carries a notice of its end
with reason LOST or REPLACED; and every notice is of such a track. -/
def Obligations.SamplesAndNoticesOfTracks : Prop :=
  (∀ (w : Wtr) (scan : HandedScan), scan.blind = false →
     (∀ m ∈ (w.track scan).2.1.samples, ∃ t, (w.track scan).1.table[m.slot] = .confirmed t m.role ∧ t.id = m.id ∧
       t.x = m.x ∧ t.z = m.z ∧ t.face = m.face ∧ m.flags = scan.flags ∧ m.thickness = none ∧ m.wear = none) ∧
     ((w.track scan).2.1.samples.map (·.slot)).Nodup) ∧
  (∀ (w : Wtr) (scan : HandedScan) (k : Fin 8) (t : Seen), (w.table[k]).established = true →
     (w.table[k]).track? = some t →
     let r := w.track scan
     ((r.1.table[k]).established = true ∧ ∃ u, (r.1.table[k]).track? = some u ∧ u.id = t.id) ∨
       ∃ n ∈ r.2.1.notices, n.slot = k ∧ n.id = t.id ∧ n.reason ≠ .runEnd) ∧
  (∀ (w : Wtr) (scan : HandedScan), ∀ n ∈ (w.track scan).2.1.notices, n.reason ≠ .runEnd ∧
     (w.table[n.slot]).established = true ∧ ∃ u, (w.table[n.slot]).track? = some u ∧ u.id = n.id) ∧
  ∀ x : Slot, (x.established = true ↔ (∃ t role, x = .confirmed t role) ∨ ∃ t n role, x = .coasting t n role) ∧
    ∀ t, x.track? = some t ↔
      (∃ n, x = .tentative t n) ∨ (∃ role, x = .confirmed t role) ∨ ∃ n role, x = .coasting t n role

/-- R103 and R104: the wire-count watch over one scan, with its event. -/
def Obligations.WireCountWatch : Prop :=
  ∀ (w : Wtr) (scan : HandedScan),
    let r := w.track scan
    let count := ((List.finRange 8).filter fun k => (r.1.table[k]).established).length
    let lo := scan.snapshot.expectedMin
    let hi := scan.snapshot.expectedMax
    let c := scan.header.chainage
    let reached := fun onset : Int => w.settings.mismatch * 1000 ≤ (c - onset).natAbs
    (scan.blind = true → r.1.watch = w.watch ∧ r.2.2 = []) ∧
    (scan.blind = false → lo ≤ count ∧ count ≤ hi → r.1.watch = .normal ∧
      r.2.2 = if w.watch = .reported then [.wireCount true count lo hi c] else []) ∧
    (scan.blind = false → ¬ (lo ≤ count ∧ count ≤ hi) →
      (w.watch = .reported → r.1.watch = .reported ∧ r.2.2 = []) ∧
      ∀ onset, w.watch = .pending onset ∨ (w.watch = .normal ∧ onset = c) →
        (reached onset → r.1.watch = .reported ∧ r.2.2 = [.wireCount false count lo hi c]) ∧
        (¬ reached onset → r.1.watch = .pending onset ∧ r.2.2 = []))

/-! ## Wear -/

/-- R113 to R116, for a table as R108 has it: the thickness of a present face by the segment that holds it, or of the
nearer end with its flag, within the table's bounds, and the wear of that thickness, from 0 to 1000. -/
def Obligations.ThicknessAndWearOfFace : Prop :=
  ∀ (t : WearTable) (m : Sample) (w : Nat) (first last : Nat × Nat), m.face = some w → t.points.head? = some first →
    t.points.getLast? = some last → 2 ≤ t.points.length →
    t.points.Pairwise (fun a b => a.1 < b.1 ∧ b.2 ≤ a.2) → (∀ p ∈ t.points, p.2 ≤ t.nominal) → 0 < t.nominal →
    ∃ (r q : Int) (below beyond : Bool),
      valueSample (some t) m = { m with thickness := some r, wear := some q, belowTable := below,
                                        beyondTable := beyond } ∧
      (w < first.1 → r = first.2 ∧ below = true ∧ beyond = false) ∧
      (last.1 < w → r = last.2 ∧ below = false ∧ beyond = true) ∧
      (first.1 ≤ w → w ≤ last.1 → below = false ∧ beyond = false ∧ ∀ a p0 p1 b, t.points = a ++ p0 :: p1 :: b →
        p0.1 ≤ w → (w < p1.1 ∨ b = [] ∧ w = p1.1) →
        ∃ d, Rounds (((w : Int) - p0.1) * ((p1.2 : Int) - p0.2)) ((p1.1 : Int) - p0.1) d ∧ r = p0.2 + d) ∧
      (last.2 ≤ r ∧ r ≤ first.2) ∧ Rounds ((t.nominal - r) * 1000) t.nominal q ∧ 0 ≤ q ∧ q ≤ 1000

/-- R111, R112, R118 and R183: the wear unit takes the next set once it holds none, values its samples by the snapshot's
table, offers it, and the host line builds a trace record from it when all three conditions hold. That the whole valuing
is made at SET_OFFER, with the tables as they stand there, is the model's choice (log entry 10), and that a row with nothing
to take or to offer does nothing is another (log entry 7). The motion flags of the record are those of the set's samples,
which all carry the scan's (R101, R117). -/
def Obligations.SetValuedAndOffered : Prop :=
  (∀ (s : State) (set : SampleSet) (rest : List SampleSet), s.pin = false → s.wru.valuing = none →
    s.wru.offered = none → s.wtr.outbox = set :: rest → exec .setValuing s = .next ({ s with
      wru := { s.wru with valuing := some set }, wtr := { s.wtr with outbox := rest } }.kick)) ∧
  (∀ s : State, s.pin = false → (s.wru.valuing ≠ none ∨ s.wru.offered ≠ none ∨ s.wtr.outbox = []) →
    exec .setValuing s = .next s.kick) ∧
  (∀ s : State, s.pin = false → s.wru.valuing = none → exec .setOffer s = .next s.kick) ∧
  ∀ (s : State) (set : SampleSet), s.pin = false → s.wru.valuing = some set →
    let valued := { set with samples := set.samples.map (valueSample s.wru.tables[set.snapshot.wireType]) }
    let record : TraceRecord :=
      { scan := set.header.scan, chainage := set.header.chainage, stamp := set.header.stamp,
        sectionId := set.snapshot.id, flags := valued.flags, samples := valued.samples }
    let traced := set.runEnd = false ∧ s.hli.decimation ≠ 0 ∧ set.header.scan % s.hli.decimation = 0 ∧
      set.samples ≠ []
    let offered := { s.wru with
      valuing := none, offered := some { set := valued, spanTaken := false, limitTaken := false } }
    (∀ m rest, set.samples = m :: rest → valued.flags = m.flags) ∧
    (traced → exec .setOffer s =
      .next ({ s with wru := offered, hli := s.hli.offer (.trace record) }.kick)) ∧
    (¬ traced → exec .setOffer s = .next ({ s with wru := offered }.kick)) ∧
    (∀ m ∈ set.samples, m.face = none ∨ s.wru.tables[set.snapshot.wireType] = none →
      valueSample s.wru.tables[set.snapshot.wireType] m =
        { m with thickness := none, wear := none, belowTable := false, beyondTable := false })

/-! ## Sections -/

/-- R128 to R131: activation at an acceptance with chainage `c`. An active section whose end is not reached stays, and the
queue is not examined; otherwise the reached sections at the head are skipped, each reported, the next one is loaded
when `c` lies within it, and an ARMED watch with nothing left reports once. -/
def Obligations.SectionActivation : Prop :=
  (∀ c x : Int, (Dir.ascending.reached c x = true ↔ x ≤ c) ∧ (Dir.descending.reached c x = true ↔ c ≤ x)) ∧
  ∀ (u : Scu) (c : Int),
    (∀ sec, u.cache = some sec → u.dir.reached c sec.stop = false → u.activate c = (u, [])) ∧
    ((∀ sec, u.cache = some sec → u.dir.reached c sec.stop = true) →
      ∃ skipped kept, u.queue = skipped ++ kept ∧ (∀ x ∈ skipped, u.dir.reached c x.stop = true) ∧
        (∀ x, kept.head? = some x → u.dir.reached c x.stop = false) ∧
        let reports := skipped.map fun x => Event.sectionSkipped x.design.id
        (∀ x more, kept = x :: more → u.dir.reached c x.start = true →
          u.activate c = ({ u with cache := some x, queue := more, armed := true }, reports)) ∧
        (∀ x more, kept = x :: more → u.dir.reached c x.start = false →
          u.activate c = ({ u with cache := none, queue := kept }, reports)) ∧
        (kept = [] → u.armed = true →
          u.activate c = ({ u with cache := none, queue := [], armed := false }, reports ++ [.routeStarved c])) ∧
        (kept = [] → u.armed = false → u.activate c = ({ u with cache := none, queue := [] }, reports)))

/-! ## Spans -/

/-- R139: the close tests, in their order, and the marks counted as ignored. -/
def Obligations.SpanCloseTests : Prop :=
  ∀ (lo hi : Nat) (sp : OpenSpan) (h : Header) (id : Nat),
    let far := hi * 1000 ≤ (h.chainage - sp.start).natAbs
    (h.fix = some true → closeTest lo hi sp h id = (some (.fix, h.chainage), h.mast.isSome)) ∧
    (h.fix ≠ some true → sp.inSection? ≠ some id →
      closeTest lo hi sp h id = (some (.sectionChange, h.chainage), h.mast.isSome)) ∧
    (h.fix ≠ some true → sp.inSection? = some id →
      (∀ m, h.mast = some m → lo * 1000 ≤ (m - sp.start).natAbs →
        closeTest lo hi sp h id = (some (.mast, m), false)) ∧
      (∀ m, h.mast = some m → (m - sp.start).natAbs < lo * 1000 →
        (far → closeTest lo hi sp h id = (some (.noMast, h.chainage), true)) ∧
        (¬ far → closeTest lo hi sp h id = (none, true))) ∧
      (h.mast = none → (far → closeTest lo hi sp h id = (some (.noMast, h.chainage), false)) ∧
        (¬ far → closeTest lo hi sp h id = (none, false))))

/-- R145 and R147: folding a sample into its slot's accumulator, and an entry arriving at the retain list. -/
def Obligations.AccumulatorsFoldAndRetain : Prop :=
  (∀ (c : Int) (v : Vector (Option Accumulator) 8) (m : Sample),
    (∀ k, k ≠ m.slot → (foldSample c v m)[k] = v[k]) ∧
    (v[m.slot] = none → (foldSample c v m)[m.slot] = some
      { samples := 1, id := m.id, runningSeen := m.role == .running, minThickness := m.thickness.map (·, c),
        maxStagger := (m.x, c), minHeight := m.z, maxHeight := m.z }) ∧
    ∀ a, v[m.slot] = some a → ∃ b, (foldSample c v m)[m.slot] = some b ∧ b.id = a.id ∧
      b.samples = countUp a.samples ∧ b.runningSeen = (a.runningSeen || m.role == .running) ∧
      b.minHeight = min a.minHeight m.z ∧ b.maxHeight = max a.maxHeight m.z ∧
      (b.maxStagger = if a.maxStagger.1.natAbs < m.x.natAbs then (m.x, c) else a.maxStagger) ∧
      (m.thickness = none → b.minThickness = a.minThickness) ∧
      ∀ r, m.thickness = some r →
        (a.minThickness = none → b.minThickness = some (r, c)) ∧
        ∀ q, a.minThickness = some q → b.minThickness = if r < q.1 then some (r, c) else some q) ∧
  ∀ (l : List Accumulator) (a : Accumulator),
    (l.length < 8 → retainEntry l a = (l ++ [a], false)) ∧
    (8 ≤ l.length → ∃ x y z, l ++ [a] = x ++ y :: z ∧ retainEntry l a = (x ++ z, true) ∧
      (∀ e ∈ x, y.samples < e.samples) ∧ ∀ e ∈ z, y.samples ≤ e.samples)

/-- R118, R137, R138, R140 to R143, R146, R148, R149 and R52: the span unit takes the offered set of a scan. The notices are
applied; the open span closes when a test of R139 says so, with its record, and the next one, numbered one above, opens at
the close chainage with the accumulators zeroed and the retain list empty; the span then open counts the set and takes a
pending loss of its scan; the samples are folded. The limit evaluator having taken the set, the record ends and its bank
pair is FREE.
R146: what one notice does. That two entries of a record may carry one track id, once the id counter has wrapped within
the span, is the model's choice against a remark of R148 (log entry 27). -/
def Obligations.SpanSetTaken : Prop :=
  (∀ (s : State) (o : Offered) (sp : OpenSpan), s.pin = false → s.wru.offered = some o → o.spanTaken = false →
    s.spu.span = some sp → o.set.runEnd = false →
    let set := o.set
    let id := sp.inSection?.getD set.snapshot.id
    let noticed := set.notices.foldl applyNotice
      { accumulators := s.spu.accumulators, retain := s.spu.retain, isPartial := sp.flags.isPartial }
    let current : OpenSpan :=
      { sp with inSection? := some id, flags := { sp.flags with isPartial := noticed.isPartial } }
    let test := closeTest s.spu.minSpan s.spu.maxSpan current set.header set.snapshot.id
    let counted := fun u : OpenSpan => { u with
      scans := countUp u.scans
      skipped := countBy u.skipped set.header.gap
      flags := { u.flags with
        blind := u.flags.blind || set.blind
        uncompensated := u.flags.uncompensated || decide (∃ m ∈ set.samples, m.flags.rollLost || m.flags.riseLost)
        exceedanceLost := u.flags.exceedanceLost || decide (set.header.scan ∈ s.spu.losses)
        chainageFix := u.flags.chainageFix || decide (set.header.fix = some false) } }
    let folded := fun v : Vector (Option Accumulator) 8 => set.samples.foldl (foldSample set.header.chainage) v
    let losses := s.spu.losses.filter (· ≠ set.header.scan)
    ∃ t, exec .spanSetTake s = .next t ∧
      (test.1 = none → t.hli = s.hli.kick ∧ t.spu = { s.spu with
        span := some (counted current), accumulators := folded noticed.accumulators, retain := noticed.retain,
        losses := losses }) ∧
      (∀ reason stop, test.1 = some (reason, stop) →
        let next : OpenSpan :=
          { number := sp.number + 1, inSection? := some set.snapshot.id, start := stop, scans := 0, skipped := 0,
            flags := { isPartial := false, blind := false, uncompensated := false, exceedanceLost := false,
                       chainageFix := false } }
        let record : SpanRecord :=
          { number := sp.number, sectionId := id, start := sp.start, stop := stop, reason := reason, scans := sp.scans,
            skipped := sp.skipped, flags := current.flags,
            entries := noticed.retain.map (fun a => { ended := true, values := a }) ++
              (List.finRange 8).filterMap fun k =>
                (noticed.accumulators[k]).map fun a => { ended := false, values := a } }
        t.hli = (s.hli.offer (.span record)).kick ∧ t.spu = { s.spu with
          span := some (counted next), accumulators := folded (Vector.replicate 8 none), retain := [], losses := losses,
          closed := countUp s.spu.closed }) ∧
      t.tu = { s.tu with mastsIgnored := if test.2 then countUp s.tu.mastsIgnored else s.tu.mastsIgnored } ∧
      (o.limitTaken = false → t.wru = { s.wru with offered := some { o with spanTaken := true } } ∧ t.hlc = s.hlc) ∧
      (o.limitTaken = true → t.wru = { s.wru with offered := none } ∧ t.hlc = { s.hlc with
        scans := s.hlc.scans.filter (fun r => r.header.scan ≠ set.header.scan)
        pairs := s.hlc.pairs.set (parity set.header.scan)
          { s.hlc.pairs[parity set.header.scan] with owner := .free } }) ∧
      t.mode = s.mode ∧ t.mcv = s.mcv ∧ t.pxu = s.pxu ∧ t.wtr = s.wtr ∧ t.scu = s.scu ∧ t.lev = s.lev ∧
      t.pending = s.pending ∧ t.pin = s.pin ∧ t.closing = s.closing) ∧
  ∀ (u : Applied) (n : Notice),
    (u.accumulators[n.slot] = none → applyNotice u n = u) ∧
    ∀ a, u.accumulators[n.slot] = some a → applyNotice u n =
      { accumulators := u.accumulators.set n.slot none, retain := (retainEntry u.retain a).1,
        isPartial := u.isPartial || (retainEntry u.retain a).2 }

/-! ## Limits -/

/-- R154 and R155: what decides a quantity of a sample. That an absent value is no decision at all in a NEUTRAL section too
is the model's reading of R154 and R164 (log entry 11).
R153: the value of a sample for each quantity, and the strict test of it against a threshold. -/
def Obligations.DecidingRule : Prop :=
  (∀ m : Sample, m.value .thickness = m.thickness ∧ m.value .wear = m.wear ∧ m.value .stagger = some m.x ∧
    m.value .heightLow = some m.z ∧ m.value .heightHigh = some m.z) ∧
  (∀ v t : Int,
    (Quantity.thickness.violates v t = true ↔ v < t) ∧ (Quantity.wear.violates v t = true ↔ t < v) ∧
    (Quantity.stagger.violates v t = true ↔ t < v.natAbs) ∧ (Quantity.heightLow.violates v t = true ↔ v < t) ∧
    (Quantity.heightHigh.violates v t = true ↔ t < v)) ∧
  ∀ (l : Lev) (d : Design) (m : Sample) (q : Quantity),
    (m.value q = none → l.decision d m q = .absent) ∧
    ∀ v, m.value q = some v →
      let passes := fun r : LimitRule => r.enabled = true ∧ r.quantity = q ∧ r.firstId ≤ d.id ∧ d.id ≤ r.lastId ∧
        (r.runningOnly = true → m.role = .running)
      (d.neutral = true → l.decision d m q = .undecided) ∧
      (d.neutral = false → ∀ k : Fin 16, passes l.rules[k] → (∀ j : Fin 16, j < k → ¬ passes l.rules[j]) →
        l.decision d m q = .decided k.val (l.rules[k]).severity (l.rules[k]).report
          (q.violates v (l.rules[k]).threshold)) ∧
      (d.neutral = false → (∀ k : Fin 16, ¬ passes l.rules[k]) →
        (l.design = false ∨ q = .wear → l.decision d m q = .undecided) ∧
        (l.design = true → q ≠ .wear → l.decision d m q = .decided 16 .action true (match q with
          | .thickness => decide (v < d.minThickness)
          | .wear => false
          | .stagger => decide (d.staggerLimit < v.natAbs)
          | .heightLow => decide (v < d.height - d.band)
          | .heightHigh => decide ((d.height : Int) + d.band < v))))

/-- R161, R162, R163 and R166: a violated quantity extends its key's entry, opens one, or is lost. That it is lost, too,
where the key's entry has another quantity and a reference below 16, which no run reaches, is the model's choice (log
entry 20); R162 says it of reference 16. The values that are worse than the one held, by quantity; and
R166's class of each severity.
R160, R164 and R165: a sample first closes the entries of its own track by the decision for their quantity and then takes
the quantities in their order; a notice closes those of its track, and the end of the run all; the others stay in their
order, and the gate of R166 is tested at each close. -/
def Obligations.ExceedancesOpenExtendAndClose : Prop :=
  (∀ g : Gates, g.severity .advise = g.advise ∧ g.severity .action = g.action ∧ g.severity .urgent = g.urgent) ∧
  (∀ v held : Int,
    (Quantity.thickness.worse v held = true ↔ v < held) ∧ (Quantity.wear.worse v held = true ↔ held < v) ∧
    (Quantity.stagger.worse v held = true ↔ held.natAbs < v.natAbs) ∧
    (Quantity.heightLow.worse v held = true ↔ v < held) ∧ (Quantity.heightHigh.worse v held = true ↔ held < v)) ∧
  (∀ (g : Gates) (set : SampleSet) (m : Sample) (decide : Quantity → Decision) (w : Work) (q : Quantity) (ref : Nat)
     (sev : Severity) (rep : Bool) (v : Int), decide q = .decided ref sev rep true → m.value q = some v →
     let c := set.header.chainage
     let new : Exceedance :=
       { id := m.id, ref, quantity := q, severity := sev, report := rep, sectionId := set.snapshot.id, start := c,
         last := c, worst := v, worstAt := c, role := m.role, count := 1 }
     let unkeyed := ∀ e ∈ w.entries, ¬ (e.id = m.id ∧ e.ref = ref)
     (unkeyed → w.entries.length < 16 → judgeQuantity g set m decide w q =
       { w with entries := w.entries ++ [new], opened := countUp w.opened
                records := w.records ++
                  if rep = true ∧ g.urgent = true ∧ sev = .urgent then [.exceedance new none] else [] }) ∧
     (unkeyed → 16 ≤ w.entries.length →
       judgeQuantity g set m decide w q = { w with overflow := countUp w.overflow, lost := true }) ∧
     ∀ a e b, w.entries = a ++ e :: b → e.id = m.id → e.ref = ref → (∀ x ∈ a, ¬ (x.id = m.id ∧ x.ref = ref)) →
       (e.quantity ≠ q →
         judgeQuantity g set m decide w q = { w with overflow := countUp w.overflow, lost := true }) ∧
       (e.quantity = q → ∃ e', judgeQuantity g set m decide w q = { w with entries := a ++ e' :: b } ∧
         e'.id = e.id ∧ e'.ref = e.ref ∧ e'.quantity = e.quantity ∧ e'.severity = e.severity ∧ e'.report = e.report ∧
         e'.sectionId = e.sectionId ∧ e'.start = e.start ∧ e'.count = countUp e.count ∧ e'.last = c ∧
         (q.worse v e.worst = true → e'.worst = v ∧ e'.worstAt = c ∧ e'.role = m.role) ∧
         (q.worse v e.worst = false → e'.worst = e.worst ∧ e'.worstAt = e.worstAt ∧ e'.role = e.role))) ∧
  (∀ (g : Gates) (set : SampleSet) (m : Sample) (decide : Quantity → Decision) (w : Work) (q : Quantity),
     (∀ ref sev rep, decide q ≠ .decided ref sev rep true) → judgeQuantity g set m decide w q = w) ∧
  (∀ (l : Lev) (g : Gates) (set : SampleSet) (w : Work) (m : Sample),
     let decide := l.decision set.snapshot m
     let why := fun e : Exceedance => if e.id = m.id then closeReasonOf e (decide e.quantity) else none
     ∃ closed : Work, closed.entries = w.entries.filter (fun e => (why e).isNone) ∧ closed.opened = w.opened ∧
       closed.overflow = w.overflow ∧ closed.lost = w.lost ∧
       closed.records = w.records ++ (w.entries.filter fun e => e.report && g.severity e.severity).filterMap
         (fun e => (why e).map fun r => .exceedance e (some r)) ∧
       l.judgeSample g set w m = [Quantity.thickness, .wear, .stagger, .heightLow, .heightHigh].foldl
         (judgeQuantity g set m decide) closed) ∧
  ((∀ (e : Exceedance) (d : Decision),
     (d = .absent → closeReasonOf e d = none) ∧ (d = .undecided → closeReasonOf e d = some .ruleChanged) ∧
     ∀ ref sev rep viol, d = .decided ref sev rep viol →
       (ref ≠ e.ref → closeReasonOf e d = some .ruleChanged) ∧
       (ref = e.ref → viol = false → closeReasonOf e d = some .recovered) ∧
       (ref = e.ref → viol = true → closeReasonOf e d = none)) ∧
   (∀ (g : Gates) (w : Work) (n : Notice),
     (noticeCloses g w n).entries = w.entries.filter (fun e => e.id != n.id) ∧
     (noticeCloses g w n).opened = w.opened ∧ (noticeCloses g w n).overflow = w.overflow ∧
     (noticeCloses g w n).lost = w.lost ∧
     (noticeCloses g w n).records = w.records ++ (w.entries.filter fun e =>
       e.id == n.id && e.report && g.severity e.severity).map (fun e => .exceedance e (some .trackEnded))) ∧
   ∀ (l : Lev) (g : Gates) (set : SampleSet), set.runEnd = true →
     (l.work g set).entries = [] ∧ (l.work g set).lost = false ∧ (l.work g set).opened = l.opened ∧
     (l.work g set).overflow = l.overflow ∧
     (l.work g set).records = (l.entries.filter fun e => e.report && g.severity e.severity).map
       (fun e => .exceedance e (some .runEnd)))

/-- R118, R143, R159 and R52: the limit evaluator takes the offered set of a scan: its list and counters are those of its
work on the set, which takes the notices and then the samples, each in order; its records are offered in order, a loss is
indicated to the span unit, and, the span unit having taken the set, the record ends and its bank pair is FREE. -/
def Obligations.LimitSetTaken : Prop :=
  (∀ (l : Lev) (g : Gates) (set : SampleSet), set.runEnd = false →
    l.work g set = set.samples.foldl (fun w m => l.judgeSample g set w m) (set.notices.foldl (noticeCloses g)
      { entries := l.entries, opened := l.opened, overflow := l.overflow, records := [], lost := false })) ∧
  ∀ (s : State) (o : Offered), s.pin = false → s.wru.offered = some o → o.limitTaken = false → o.set.runEnd = false →
    let w := s.lev.work s.hli.gates o.set
    ∃ t, exec .limitSetTake s = .next t ∧
      t.lev = { s.lev with entries := w.entries, opened := w.opened, overflow := w.overflow } ∧
      t.hli = (s.hli.offerAll w.records).kick ∧
      (w.lost = false → t.spu = s.spu) ∧
      (w.lost = true → o.spanTaken = false → t.spu = { s.spu with losses :=
        if o.set.header.scan ∈ s.spu.losses then s.spu.losses else s.spu.losses ++ [o.set.header.scan] }) ∧
      (w.lost = true → o.spanTaken = true → t.spu = { s.spu with
        span := s.spu.span.map fun sp => { sp with flags := { sp.flags with exceedanceLost := true } } }) ∧
      (o.spanTaken = false → t.wru = { s.wru with offered := some { o with limitTaken := true } } ∧ t.hlc = s.hlc) ∧
      (o.spanTaken = true → t.wru = { s.wru with offered := none } ∧ t.hlc = { s.hlc with
        scans := s.hlc.scans.filter (fun r => r.header.scan ≠ o.set.header.scan)
        pairs := s.hlc.pairs.set (parity o.set.header.scan)
          { s.hlc.pairs[parity o.set.header.scan] with owner := .free } }) ∧
      t.mode = s.mode ∧ t.tu = s.tu ∧ t.mcv = s.mcv ∧ t.pxu = s.pxu ∧ t.wtr = s.wtr ∧ t.scu = s.scu ∧
      t.pending = s.pending ∧ t.pin = s.pin ∧ t.closing = s.closing

/-! ## Runs -/

/-- R175 with the START_RUN values of R7, R32, R55, R66, R83, R106, R119, R131, R137 and R168, block by block. The scan
records and bank pairs, the test profile and the frames sent stay. That the next due time is set in every trigger mode is
the model's choice (log entry 15). -/
def Obligations.StartRunStages : Prop :=
  ∀ (s : State) (f : HostFrame) (rest : List HostFrame) (c d e : Nat), s.holds f rest → f.kind = 0x20 →
    s.mode = .standby → fits [(4, c), (1, d), (1, e)] → f.body = bodyOf [(4, c), (1, d), (1, e)] →
    let start := signedOf 4 c
    let inRange := (-2000000000 ≤ start ∧ start ≤ 2000000000) ∧ d ≤ 1 ∧ e ≤ 1
    let dir : Dir := if d = 0 then .ascending else .descending
    let leading : CarEnd := if e = 0 then .end1 else .end2
    let active := ∃ h, (s.head h).state = .active
    (¬ inRange → exec .startRun s = .next ((s.popped rest).answered f .badValue [])) ∧
    (inRange → dir ≠ s.scu.dir → exec .startRun s = .next ((s.popped rest).answered f .invalidCombination [])) ∧
    (inRange → dir = s.scu.dir → ¬ active → exec .startRun s = .next ((s.popped rest).answered f .noHeads [])) ∧
    (inRange → dir = s.scu.dir → active → ∃ t, exec .startRun s = .next t ∧ t.mode = .running ∧
      t.tu = { s.tu with
        p := 0, high := 0, base := start, dir := dir, nextTrigger := 1,
        nextDue := some (s.tu.stamp + BitVec.ofNat 32 s.tu.config.interval), scan := 0, gap := 0,
        pendingFix := none, mast := none, watch := .forward, accepted := 0, overruns := 0, mastsIgnored := 0 } ∧
      t.pxu = { s.pxu with leading := leading, current := none, counters :=
        { outOfFrame := 0, short := 0, narrow := 0, wide := 0, outOfWindow := 0, dropped := 0 } } ∧
      t.hlc = { s.hlc with heads := t.hlc.heads } ∧ t.mcv = { s.mcv with channels := t.mcv.channels, sequences := [] } ∧
      t.wru = { s.wru with valuing := none, offered := none } ∧ t.wtr.inbox = [] ∧ t.wtr.outbox = [] ∧
      t.wtr.lastTaken = none ∧ t.wtr.settings = s.wtr.settings ∧ t.closing = s.closing ∧
      t.pending = s.pending ∧ t.pin = s.pin ∧ t.spu.minSpan = s.spu.minSpan ∧ t.spu.maxSpan = s.spu.maxSpan ∧
      (∀ h, t.head h = { s.head h with misses := 0, missed := 0, late := 0, frameErrors := 0 }) ∧
      (∀ k : Fin 4, t.mcv.channels[k] =
        { s.mcv.channels[k] with
          count := if (s.mcv.channels[k]).state = .armed then 0 else (s.mcv.channels[k]).count }) ∧
      (∀ k : Fin 8, t.wtr.table[k] = .empty) ∧ t.wtr.nextId = 1 ∧ t.wtr.watch = .normal ∧ t.wtr.lastScan = 0 ∧
      t.wtr.tableFull = 0 ∧
      t.spu.span = some { number := 1, inSection? := none, start := start, scans := 0, skipped := 0,
                          flags := { isPartial := false, blind := false, uncompensated := false,
                                     exceedanceLost := false, chainageFix := false } } ∧
      t.spu.closed = 0 ∧ t.spu.losses = [] ∧ t.spu.retain = [] ∧ (∀ k : Fin 8, t.spu.accumulators[k] = none) ∧
      t.scu = { s.scu with armed := false } ∧
      t.lev = { s.lev with opened := 0, overflow := 0 } ∧ t.settings = s.settings ∧
      t.hli = ({ s.hli with inbound := rest, traceDropped := 0, reportsLost := 0 }.offer
        (.event (.runStarted start dir leading))).answered f .done [])

/-- R105, R177 and the first step of R178: STOP_RUN, and the beginning of the closing work once no scan record remains,
at once or by CLOSING_WORK.
R141, R165 and R178, steps 3 to 6: when the second of the span unit and the limit evaluator takes the end-of-run set,
the span or the list is closed, the cache becomes DEFAULT, RUN_STOPPED is offered with its three counts, and the mode
becomes STANDBY.
The model's own in it: the closing work begins in STOP_RUN's own step when nothing is in flight (log entry 18), CLOSING_WORK
that is not due does nothing (log entry 7), and the start chainage of a run without scans is read from the chainage base
(log entry 17). Two entries of the last record may carry one track id, once the id counter has wrapped within the span
(log entry 27). -/
def Obligations.RunEndsInOrder : Prop :=
  (let begun := fun s t : State => t.closing = true ∧ (∀ k : Fin 8, t.wtr.table[k] = .empty) ∧ t.wtr.watch = .normal ∧
     t.wtr.nextId = s.wtr.nextId ∧ t.wtr.lastScan = s.wtr.lastScan ∧ t.wtr.settings = s.wtr.settings ∧
     ∃ set : SampleSet, t.wtr.outbox = s.wtr.outbox ++ [set] ∧ set.runEnd = true ∧ set.blind = false ∧
       set.samples = [] ∧
       set.notices = ((List.finRange 8).filter fun k => (s.wtr.table[k]).established).filterMap (fun k =>
         (s.wtr.table[k]).track?.map fun u => { slot := k, id := u.id, reason := .runEnd }) ∧
       (∀ header design, s.wtr.lastTaken = some (header, design) → set.header = header ∧ set.snapshot = design) ∧
       (s.wtr.lastTaken = none → set.snapshot = s.scu.default ∧ set.header =
         { scan := 0, stamp := s.tu.stamp, chainage := s.tu.base, gap := 0, fix := none, mast := none })
   let others := fun s t : State => t.pending = s.pending ∧ t.pin = s.pin ∧ t.hlc = s.hlc ∧
     t.mcv = s.mcv ∧ t.pxu = s.pxu ∧ t.wru = s.wru ∧ t.scu = s.scu ∧
     t.spu = s.spu ∧ t.lev = s.lev
   (∀ (s : State) (f : HostFrame) (rest : List HostFrame), s.holds f rest → f.kind = 0x21 → f.body = [] →
     s.mode = .running → ∃ t, exec .stopRun s = .next t ∧ t.mode = .stopping ∧
       t.tu = { s.tu with pendingFix := none, mast := none } ∧ t.hli = (s.popped rest).hli.answered f .done [] ∧
       others s t ∧ (s.hlc.scans ≠ [] → t.wtr = s.wtr ∧ t.closing = s.closing) ∧
       (s.hlc.scans = [] → s.closing = false → begun s t)) ∧
   (∀ s : State, s.pin = false → s.mode = .stopping → s.hlc.scans = [] → s.closing = false →
     ∃ t, exec .closingWork s = .next t ∧ t.mode = .stopping ∧ t.tu = s.tu ∧ t.hli = s.hli.kick ∧ others s t ∧
       begun s t) ∧
   ∀ s : State, s.pin = false → (s.mode ≠ .stopping ∨ s.hlc.scans ≠ [] ∨ s.closing = true) →
     exec .closingWork s = .next s.kick) ∧
  (∀ (s : State) (o : Offered), s.pin = false → s.wru.offered = some o → o.set.runEnd = true →
     (∀ sp, s.spu.span = some sp → o.spanTaken = false →
       let noticed := o.set.notices.foldl applyNotice
         { accumulators := s.spu.accumulators, retain := s.spu.retain, isPartial := sp.flags.isPartial }
       let record : SpanRecord :=
         { number := sp.number, sectionId := sp.inSection?.getD o.set.snapshot.id, start := sp.start,
           stop := o.set.header.chainage, reason := .runEnd, scans := sp.scans, skipped := sp.skipped,
           flags := { sp.flags with isPartial := noticed.isPartial },
           entries := noticed.retain.map (fun a => { ended := true, values := a }) ++
             (List.finRange 8).filterMap fun k =>
               (noticed.accumulators[k]).map fun a => { ended := false, values := a } }
       ∃ t, exec .spanSetTake s = .next t ∧ t.spu = { s.spu with
         span := none, accumulators := Vector.replicate 8 none, retain := [], closed := countUp s.spu.closed } ∧
       t.pending = s.pending ∧ t.pin = s.pin ∧ t.lev = s.lev ∧ t.tu = s.tu ∧ t.hlc = s.hlc ∧
       t.mcv = s.mcv ∧ t.pxu = s.pxu ∧ t.wtr = s.wtr ∧
       (o.limitTaken = false → t.mode = s.mode ∧ t.hli = (s.hli.offer (.span record)).kick ∧ t.scu = s.scu ∧
         t.wru = { s.wru with offered := some { o with spanTaken := true } }) ∧
       (o.limitTaken = true → t.mode = .standby ∧ t.closing = false ∧ t.scu = { s.scu with cache := none } ∧
         t.wru = { s.wru with offered := none } ∧
         t.hli = ((s.hli.offer (.span record)).offer
           (.event (.runStopped s.tu.accepted (countUp s.spu.closed) s.lev.opened))).kick)) ∧
     (o.limitTaken = false → ∃ t, exec .limitSetTake s = .next t ∧ t.lev = { s.lev with entries := [] } ∧
       t.pending = s.pending ∧ t.pin = s.pin ∧ t.spu = s.spu ∧ t.tu = s.tu ∧ t.hlc = s.hlc ∧
       t.mcv = s.mcv ∧ t.pxu = s.pxu ∧ t.wtr = s.wtr ∧
       let closed := s.hli.offerAll ((s.lev.entries.filter fun e => e.report && s.hli.gates.severity e.severity).map
         (fun e => .exceedance e (some .runEnd)))
       (o.spanTaken = false → t.mode = s.mode ∧ t.hli = closed.kick ∧ t.scu = s.scu ∧
         t.wru = { s.wru with offered := some { o with limitTaken := true } }) ∧
       (o.spanTaken = true → t.mode = .standby ∧ t.closing = false ∧ t.scu = { s.scu with cache := none } ∧
         t.wru = { s.wru with offered := none } ∧
         t.hli = (closed.offer (.event (.runStopped s.tu.accepted s.spu.closed s.lev.opened))).kick)))

/-- R179, with the RESTART values of R32, R52, R55, R66, R83, R106, R119, R135, R150 and R168. That the bytes the host and
head receivers hold stay is the model's choice (log entry 13). -/
def Obligations.RestartAborts : Prop :=
  ∀ (s : State) (f : HostFrame) (rest : List HostFrame), s.holds f rest → f.kind = 0x2F → f.body = [] →
    ∃ t, exec .restart s = .next t ∧ t.mode = .standby ∧ t.settings = s.settings ∧ t.pending = s.pending ∧
      t.pin = s.pin ∧ t.closing = false ∧ t.wtr.settings = s.wtr.settings ∧ t.wtr.lastTaken = s.wtr.lastTaken ∧
      (∀ k : Fin 2, (t.hlc.pairs[k]).banks = (s.hlc.pairs[k]).banks) ∧
      t.tu = { s.tu with gap := 0, pendingFix := none, mast := none, watch := .forward, accepted := 0, overruns := 0,
                         mastsIgnored := 0 } ∧
      (∀ h, t.head h = { s.head h with misses := 0, missed := 0, late := 0, frameErrors := 0 }) ∧ t.hlc.scans = [] ∧
      (∀ k : Fin 2, (t.hlc.pairs[k]).owner = .free) ∧ t.hlc.profile = s.hlc.profile ∧ t.hlc.sent = s.hlc.sent ∧
      (∀ k : Fin 4, t.mcv.channels[k] = { s.mcv.channels[k] with
        state := if (s.mcv.channels[k]).config.enable then .armed else .off, last := none, count := 0 }) ∧
      t.mcv.sequences = [] ∧ t.pxu = { s.pxu with current := none, counters :=
        { outOfFrame := 0, short := 0, narrow := 0, wide := 0, outOfWindow := 0, dropped := 0 } } ∧
      (∀ k : Fin 8, t.wtr.table[k] = .empty) ∧ t.wtr.nextId = s.wtr.nextId ∧ t.wtr.lastScan = s.wtr.lastScan ∧
      t.wtr.watch = .normal ∧ t.wtr.tableFull = 0 ∧ t.wtr.inbox = [] ∧ t.wtr.outbox = [] ∧
      t.wru = { s.wru with valuing := none, offered := none } ∧
      t.scu = { s.scu with queue := [], cache := none, armed := false } ∧ t.spu.span = none ∧ t.spu.retain = [] ∧
      t.spu.losses = [] ∧ t.spu.closed = 0 ∧ (∀ k : Fin 8, t.spu.accumulators[k] = none) ∧
      t.spu.minSpan = s.spu.minSpan ∧ t.spu.maxSpan = s.spu.maxSpan ∧
      t.lev = { s.lev with entries := [], opened := 0, overflow := 0 } ∧
      t.hli = ({ s.hli with inbound := rest, queue := [], loss := 0, traceDropped := 0, reportsLost := 0 }.offer
        (.event (.started .restart))).answered f .done []

/-! ## Invariants that every step keeps -/

/-- R181, R169 and R171: the bounds of the outbound queue and of the holding list, and what an IDLE transmitter leaves. -/
def Obligations.HostLineStaysBounded : Prop :=
  ∀ s t : State, s.lineBounded → step s = .next t → t.lineBounded

/-- R86: no two non-EMPTY slots ever hold one id. -/
def Obligations.TrackIdsStayDistinct : Prop :=
  ∀ s t : State, s.wtr.idsDistinct → step s = .next t → t.wtr.idsDistinct

/-- R158: the open exceedance list holds at most 16 entries, no two with one key. -/
def Obligations.ExceedanceListStaysKeyed : Prop :=
  ∀ s t : State, s.lev.keyed → step s = .next t → t.lev.keyed

/-- R124: the law of the route queue. -/
def Obligations.RouteQueueStaysOrdered : Prop :=
  ∀ s t : State, s.scu.ordered → step s = .next t → t.scu.ordered

/-- R42, R44, R51, R52 and R58: the bank pairs are owned as the scan records in flight say, no record that has become
complete gathers on, and the conversion sequences in flight are those of the records without motion sample: none in
STANDBY. -/
def Obligations.BanksStayOwnedByScans : Prop :=
  ∀ s t : State, s.banksOwned → step s = .next t → t.banksOwned

/-- R14: every stagger and height held for a report stays in the frame. R108 and R116: every LOADED wear table keeps its
shape, and every thickness and wear held for a report its range. -/
def Obligations.GeometryStaysFramed : Prop :=
  ∀ s t : State, s.geometryFramed → step s = .next t → t.geometryFramed

/-- R1 and R185: nothing that stops at 65535 passes it: run and link counters, head counts, gap and loss counts, spans
closed, the open span's counts, the samples of accumulators and retained entries, exceedance counts, track ages. -/
def Obligations.CountersStayStopped : Prop :=
  ∀ s t : State, s.countersStopped → step s = .next t → t.countersStopped

/-- R156 and R157: until power-on reset a DESIGN policy stays, and while the bypass is OFF a locked rule and the bypass
do not move. -/
def Obligations.LocksAndPolicyHold : Prop :=
  ∀ s t : State, step s = .next t → s.pending.head? ≠ some .powerOnResetRelease →
    (s.lev.design = true → t.lev.design = true) ∧
    ∀ k : Fin 16, s.lev.bypass = false → (s.lev.rules[k]).lock = true →
      t.lev.bypass = false ∧ t.lev.rules[k] = s.lev.rules[k]

/-- R172: the mode moves only along its table; and outside STANDBY the settings that chapter 11 takes in STANDBY alone
stay as they are, short of a power-on reset. -/
def Obligations.ModesAndRunSettings : Prop :=
  ∀ s t : State, s.banksOwned → step s = .next t →
    (s.pending = [] → t.mode = s.mode) ∧
    (∀ c rest, s.pending = c :: rest → modePassage c s.mode t.mode = true) ∧
    (s.mode ≠ .standby → s.pending.head? ≠ some .powerOnResetRelease → t.settings = s.settings)

/-- The part right after reset meets every invariant stated above. -/
def Obligations.ResetMeetsInvariants : Prop :=
  State.reset.lineBounded ∧ State.reset.wtr.idsDistinct ∧ State.reset.lev.keyed ∧ State.reset.scu.ordered ∧
  State.reset.banksOwned ∧ State.reset.geometryFramed ∧ State.reset.countersStopped
end

