-- ==== Sys2Proof/Laws/Arithmetic.lean ====
section
/-! SUPPORT. Rounding, the stable sort, and folds: the small facts about the shared operations of Machine/Ops.lean. -/

namespace Sys2Proof.Machine

/-! ## Rounding (R1) -/

theorem roundDiv_le {n d k : Int} (hd : 0 < d) (h : n ≤ k * d) : roundDiv n d ≤ k := by
  unfold roundDiv
  split
  · have : (2 * n + d) / (2 * d) < k + 1 := by
      apply Int.ediv_lt_of_lt_mul (by omega)
      nlinarith
    omega
  · have : -k ≤ (-(2 * n) + d) / (2 * d) := by
      apply Int.le_ediv_of_mul_le (by omega)
      nlinarith
    omega

theorem le_roundDiv {n d k : Int} (hd : 0 < d) (h : k * d ≤ n) : k ≤ roundDiv n d := by
  unfold roundDiv
  split
  · apply Int.le_ediv_of_mul_le (by omega)
    nlinarith
  · have : (-(2 * n) + d) / (2 * d) < -k + 1 := by
      apply Int.ediv_lt_of_lt_mul (by omega)
      nlinarith
    omega

/-- A rounded mean is no greater than a bound of every member, and no less than one below them. -/
theorem mean_le {α : Type} {l : List α} {f : α → Int} {hi : Int} (hl : l ≠ []) (h : ∀ c ∈ l, f c ≤ hi) :
    roundDiv (l.map f).sum l.length ≤ hi := by
  have hs : ∀ l : List α, (∀ c ∈ l, f c ≤ hi) → (l.map f).sum ≤ hi * l.length := by
    intro l
    induction l with
    | nil => simp
    | cons a l ih =>
      intro h
      have h1 := h a (by simp)
      have h2 := ih (fun c hc => h c (by simp [hc]))
      simp only [List.map_cons, List.sum_cons, List.length_cons, Nat.cast_add, Nat.cast_one]
      nlinarith
  have hp : (0 : Int) < l.length := by have := List.length_pos_iff.mpr hl; omega
  exact roundDiv_le hp (hs l h)

theorem le_mean {α : Type} {l : List α} {f : α → Int} {lo : Int} (hl : l ≠ []) (h : ∀ c ∈ l, lo ≤ f c) :
    lo ≤ roundDiv (l.map f).sum l.length := by
  have hs : ∀ l : List α, (∀ c ∈ l, lo ≤ f c) → lo * l.length ≤ (l.map f).sum := by
    intro l
    induction l with
    | nil => simp
    | cons a l ih =>
      intro h
      have h1 := h a (by simp)
      have h2 := ih (fun c hc => h c (by simp [hc]))
      simp only [List.map_cons, List.sum_cons, List.length_cons, Nat.cast_add, Nat.cast_one]
      nlinarith
  have hp : (0 : Int) < l.length := by have := List.length_pos_iff.mpr hl; omega
  exact le_roundDiv hp (hs l h)

/-! ## Folds -/

theorem foldl_keeps {α β : Type} (P : β → Prop) {f : β → α → β} {l : List α} {b : β} (h : P b)
    (hf : ∀ b, ∀ a ∈ l, P b → P (f b a)) : P (l.foldl f b) := by
  induction l generalizing b with
  | nil => exact h
  | cons a l ih => exact ih (hf _ _ (by simp) h) (fun b x hx => hf b x (by simp [hx]))

/-! ## The stable sort -/

theorem insertBy_perm {α : Type} (less : α → α → Bool) (a : α) (l : List α) : (insertBy less a l).Perm (a :: l) := by
  induction l with
  | nil => exact List.Perm.refl _
  | cons b l ih =>
    unfold insertBy
    split
    · exact List.Perm.refl _
    · exact (ih.cons b).trans (List.Perm.swap a b l)

theorem sortBy_perm {α : Type} (less : α → α → Bool) (l : List α) : (sortBy less l).Perm l := by
  have key : ∀ (l acc : List α), (l.foldl (fun acc a => insertBy less a acc) acc).Perm (acc ++ l) := by
    intro l
    induction l with
    | nil => intro acc; simp
    | cons a l ih =>
      intro acc
      refine (ih _).trans ?_
      have h1 : (insertBy less a acc ++ l).Perm (a :: acc ++ l) := (insertBy_perm less a acc).append_right l
      exact h1.trans List.perm_middle.symm
  simpa [sortBy] using key l []

/-- A sort by a total order on a key gives the keys in order. -/
theorem sortBy_sorted {α : Type} (key : α → Int) (l : List α) :
    (sortBy (fun a b => key a < key b) l).Pairwise fun a b => key a ≤ key b := by
  have ins : ∀ (a : α) (l : List α), (l.Pairwise fun a b => key a ≤ key b) →
      (insertBy (fun a b => key a < key b) a l).Pairwise fun a b => key a ≤ key b := by
    intro a l
    induction l with
    | nil => intro _; exact List.pairwise_singleton _ _
    | cons b l ih =>
      intro h
      rw [List.pairwise_cons] at h
      unfold insertBy
      split
      · rename_i hlt
        simp only [decide_eq_true_eq] at hlt
        rw [List.pairwise_cons]
        refine ⟨?_, List.pairwise_cons.mpr h⟩
        intro x hx
        rcases List.mem_cons.mp hx with rfl | hx
        · omega
        · have := h.1 x hx; omega
      · rename_i hge
        simp only [decide_eq_true_eq] at hge
        rw [List.pairwise_cons]
        refine ⟨?_, ih h.2⟩
        intro x hx
        rcases List.mem_cons.mp ((insertBy_perm _ a l).subset hx) with rfl | hx
        · omega
        · exact h.1 x hx
  unfold sortBy
  exact foldl_keeps (fun acc : List α => acc.Pairwise fun a b => key a ≤ key b) List.Pairwise.nil
    (fun acc a _ h => ins a acc h)

/-- A comparison that orders its elements up to ties: what is less than one of two elements that are not less than each
other is less than both. -/
structure Orders {α : Type} (less : α → α → Bool) : Prop where
  asymm : ∀ a b, less a b = true → less b a = false
  cotrans : ∀ a b c, less a b = true → less a c = true ∨ less c b = true

/-- Inserting behind its equals keeps a list sorted, in the order that a tie-break `tie` refines. -/
theorem insertBy_keeps {α : Type} {less : α → α → Bool} (ho : Orders less) {tie : α → α → Prop} {a : α} {l : List α}
    (hl : l.Pairwise fun x y => less x y = true ∨ (less y x = false ∧ tie x y)) (ha : ∀ x ∈ l, tie x a) :
    (insertBy less a l).Pairwise fun x y => less x y = true ∨ (less y x = false ∧ tie x y) := by
  induction l with
  | nil => simp [insertBy]
  | cons b l ih =>
    rw [List.pairwise_cons] at hl
    unfold insertBy
    split
    · rename_i hab
      rw [List.pairwise_cons, List.pairwise_cons]
      refine ⟨fun y hy => .inl ?_, hl⟩
      rcases List.mem_cons.mp hy with rfl | hy
      · exact hab
      · rcases ho.cotrans a b y hab with h | h
        · exact h
        · rcases hl.1 y hy with h' | h'
          · rw [ho.asymm _ _ h'] at h; cases h
          · rw [h'.1] at h; cases h
    · rename_i hab
      rw [List.pairwise_cons]
      refine ⟨fun y hy => ?_, ih hl.2 fun x hx => ha x (by simp [hx])⟩
      rcases List.mem_cons.mp ((insertBy_perm less a l).subset hy) with rfl | hy
      · exact .inr ⟨by simpa using hab, ha b (by simp)⟩
      · exact hl.1 y hy

/-- A list whose order `tie` follows is sorted with its ties in that order. -/
theorem sortBy_stable {α : Type} {less : α → α → Bool} (ho : Orders less) {tie : α → α → Prop} {l : List α}
    (hl : l.Pairwise tie) :
    (sortBy less l).Pairwise fun x y => less x y = true ∨ (less y x = false ∧ tie x y) := by
  have gen : ∀ (l acc : List α), l.Pairwise tie → (∀ x ∈ acc, ∀ y ∈ l, tie x y) →
      (acc.Pairwise fun x y => less x y = true ∨ (less y x = false ∧ tie x y)) →
      (l.foldl (fun acc a => insertBy less a acc) acc).Pairwise
        fun x y => less x y = true ∨ (less y x = false ∧ tie x y) := by
    intro l
    induction l with
    | nil => intro acc _ _ h; exact h
    | cons a l ih =>
      intro acc h1 h2 h3
      rw [List.pairwise_cons] at h1
      refine ih _ h1.2 ?_ (insertBy_keeps ho h3 fun x hx => h2 x hx a (by simp))
      intro x hx y hy
      rcases List.mem_cons.mp ((insertBy_perm less a acc).subset hx) with rfl | hx
      · exact h1.1 y hy
      · exact h2 x hx y (by simp [hy])
  exact gen l [] hl (by simp) List.Pairwise.nil

/-- In a sorted list the elements before a place are those that come ahead of the one standing there. -/
theorem mem_take_iff_rank {α : Type} {ahead : α → α → Bool} (has : ∀ a b, ahead a b = true → ahead b a = false) {l : List α}
    (hl : l.Pairwise fun a b => ahead a b = true) (n : Nat) (a : α) (ha : a ∈ l) :
    a ∈ l.take n ↔ (l.filter fun b => ahead b a).length < n := by
  induction l generalizing n with
  | nil => cases ha
  | cons b l ih =>
    rw [List.pairwise_cons] at hl
    have irrefl : ∀ x, ahead x x = false := fun x => by
      cases h : ahead x x with
      | false => rfl
      | true => exact (has x x h).symm.trans h ▸ rfl
    cases n with
    | zero => simp
    | succ n =>
      by_cases e : a = b
      · subst e
        have hn : (l.filter fun b => ahead b a) = [] := by
          rw [List.filter_eq_nil_iff]
          intro y hy; rw [has _ _ (hl.1 y hy)]; simp
        rw [List.filter_cons_of_neg (by simp [irrefl]), hn]
        simp
      · have ha' : a ∈ l := by simpa [e] using ha
        rw [List.filter_cons_of_pos (p := fun b => ahead b a) (hl.1 a ha'), List.take_succ_cons,
          List.mem_cons, ih hl.2 n ha']
        simp [e]

end Sys2Proof.Machine
end

