-- ==== Sys2Proof/Laws/Bytes.lean ====
section
/-! SUPPORT. What the byte functions do: byte order both ways, bodies of fields cut back into their fields, and the
receiver over a whole frame and over frames that arrive in pieces. -/

namespace Sys2Proof.Machine

/-! ## Byte order -/

@[simp] theorem beBytes_length (n v : Nat) : (beBytes n v).length = n := by
  induction n generalizing v with
  | zero => rfl
  | succ n ih => simp [beBytes, ih]

theorem beNat_append (a b : List Byte) : beNat (a ++ b) = beNat a * 256 ^ b.length + beNat b := by
  have key : ∀ (b : List Byte) (n : Nat),
      b.foldl (fun acc x => 256 * acc + x.toNat) n = n * 256 ^ b.length + beNat b := by
    intro b
    induction b with
    | nil => intro n; simp [beNat]
    | cons x rest ih =>
      intro n
      have h0 := ih (256 * n + x.toNat)
      have h1 := ih (256 * 0 + x.toNat)
      simp only [beNat, List.foldl_cons, List.length_cons] at *
      rw [h0, h1]
      ring
  simpa [beNat, List.foldl_append] using key b (beNat a)

/-- The low bytes of a value spell it back, when they can. -/
theorem beNat_beBytes (n v : Nat) (h : v < 256 ^ n) : beNat (beBytes n v) = v := by
  induction n generalizing v with
  | zero => simp at h; simp [beBytes, beNat, h]
  | succ n ih =>
    have h2 : v / 256 < 256 ^ n := by
      rw [Nat.div_lt_iff_lt_mul (by decide)]
      simpa [pow_succ] using h
    simp only [beBytes, beNat_append, ih _ h2]
    simp [beNat]
    omega

@[simp] theorem fieldU_length (n : Nat) (v : Int) : (fieldU n v).length = n := by
  unfold fieldU; split <;> simp

@[simp] theorem fieldS_length (n : Nat) (v : Int) : (fieldS n v).length = n := by
  unfold fieldS; split <;> simp

/-- An unsigned field that fits is read back. -/
theorem beNat_fieldU (n v : Nat) (h : v < 256 ^ n) : beNat (fieldU n v) = v := by
  have : (0 : Int) ≤ v ∧ (v : Int) < ((256 ^ n : Nat) : Int) := ⟨by omega, by exact_mod_cast h⟩
  simp only [fieldU, if_pos this]
  exact beNat_beBytes n v h

theorem fieldU_of_fits (n v : Nat) (h : v < 256 ^ n) : fieldU n v = beBytes n v := by
  have : (0 : Int) ≤ v ∧ (v : Int) < ((256 ^ n : Nat) : Int) := ⟨by omega, by exact_mod_cast h⟩
  simp only [fieldU, if_pos this, Int.toNat_natCast]

/-- A signed field of two bytes that fits is read back. -/
theorem signedOf_fieldS_two (v : Int) (lo : -32768 ≤ v) (hi : v ≤ 32767) : signedOf 2 (beNat (fieldS 2 v)) = v := by
  have h : -((256 ^ 2 / 2 : Nat) : Int) ≤ v ∧ v < ((256 ^ 2 / 2 : Nat) : Int) := by constructor <;> norm_num <;> omega
  have hlt : (v % 65536).toNat < 256 ^ 2 := by omega
  simp only [fieldS, if_pos h]
  norm_num
  rw [beNat_beBytes _ _ (by simpa using hlt)]
  unfold signedOf
  split <;> omega

/-! ## Bodies of fields -/

/-- A body of fields, cut by their sizes, gives the fields' values back. -/
theorem splitFields_bodyOf (fields : List (Nat × Nat)) (h : fits fields) :
    splitFields (fields.map (·.1)) (bodyOf fields) = some (fields.map (·.2)) := by
  induction fields with
  | nil => rfl
  | cons a rest ih =>
    have ha : a.2 < 256 ^ a.1 := h a (by simp)
    have hr : fits rest := fun x hx => h x (by simp [hx])
    have hb : bodyOf (a :: rest) = beBytes a.1 a.2 ++ bodyOf rest := rfl
    simp [splitFields, hb, ih hr, beNat_beBytes _ _ ha]

theorem bodyOf_length (fields : List (Nat × Nat)) : (bodyOf fields).length = (fields.map (·.1)).sum := by
  induction fields with
  | nil => rfl
  | cons a rest ih => simp [bodyOf]

/-- A body whose length is not the sum of the sizes has no fields. -/
theorem splitFields_none (sizes : List Nat) (body : List Byte) (h : body.length ≠ sizes.sum) :
    splitFields sizes body = none := by
  induction sizes generalizing body with
  | nil =>
    cases body with
    | nil => simp at h
    | cons b rest => rfl
  | cons n sizes ih =>
    unfold splitFields
    split
    · rfl
    · rw [ih]
      · rfl
      · simp at h ⊢; omega

/-- A body whose length is the sum of the sizes has as many fields as there are sizes. -/
theorem splitFields_some_length {sizes : List Nat} {body : List Byte} {vs : List Nat}
    (h : splitFields sizes body = some vs) : vs.length = sizes.length := by
  induction sizes generalizing body vs with
  | nil =>
    cases body with
    | nil => simp [splitFields] at h; simp [← h]
    | cons b rest => simp [splitFields] at h
  | cons n sizes ih =>
    unfold splitFields at h
    split at h
    · cases h
    · obtain ⟨ws, hw, rfl⟩ := Option.map_eq_some_iff.mp h
      simp [ih hw]

end Sys2Proof.Machine
end

