-- ==== Sys2Proof/Laws/Extraction.lean ====
section
/-! SUPPORT. The extractor: where the members of clusters, candidates and groups come from, what the caps keep, and how
the groups lie along the sequence. -/

namespace Sys2Proof.Machine

/-! ## Clusters -/

theorem clusters_flatten (set : ExtractSettings) (l : List TrackPoint) : (clusters set l).flatten = l := by
  induction l with
  | nil => rfl
  | cons a rest ih =>
    unfold clusters
    split
    · rename_i b rest' c cs hc
      rw [hc] at ih
      split
      · simp only [List.flatten_cons, List.cons_append] at ih ⊢; rw [ih]
      · simp only [List.flatten_cons, List.cons_append, List.nil_append] at ih ⊢; rw [ih]
    · simp [ih]

theorem clusters_ne_nil (set : ExtractSettings) (l : List TrackPoint) : ∀ c ∈ clusters set l, c ≠ [] := by
  induction l with
  | nil => intro c hc; cases hc
  | cons a rest ih =>
    unfold clusters
    split
    · rename_i b rest' c cs hc
      rw [hc] at ih
      split
      · intro x hx
        rcases List.mem_cons.mp hx with rfl | hx
        · simp
        · exact ih x (by simp [hx])
      · intro x hx
        rcases List.mem_cons.mp hx with rfl | hx
        · simp
        · exact ih x hx
    · intro x hx
      rcases List.mem_cons.mp hx with rfl | hx
      · simp
      · exact ih x hx

theorem mem_of_mem_clusters {set : ExtractSettings} {l : List TrackPoint} {c : List TrackPoint} (h : c ∈ clusters set l)
    {p : TrackPoint} (hp : p ∈ c) : p ∈ l := by
  rw [← clusters_flatten set l]
  exact List.mem_flatten.mpr ⟨c, h, hp⟩

theorem clusterLow_mem {c : List TrackPoint} (h : c ≠ []) : ∃ p ∈ c, clusterLow c = p.z := by
  cases c with
  | nil => exact absurd rfl h
  | cons a rest =>
    have : ∀ (l : List TrackPoint) (m : Int), (∃ p ∈ a :: rest, m = p.z) → (∀ p ∈ l, p ∈ a :: rest) →
        ∃ p ∈ a :: rest, l.foldl (fun m p => min m p.z) m = p.z := by
      intro l
      induction l with
      | nil => intro m hm _; exact hm
      | cons b l ih =>
        intro m hm hl
        refine ih _ ?_ (fun p hp => hl p (by simp [hp]))
        dsimp only
        rcases le_total m b.z with e | e
        · rw [min_eq_left e]; exact hm
        · rw [min_eq_right e]; exact ⟨b, hl b (by simp), rfl⟩
    exact this rest a.z ⟨a, by simp, rfl⟩ (fun p hp => by simp [hp])

theorem clusterFirst_mem {c : List TrackPoint} (h : c ≠ []) : ∃ p ∈ c, clusterFirst c = p.x := by
  cases c with
  | nil => exact absurd rfl h
  | cons a rest => exact ⟨a, by simp, rfl⟩

theorem clusterLast_mem {c : List TrackPoint} (h : c ≠ []) : ∃ p ∈ c, clusterLast c = p.x := by
  obtain ⟨a, ha⟩ : ∃ a, c.getLast? = some a := by
    cases hc : c.getLast? with
    | none => exact absurd (List.getLast?_eq_none_iff.mp hc) h
    | some a => exact ⟨a, rfl⟩
  exact ⟨a, List.mem_of_getLast? ha, by simp [clusterLast, ha]⟩

/-- A candidate of a cluster in the frame is in the frame (R14, R73). -/
theorem candidateOf_framed {set : ExtractSettings} {h : HeadNo} {cal : Calibration} {window : Bool}
    {c : List TrackPoint} (hc : c ≠ []) (hf : ∀ p ∈ c, framed p.x p.z) :
    framed (candidateOf set h cal window c).x (candidateOf set h cal window c).z := by
  obtain ⟨p, hp, e1⟩ := clusterFirst_mem hc
  obtain ⟨q, hq, e2⟩ := clusterLast_mem hc
  obtain ⟨r, hr, e3⟩ := clusterLow_mem hc
  have fp := (hf p hp).1
  have fq := (hf q hq).1
  have fr := (hf r hr).2
  refine ⟨⟨?_, ?_⟩, ?_⟩
  · exact le_roundDiv (by omega) (by rw [e1, e2]; omega)
  · exact roundDiv_le (by omega) (by rw [e1, e2]; omega)
  · show 0 ≤ clusterLow c ∧ clusterLow c ≤ 99999
    rw [e3]; exact fr

/-! ## The caps -/

theorem zipIdx_map_fst {α : Type} (l : List α) : l.zipIdx.map (·.1) = l := by simp

theorem keepFirst_sublist {α : Type} (less : α → α → Bool) (n : Nat) (l : List α) :
    (keepFirst less n l).Sublist l := by
  unfold keepFirst
  dsimp only
  conv_rhs => rw [← zipIdx_map_fst l]
  exact List.Sublist.map _ List.filter_sublist

/-- What `keepFirst` keeps: the elements that fewer than `n` others come ahead of, ties by their order. -/
theorem keepFirst_eq {α : Type} {less : α → α → Bool} (ho : Orders less) (n : Nat) (l : List α) :
    keepFirst less n l = (l.zipIdx.filter fun a =>
      (l.zipIdx.filter fun b => less b.1 a.1 || (!less a.1 b.1 && decide (b.2 < a.2))).length < n).map (·.1) := by
  unfold keepFirst
  dsimp only
  have hidx : l.zipIdx.Pairwise fun a b => a.2 < b.2 := by
    have : (l.zipIdx.map (·.2)).Pairwise (· < ·) := by
      rw [List.zipIdx_eq_zip_range', List.map_snd_zip (by simp)]
      exact List.pairwise_lt_range'
    exact List.pairwise_map.mp this
  have ho' : Orders fun a b : α × Nat => less a.1 b.1 := ⟨fun a b => ho.asymm a.1 b.1, fun a b c => ho.cotrans a.1 b.1 c.1⟩
  let ahead : α × Nat → α × Nat → Bool := fun b a => less b.1 a.1 || (!less a.1 b.1 && decide (b.2 < a.2))
  have has : ∀ a b, ahead a b = true → ahead b a = false := by
    intro a b h
    simp only [ahead, Bool.or_eq_true, Bool.and_eq_true, Bool.not_eq_true', decide_eq_true_eq] at h
    rcases h with h | ⟨h1, h2⟩
    · simp [ahead, h, ho.asymm _ _ h]
    · simp only [ahead, h1, Bool.false_or, Bool.and_eq_false_iff, decide_eq_false_iff_not]
      right; omega
  have hs : (sortBy (fun a b : α × Nat => less a.1 b.1) l.zipIdx).Pairwise fun a b => ahead a b = true := by
    refine (sortBy_stable ho' hidx).imp ?_
    intro a b h
    simp only [ahead, Bool.or_eq_true, Bool.and_eq_true, Bool.not_eq_true', decide_eq_true_eq]
    exact h
  have hp := sortBy_perm (fun a b : α × Nat => less a.1 b.1) l.zipIdx
  congr 1
  apply List.filter_congr
  intro a ha
  have h1 := mem_take_iff_rank has hs n a (hp.symm.subset ha)
  rw [(hp.filter _).length_eq] at h1
  rw [Bool.eq_iff_iff, List.contains_iff_mem, decide_eq_true_iff]
  refine Iff.trans ?_ h1
  constructor
  · intro h
    obtain ⟨b, hb, e⟩ := List.mem_map.mp h
    have hb' : b ∈ l.zipIdx := hp.subset (List.mem_of_mem_take hb)
    have : b = a := by
      by_contra hne
      have : ∀ x ∈ l.zipIdx, ∀ y ∈ l.zipIdx, x.2 = y.2 → x = y := by
        intro x hx y hy exy
        have hx' := List.mem_zipIdx' hx
        have hy' := List.mem_zipIdx' hy
        refine Prod.ext ?_ exy
        rw [hx'.2, hy'.2]; simp [exy]
      exact hne (this b hb' a ha e)
    rw [← this]; exact hb
  · intro h; exact List.mem_map.mpr ⟨a, h, rfl⟩

/-- A list no longer than the cap is kept whole. -/
theorem keepFirst_all {α : Type} {less : α → α → Bool} (ho : Orders less) {n : Nat} {l : List α} (h : l.length ≤ n) :
    keepFirst less n l = l := by
  refine (keepFirst_sublist less n l).eq_of_length_le ?_
  rw [keepFirst_eq ho, List.length_map]
  refine (List.length_zipIdx (l := l) (i := 0)).symm.le.trans ?_
  refine Nat.le_of_eq (congrArg List.length (List.filter_eq_self.mpr ?_)).symm
  intro a ha
  rw [decide_eq_true_iff]
  refine Nat.lt_of_lt_of_le ?_ (Nat.le_trans (Nat.le_of_eq (List.length_zipIdx (l := l) (i := 0))) h)
  refine Nat.lt_of_le_of_ne (List.length_filter_le _ _) ?_
  intro e
  have := List.length_filter_eq_length_iff.mp e a ha
  have irr : less a.1 a.1 = false := by
    cases hc : less a.1 a.1 with
    | false => rfl
    | true => have := ho.asymm _ _ hc; rw [hc] at this; cases this
  simp [irr] at this

/-- The cap keeps as many elements as it can. -/
theorem keepFirst_length_eq {α : Type} (less : α → α → Bool) (n : Nat) (l : List α) :
    (keepFirst less n l).length = min n l.length := by
  unfold keepFirst
  dsimp only
  rw [List.length_map]
  have hp := sortBy_perm (fun a b : α × Nat => less a.1 b.1) l.zipIdx
  generalize sortBy (fun a b : α × Nat => less a.1 b.1) l.zipIdx = sorted at hp
  have hnd : (l.zipIdx.map (·.2)).Nodup := by
    rw [List.zipIdx_eq_zip_range', List.map_snd_zip (by simp)]
    exact List.nodup_range'
  have hk : ((sorted.take n).map (·.2)).Nodup :=
    ((hp.map (·.2)).nodup_iff.mpr hnd).sublist ((List.take_sublist n sorted).map _)
  have hf : ((l.zipIdx.filter fun a => ((sorted.take n).map (·.2)).contains a.2).map (·.2)).Perm
      ((sorted.take n).map (·.2)) := by
    refine (List.perm_ext_iff_of_nodup (hnd.sublist (List.filter_sublist.map _)) hk).mpr fun i => ?_
    constructor
    · intro h
      obtain ⟨a, ha, rfl⟩ := List.mem_map.mp h
      simpa using (List.mem_filter.mp ha).2
    · intro h
      obtain ⟨a, ha, rfl⟩ := List.mem_map.mp h
      exact List.mem_map.mpr ⟨a, List.mem_filter.mpr ⟨hp.subset (List.mem_of_mem_take ha),
        List.contains_iff_mem.mpr h⟩, rfl⟩
  have := hf.length_eq
  rw [List.length_map, List.length_map, List.length_take, hp.length_eq, List.length_zipIdx] at this
  exact this

theorem keptBefore_orders : Orders keptBefore := by
  constructor <;> intro a b <;>
    simp only [keptBefore, Bool.or_eq_true, Bool.and_eq_true, decide_eq_true_eq, beq_iff_eq, Bool.or_eq_false_iff,
      Bool.and_eq_false_iff, decide_eq_false_iff_not, beq_eq_false_iff_ne]
  · omega
  · intro c; omega

theorem lower_orders : Orders fun a b : Group => decide (a.z < b.z) := by
  constructor <;> intro a b <;> simp only [decide_eq_true_eq, decide_eq_false_iff_not]
  · omega
  · intro c; omega

theorem headCap_length (cs : List Candidate) : (headCap cs).length = min 6 cs.length := by
  unfold headCap
  split
  · omega
  · exact keepFirst_length_eq keptBefore 6 cs

theorem scanCap_length_eq (gs : List Group) : (scanCap gs).length = min 12 gs.length := by
  unfold scanCap
  split
  · omega
  · exact keepFirst_length_eq _ 12 gs

theorem keepFirst_length {α : Type} (less : α → α → Bool) (n : Nat) (l : List α) : (keepFirst less n l).length ≤ n := by
  rw [keepFirst_length_eq]; exact Nat.min_le_left _ _

theorem headCap_sublist (cs : List Candidate) : (headCap cs).Sublist cs := by
  unfold headCap
  split
  · exact List.Sublist.refl _
  · exact keepFirst_sublist _ _ _

theorem scanCap_sublist (gs : List Group) : (scanCap gs).Sublist gs := by
  unfold scanCap
  split
  · exact List.Sublist.refl _
  · exact keepFirst_sublist _ _ _

theorem scanCap_length (gs : List Group) : (scanCap gs).length ≤ 12 := by
  rw [scanCap_length_eq]; exact Nat.min_le_left _ _

/-! ## Groups along the sequence (R78) -/

theorem groupsFrom_flatten (set : ExtractSettings) (cs current : List Candidate) :
    (groupsFrom set current cs).flatten = current ++ cs := by
  induction cs generalizing current with
  | nil => simp [groupsFrom]
  | cons c cs ih =>
    unfold groupsFrom
    split
    · rw [ih]; simp
    · rw [List.flatten_cons, ih]; simp

/-- The group opened last stands first, begun by the members it has. -/
theorem groupsFrom_head (set : ExtractSettings) (cs current : List Candidate) :
    ∃ more rest, groupsFrom set current cs = (current ++ more) :: rest := by
  induction cs generalizing current with
  | nil => exact ⟨[], [], by simp [groupsFrom]⟩
  | cons c cs ih =>
    unfold groupsFrom
    split
    · obtain ⟨more, rest, h⟩ := ih (current ++ [c])
      exact ⟨c :: more, rest, by rw [h]; simp⟩
    · exact ⟨[], _, by simp; rfl⟩

/-- What holds of every opened group and is kept by every joining holds of the groups. -/
theorem groupsFrom_keeps (set : ExtractSettings) (P : List Candidate → Prop) (h1 : ∀ c, P [c])
    (h2 : ∀ g c, P g → joinsGroup set g c = true → P (g ++ [c])) (cs current : List Candidate) (h : P current) :
    ∀ g ∈ groupsFrom set current cs, P g := by
  induction cs generalizing current with
  | nil => intro g hg; simp [groupsFrom] at hg; rw [hg]; exact h
  | cons c cs ih =>
    unfold groupsFrom
    split
    · rename_i hj; exact ih _ (h2 _ _ h hj)
    · intro g hg
      rcases List.mem_cons.mp hg with rfl | hg
      · exact h
      · exact ih _ (h1 c) g hg

/-- The first candidate behind a group did not join it. -/
theorem groupsFrom_next (set : ExtractSettings) (cs current : List Candidate) {a b : List (List Candidate)}
    {g : List Candidate} {next : Candidate} {more : List Candidate}
    (h : groupsFrom set current cs = a ++ g :: (next :: more) :: b) : joinsGroup set g next = false := by
  induction cs generalizing current a with
  | nil =>
    have := congrArg List.length h
    simp [groupsFrom] at this
    omega
  | cons c cs ih =>
    unfold groupsFrom at h
    split at h
    · exact ih _ h
    · rename_i hj
      cases a with
      | nil =>
        simp only [List.nil_append, List.cons.injEq] at h
        obtain ⟨h1, h2⟩ := h
        obtain ⟨m, r, hm⟩ := groupsFrom_head set cs [c]
        rw [hm] at h2
        simp only [List.cons_append, List.nil_append, List.cons.injEq] at h2
        rw [← h1, ← h2.1.1]
        simpa using hj
      | cons x a =>
        simp only [List.cons_append, List.cons.injEq] at h
        exact ih _ h.2

end Sys2Proof.Machine
end

