-- ==== Sys2Proof/Laws/State.lean ====
section
/-! SUPPORT. One lemma per field for each update of the state that the meanings share, so that a proof need not unfold
the update; and the same for the updates of the host line. -/

namespace Sys2Proof.Machine

variable (s : State)

/-! ### State.offer -/

@[simp] theorem State.offer_pending (r : Report) : (s.offer r).pending = s.pending := rfl
@[simp] theorem State.offer_pin (r : Report) : (s.offer r).pin = s.pin := rfl
@[simp] theorem State.offer_mode (r : Report) : (s.offer r).mode = s.mode := rfl
@[simp] theorem State.offer_closing (r : Report) : (s.offer r).closing = s.closing := rfl
@[simp] theorem State.offer_tu (r : Report) : (s.offer r).tu = s.tu := rfl
@[simp] theorem State.offer_hlc (r : Report) : (s.offer r).hlc = s.hlc := rfl
@[simp] theorem State.offer_mcv (r : Report) : (s.offer r).mcv = s.mcv := rfl
@[simp] theorem State.offer_pxu (r : Report) : (s.offer r).pxu = s.pxu := rfl
@[simp] theorem State.offer_wtr (r : Report) : (s.offer r).wtr = s.wtr := rfl
@[simp] theorem State.offer_wru (r : Report) : (s.offer r).wru = s.wru := rfl
@[simp] theorem State.offer_scu (r : Report) : (s.offer r).scu = s.scu := rfl
@[simp] theorem State.offer_spu (r : Report) : (s.offer r).spu = s.spu := rfl
@[simp] theorem State.offer_lev (r : Report) : (s.offer r).lev = s.lev := rfl
@[simp] theorem State.offer_hli (r : Report) : (s.offer r).hli = s.hli.offer r := rfl

/-! ### State.offerAll -/

@[simp] theorem State.offerAll_pending (rs : List Report) : (s.offerAll rs).pending = s.pending := rfl
@[simp] theorem State.offerAll_pin (rs : List Report) : (s.offerAll rs).pin = s.pin := rfl
@[simp] theorem State.offerAll_mode (rs : List Report) : (s.offerAll rs).mode = s.mode := rfl
@[simp] theorem State.offerAll_closing (rs : List Report) : (s.offerAll rs).closing = s.closing := rfl
@[simp] theorem State.offerAll_tu (rs : List Report) : (s.offerAll rs).tu = s.tu := rfl
@[simp] theorem State.offerAll_hlc (rs : List Report) : (s.offerAll rs).hlc = s.hlc := rfl
@[simp] theorem State.offerAll_mcv (rs : List Report) : (s.offerAll rs).mcv = s.mcv := rfl
@[simp] theorem State.offerAll_pxu (rs : List Report) : (s.offerAll rs).pxu = s.pxu := rfl
@[simp] theorem State.offerAll_wtr (rs : List Report) : (s.offerAll rs).wtr = s.wtr := rfl
@[simp] theorem State.offerAll_wru (rs : List Report) : (s.offerAll rs).wru = s.wru := rfl
@[simp] theorem State.offerAll_scu (rs : List Report) : (s.offerAll rs).scu = s.scu := rfl
@[simp] theorem State.offerAll_spu (rs : List Report) : (s.offerAll rs).spu = s.spu := rfl
@[simp] theorem State.offerAll_lev (rs : List Report) : (s.offerAll rs).lev = s.lev := rfl
@[simp] theorem State.offerAll_hli (rs : List Report) : (s.offerAll rs).hli = s.hli.offerAll rs := rfl

/-! ### State.event -/

@[simp] theorem State.event_pending (e : Event) : (s.event e).pending = s.pending := rfl
@[simp] theorem State.event_pin (e : Event) : (s.event e).pin = s.pin := rfl
@[simp] theorem State.event_mode (e : Event) : (s.event e).mode = s.mode := rfl
@[simp] theorem State.event_closing (e : Event) : (s.event e).closing = s.closing := rfl
@[simp] theorem State.event_tu (e : Event) : (s.event e).tu = s.tu := rfl
@[simp] theorem State.event_hlc (e : Event) : (s.event e).hlc = s.hlc := rfl
@[simp] theorem State.event_mcv (e : Event) : (s.event e).mcv = s.mcv := rfl
@[simp] theorem State.event_pxu (e : Event) : (s.event e).pxu = s.pxu := rfl
@[simp] theorem State.event_wtr (e : Event) : (s.event e).wtr = s.wtr := rfl
@[simp] theorem State.event_wru (e : Event) : (s.event e).wru = s.wru := rfl
@[simp] theorem State.event_scu (e : Event) : (s.event e).scu = s.scu := rfl
@[simp] theorem State.event_spu (e : Event) : (s.event e).spu = s.spu := rfl
@[simp] theorem State.event_lev (e : Event) : (s.event e).lev = s.lev := rfl
@[simp] theorem State.event_hli (e : Event) : (s.event e).hli = s.hli.offer (.event e) := rfl

/-! ### State.kick -/

@[simp] theorem State.kick_pending : s.kick.pending = s.pending := rfl
@[simp] theorem State.kick_pin : s.kick.pin = s.pin := rfl
@[simp] theorem State.kick_mode : s.kick.mode = s.mode := rfl
@[simp] theorem State.kick_closing : s.kick.closing = s.closing := rfl
@[simp] theorem State.kick_tu : s.kick.tu = s.tu := rfl
@[simp] theorem State.kick_hlc : s.kick.hlc = s.hlc := rfl
@[simp] theorem State.kick_mcv : s.kick.mcv = s.mcv := rfl
@[simp] theorem State.kick_pxu : s.kick.pxu = s.pxu := rfl
@[simp] theorem State.kick_wtr : s.kick.wtr = s.wtr := rfl
@[simp] theorem State.kick_wru : s.kick.wru = s.wru := rfl
@[simp] theorem State.kick_scu : s.kick.scu = s.scu := rfl
@[simp] theorem State.kick_spu : s.kick.spu = s.spu := rfl
@[simp] theorem State.kick_lev : s.kick.lev = s.lev := rfl
@[simp] theorem State.kick_hli : s.kick.hli = s.hli.kick := rfl

/-! ### State.reply -/

@[simp] theorem State.reply_pending (f : HostFrame) (c : Result) (d : List Byte) :
    (s.reply f c d).pending = s.pending := rfl
@[simp] theorem State.reply_pin (f : HostFrame) (c : Result) (d : List Byte) : (s.reply f c d).pin = s.pin := rfl
@[simp] theorem State.reply_mode (f : HostFrame) (c : Result) (d : List Byte) : (s.reply f c d).mode = s.mode := rfl
@[simp] theorem State.reply_closing (f : HostFrame) (c : Result) (d : List Byte) :
    (s.reply f c d).closing = s.closing := rfl
@[simp] theorem State.reply_tu (f : HostFrame) (c : Result) (d : List Byte) : (s.reply f c d).tu = s.tu := rfl
@[simp] theorem State.reply_hlc (f : HostFrame) (c : Result) (d : List Byte) : (s.reply f c d).hlc = s.hlc := rfl
@[simp] theorem State.reply_mcv (f : HostFrame) (c : Result) (d : List Byte) : (s.reply f c d).mcv = s.mcv := rfl
@[simp] theorem State.reply_pxu (f : HostFrame) (c : Result) (d : List Byte) : (s.reply f c d).pxu = s.pxu := rfl
@[simp] theorem State.reply_wtr (f : HostFrame) (c : Result) (d : List Byte) : (s.reply f c d).wtr = s.wtr := rfl
@[simp] theorem State.reply_wru (f : HostFrame) (c : Result) (d : List Byte) : (s.reply f c d).wru = s.wru := rfl
@[simp] theorem State.reply_scu (f : HostFrame) (c : Result) (d : List Byte) : (s.reply f c d).scu = s.scu := rfl
@[simp] theorem State.reply_spu (f : HostFrame) (c : Result) (d : List Byte) : (s.reply f c d).spu = s.spu := rfl
@[simp] theorem State.reply_lev (f : HostFrame) (c : Result) (d : List Byte) : (s.reply f c d).lev = s.lev := rfl
@[simp] theorem State.reply_hli (f : HostFrame) (c : Result) (d : List Byte) :
    (s.reply f c d).hli = { s.hli with slot := some { kind := f.kind, tag := f.tag, result := c, data := d } } := rfl

/-! ### State.popped -/

@[simp] theorem State.popped_pending (rest : List HostFrame) : (s.popped rest).pending = s.pending := rfl
@[simp] theorem State.popped_pin (rest : List HostFrame) : (s.popped rest).pin = s.pin := rfl
@[simp] theorem State.popped_mode (rest : List HostFrame) : (s.popped rest).mode = s.mode := rfl
@[simp] theorem State.popped_closing (rest : List HostFrame) : (s.popped rest).closing = s.closing := rfl
@[simp] theorem State.popped_tu (rest : List HostFrame) : (s.popped rest).tu = s.tu := rfl
@[simp] theorem State.popped_hlc (rest : List HostFrame) : (s.popped rest).hlc = s.hlc := rfl
@[simp] theorem State.popped_mcv (rest : List HostFrame) : (s.popped rest).mcv = s.mcv := rfl
@[simp] theorem State.popped_pxu (rest : List HostFrame) : (s.popped rest).pxu = s.pxu := rfl
@[simp] theorem State.popped_wtr (rest : List HostFrame) : (s.popped rest).wtr = s.wtr := rfl
@[simp] theorem State.popped_wru (rest : List HostFrame) : (s.popped rest).wru = s.wru := rfl
@[simp] theorem State.popped_scu (rest : List HostFrame) : (s.popped rest).scu = s.scu := rfl
@[simp] theorem State.popped_spu (rest : List HostFrame) : (s.popped rest).spu = s.spu := rfl
@[simp] theorem State.popped_lev (rest : List HostFrame) : (s.popped rest).lev = s.lev := rfl
@[simp] theorem State.popped_hli (rest : List HostFrame) : (s.popped rest).hli = { s.hli with inbound := rest } := rfl

/-! ### State.answered -/

@[simp] theorem State.answered_pending (f : HostFrame) (c : Result) (d : List Byte) :
    (s.answered f c d).pending = s.pending := rfl
@[simp] theorem State.answered_pin (f : HostFrame) (c : Result) (d : List Byte) :
    (s.answered f c d).pin = s.pin := rfl
@[simp] theorem State.answered_mode (f : HostFrame) (c : Result) (d : List Byte) :
    (s.answered f c d).mode = s.mode := rfl
@[simp] theorem State.answered_closing (f : HostFrame) (c : Result) (d : List Byte) :
    (s.answered f c d).closing = s.closing := rfl
@[simp] theorem State.answered_tu (f : HostFrame) (c : Result) (d : List Byte) : (s.answered f c d).tu = s.tu := rfl
@[simp] theorem State.answered_hlc (f : HostFrame) (c : Result) (d : List Byte) :
    (s.answered f c d).hlc = s.hlc := rfl
@[simp] theorem State.answered_mcv (f : HostFrame) (c : Result) (d : List Byte) :
    (s.answered f c d).mcv = s.mcv := rfl
@[simp] theorem State.answered_pxu (f : HostFrame) (c : Result) (d : List Byte) :
    (s.answered f c d).pxu = s.pxu := rfl
@[simp] theorem State.answered_wtr (f : HostFrame) (c : Result) (d : List Byte) :
    (s.answered f c d).wtr = s.wtr := rfl
@[simp] theorem State.answered_wru (f : HostFrame) (c : Result) (d : List Byte) :
    (s.answered f c d).wru = s.wru := rfl
@[simp] theorem State.answered_scu (f : HostFrame) (c : Result) (d : List Byte) :
    (s.answered f c d).scu = s.scu := rfl
@[simp] theorem State.answered_spu (f : HostFrame) (c : Result) (d : List Byte) :
    (s.answered f c d).spu = s.spu := rfl
@[simp] theorem State.answered_lev (f : HostFrame) (c : Result) (d : List Byte) :
    (s.answered f c d).lev = s.lev := rfl
@[simp] theorem State.answered_hli (f : HostFrame) (c : Result) (d : List Byte) :
    (s.answered f c d).hli = s.hli.answered f c d := rfl

/-! ### State.setHead -/

@[simp] theorem State.setHead_pending (h : HeadNo) (x : Head) : (s.setHead h x).pending = s.pending := rfl
@[simp] theorem State.setHead_pin (h : HeadNo) (x : Head) : (s.setHead h x).pin = s.pin := rfl
@[simp] theorem State.setHead_mode (h : HeadNo) (x : Head) : (s.setHead h x).mode = s.mode := rfl
@[simp] theorem State.setHead_closing (h : HeadNo) (x : Head) : (s.setHead h x).closing = s.closing := rfl
@[simp] theorem State.setHead_tu (h : HeadNo) (x : Head) : (s.setHead h x).tu = s.tu := rfl
@[simp] theorem State.setHead_hlc (h : HeadNo) (x : Head) :
    (s.setHead h x).hlc = { s.hlc with heads := s.hlc.heads.set h x } := rfl
@[simp] theorem State.setHead_mcv (h : HeadNo) (x : Head) : (s.setHead h x).mcv = s.mcv := rfl
@[simp] theorem State.setHead_pxu (h : HeadNo) (x : Head) : (s.setHead h x).pxu = s.pxu := rfl
@[simp] theorem State.setHead_wtr (h : HeadNo) (x : Head) : (s.setHead h x).wtr = s.wtr := rfl
@[simp] theorem State.setHead_wru (h : HeadNo) (x : Head) : (s.setHead h x).wru = s.wru := rfl
@[simp] theorem State.setHead_scu (h : HeadNo) (x : Head) : (s.setHead h x).scu = s.scu := rfl
@[simp] theorem State.setHead_spu (h : HeadNo) (x : Head) : (s.setHead h x).spu = s.spu := rfl
@[simp] theorem State.setHead_lev (h : HeadNo) (x : Head) : (s.setHead h x).lev = s.lev := rfl
@[simp] theorem State.setHead_hli (h : HeadNo) (x : Head) : (s.setHead h x).hli = s.hli := rfl

/-! ### State.send -/

@[simp] theorem State.send_pending (h : HeadNo) (bytes : List Byte) : (s.send h bytes).pending = s.pending := rfl
@[simp] theorem State.send_pin (h : HeadNo) (bytes : List Byte) : (s.send h bytes).pin = s.pin := rfl
@[simp] theorem State.send_mode (h : HeadNo) (bytes : List Byte) : (s.send h bytes).mode = s.mode := rfl
@[simp] theorem State.send_closing (h : HeadNo) (bytes : List Byte) : (s.send h bytes).closing = s.closing := rfl
@[simp] theorem State.send_tu (h : HeadNo) (bytes : List Byte) : (s.send h bytes).tu = s.tu := rfl
@[simp] theorem State.send_hlc (h : HeadNo) (bytes : List Byte) :
    (s.send h bytes).hlc = { s.hlc with sent := s.hlc.sent ++ [(h, bytes)] } := rfl
@[simp] theorem State.send_mcv (h : HeadNo) (bytes : List Byte) : (s.send h bytes).mcv = s.mcv := rfl
@[simp] theorem State.send_pxu (h : HeadNo) (bytes : List Byte) : (s.send h bytes).pxu = s.pxu := rfl
@[simp] theorem State.send_wtr (h : HeadNo) (bytes : List Byte) : (s.send h bytes).wtr = s.wtr := rfl
@[simp] theorem State.send_wru (h : HeadNo) (bytes : List Byte) : (s.send h bytes).wru = s.wru := rfl
@[simp] theorem State.send_scu (h : HeadNo) (bytes : List Byte) : (s.send h bytes).scu = s.scu := rfl
@[simp] theorem State.send_spu (h : HeadNo) (bytes : List Byte) : (s.send h bytes).spu = s.spu := rfl
@[simp] theorem State.send_lev (h : HeadNo) (bytes : List Byte) : (s.send h bytes).lev = s.lev := rfl
@[simp] theorem State.send_hli (h : HeadNo) (bytes : List Byte) : (s.send h bytes).hli = s.hli := rfl

/-! ### State.complete -/

@[simp] theorem State.complete_pending : s.complete.pending = s.pending := rfl
@[simp] theorem State.complete_pin : s.complete.pin = s.pin := rfl
@[simp] theorem State.complete_mode : s.complete.mode = s.mode := rfl
@[simp] theorem State.complete_closing : s.complete.closing = s.closing := rfl
@[simp] theorem State.complete_tu : s.complete.tu = s.tu := rfl
@[simp] theorem State.complete_hlc : s.complete.hlc = s.hlc.complete := rfl
@[simp] theorem State.complete_mcv : s.complete.mcv = s.mcv := rfl
@[simp] theorem State.complete_pxu : s.complete.pxu = s.pxu := rfl
@[simp] theorem State.complete_wtr : s.complete.wtr = s.wtr := rfl
@[simp] theorem State.complete_wru : s.complete.wru = s.wru := rfl
@[simp] theorem State.complete_scu : s.complete.scu = s.scu := rfl
@[simp] theorem State.complete_spu : s.complete.spu = s.spu := rfl
@[simp] theorem State.complete_lev : s.complete.lev = s.lev := rfl
@[simp] theorem State.complete_hli : s.complete.hli = s.hli := rfl

/-! ### State.closeAnswer -/

@[simp] theorem State.closeAnswer_pending (h : HeadNo) (a : Answer) : (s.closeAnswer h a).pending = s.pending := rfl
@[simp] theorem State.closeAnswer_pin (h : HeadNo) (a : Answer) : (s.closeAnswer h a).pin = s.pin := rfl
@[simp] theorem State.closeAnswer_mode (h : HeadNo) (a : Answer) : (s.closeAnswer h a).mode = s.mode := rfl
@[simp] theorem State.closeAnswer_closing (h : HeadNo) (a : Answer) : (s.closeAnswer h a).closing = s.closing := rfl
@[simp] theorem State.closeAnswer_tu (h : HeadNo) (a : Answer) : (s.closeAnswer h a).tu = s.tu := rfl
@[simp] theorem State.closeAnswer_hlc (h : HeadNo) (a : Answer) :
    (s.closeAnswer h a).hlc = ({ s.hlc with scans := answerIn h a s.hlc.scans } : Hlc).complete := rfl
@[simp] theorem State.closeAnswer_mcv (h : HeadNo) (a : Answer) : (s.closeAnswer h a).mcv = s.mcv := rfl
@[simp] theorem State.closeAnswer_pxu (h : HeadNo) (a : Answer) : (s.closeAnswer h a).pxu = s.pxu := rfl
@[simp] theorem State.closeAnswer_wtr (h : HeadNo) (a : Answer) : (s.closeAnswer h a).wtr = s.wtr := rfl
@[simp] theorem State.closeAnswer_wru (h : HeadNo) (a : Answer) : (s.closeAnswer h a).wru = s.wru := rfl
@[simp] theorem State.closeAnswer_scu (h : HeadNo) (a : Answer) : (s.closeAnswer h a).scu = s.scu := rfl
@[simp] theorem State.closeAnswer_spu (h : HeadNo) (a : Answer) : (s.closeAnswer h a).spu = s.spu := rfl
@[simp] theorem State.closeAnswer_lev (h : HeadNo) (a : Answer) : (s.closeAnswer h a).lev = s.lev := rfl
@[simp] theorem State.closeAnswer_hli (h : HeadNo) (a : Answer) : (s.closeAnswer h a).hli = s.hli := rfl

end Sys2Proof.Machine
end

