-- ==== Sys2Proof/Laws/Ops.lean ====
section
/-! SUPPORT. How a command acts: what the shared wrapper of every row does, what the command interpreter makes of the
frame at the head of the holding list, and that no command ends a run. -/

namespace Sys2Proof.Machine

/-! ## The wrapper of every row -/

theorem act_held (effect : State → State) {s : State} (h : s.pin = true) : act effect s = .next s := by
  simp [act, h]

theorem act_free (effect : State → State) {s : State} (h : s.pin = false) : act effect s = .next (effect s).kick := by
  simp [act, h]

/-- All that a wrapped effect can do. -/
theorem act_inv {effect : State → State} {s t : State} (h : act effect s = .next t) :
    s.pin = true ∧ t = s ∨ s.pin = false ∧ t = (effect s).kick := by
  unfold act at h
  cases hp : s.pin <;> simp_all

/-- Every command answers a next state: none faults, and none is refused. -/
theorem exec_next (c : Instr) (s : State) : ∃ t, exec c s = .next t := by
  cases c <;> exact ⟨_, rfl⟩

theorem step_next (s : State) : ∃ t, step s = .next t := by
  unfold step
  cases s.pending with
  | nil => exact ⟨_, rfl⟩
  | cons c rest => exact exec_next c _

/-- All that a step can do. -/
theorem step_cases {s t : State} (h : step s = .next t) :
    s.pending = [] ∧ t = s.idle ∨ ∃ c rest, s.pending = c :: rest ∧ exec c { s with pending := rest } = .next t := by
  unfold step at h
  cases hp : s.pending with
  | nil => left; rw [hp] at h; cases h; exact ⟨rfl, rfl⟩
  | cons c rest => right; rw [hp] at h; exact ⟨c, rest, rfl, h⟩

/-! ## The command interpreter -/

section Take

variable {row : HostFrame → Bool} {modes : Mode → Bool} {work : HostFrame → State → Verdict} {s : State}
  {f : HostFrame} {rest : List HostFrame}

/-- The frame at the head, taken or not by its row, judged by mode, and worked. -/
theorem takeCommand_holds (h : s.holds f rest) :
    takeCommand row modes work s =
      if row f then
        if modes s.mode then
          match work f (s.popped rest) with
          | .refused r => (s.popped rest).reply f r []
          | .taken s1 data => s1.reply f .done data
        else (s.popped rest).reply f .wrongMode []
      else s := by
  obtain ⟨-, hs, hi⟩ := h
  unfold takeCommand
  split
  · rename_i g r hs' hi'
    rw [hi] at hi'
    cases hi'
    rfl
  · rename_i hn
    exact (hn f rest hs hi).elim

theorem act_take_refused {r : Result} (h : s.holds f rest) (hr : row f = true) (hm : modes s.mode = true)
    (hw : work f (s.popped rest) = .refused r) :
    act (takeCommand row modes work) s = .next ((s.popped rest).answered f r []) := by
  simp [act_free _ h.1, takeCommand_holds h, hr, hm, hw, State.answered]

theorem act_take_taken {s1 : State} {data : List Byte} (h : s.holds f rest) (hr : row f = true)
    (hm : modes s.mode = true) (hw : work f (s.popped rest) = .taken s1 data) :
    act (takeCommand row modes work) s = .next (s1.answered f .done data) := by
  simp [act_free _ h.1, takeCommand_holds h, hr, hm, hw, State.answered]

theorem act_take_mode (h : s.holds f rest) (hr : row f = true) (hm : modes s.mode = false) :
    act (takeCommand row modes work) s = .next ((s.popped rest).answered f .wrongMode []) := by
  simp [act_free _ h.1, takeCommand_holds h, hr, hm, State.answered]

theorem act_take_other (h : s.holds f rest) (hr : row f = false) :
    act (takeCommand row modes work) s = .next s.kick := by
  simp [act_free _ h.1, takeCommand_holds h, hr]

theorem act_take_idle (hp : s.pin = false) (h : s.hli.slot ≠ none ∨ s.hli.inbound = []) :
    act (takeCommand row modes work) s = .next s.kick := by
  rw [act_free _ hp]
  unfold takeCommand
  split <;> simp_all

/-- All that a taken frame can do: nothing, a reply alone, or the work's own state with its reply. -/
theorem takeCommand_cases (row : HostFrame → Bool) (modes : Mode → Bool) (work : HostFrame → State → Verdict)
    (s : State) :
    takeCommand row modes work s = s ∨ ∃ f rest, s.hli.slot = none ∧ s.hli.inbound = f :: rest ∧ row f = true ∧
      ((∃ r, r ≠ .done ∧ takeCommand row modes work s = (s.popped rest).reply f r []) ∨
       (∃ r, modes s.mode = true ∧ work f (s.popped rest) = .refused r ∧
          takeCommand row modes work s = (s.popped rest).reply f r []) ∨
       ∃ s1 data, modes s.mode = true ∧ work f (s.popped rest) = .taken s1 data ∧
          takeCommand row modes work s = s1.reply f .done data) := by
  unfold takeCommand
  split
  · rename_i f rest hs hi
    split
    · rename_i hr
      right
      refine ⟨f, rest, hs, hi, hr, ?_⟩
      dsimp only
      split
      · rename_i hm
        split
        · rename_i r hw
          exact .inr (.inl ⟨r, hm, hw, rfl⟩)
        · rename_i s1 data hw
          exact .inr (.inr ⟨s1, data, hm, hw, rfl⟩)
      · exact .inl ⟨.wrongMode, by decide, rfl⟩
    · exact .inl rfl
  · exact .inl rfl

end Take

theorem judged_refused {α : Type} {parsed : Except Result α} {effect : α → State → State} {s : State} {r : Result}
    (h : parsed = .error r) : judged parsed effect s = .refused r := by
  simp [judged, h]

theorem judged_taken {α : Type} {parsed : Except Result α} {effect : α → State → State} {s : State} {a : α}
    (h : parsed = .ok a) : judged parsed effect s = .taken (effect a s) [] := by
  simp [judged, h]

end Sys2Proof.Machine
end

