-- ==== Sys2Proof/Laws/HostLine.lean ====
section
/-! SUPPORT. The host line: what an offer, a choice and a reply leave alone, that the queue's bounds hold through them,
and that an IDLE transmitter leaves nothing waiting. -/

namespace Sys2Proof.Machine

/-! ## What offers leave alone -/

@[simp] theorem Hli.enqueue_rx (l : Hli) (r : Report) : (l.enqueue r).rx = l.rx := by
  unfold Hli.enqueue Hli.enter; split_ifs <;> rfl

@[simp] theorem Hli.offer_rx (l : Hli) (r : Report) : (l.offer r).rx = l.rx := by
  unfold Hli.offer; split <;> simp

@[simp] theorem Hli.offerAll_rx (l : Hli) (rs : List Report) : (l.offerAll rs).rx = l.rx := by
  induction rs generalizing l with
  | nil => rfl
  | cons r rs ih => exact (ih _).trans (l.offer_rx r)

@[simp] theorem Hli.enqueue_inbound (l : Hli) (r : Report) : (l.enqueue r).inbound = l.inbound := by
  unfold Hli.enqueue Hli.enter; split_ifs <;> rfl

@[simp] theorem Hli.offer_inbound (l : Hli) (r : Report) : (l.offer r).inbound = l.inbound := by
  unfold Hli.offer; split <;> simp

@[simp] theorem Hli.offerAll_inbound (l : Hli) (rs : List Report) : (l.offerAll rs).inbound = l.inbound := by
  induction rs generalizing l with
  | nil => rfl
  | cons r rs ih => exact (ih _).trans (l.offer_inbound r)

@[simp] theorem Hli.enqueue_slot (l : Hli) (r : Report) : (l.enqueue r).slot = l.slot := by
  unfold Hli.enqueue Hli.enter; split_ifs <;> rfl

@[simp] theorem Hli.offer_slot (l : Hli) (r : Report) : (l.offer r).slot = l.slot := by
  unfold Hli.offer; split <;> simp

@[simp] theorem Hli.offerAll_slot (l : Hli) (rs : List Report) : (l.offerAll rs).slot = l.slot := by
  induction rs generalizing l with
  | nil => rfl
  | cons r rs ih => exact (ih _).trans (l.offer_slot r)

@[simp] theorem Hli.enqueue_gates (l : Hli) (r : Report) : (l.enqueue r).gates = l.gates := by
  unfold Hli.enqueue Hli.enter; split_ifs <;> rfl

@[simp] theorem Hli.offer_gates (l : Hli) (r : Report) : (l.offer r).gates = l.gates := by
  unfold Hli.offer; split <;> simp

@[simp] theorem Hli.offerAll_gates (l : Hli) (rs : List Report) : (l.offerAll rs).gates = l.gates := by
  induction rs generalizing l with
  | nil => rfl
  | cons r rs ih => exact (ih _).trans (l.offer_gates r)

@[simp] theorem Hli.enqueue_decimation (l : Hli) (r : Report) : (l.enqueue r).decimation = l.decimation := by
  unfold Hli.enqueue Hli.enter; split_ifs <;> rfl

@[simp] theorem Hli.offer_decimation (l : Hli) (r : Report) : (l.offer r).decimation = l.decimation := by
  unfold Hli.offer; split <;> simp

@[simp] theorem Hli.offerAll_decimation (l : Hli) (rs : List Report) : (l.offerAll rs).decimation = l.decimation := by
  induction rs generalizing l with
  | nil => rfl
  | cons r rs ih => exact (ih _).trans (l.offer_decimation r)

@[simp] theorem Hli.enqueue_tx (l : Hli) (r : Report) : (l.enqueue r).tx = l.tx := by
  unfold Hli.enqueue Hli.enter; split_ifs <;> rfl

@[simp] theorem Hli.offer_tx (l : Hli) (r : Report) : (l.offer r).tx = l.tx := by
  unfold Hli.offer; split <;> simp

@[simp] theorem Hli.offerAll_tx (l : Hli) (rs : List Report) : (l.offerAll rs).tx = l.tx := by
  induction rs generalizing l with
  | nil => rfl
  | cons r rs ih => exact (ih _).trans (l.offer_tx r)

@[simp] theorem Hli.enqueue_badFrames (l : Hli) (r : Report) : (l.enqueue r).badFrames = l.badFrames := by
  unfold Hli.enqueue Hli.enter; split_ifs <;> rfl

@[simp] theorem Hli.offer_badFrames (l : Hli) (r : Report) : (l.offer r).badFrames = l.badFrames := by
  unfold Hli.offer; split <;> simp

@[simp] theorem Hli.offerAll_badFrames (l : Hli) (rs : List Report) : (l.offerAll rs).badFrames = l.badFrames := by
  induction rs generalizing l with
  | nil => rfl
  | cons r rs ih => exact (ih _).trans (l.offer_badFrames r)

@[simp] theorem Hli.enqueue_inboundOverruns (l : Hli) (r : Report) : (l.enqueue r).inboundOverruns = l.inboundOverruns := by
  unfold Hli.enqueue Hli.enter; split_ifs <;> rfl

@[simp] theorem Hli.offer_inboundOverruns (l : Hli) (r : Report) : (l.offer r).inboundOverruns = l.inboundOverruns := by
  unfold Hli.offer; split <;> simp

@[simp] theorem Hli.offerAll_inboundOverruns (l : Hli) (rs : List Report) :
    (l.offerAll rs).inboundOverruns = l.inboundOverruns := by
  induction rs generalizing l with
  | nil => rfl
  | cons r rs ih => exact (ih _).trans (l.offer_inboundOverruns r)

/-! ## What a choice leaves alone -/

@[simp] theorem Hli.kick_rx (l : Hli) : l.kick.rx = l.rx := by
  unfold Hli.kick Hli.choose; split
  · split <;> rfl
  · rfl

@[simp] theorem Hli.kick_inbound (l : Hli) : l.kick.inbound = l.inbound := by
  unfold Hli.kick Hli.choose; split
  · split <;> rfl
  · rfl

@[simp] theorem Hli.kick_loss (l : Hli) : l.kick.loss = l.loss := by
  unfold Hli.kick Hli.choose; split
  · split <;> rfl
  · rfl

@[simp] theorem Hli.kick_gates (l : Hli) : l.kick.gates = l.gates := by
  unfold Hli.kick Hli.choose; split
  · split <;> rfl
  · rfl

@[simp] theorem Hli.kick_decimation (l : Hli) : l.kick.decimation = l.decimation := by
  unfold Hli.kick Hli.choose; split
  · split <;> rfl
  · rfl

@[simp] theorem Hli.kick_traceDropped (l : Hli) : l.kick.traceDropped = l.traceDropped := by
  unfold Hli.kick Hli.choose; split
  · split <;> rfl
  · rfl

@[simp] theorem Hli.kick_reportsLost (l : Hli) : l.kick.reportsLost = l.reportsLost := by
  unfold Hli.kick Hli.choose; split
  · split <;> rfl
  · rfl

@[simp] theorem Hli.kick_badFrames (l : Hli) : l.kick.badFrames = l.badFrames := by
  unfold Hli.kick Hli.choose; split
  · split <;> rfl
  · rfl

@[simp] theorem Hli.kick_inboundOverruns (l : Hli) : l.kick.inboundOverruns = l.inboundOverruns := by
  unfold Hli.kick Hli.choose; split
  · split <;> rfl
  · rfl

/-! ## Offers in sequence -/

@[simp] theorem Hli.offerAll_nil (l : Hli) : l.offerAll [] = l := rfl

@[simp] theorem Hli.offerAll_cons (l : Hli) (r : Report) (rs : List Report) :
    l.offerAll (r :: rs) = (l.offer r).offerAll rs := rfl

theorem Hli.offerAll_append (l : Hli) (a b : List Report) : l.offerAll (a ++ b) = (l.offerAll a).offerAll b := by
  simp [Hli.offerAll, List.foldl_append]

/-- The line `m` is `l` after some events were offered. -/
def Hli.Events (l m : Hli) : Prop := ∃ es : List Event, m = l.offerAll (es.map .event)

theorem Hli.Events.refl (l : Hli) : l.Events l := ⟨[], rfl⟩

theorem Hli.Events.one (l : Hli) (e : Event) : l.Events (l.offer (.event e)) := ⟨[e], rfl⟩

theorem Hli.Events.many (l : Hli) (es : List Event) : l.Events (l.offerAll (es.map .event)) := ⟨es, rfl⟩

theorem Hli.Events.trans {l m n : Hli} (h : l.Events m) (k : m.Events n) : l.Events n := by
  obtain ⟨a, rfl⟩ := h
  obtain ⟨b, rfl⟩ := k
  exact ⟨a ++ b, by rw [List.map_append, Hli.offerAll_append]⟩

/-! ## The bounds of the line (R169, R181) -/

/-- The queue and the holding list are within their bounds. -/
def Hli.Bounded (l : Hli) : Prop := l.queue.length ≤ 96 ∧ traceCount l.queue ≤ 64 ∧ l.inbound.length ≤ 4

theorem traceCount_eq (q : List Queued) : traceCount q = (q.filter (·.report.isTrace)).length :=
  List.countP_eq_length_filter

theorem traceCount_append (a b : List Queued) : traceCount (a ++ b) = traceCount a + traceCount b := by
  simp [traceCount]

theorem dropOldestTrace_length {q : List Queued} (h : 0 < traceCount q) :
    (dropOldestTrace q).length = q.length - 1 := by
  obtain ⟨a, ha, hp⟩ := List.countP_pos_iff.mp h
  exact List.length_eraseP_of_mem ha hp

theorem dropOldestTrace_traceCount_le (q : List Queued) : traceCount (dropOldestTrace q) ≤ traceCount q :=
  List.Sublist.countP_le (List.eraseP_sublist)

theorem Hli.Bounded.enqueue {l : Hli} (h : l.Bounded) (r : Report) : (l.enqueue r).Bounded := by
  obtain ⟨h1, h2, h3⟩ := h
  unfold Hli.enqueue
  split
  · split
    · rename_i hc
      have hone : traceCount [{ report := r, lostBefore := 0 }] ≤ 1 := List.countP_le_length
      exact ⟨by simp; omega, by dsimp only; rw [traceCount_append]; omega, h3⟩
    · exact ⟨h1, h2, h3⟩
  · rename_i hr
    have hone : traceCount [{ report := r, lostBefore := l.loss }] = 0 := by simp [traceCount, hr]
    split
    · refine ⟨?_, ?_, h3⟩
      · simp [Hli.enter]; omega
      · simp only [Hli.enter, traceCount_append, hone]; omega
    · split
      · rename_i hc ht
        refine ⟨?_, ?_, h3⟩
        · simp [Hli.enter, dropOldestTrace_length ht]; omega
        · have := dropOldestTrace_traceCount_le l.queue
          simp only [Hli.enter, traceCount_append, hone]; omega
      · exact ⟨h1, h2, h3⟩

theorem Hli.Bounded.offer {l : Hli} (h : l.Bounded) (r : Report) : (l.offer r).Bounded := by
  unfold Hli.offer; split
  · exact h.enqueue r
  · exact h

theorem Hli.Bounded.offerAll {l : Hli} (h : l.Bounded) (rs : List Report) : (l.offerAll rs).Bounded := by
  induction rs generalizing l with
  | nil => exact h
  | cons r rs ih => exact ih (h.offer r)

theorem Hli.Bounded.events {l m : Hli} (h : l.Bounded) (k : l.Events m) : m.Bounded := by
  obtain ⟨es, rfl⟩ := k; exact h.offerAll _

theorem Hli.Bounded.kick {l : Hli} (h : l.Bounded) : l.kick.Bounded := by
  obtain ⟨h1, h2, h3⟩ := h
  unfold Hli.kick Hli.choose
  split
  · split
    · exact ⟨h1, h2, h3⟩
    · rename_i q rest _ hq
      rw [hq] at h1 h2
      have : traceCount (q :: rest) = traceCount [q] + traceCount rest := traceCount_append [q] rest
      exact ⟨by simp at h1 ⊢; omega, by dsimp only; omega, h3⟩
    · exact ⟨h1, h2, h3⟩
  · exact ⟨h1, h2, h3⟩

/-- A chosen-for line is IDLE only when nothing waits (R171). -/
theorem Hli.kick_idle {l : Hli} (h : l.kick.tx = none) : l.kick.slot = none ∧ l.kick.queue = [] := by
  revert h
  unfold Hli.kick Hli.choose
  split
  · split
    · simp
    · simp
    · rename_i hs hq; intro _; exact ⟨hs, hq⟩
  · rename_i hn; intro h; rw [h] at hn; simp at hn

theorem Hli.Bounded.received {l : Hli} (h : l.Bounded) (f : Option HostFrame) : (l.received f).Bounded := by
  obtain ⟨h1, h2, h3⟩ := h
  unfold Hli.received
  split
  · exact ⟨h1, h2, h3⟩
  · split
    · exact ⟨h1, h2, by simp; omega⟩
    · exact ⟨h1, h2, h3⟩

theorem Hli.Bounded.bytes {l : Hli} (h : l.Bounded) (bs : List Byte) : (l.bytes bs).Bounded := by
  unfold Hli.bytes
  have : ∀ (fs : List (Option HostFrame)) (m : Hli), m.Bounded → (fs.foldl Hli.received m).Bounded := by
    intro fs
    induction fs with
    | nil => exact fun _ hm => hm
    | cons f fs ih => exact fun m hm => ih _ (hm.received f)
  exact this _ _ h

/-! ## Counters (R1, R185) -/

theorem countUp_le {n : Nat} (h : n ≤ 65535) : countUp n ≤ 65535 := by
  unfold countUp Config.counterStop; split <;> omega

theorem countBy_le {n : Nat} (h : n ≤ 65535) (k : Nat) : countBy n k ≤ 65535 := by
  unfold countBy Config.counterStop; omega

/-- Every counter of the line stands at or below its stop. -/
def Hli.Stopped (l : Hli) : Prop :=
  l.traceDropped ≤ 65535 ∧ l.reportsLost ≤ 65535 ∧ l.badFrames ≤ 65535 ∧ l.inboundOverruns ≤ 65535 ∧ l.loss ≤ 65535

theorem Hli.Stopped.offer {l : Hli} (h : l.Stopped) (r : Report) : (l.offer r).Stopped := by
  obtain ⟨h1, h2, h3, h4, h5⟩ := h
  unfold Hli.offer Hli.enqueue Hli.enter
  split_ifs <;> exact ⟨by first | exact h1 | exact countUp_le h1, by first | exact h2 | exact countUp_le h2, h3, h4,
    by first | exact h5 | exact countUp_le h5 | exact Nat.zero_le _⟩

theorem Hli.Stopped.offerAll {l : Hli} (h : l.Stopped) (rs : List Report) : (l.offerAll rs).Stopped := by
  induction rs generalizing l with
  | nil => exact h
  | cons r rs ih => exact ih (h.offer r)

theorem Hli.Stopped.events {l m : Hli} (h : l.Stopped) (k : l.Events m) : m.Stopped := by
  obtain ⟨es, rfl⟩ := k; exact h.offerAll _

theorem Hli.Stopped.kick {l : Hli} (h : l.Stopped) : l.kick.Stopped := by
  unfold Hli.Stopped at h ⊢; simpa using h

theorem Hli.Stopped.bytes {l : Hli} (h : l.Stopped) (bs : List Byte) : (l.bytes bs).Stopped := by
  unfold Hli.bytes
  have : ∀ (fs : List (Option HostFrame)) (m : Hli), m.Stopped → (fs.foldl Hli.received m).Stopped := by
    intro fs
    induction fs with
    | nil => exact fun _ hm => hm
    | cons f fs ih =>
      refine fun m hm => ih _ ?_
      obtain ⟨h1, h2, h3, h4, h5⟩ := hm
      unfold Hli.received
      split
      · exact ⟨h1, h2, countUp_le h3, h4, h5⟩
      · split
        · exact ⟨h1, h2, h3, h4, h5⟩
        · exact ⟨h1, h2, h3, countUp_le h4, h5⟩
  exact this _ _ h

/-! ## Where a queued record comes from -/

theorem Hli.mem_enqueue {l : Hli} {r : Report} {q : Queued} (h : q ∈ (l.enqueue r).queue) : q ∈ l.queue ∨ q.report = r := by
  revert h
  unfold Hli.enqueue Hli.enter
  split_ifs <;> intro h
  · simp at h; rcases h with h | h
    · exact .inl h
    · exact .inr (by rw [h])
  · exact .inl h
  · simp at h; rcases h with h | h
    · exact .inl h
    · exact .inr (by rw [h])
  · simp at h; rcases h with h | h
    · exact .inl (List.mem_of_mem_eraseP h)
    · exact .inr (by rw [h])
  · exact .inl h

/-- A record in the queue after an offer was in it before or is the one offered. -/
theorem Hli.mem_offer {l : Hli} {r : Report} {q : Queued} (h : q ∈ (l.offer r).queue) : q ∈ l.queue ∨ q.report = r := by
  unfold Hli.offer at h
  split at h
  · exact Hli.mem_enqueue h
  · exact .inl h

theorem Hli.mem_offerAll {l : Hli} {rs : List Report} {q : Queued} (h : q ∈ (l.offerAll rs).queue) :
    q ∈ l.queue ∨ q.report ∈ rs := by
  induction rs generalizing l with
  | nil => exact .inl h
  | cons r rs ih =>
    rcases ih h with h | h
    · rcases Hli.mem_offer h with h | h
      · exact .inl h
      · exact .inr (by simp [h])
    · exact .inr (by simp [h])

theorem Hli.mem_events {l m : Hli} (k : l.Events m) {q : Queued} (h : q ∈ m.queue) :
    q ∈ l.queue ∨ ∃ e, q.report = .event e := by
  obtain ⟨es, rfl⟩ := k
  rcases Hli.mem_offerAll h with h | h
  · exact .inl h
  · obtain ⟨e, -, he⟩ := List.mem_map.mp h; exact .inr ⟨e, he.symm⟩

theorem Hli.mem_kick {l : Hli} {q : Queued} (h : q ∈ l.kick.queue) : q ∈ l.queue := by
  revert h
  unfold Hli.kick Hli.choose
  split
  · split
    · exact id
    · rename_i hq; intro h; rw [hq]; exact List.mem_cons_of_mem _ h
    · exact id
  · exact id

end Sys2Proof.Machine
end

