-- ==== Sys2Proof/Laws/Heads.lean ====
section
/-! SUPPORT. The head link controller: what a head's events can do to the whole state, said once and kept through each
of its operations, and how the bank pairs follow the scan records. -/

namespace Sys2Proof.Machine

/-! ## One head among the four -/

theorem State.head_setHead (s : State) (h j : HeadNo) (x : Head) :
    (s.setHead h x).head j = if j = h then x else s.head j := by
  simp only [State.head, State.setHead]
  split
  · rename_i e; subst e; simp
  · rename_i e
    simp only [Fin.getElem_fin]
    rw [Vector.getElem_set_ne]
    intro k; exact e (Fin.ext k.symm)

@[simp] theorem State.head_setHead_same (s : State) (h : HeadNo) (x : Head) : (s.setHead h x).head h = x := by
  simp [State.head_setHead]

theorem State.head_setHead_ne (s : State) {h j : HeadNo} (x : Head) (e : j ≠ h) :
    (s.setHead h x).head j = s.head j := by
  simp [State.head_setHead, e]

@[simp] theorem State.head_offer (s : State) (r : Report) (j : HeadNo) : (s.offer r).head j = s.head j := rfl
@[simp] theorem State.head_offerAll (s : State) (rs : List Report) (j : HeadNo) : (s.offerAll rs).head j = s.head j := rfl
@[simp] theorem State.head_event (s : State) (e : Event) (j : HeadNo) : (s.event e).head j = s.head j := rfl
@[simp] theorem State.head_kick (s : State) (j : HeadNo) : s.kick.head j = s.head j := rfl
@[simp] theorem State.head_complete (s : State) (j : HeadNo) : s.complete.head j = s.head j := rfl
@[simp] theorem State.head_closeAnswer (s : State) (h j : HeadNo) (a : Answer) :
    (s.closeAnswer h a).head j = s.head j := rfl
@[simp] theorem State.head_send (s : State) (h j : HeadNo) (b : List Byte) : (s.send h b).head j = s.head j := rfl
@[simp] theorem State.head_popped (s : State) (rest : List HostFrame) (j : HeadNo) :
    (s.popped rest).head j = s.head j := rfl

theorem State.head_eq (s : State) (h : HeadNo) : s.hlc.heads[h] = s.head h := rfl

/-- A changed head: its state, HEAD_STATE, and ALL_HEADS_LOST after it when it was the last ACTIVE one of a run. -/
theorem State.moveHead_eq (s : State) (h : HeadNo) (x : Head) :
    s.moveHead h x = { s.setHead h x with
      hli := s.hli.headMoved h x.state (s.lastActive h && x.state != .active) } := by
  have key : (s.head h).state = .active ∧ x.state ≠ .active ∧ s.mode = .running ∧
      (!((s.setHead h x).event (.headState h x.state)).anyActive) = true ↔
        (s.lastActive h && x.state != .active) = true := by
    have hall : x.state ≠ .active →
        ((!((s.setHead h x).event (.headState h x.state)).anyActive) = true ↔
          ∀ j ∈ heads4, j ≠ h → (s.head j).state ≠ .active) := by
      intro hx
      simp only [State.anyActive, State.head_event, State.head_setHead, Bool.not_eq_true', List.any_eq_false]
      constructor
      · intro H j hj hne
        have := H j hj
        rw [if_neg hne] at this
        simpa using this
      · intro H j hj
        by_cases e : j = h
        · rw [if_pos e]; simpa using hx
        · rw [if_neg e]; simpa using H j hj e
    simp only [State.lastActive, Bool.and_eq_true, List.all_eq_true, Bool.or_eq_true, bne_iff_ne, beq_iff_eq]
    constructor
    · rintro ⟨h1, h2, h3, h4⟩
      refine ⟨⟨⟨h3, h1⟩, fun j hj => ?_⟩, h2⟩
      by_cases e : j = h
      · exact .inl e
      · exact .inr ((hall h2).mp h4 j hj e)
    · rintro ⟨⟨⟨h3, h1⟩, h4⟩, h2⟩
      refine ⟨h1, h2, h3, (hall h2).mpr fun j hj e => ?_⟩
      exact (h4 j hj).resolve_left e
  unfold State.moveHead
  dsimp only
  by_cases hc : (s.lastActive h && x.state != .active) = true
  · rw [if_pos (key.mpr hc), hc]; rfl
  · rw [if_neg (fun k => hc (key.mp k))]
    simp only [Bool.not_eq_true] at hc
    rw [hc]; rfl

theorem Hli.Events.headMoved (l : Hli) (h : HeadNo) (st : HeadState) (last : Bool) :
    l.Events (l.headMoved h st last) := by
  unfold Hli.headMoved
  dsimp only
  split
  · exact (Hli.Events.one _ _).trans (Hli.Events.one _ _)
  · exact Hli.Events.one _ _

/-! ## Scan records and bank pairs -/

/-- The bank pairs are owned as the scan records say (R42 to R44). -/
def Hlc.Owned (c : Hlc) : Prop :=
  (c.scans.Pairwise fun a b => parity a.header.scan ≠ parity b.header.scan) ∧
  (∀ r ∈ c.scans, (c.pairs[parity r.header.scan]).owner = r.stage.owner) ∧
  ∀ k : Fin 2, (∀ r ∈ c.scans, parity r.header.scan ≠ k) → (c.pairs[k]).owner = .free

/-- What the head events leave of a scan record: all but its answers and, short of the extractor, its stage. -/
def ScanRecord.core (r : ScanRecord) : Header × Design × Option MotionSample × Bool :=
  (r.header, r.snapshot, r.motion, r.stage == .taken)

theorem setOwner_owner (pairs : Vector BankPair 2) (k j : Fin 2) (o : Owner) :
    ((setOwner pairs k o)[j]).owner = if j = k then o else (pairs[j]).owner := by
  unfold setOwner
  split
  · rename_i e; subst e; simp
  · rename_i e
    simp only [Fin.getElem_fin]
    rw [Vector.getElem_set_ne]
    intro h; exact e (Fin.ext h.symm)

theorem setOwner_banks (pairs : Vector BankPair 2) (k j : Fin 2) (o : Owner) :
    ((setOwner pairs k o)[j]).banks = (pairs[j]).banks := by
  unfold setOwner
  by_cases e : j = k
  · subst e; simp
  · simp only [Fin.getElem_fin]
    rw [Vector.getElem_set_ne]
    intro h; exact e (Fin.ext h.symm)

/-- Completion passes exactly the pairs of the completed records to PROCESSING. -/
theorem completed_owner (done : List ScanRecord) (pairs : Vector BankPair 2) (j : Fin 2) :
    ((done.foldl (fun p r => setOwner p (parity r.header.scan) .processing) pairs)[j]).owner =
      if ∃ r ∈ done, parity r.header.scan = j then .processing else (pairs[j]).owner := by
  induction done generalizing pairs with
  | nil => simp
  | cons r rest ih =>
    rw [List.foldl_cons, ih, setOwner_owner]
    by_cases h1 : ∃ x ∈ rest, parity x.header.scan = j
    · rw [if_pos h1, if_pos]; obtain ⟨x, hx, e⟩ := h1; exact ⟨x, by simp [hx], e⟩
    · rw [if_neg h1]
      by_cases h2 : j = parity r.header.scan
      · rw [if_pos h2, if_pos ⟨r, by simp, h2.symm⟩]
      · rw [if_neg h2, if_neg]
        rintro ⟨x, hx, e⟩
        rcases List.mem_cons.mp hx with rfl | hx
        · exact h2 e.symm
        · exact h1 ⟨x, hx, e⟩

theorem completed_banks (done : List ScanRecord) (pairs : Vector BankPair 2) (j : Fin 2) :
    ((done.foldl (fun p r => setOwner p (parity r.header.scan) .processing) pairs)[j]).banks = (pairs[j]).banks := by
  induction done generalizing pairs with
  | nil => rfl
  | cons r rest ih => rw [List.foldl_cons, ih, setOwner_banks]

theorem Hlc.complete_banks (c : Hlc) (j : Fin 2) : (c.complete.pairs[j]).banks = (c.pairs[j]).banks :=
  completed_banks _ _ _

@[simp] theorem Hlc.complete_heads (c : Hlc) : c.complete.heads = c.heads := rfl
@[simp] theorem Hlc.complete_profile (c : Hlc) : c.complete.profile = c.profile := rfl
@[simp] theorem Hlc.complete_sent (c : Hlc) : c.complete.sent = c.sent := rfl

theorem ScanRecord.isComplete_stage {r : ScanRecord} (h : r.isComplete = true) : r.stage = .gathering := by
  simp [ScanRecord.isComplete] at h; exact h.1.1

theorem Hlc.complete_core (c : Hlc) : c.complete.scans.map ScanRecord.core = c.scans.map ScanRecord.core := by
  simp only [Hlc.complete, List.map_map]
  apply List.map_congr_left
  intro r _
  simp only [Function.comp]
  split
  · rename_i h; simp [ScanRecord.core, ScanRecord.isComplete_stage h]
  · rfl

/-- Ownership depends on the headers and stages alone. -/
theorem Hlc.Owned.congr {c d : Hlc} (h : c.Owned)
    (hs : d.scans.map (fun r => (r.header.scan, r.stage)) = c.scans.map (fun r => (r.header.scan, r.stage)))
    (hp : ∀ k : Fin 2, (d.pairs[k]).owner = (c.pairs[k]).owner) : d.Owned := by
  obtain ⟨h1, h2, h3⟩ := h
  have mem : ∀ r ∈ d.scans, ∃ x ∈ c.scans, x.header.scan = r.header.scan ∧ x.stage = r.stage := by
    intro r hr
    have : (r.header.scan, r.stage) ∈ c.scans.map (fun r => (r.header.scan, r.stage)) := by
      rw [← hs]; exact List.mem_map.mpr ⟨r, hr, rfl⟩
    obtain ⟨x, hx, e⟩ := List.mem_map.mp this
    exact ⟨x, hx, by simpa using congrArg Prod.fst e, by simpa using congrArg Prod.snd e⟩
  have mem' : ∀ x ∈ c.scans, ∃ r ∈ d.scans, r.header.scan = x.header.scan := by
    intro x hx
    have : (x.header.scan, x.stage) ∈ d.scans.map (fun r => (r.header.scan, r.stage)) := by
      rw [hs]; exact List.mem_map.mpr ⟨x, hx, rfl⟩
    obtain ⟨r, hr, e⟩ := List.mem_map.mp this
    exact ⟨r, hr, by simpa using congrArg Prod.fst e⟩
  refine ⟨?_, ?_, ?_⟩
  · have : (c.scans.map (fun r => (r.header.scan, r.stage))).Pairwise
        (fun a b => parity a.1 ≠ parity b.1) := List.pairwise_map.mpr h1
    rw [← hs] at this
    rw [List.pairwise_map] at this
    exact this
  · intro r hr
    obtain ⟨x, hx, e1, e2⟩ := mem r hr
    rw [hp, ← e1, ← e2]; exact h2 x hx
  · intro k hk
    rw [hp]
    apply h3
    intro x hx e
    obtain ⟨r, hr, e1⟩ := mem' x hx
    exact hk r hr (by rw [e1]; exact e)

theorem parity_inj_of_pairwise {l : List ScanRecord}
    (h : l.Pairwise fun a b => parity a.header.scan ≠ parity b.header.scan) {a b : ScanRecord} (ha : a ∈ l) (hb : b ∈ l)
    (e : parity a.header.scan = parity b.header.scan) : a = b := by
  induction l with
  | nil => cases ha
  | cons x rest ih =>
    rw [List.pairwise_cons] at h
    rcases List.mem_cons.mp ha with rfl | ha <;> rcases List.mem_cons.mp hb with rfl | hb
    · rfl
    · exact absurd e (h.1 b (by assumption))
    · exact absurd e.symm (h.1 a (by assumption))
    · exact ih h.2 ha hb

theorem Hlc.Owned.complete {c : Hlc} (h : c.Owned) : c.complete.Owned := by
  obtain ⟨h1, h2, h3⟩ := h
  have hdr : ∀ r : ScanRecord,
      (if r.isComplete then { r with stage := .complete } else r : ScanRecord).header = r.header := by
    intro r; split <;> rfl
  have own : ∀ j : Fin 2, (c.complete.pairs[j]).owner =
      if ∃ r ∈ c.scans.filter ScanRecord.isComplete, parity r.header.scan = j then .processing
      else (c.pairs[j]).owner := fun j => completed_owner _ _ _
  refine ⟨?_, ?_, ?_⟩
  · simp only [Hlc.complete]
    rw [List.pairwise_map]
    exact h1.imp (fun {a b} e => by rw [hdr, hdr]; exact e)
  · intro r hr
    simp only [Hlc.complete, List.mem_map] at hr
    obtain ⟨x, hx, rfl⟩ := hr
    rw [own, hdr]
    by_cases hc : x.isComplete = true
    · rw [if_pos ⟨x, List.mem_filter.mpr ⟨hx, hc⟩, rfl⟩, if_pos hc]; rfl
    · rw [if_neg hc, if_neg]
      · exact h2 x hx
      · rintro ⟨y, hy, e⟩
        obtain ⟨hy1, hy2⟩ := List.mem_filter.mp hy
        have := parity_inj_of_pairwise h1 hy1 hx e
        subst this; exact hc hy2
  · intro k hk
    have hk' : ∀ r ∈ c.scans, parity r.header.scan ≠ k := by
      intro r hr
      have := hk (if r.isComplete then { r with stage := .complete } else r)
        (by simp only [Hlc.complete]; exact List.mem_map.mpr ⟨r, hr, rfl⟩)
      rwa [hdr] at this
    rw [own, if_neg]
    · exact h3 k hk'
    · rintro ⟨y, hy, e⟩
      exact hk' y (List.mem_filter.mp hy).1 e

theorem answerIn_map {β : Type} (f : ScanRecord → β) (hf : ∀ (r : ScanRecord) v, f { r with answers := v } = f r)
    (h : HeadNo) (a : Answer) (l : List ScanRecord) : (answerIn h a l).map f = l.map f := by
  induction l with
  | nil => rfl
  | cons r rest ih =>
    unfold answerIn
    split
    · simp [hf]
    · simp [ih]

/-- What R51 leaves among the scan records: none that is complete still gathers, and none that no longer gathers lacks
its motion sample. -/
def Hlc.Settled (c : Hlc) : Prop :=
  (∀ r ∈ c.scans, r.isComplete = false) ∧ ∀ r ∈ c.scans, r.stage ≠ .gathering → r.motion ≠ none

/-- Completion settles the records, whatever closed before it. -/
theorem Hlc.Settled.complete {c : Hlc} (h : ∀ r ∈ c.scans, r.stage ≠ .gathering → r.motion ≠ none) :
    c.complete.Settled := by
  have gathers : ∀ r : ScanRecord, r.stage ≠ .gathering → r.isComplete = false := by
    intro r hr; cases hs : r.isComplete with
    | false => rfl
    | true => exact absurd (ScanRecord.isComplete_stage hs) hr
  refine ⟨fun r hr => ?_, fun r hr hg => ?_⟩ <;>
  · simp only [Hlc.complete, List.mem_map] at hr
    obtain ⟨x, hx, rfl⟩ := hr
    by_cases hc : x.isComplete = true
    · rw [if_pos hc] at *
      first
        | exact gathers _ (by simp)
        | intro e; simp [ScanRecord.isComplete] at hc e; simp [e] at hc
    · rw [if_neg hc] at *
      first
        | simpa using hc
        | exact h x hx hg

/-! ## What stays while answers close without a frame -/

theorem State.sameBanks_refl (s : State) : s.sameBanks s := ⟨fun _ => rfl, rfl, rfl⟩

theorem State.sameBanks_trans {s t u : State} (a : s.sameBanks t) (b : t.sameBanks u) : s.sameBanks u :=
  ⟨fun k => (b.1 k).trans (a.1 k), b.2.1.trans a.2.1, b.2.2.trans a.2.2⟩

theorem State.setHead_sameBanks (s : State) (h : HeadNo) (x : Head) : s.sameBanks (s.setHead h x) :=
  ⟨fun _ => rfl, rfl, rfl⟩

theorem State.moveHead_sameBanks (s : State) (h : HeadNo) (x : Head) : s.sameBanks (s.moveHead h x) := by
  rw [State.moveHead_eq]; exact ⟨fun _ => rfl, rfl, rfl⟩

theorem State.closeAnswer_sameBanks (s : State) (h : HeadNo) (a : Answer) : s.sameBanks (s.closeAnswer h a) :=
  ⟨fun k => Hlc.complete_banks _ k, rfl, rfl⟩

theorem State.closeByCommand_sameBanks (s : State) (h : HeadNo) : s.sameBanks (s.closeByCommand h) := by
  unfold State.closeByCommand
  split
  · exact s.closeAnswer_sameBanks _ _
  · exact s.sameBanks_refl

theorem State.missAnswer_sameBanks (s : State) (h : HeadNo) (reason : Reason) :
    s.sameBanks (s.missAnswer h reason) := by
  unfold State.missAnswer
  split
  · refine State.sameBanks_trans (s.closeAnswer_sameBanks h (.absent reason)) ?_
    unfold State.miss
    dsimp only
    split
    · exact State.moveHead_sameBanks _ _ _
    · exact State.setHead_sameBanks _ _ _
  · exact s.sameBanks_refl

theorem State.closePrevious_sameBanks (s : State) : s.sameBanks s.closePrevious :=
  State.sameBanks_trans (s.missAnswer_sameBanks 0 _) (State.sameBanks_trans (State.missAnswer_sameBanks _ 1 _)
    (State.sameBanks_trans (State.missAnswer_sameBanks _ 2 _) (State.missAnswer_sameBanks _ 3 _)))

/-! ## What a head's event can do -/

/-- From `s` to `t` no more has happened than head events can make happen: the blocks behind the heads are as they
were, only events were offered, the link settings stand, no counter passed its stop, the scan records are the same up
to their answers and their completion, and the bank pairs follow them. -/
structure HeadStep (s t : State) : Prop where
  behind : s.sameBehindHeads t
  events : s.hli.Events t.hli
  links : ∀ h, (t.head h).responseWindow = (s.head h).responseWindow ∧ (t.head h).missLimit = (s.head h).missLimit
  stopped : (∀ h, (s.head h).missed ≤ 65535 ∧ (s.head h).late ≤ 65535 ∧ (s.head h).frameErrors ≤ 65535) →
    ∀ h, (t.head h).missed ≤ 65535 ∧ (t.head h).late ≤ 65535 ∧ (t.head h).frameErrors ≤ 65535
  owned : s.hlc.Owned → t.hlc.Owned
  core : t.hlc.scans.map ScanRecord.core = s.hlc.scans.map ScanRecord.core
  profile : t.hlc.profile = s.hlc.profile
  settled : s.hlc.Settled → t.hlc.Settled

theorem State.sameBehindHeads_refl (s : State) : s.sameBehindHeads s :=
  ⟨rfl, rfl, rfl, rfl, rfl, rfl, rfl, rfl, rfl, rfl, rfl, rfl⟩

theorem State.sameBehindHeads_trans {s t u : State} (h : s.sameBehindHeads t) (k : t.sameBehindHeads u) :
    s.sameBehindHeads u := by
  obtain ⟨a1, a2, a3, a4, a5, a6, a7, a8, a9, a10, a11, a12⟩ := h
  obtain ⟨b1, b2, b3, b4, b5, b6, b7, b8, b9, b10, b11, b12⟩ := k
  exact ⟨b1.trans a1, b2.trans a2, b3.trans a3, b4.trans a4, b5.trans a5, b6.trans a6, b7.trans a7, b8.trans a8,
    b9.trans a9, b10.trans a10, b11.trans a11, b12.trans a12⟩

namespace HeadStep

theorem refl (s : State) : HeadStep s s :=
  ⟨s.sameBehindHeads_refl, .refl _, fun _ => ⟨rfl, rfl⟩, id, id, rfl, rfl, id⟩

theorem trans {s t u : State} (a : HeadStep s t) (b : HeadStep t u) : HeadStep s u :=
  ⟨State.sameBehindHeads_trans a.behind b.behind, a.events.trans b.events,
    fun h => ⟨(b.links h).1.trans (a.links h).1, (b.links h).2.trans (a.links h).2⟩, b.stopped ∘ a.stopped,
    b.owned ∘ a.owned, b.core.trans a.core, b.profile.trans a.profile, b.settled ∘ a.settled⟩

/-- A head changes, its link settings apart. -/
theorem setHead (s : State) (h : HeadNo) (x : Head)
    (hl : x.responseWindow = (s.head h).responseWindow ∧ x.missLimit = (s.head h).missLimit)
    (hc : (s.head h).missed ≤ 65535 ∧ (s.head h).late ≤ 65535 ∧ (s.head h).frameErrors ≤ 65535 →
      x.missed ≤ 65535 ∧ x.late ≤ 65535 ∧ x.frameErrors ≤ 65535) : HeadStep s (s.setHead h x) := by
  refine ⟨⟨rfl, rfl, rfl, rfl, rfl, rfl, rfl, rfl, rfl, rfl, rfl, rfl⟩, .refl _, ?_, ?_, id, rfl, rfl, id⟩
  · intro j
    rw [State.head_setHead]
    split
    · rename_i e; subst e; exact hl
    · exact ⟨rfl, rfl⟩
  · intro k j
    rw [State.head_setHead]
    split
    · rename_i e; subst e; exact hc (k _)
    · exact k j

theorem moveHead (s : State) (h : HeadNo) (x : Head)
    (hl : x.responseWindow = (s.head h).responseWindow ∧ x.missLimit = (s.head h).missLimit)
    (hc : (s.head h).missed ≤ 65535 ∧ (s.head h).late ≤ 65535 ∧ (s.head h).frameErrors ≤ 65535 →
      x.missed ≤ 65535 ∧ x.late ≤ 65535 ∧ x.frameErrors ≤ 65535) : HeadStep s (s.moveHead h x) := by
  have b := setHead s h x hl hc
  rw [State.moveHead_eq]
  exact ⟨b.behind, Hli.Events.headMoved _ _ _ _, b.links, b.stopped, b.owned, b.core, b.profile,
    b.settled⟩

theorem complete (s : State) : HeadStep s s.complete :=
  ⟨⟨rfl, rfl, rfl, rfl, rfl, rfl, rfl, rfl, rfl, rfl, rfl, rfl⟩, .refl _, fun _ => ⟨rfl, rfl⟩, id,
    fun h => h.complete, Hlc.complete_core _, rfl, fun k => .complete k.2⟩

theorem closeAnswer (s : State) (h : HeadNo) (a : Answer) : HeadStep s (s.closeAnswer h a) := by
  refine ⟨⟨rfl, rfl, rfl, rfl, rfl, rfl, rfl, rfl, rfl, rfl, rfl, rfl⟩, .refl _, fun _ => ⟨rfl, rfl⟩, id,
    fun k => (k.congr (answerIn_map (fun r => (r.header.scan, r.stage)) (fun _ _ => rfl) h a _) (fun _ => rfl) :
      Hlc.Owned { s.hlc with scans := answerIn h a s.hlc.scans }).complete,
    (Hlc.complete_core _).trans (answerIn_map ScanRecord.core (fun _ _ => rfl) h a _), rfl, fun k => .complete ?_⟩
  have e := answerIn_map (fun r => (r.stage, r.motion)) (fun _ _ => rfl) h a s.hlc.scans
  intro r hr
  have hm : (r.stage, r.motion) ∈ (answerIn h a s.hlc.scans).map fun r => (r.stage, r.motion) :=
    List.mem_map.mpr ⟨r, hr, rfl⟩
  rw [e] at hm
  obtain ⟨x, hx, hxe⟩ := List.mem_map.mp hm
  simp only [Prod.mk.injEq] at hxe
  rw [← hxe.1, ← hxe.2]
  exact k.2 x hx

theorem miss (s : State) (h : HeadNo) (reason : Reason) : HeadStep s (s.miss h reason) := by
  unfold State.miss
  dsimp only
  split
  · exact moveHead _ _ _ ⟨rfl, rfl⟩ fun k => ⟨countUp_le k.1, k.2⟩
  · exact setHead _ _ _ ⟨rfl, rfl⟩ fun k => ⟨countUp_le k.1, k.2⟩

theorem missAnswer (s : State) (h : HeadNo) (reason : Reason) : HeadStep s (s.missAnswer h reason) := by
  unfold State.missAnswer
  split
  · exact (closeAnswer _ _ _).trans (miss _ _ _)
  · exact refl s

theorem frameError (s : State) (h : HeadNo) : HeadStep s (s.frameError h) :=
  setHead _ _ _ ⟨rfl, rfl⟩ fun k => ⟨k.1, k.2.1, countUp_le k.2.2⟩

theorem takeReady (s : State) (h : HeadNo) (status : Byte) : HeadStep s (s.takeReady h status) := by
  unfold State.takeReady
  dsimp only
  split
  · split <;> exact moveHead _ _ _ ⟨rfl, rfl⟩ id
  · exact refl s

theorem presentAnswer (s : State) (h : HeadNo) (n : Nat) (status : Byte) (points : List Point) :
    HeadStep s (s.presentAnswer h n status points) := by
  unfold State.presentAnswer
  dsimp only
  have b : ∀ (u : State) (k : Fin 2) (banks : Vector Bank 4),
      (∀ j : Fin 2, (u.hlc.pairs[j]).owner = (s.hlc.pairs[j]).owner) →
      HeadStep u { u with hlc := { u.hlc with
        pairs := u.hlc.pairs.set k { owner := (s.hlc.pairs[k]).owner, banks := banks } } } := by
    intro u k banks hu
    refine ⟨⟨rfl, rfl, rfl, rfl, rfl, rfl, rfl, rfl, rfl, rfl, rfl, rfl⟩, .refl _, fun _ => ⟨rfl, rfl⟩, id, ?_, rfl, rfl,
      id⟩
    intro ho
    refine ho.congr rfl ?_
    intro j
    by_cases e : j = k
    · subst e; simp; exact (hu j).symm
    · simp only [Fin.getElem_fin]
      rw [Vector.getElem_set_ne]
      intro e2; exact e (Fin.ext e2.symm)
  refine HeadStep.trans ?_ (closeAnswer _ _ _)
  refine HeadStep.trans ?_ (b _ _ _ fun _ => rfl)
  exact setHead s h _ ⟨rfl, rfl⟩ id

theorem takeProfile (s : State) (h : HeadNo) (n : Nat) (status : Byte) (points : List Point) :
    HeadStep s (s.takeProfile h n status points) := by
  have late : HeadStep s (s.setHead h { s.head h with late := countUp (s.head h).late }) :=
    setHead _ _ _ ⟨rfl, rfl⟩ fun k => ⟨k.1, countUp_le k.2.1, k.2.2⟩
  unfold State.takeProfile
  dsimp only
  split
  · exact late
  · split
    · exact late
    · split
      · exact late
      · split
        · exact (closeAnswer _ _ _).trans (moveHead _ _ _ ⟨rfl, rfl⟩ id)
        · split
          · exact (frameError _ _).trans (missAnswer _ _ _)
          · exact presentAnswer _ _ _ _ _
  · exact refl s

theorem headEvent (s : State) (h : HeadNo) (e : HeadEvent) : HeadStep s (s.headEvent h e) := by
  unfold State.headEvent State.takeBad State.takeUnusable
  split
  · split
    · exact frameError _ _
    · exact (frameError _ _).trans (missAnswer _ _ _)
    · exact refl s
  · split
    · exact frameError _ _
    · exact (frameError _ _).trans (missAnswer _ _ _)
    · exact refl s
  · exact takeReady _ _ _
  · exact takeProfile _ _ _ _ _

theorem foldl {α : Type} (f : State → α → State) (hf : ∀ s a, HeadStep s (f s a)) (l : List α) (s : State) :
    HeadStep s (l.foldl f s) := by
  induction l generalizing s with
  | nil => exact refl s
  | cons a l ih => exact (hf s a).trans (ih _)

theorem headBytes (s : State) (h : HeadNo) (bytes : List Byte) : HeadStep s (s.headBytes h bytes) := by
  unfold State.headBytes
  refine HeadStep.trans ?_ (foldl (fun t e => t.headEvent h e) (fun u e => headEvent u h e) _ _)
  exact setHead s h _ ⟨rfl, rfl⟩ id

theorem clearingExpires (s : State) (h : HeadNo) : HeadStep s (s.clearingExpires h) := by
  unfold State.clearingExpires
  dsimp only
  split
  · exact moveHead _ _ _ ⟨rfl, rfl⟩ id
  · exact refl s

theorem closePrevious (s : State) : HeadStep s s.closePrevious :=
  foldl _ (fun u h => missAnswer u h .noAnswer) _ _

theorem closeByCommand (s : State) (h : HeadNo) : HeadStep s (s.closeByCommand h) := by
  unfold State.closeByCommand
  split
  · exact closeAnswer _ _ _
  · exact refl s

theorem startClearing (s : State) (h : HeadNo) : HeadStep s (s.startClearing h) := by
  have b : HeadStep s (s.send h clearBytes) :=
    ⟨⟨rfl, rfl, rfl, rfl, rfl, rfl, rfl, rfl, rfl, rfl, rfl, rfl⟩, .refl _, fun _ => ⟨rfl, rfl⟩, id,
      fun k => k.congr rfl (fun _ => rfl), rfl, rfl, id⟩
  exact b.trans (moveHead _ _ _ ⟨rfl, rfl⟩ id)

/-- ISOLATE and DISABLE of an ACTIVE head: its open answer closes, then the head moves. -/
theorem closeAndMove (s : State) (h : HeadNo) (x : Head)
    (hl : x.responseWindow = (s.head h).responseWindow ∧ x.missLimit = (s.head h).missLimit)
    (hc : (s.head h).missed ≤ 65535 ∧ (s.head h).late ≤ 65535 ∧ (s.head h).frameErrors ≤ 65535 →
      x.missed ≤ 65535 ∧ x.late ≤ 65535 ∧ x.frameErrors ≤ 65535) :
    HeadStep s ((s.closeByCommand h).moveHead h x) := by
  have e : (s.closeByCommand h).head h = s.head h := by
    unfold State.closeByCommand; split <;> rfl
  exact (closeByCommand s h).trans (moveHead _ h x (by rw [e]; exact hl) (by rw [e]; exact hc))

theorem expireWindows (s : State) : HeadStep s s.expireWindows := by
  refine foldl _ (fun u h => ?_) _ _
  split
  · exact missAnswer _ _ _
  · exact refl _

theorem expireClearing (s : State) : HeadStep s s.expireClearing := by
  refine foldl _ (fun u h => ?_) _ _
  split
  · exact clearingExpires _ _
  · exact refl _

end HeadStep

end Sys2Proof.Machine
end

