-- ==== Sys2Proof/Laws/Travel.lean ====
section
/-! SUPPORT. Acceptance, triggers, pulses and time: which blocks each leaves alone, and what each does to the rest. -/

namespace Sys2Proof.Machine

/-! ## Acceptance -/

/-- The state at an acceptance once the scan before has been closed: the heads have their say before activation. -/
theorem State.accept_heads (s : State) :
    HeadStep ({ s with tu := s.tu.accept }.offerAll s.tu.fixEvents)
      ({ s with tu := s.tu.accept }.offerAll s.tu.fixEvents).closePrevious :=
  HeadStep.closePrevious _

@[simp] theorem State.accept_pending (s : State) : s.accept.pending = s.pending := by
  have h := (s.accept_heads).behind.1
  simp only [State.offerAll_pending] at h
  simp only [State.accept, State.offerAll_pending, h]

@[simp] theorem State.accept_pin (s : State) : s.accept.pin = s.pin := by
  have h := (s.accept_heads).behind.2.1
  simp only [State.offerAll_pin] at h
  simp only [State.accept, State.offerAll_pin, h]

@[simp] theorem State.accept_mode (s : State) : s.accept.mode = s.mode := by
  have h := (s.accept_heads).behind.2.2.1
  simp only [State.offerAll_mode] at h
  simp only [State.accept, State.offerAll_mode, h]

@[simp] theorem State.accept_closing (s : State) : s.accept.closing = s.closing := by
  have h := (s.accept_heads).behind.2.2.2.1
  simp only [State.offerAll_closing] at h
  simp only [State.accept, State.offerAll_closing, h]

@[simp] theorem State.accept_pxu (s : State) : s.accept.pxu = s.pxu := by
  have h := (s.accept_heads).behind.2.2.2.2.2.2.1
  simp only [State.offerAll_pxu] at h
  simp only [State.accept, State.offerAll_pxu, h]

@[simp] theorem State.accept_wtr (s : State) : s.accept.wtr = s.wtr := by
  have h := (s.accept_heads).behind.2.2.2.2.2.2.2.1
  simp only [State.offerAll_wtr] at h
  simp only [State.accept, State.offerAll_wtr, h]

@[simp] theorem State.accept_wru (s : State) : s.accept.wru = s.wru := by
  have h := (s.accept_heads).behind.2.2.2.2.2.2.2.2.1
  simp only [State.offerAll_wru] at h
  simp only [State.accept, State.offerAll_wru, h]

@[simp] theorem State.accept_spu (s : State) : s.accept.spu = s.spu := by
  have h := (s.accept_heads).behind.2.2.2.2.2.2.2.2.2.2.1
  simp only [State.offerAll_spu] at h
  simp only [State.accept, State.offerAll_spu, h]

@[simp] theorem State.accept_lev (s : State) : s.accept.lev = s.lev := by
  have h := (s.accept_heads).behind.2.2.2.2.2.2.2.2.2.2.2
  simp only [State.offerAll_lev] at h
  simp only [State.accept, State.offerAll_lev, h]

@[simp] theorem State.accept_tu (s : State) : s.accept.tu = s.tu.accept := by
  have h := (s.accept_heads).behind.2.2.2.2.1
  simp only [State.offerAll_tu] at h
  simp only [State.accept, State.offerAll_tu, h]

theorem State.accept_mcv (s : State) :
    s.accept.mcv = { s.mcv with sequences := s.mcv.sequences ++ [s.tu.header.scan] } := by
  have h := (s.accept_heads).behind.2.2.2.2.2.1
  simp only [State.accept, State.offerAll_mcv, h]

theorem State.accept_scu (s : State) : s.accept.scu = (s.scu.activate s.tu.header.chainage).1 := by
  have h := (s.accept_heads).behind.2.2.2.2.2.2.2.2.2.1
  simp only [State.accept, State.offerAll_scu, h]

theorem State.accept_hlc (s : State) :
    s.accept.hlc = ({ s with tu := s.tu.accept }.offerAll s.tu.fixEvents).closePrevious.hlc.openScan s.tu.header
      (s.scu.activate s.tu.header.chainage).1.inForce := by
  have h := (s.accept_heads).behind.2.2.2.2.2.2.2.2.2.1
  simp only [State.accept, State.offerAll_hlc, State.offerAll_scu, h]

theorem Tu.fixEvents_eq (t : Tu) : ∃ es : List Event, t.fixEvents = es.map .event := by
  unfold Tu.fixEvents
  split
  · exact ⟨[], rfl⟩
  · rename_i o _; exact ⟨[.positionFixed o], rfl⟩

theorem State.accept_events (s : State) : s.hli.Events s.accept.hli := by
  obtain ⟨es, he⟩ := s.tu.fixEvents_eq
  have h := (s.accept_heads).events
  have h1 : s.hli.Events ({ s with tu := s.tu.accept }.offerAll s.tu.fixEvents).hli := by
    rw [he]; exact Hli.Events.many _ _
  exact (h1.trans h).trans (Hli.Events.many _ _)

/-! ## Triggers -/

@[simp] theorem State.trigger_pending (s : State) : s.trigger.pending = s.pending := by
  unfold State.trigger; split <;> simp
@[simp] theorem State.trigger_pin (s : State) : s.trigger.pin = s.pin := by
  unfold State.trigger; split <;> simp
@[simp] theorem State.trigger_mode (s : State) : s.trigger.mode = s.mode := by
  unfold State.trigger; split <;> simp
@[simp] theorem State.trigger_closing (s : State) : s.trigger.closing = s.closing := by
  unfold State.trigger; split <;> simp
@[simp] theorem State.trigger_pxu (s : State) : s.trigger.pxu = s.pxu := by
  unfold State.trigger; split <;> simp
@[simp] theorem State.trigger_wtr (s : State) : s.trigger.wtr = s.wtr := by
  unfold State.trigger; split <;> simp
@[simp] theorem State.trigger_wru (s : State) : s.trigger.wru = s.wru := by
  unfold State.trigger; split <;> simp
@[simp] theorem State.trigger_spu (s : State) : s.trigger.spu = s.spu := by
  unfold State.trigger; split <;> simp
@[simp] theorem State.trigger_lev (s : State) : s.trigger.lev = s.lev := by
  unfold State.trigger; split <;> simp

theorem State.trigger_events (s : State) : s.hli.Events s.trigger.hli := by
  unfold State.trigger
  split
  · exact s.accept_events
  · exact .refl _

theorem State.trigger_refused {s : State} (h : s.accepts = false) : s.trigger = { s with tu := s.tu.overrun } := by
  simp [State.trigger, h]

theorem State.trigger_accepted {s : State} (h : s.accepts = true) : s.trigger = s.accept := by
  simp [State.trigger, h]

theorem Tu.applyFix_config (t : Tu) : t.applyFix.config = t.config := by
  unfold Tu.applyFix; split <;> rfl

@[simp] theorem State.trigger_config (s : State) : s.trigger.tu.config = s.tu.config := by
  unfold State.trigger
  split
  · simp [Tu.accept, Tu.applyFix_config]
  · rfl

theorem State.trigger_mcv (s : State) : s.trigger.mcv.channels = s.mcv.channels ∧
    s.trigger.mcv.spacing = s.mcv.spacing ∧ s.trigger.mcv.rollCentre = s.mcv.rollCentre := by
  unfold State.trigger
  split
  · rw [State.accept_mcv]; exact ⟨rfl, rfl, rfl⟩
  · exact ⟨rfl, rfl, rfl⟩

/-- An acceptance leaves every head's link settings. -/
theorem State.accept_links (s : State) (h : HeadNo) :
    (s.accept.head h).responseWindow = (s.head h).responseWindow ∧
    (s.accept.head h).missLimit = (s.head h).missLimit := by
  have k := (s.accept_heads).links h
  unfold State.head
  rw [State.accept_hlc]
  exact k

theorem State.trigger_links (s : State) (h : HeadNo) :
    (s.trigger.head h).responseWindow = (s.head h).responseWindow ∧
    (s.trigger.head h).missLimit = (s.head h).missLimit := by
  unfold State.trigger
  split
  · exact s.accept_links h
  · exact ⟨rfl, rfl⟩

/-- The record that an acceptance opens stands last, behind those of the scans before. -/
theorem State.accept_core (s : State) :
    s.accept.hlc.scans.map ScanRecord.core = s.hlc.scans.map ScanRecord.core ++
      [(s.tu.header, (s.scu.activate s.tu.header.chainage).1.inForce, none, false)] := by
  rw [State.accept_hlc]
  have h := (s.accept_heads).core
  simp only [Hlc.openScan, List.map_append, h]
  rfl

theorem Tu.header_scan (t : Tu) : t.header.scan = t.scan + 1 := rfl

/-- An acceptance keeps the bank pairs owned by the scan records: its pair was FREE. -/
theorem State.accept_owned {s : State} (ho : s.hlc.Owned) (ha : s.accepts = true) : s.accept.hlc.Owned := by
  have hk := s.accept_heads
  have hc := hk.core
  have hu := hk.owned ho
  simp only [State.accepts, Bool.and_eq_true, beq_iff_eq] at ha
  have hfree : ∀ r ∈ s.hlc.scans, parity r.header.scan ≠ parity (s.tu.scan + 1) := by
    intro r hr e
    have own : ∀ k : Fin 2, parity r.header.scan = k → (s.hlc.pairs[k]).owner = r.stage.owner := by
      rintro k rfl; exact ho.2.1 r hr
    have := own _ e
    rw [ha.1] at this
    cases hs : r.stage <;> rw [hs] at this <;> cases this
  rw [State.accept_hlc]
  generalize ({ s with tu := s.tu.accept }.offerAll s.tu.fixEvents).closePrevious.hlc = c at hc hu
  replace hc : c.scans.map ScanRecord.core = s.hlc.scans.map ScanRecord.core := hc
  have hfree' : ∀ r ∈ c.scans, parity r.header.scan ≠ parity (s.tu.scan + 1) := by
    intro r hr
    have : r.core ∈ s.hlc.scans.map ScanRecord.core := by rw [← hc]; exact List.mem_map.mpr ⟨r, hr, rfl⟩
    obtain ⟨x, hx, e⟩ := List.mem_map.mp this
    have e1 : x.header = r.header := congrArg Prod.fst e
    rw [← e1]; exact hfree x hx
  obtain ⟨h1, h2, h3⟩ := hu
  refine ⟨?_, ?_, ?_⟩
  · simp only [Hlc.openScan]
    rw [List.pairwise_append]
    refine ⟨h1, List.pairwise_singleton _ _, ?_⟩
    intro a hm b hb
    rw [List.mem_singleton] at hb
    subst hb
    exact hfree' a hm
  · intro r hr
    simp only [Hlc.openScan, List.mem_append, List.mem_singleton] at hr
    rcases hr with hr | rfl
    · simp only [Hlc.openScan, setOwner_owner]
      rw [Tu.header_scan, if_neg (hfree' r hr)]
      exact h2 r hr
    · simp only [Hlc.openScan, setOwner_owner, if_true]
      rfl
  · intro k hk'
    have e1 : parity (s.tu.scan + 1) ≠ k := hk' _ (by
      simp only [Hlc.openScan]; exact List.mem_append_right _ (List.mem_singleton.mpr rfl))
    simp only [Hlc.openScan, setOwner_owner]
    rw [if_neg (fun e => e1 e.symm)]
    exact h3 k (fun r hr => hk' r (by simp only [Hlc.openScan]; exact List.mem_append_left _ hr))

theorem State.accept_stopped {s : State}
    (h : ∀ h, (s.head h).missed ≤ 65535 ∧ (s.head h).late ≤ 65535 ∧ (s.head h).frameErrors ≤ 65535) (j : HeadNo) :
    (s.accept.head j).missed ≤ 65535 ∧ (s.accept.head j).late ≤ 65535 ∧ (s.accept.head j).frameErrors ≤ 65535 := by
  have k := (s.accept_heads).stopped h j
  unfold State.head
  rw [State.accept_hlc]
  exact k

@[simp] theorem State.accept_profile (s : State) : s.accept.hlc.profile = s.hlc.profile := by
  rw [State.accept_hlc]; exact (s.accept_heads).profile

/-! ## Pulses -/

@[simp] theorem State.pulse_pending (s : State) (toward : CarEnd) : (s.pulse toward).pending = s.pending := by
  unfold State.pulse; dsimp only; split_ifs <;> simp
@[simp] theorem State.pulse_pin (s : State) (toward : CarEnd) : (s.pulse toward).pin = s.pin := by
  unfold State.pulse; dsimp only; split_ifs <;> simp
@[simp] theorem State.pulse_mode (s : State) (toward : CarEnd) : (s.pulse toward).mode = s.mode := by
  unfold State.pulse; dsimp only; split_ifs <;> simp
@[simp] theorem State.pulse_closing (s : State) (toward : CarEnd) : (s.pulse toward).closing = s.closing := by
  unfold State.pulse; dsimp only; split_ifs <;> simp
@[simp] theorem State.pulse_pxu (s : State) (toward : CarEnd) : (s.pulse toward).pxu = s.pxu := by
  unfold State.pulse; dsimp only; split_ifs <;> simp
@[simp] theorem State.pulse_wtr (s : State) (toward : CarEnd) : (s.pulse toward).wtr = s.wtr := by
  unfold State.pulse; dsimp only; split_ifs <;> simp
@[simp] theorem State.pulse_wru (s : State) (toward : CarEnd) : (s.pulse toward).wru = s.wru := by
  unfold State.pulse; dsimp only; split_ifs <;> simp
@[simp] theorem State.pulse_spu (s : State) (toward : CarEnd) : (s.pulse toward).spu = s.spu := by
  unfold State.pulse; dsimp only; split_ifs <;> simp
@[simp] theorem State.pulse_lev (s : State) (toward : CarEnd) : (s.pulse toward).lev = s.lev := by
  unfold State.pulse; dsimp only; split_ifs <;> simp

theorem State.pulse_events (s : State) (toward : CarEnd) : s.hli.Events (s.pulse toward).hli := by
  unfold State.pulse
  dsimp only
  split
  · split
    · refine Hli.Events.trans ?_ (State.trigger_events _)
      exact Hli.Events.many _ _
    · exact Hli.Events.many _ _
  · exact .refl _

/-- A pulse either presents a trigger or touches no block but the travel unit and the host line. -/
theorem State.pulse_cases (s : State) (toward : CarEnd) :
    (∃ u : State, s.pulse toward = u.trigger ∧ u.hlc = s.hlc ∧ u.mcv = s.mcv ∧ u.scu = s.scu ∧ u.pxu = s.pxu ∧
      u.wtr = s.wtr ∧ u.wru = s.wru ∧ u.mode = s.mode ∧ u.closing = s.closing ∧ s.mode = .running ∧
      u.tu.config = s.tu.config) ∨
    ((s.pulse toward).hlc = s.hlc ∧ (s.pulse toward).mcv = s.mcv ∧ (s.pulse toward).scu = s.scu ∧
      (s.pulse toward).tu.config = s.tu.config) := by
  have hw : ∀ old t : Tu, (old.watchPulse t).1.config = t.config := by
    intro old t; unfold Tu.watchPulse; split <;> split <;> rfl
  unfold State.pulse
  dsimp only
  split
  · rename_i hm
    split
    · left
      exact ⟨_, rfl, rfl, rfl, rfl, rfl, rfl, rfl, rfl, rfl, hm, hw _ _⟩
    · right
      exact ⟨rfl, rfl, rfl, hw _ _⟩
  · right
    exact ⟨rfl, rfl, rfl, rfl⟩

/-- The travel unit's counters after a trigger. -/
def Tu.Stopped (t : Tu) : Prop := t.accepted ≤ 65535 ∧ t.overruns ≤ 65535 ∧ t.mastsIgnored ≤ 65535 ∧ t.gap ≤ 65535

theorem Tu.Stopped.accept {t : Tu} (h : t.Stopped) : t.accept.Stopped := by
  obtain ⟨h1, h2, h3, h4⟩ := h
  unfold Tu.accept Tu.applyFix
  split <;> exact ⟨countUp_le h1, h2, h3, Nat.zero_le _⟩

theorem State.trigger_stopped {s : State} (h : s.tu.Stopped) : s.trigger.tu.Stopped := by
  unfold State.trigger
  split
  · simpa using h.accept
  · exact ⟨h.1, countUp_le h.2.1, h.2.2.1, countUp_le h.2.2.2⟩

theorem State.trigger_heads_stopped {s : State}
    (h : ∀ h, (s.head h).missed ≤ 65535 ∧ (s.head h).late ≤ 65535 ∧ (s.head h).frameErrors ≤ 65535) (j : HeadNo) :
    (s.trigger.head j).missed ≤ 65535 ∧ (s.trigger.head j).late ≤ 65535 ∧ (s.trigger.head j).frameErrors ≤ 65535 := by
  unfold State.trigger
  split
  · exact State.accept_stopped h j
  · exact h j

theorem State.pulse_stopped {s : State} (h : s.tu.Stopped) (toward : CarEnd) : (s.pulse toward).tu.Stopped := by
  have hp : ∀ b, (s.tu.pulse b).Stopped := fun b => h
  have hw : ∀ old t : Tu, t.Stopped → (old.watchPulse t).1.Stopped := by
    intro old t ht; unfold Tu.watchPulse; split <;> split <;> exact ht
  unfold State.pulse
  dsimp only
  split
  · split
    · exact State.trigger_stopped (hw _ _ (hp _))
    · exact hw _ _ (hp _)
  · exact hp _

/-! ## Due times -/

@[simp] theorem State.timeDue_pending (s : State) : s.timeDue.pending = s.pending := by
  unfold State.timeDue; split <;> simp
@[simp] theorem State.timeDue_pin (s : State) : s.timeDue.pin = s.pin := by
  unfold State.timeDue; split <;> simp
@[simp] theorem State.timeDue_mode (s : State) : s.timeDue.mode = s.mode := by
  unfold State.timeDue; split <;> simp
@[simp] theorem State.timeDue_closing (s : State) : s.timeDue.closing = s.closing := by
  unfold State.timeDue; split <;> simp
@[simp] theorem State.timeDue_pxu (s : State) : s.timeDue.pxu = s.pxu := by
  unfold State.timeDue; split <;> simp
@[simp] theorem State.timeDue_wtr (s : State) : s.timeDue.wtr = s.wtr := by
  unfold State.timeDue; split <;> simp
@[simp] theorem State.timeDue_wru (s : State) : s.timeDue.wru = s.wru := by
  unfold State.timeDue; split <;> simp
@[simp] theorem State.timeDue_spu (s : State) : s.timeDue.spu = s.spu := by
  unfold State.timeDue; split <;> simp
@[simp] theorem State.timeDue_lev (s : State) : s.timeDue.lev = s.lev := by
  unfold State.timeDue; split <;> simp

theorem State.timeDue_events (s : State) : s.hli.Events s.timeDue.hli := by
  unfold State.timeDue
  split
  · exact State.trigger_events _
  · exact .refl _

/-- A due time either presents a trigger or does nothing. -/
theorem State.timeDue_cases (s : State) :
    (∃ u : State, s.timeDue = u.trigger ∧ u.hlc = s.hlc ∧ u.mcv = s.mcv ∧ u.scu = s.scu ∧ u.pxu = s.pxu ∧
      u.wtr = s.wtr ∧ u.wru = s.wru ∧ u.mode = s.mode ∧ u.closing = s.closing ∧ s.mode = .running ∧
      u.tu.config = s.tu.config ∧ (s.tu.Stopped → u.tu.Stopped)) ∨ s.timeDue = s := by
  unfold State.timeDue
  split
  · rename_i hm _ _
    exact .inl ⟨_, rfl, rfl, rfl, rfl, rfl, rfl, rfl, rfl, rfl, hm, rfl, id⟩
  · exact .inr rfl

end Sys2Proof.Machine
end

