-- ==== Sys2Proof/Laws/Steps.lean ====
section
/-! SUPPORT. Everything a step can do, said once: what an event row does, what a taken command does, and that a step is
one of these, a refusal, a microsecond, or nothing. The invariants are proved by cases on it. -/

namespace Sys2Proof.Machine

/-- What the rows that are not host commands do to the state, before the transmitter's choice. -/
inductive Happens : Instr → State → State → Prop
  | hostFrame (bytes : List Byte) (s : State) :
      Happens (.hostFrame bytes) s { s with hli := s.hli.bytes bytes }
  | transmissionEnd (s : State) : Happens .transmissionEnd s { s with hli := { s.hli with tx := none } }
  | odometerPulse (toward : CarEnd) (s : State) : Happens (.odometerPulse toward) s (s.pulse toward)
  | mastPulse (s : State) (h : s.mode = .running) : Happens .mastPulse s { s with tu := s.tu.mastPulse }
  | timeTriggerDue (s : State) : Happens .timeTriggerDue s s.timeDue
  | ready (h : HeadNo) (bytes : List Byte) (s : State) : Happens (.ready h bytes) s (s.headBytes h bytes)
  | profile (h : HeadNo) (bytes : List Byte) (s : State) : Happens (.profile h bytes) s (s.headBytes h bytes)
  | headUnusableFrame (h : HeadNo) (bytes : List Byte) (s : State) :
      Happens (.headUnusableFrame h bytes) s (s.headBytes h bytes)
  | headBadFrame (h : HeadNo) (bytes : List Byte) (s : State) :
      Happens (.headBadFrame h bytes) s (s.headBytes h bytes)
  | clearingTimerExpiry (h : HeadNo) (s : State) : Happens (.clearingTimerExpiry h) s (s.clearingExpires h)
  | responseWindowExpiry (h : HeadNo) (s : State) : Happens (.responseWindowExpiry h) s (s.missAnswer h .noAnswer)
  | motionSequenceEnd (a1 b1 a2 b2 : Code) (s : State) :
      Happens (.motionSequenceEnd a1 b1 a2 b2) s (s.motionEnd #v[a1.toNat, b1.toNat, a2.toNat, b2.toNat])
  | scanExtraction (s : State) : Happens .scanExtraction s s.extractNext
  | candidateListHandover (s : State) : Happens .candidateListHandover s s.handOver
  | trackScan (s : State) : Happens .trackScan s s.trackNext
  | setValuing (s : State) : Happens .setValuing s s.takeSet
  | setOffer (s : State) : Happens .setOffer s s.offerSet
  | spanSetTake (s : State) : Happens .spanSetTake s s.spanTake
  | limitSetTake (s : State) : Happens .limitSetTake s s.limitTake
  | closingWork (s : State) : Happens .closingWork s s.closeIfDue

/-- What the host commands do to the state, once they are taken and before they are answered. -/
inductive Takes : Instr → State → State → Prop
  | getStatus (s : State) : Takes .getStatus s s
  | getTracks (s : State) : Takes .getTracks s s
  | setHead (a : HeadSettings) (s : State) (h : s.mode = .standby) : Takes .setHead s (s.setHeadSettings a)
  | headInit (h : HeadNo) (s : State) : Takes .headInit s (s.startClearing h)
  | headRestore (h : HeadNo) (s : State) : Takes .headRestore s (s.startClearing h)
  | headIsolate (h : HeadNo) (s : State) : Takes .headIsolate s ((s.closeByCommand h).moveHead h
      { s.head h with state := .isolated .command, clearing := none })
  | headIsolateClearing (h : HeadNo) (s : State) : Takes .headIsolate s (s.moveHead h
      { s.head h with state := .isolated .command, clearing := none })
  | headDisabled (s : State) : Takes .headDisable s s
  | headDisable (h : HeadNo) (s : State) : Takes .headDisable s ((s.closeByCommand h).moveHead h
      { s.head h with state := .disabled, clearing := none, misses := 0, window := false })
  | headDisableIdle (h : HeadNo) (s : State) : Takes .headDisable s (s.moveHead h
      { s.head h with state := .disabled, clearing := none, misses := 0, window := false })
  | testSourceOn (h : HeadNo) (s : State) : Takes .testSourceOn s (s.setHead h { s.head h with testSource := true })
  | testSourceOff (h : HeadNo) (s : State) :
      Takes .testSourceOff s (s.setHead h { s.head h with testSource := false })
  | setTestProfile (ws : List TestWire) (s : State) :
      Takes .setTestProfile s { s with hlc := { s.hlc with profile := ws } }
  | setMotion (a : MotionConfig) (s : State) (h : s.mode = .standby) : Takes .setMotion s (s.setMotionConfig a)
  | setExtract (a : ExtractSettings) (s : State) (h : s.mode = .standby) : Takes .setExtract s (s.setExtractSettings a)
  | setTracker (a : TrackerSettings) (s : State) (h : s.mode = .standby) : Takes .setTracker s (s.setTrackerSettings a)
  | setWearTable (a : Fin 8 × WearTable) (s : State) (h : s.mode = .standby) : Takes .setWearTable s (s.loadTable a)
  | setDefaultSection (d : Design) (s : State) (h : s.mode = .standby) :
      Takes .setDefaultSection s { s with scu := { s.scu with default := d } }
  | clearRoute (dir : Dir) (s : State) : Takes .clearRoute s { s with scu := { s.scu.cleared with dir := dir } }
  | appendSection (sec : RouteSection) (s : State) (hc : s.scu.combines sec = true) (hp : s.scu.places sec = true)
      (hl : s.scu.queue.length < 32) :
      Takes .appendSection s { s with scu := { s.scu with queue := s.scu.queue ++ [sec] } }
  | setRule (i : Fin 16) (r : LimitRule) (s : State) (h : s.mode = .standby)
      (hl : ((s.lev.rules[i]).lock && !s.lev.bypass) = false) :
      Takes .setRule s { s with lev := { s.lev with rules := s.lev.rules.set i r } }
  | setPolicy (design bypass : Bool) (s : State) (h : s.mode = .standby)
      (hl : ((s.lev.design && !design) || (!s.lev.bypass && bypass && 0 < s.lev.lockedCount)) = false) :
      Takes .setPolicy s { s with lev := { s.lev with design, bypass } }
  | setTrigger (a : TravelConfig) (s : State) (h : s.mode = .standby) : Takes .setTrigger s (s.setTravelConfig a)
  | setReporting (a : Reporting) (s : State) : Takes .setReporting s (s.setReporting a)
  | startRun (a : RunStart) (s : State) (h : s.mode = .standby) (hd : a.dir = s.scu.dir) :
      Takes .startRun s (s.startRun a)
  | stopRun (s : State) (h : s.mode = .running) : Takes .stopRun s s.stopRun
  | scanOnce (s : State) (h : s.mode = .running) : Takes .scanOnce s s.trigger
  | positionFix (o : Int) (s : State) (h : s.mode = .running) :
      Takes .positionFix s { s with tu := { s.tu with pendingFix := some o } }
  | restart (s : State) : Takes .restart s s.restart

/-- The rows whose whole effect is a head's: what the head links bring, the timers of chapter 3, HEAD_CONTROL. -/
def onHeads : Instr → Bool
  | .ready _ _ | .profile _ _ | .headUnusableFrame _ _ | .headBadFrame _ _ | .clearingTimerExpiry _
  | .responseWindowExpiry _ | .headInit | .headRestore | .headIsolate | .headDisable | .testSourceOn
  | .testSourceOff => true
  | _ => false

theorem HeadStep.ofHappens {c : Instr} {s t : State} (h : Happens c s t) (hc : onHeads c = true) : HeadStep s t := by
  cases h <;> first
    | exact HeadStep.headBytes _ _ _
    | exact HeadStep.clearingExpires _ _
    | exact HeadStep.missAnswer _ _ _
    | exact absurd hc (by decide)
    | cases hc

theorem HeadStep.ofTakes {c : Instr} {s t : State} (h : Takes c s t) (hc : onHeads c = true) : HeadStep s t := by
  cases h <;> try (exact absurd hc (by decide))
  case headInit => exact HeadStep.startClearing _ _
  case headRestore => exact HeadStep.startClearing _ _
  case headIsolate => refine HeadStep.closeAndMove _ _ _ ?_ ?_; exact ⟨rfl, rfl⟩; exact id
  case headIsolateClearing => refine HeadStep.moveHead _ _ _ ?_ ?_; exact ⟨rfl, rfl⟩; exact id
  case headDisabled => exact HeadStep.refl _
  case headDisable => refine HeadStep.closeAndMove _ _ _ ?_ ?_; exact ⟨rfl, rfl⟩; exact id
  case headDisableIdle => refine HeadStep.moveHead _ _ _ ?_ ?_; exact ⟨rfl, rfl⟩; exact id
  case testSourceOn => refine HeadStep.setHead _ _ _ ?_ ?_; exact ⟨rfl, rfl⟩; exact id
  case testSourceOff => refine HeadStep.setHead _ _ _ ?_ ?_; exact ⟨rfl, rfl⟩; exact id

/-- What the state becomes before the transmitter's choice, when the pin is released. -/
inductive Becomes (c : Instr) (s : State) : State → Prop
  | same : Becomes c s s
  | happens {t : State} (h : Happens c s t) : Becomes c s t
  | answered (f : HostFrame) (rest : List HostFrame) (r : Result) (h : s.holds f rest) :
      Becomes c s ((s.popped rest).reply f r [])
  | taken {t : State} (f : HostFrame) (rest : List HostFrame) (data : List Byte) (h : s.holds f rest)
      (k : Takes c (s.popped rest) t) : Becomes c s (t.reply f .done data)

/-- A row of the command interpreter becomes what its work takes. -/
theorem Becomes.ofTake {c : Instr} {row : HostFrame → Bool} {modes : Mode → Bool}
    {work : HostFrame → State → Verdict} {s : State} (hp : s.pin = false)
    (hw : ∀ f u v data, modes u.mode = true → work f u = .taken v data → Takes c u v) :
    Becomes c s (takeCommand row modes work s) := by
  rcases takeCommand_cases row modes work s with h | ⟨f, rest, hs, hi, -, h⟩
  · rw [h]; exact .same
  · have hh : s.holds f rest := ⟨hp, hs, hi⟩
    rcases h with ⟨r, -, h⟩ | ⟨r, -, -, h⟩ | ⟨v, data, hm, hwk, h⟩
    · rw [h]; exact .answered f rest r hh
    · rw [h]; exact .answered f rest r hh
    · rw [h]; exact .taken f rest data hh (hw f _ v data hm hwk)

theorem judged_taken_inv {α : Type} {parsed : Except Result α} {effect : α → State → State} {s v : State}
    {data : List Byte} (h : judged parsed effect s = .taken v data) : ∃ a, parsed = .ok a ∧ v = effect a s := by
  unfold judged at h
  split at h
  · cases h
  · rename_i a; cases h; exact ⟨a, rfl, rfl⟩

theorem headControlWork_taken {code : Byte} {action : HeadNo → State → Verdict} {f : HostFrame} {s v : State}
    {data : List Byte} (h : headControlWork code action f s = .taken v data) : ∃ hd, action hd s = .taken v data := by
  unfold headControlWork at h
  split at h
  · split at h
    · rename_i hd _; split at h
      · exact ⟨hd, h⟩
      · cases h
    · cases h
  · cases h

theorem emptyBody_taken {work : State → Verdict} {f : HostFrame} {s v : State} {data : List Byte}
    (h : emptyBody work f s = .taken v data) : work s = .taken v data := by
  unfold emptyBody at h
  split at h
  · exact h
  · cases h

/-- Everything a command can do when the power-on reset pin is released. -/
theorem exec_becomes {c : Instr} {s t : State} (hp : s.pin = false) (h : exec c s = .next t) :
    (c = .powerOnResetAssert ∧ t = { s with pin := true, hli := { s.hli with tx := none } }) ∨
    (c = .powerOnResetRelease ∧ t = (({ State.powerOn with pending := s.pending }).event (.started .powerOn)).kick) ∨
    ∃ u, Becomes c s u ∧ t = u.kick := by
  have wrap : ∀ effect : State → State, act effect s = .next t → Becomes c s (effect s) →
      ∃ u, Becomes c s u ∧ t = u.kick := by
    intro effect ha hb
    rw [act_free _ hp] at ha
    cases ha
    exact ⟨_, hb, rfl⟩
  cases c
  case powerOnResetAssert => exact .inl ⟨rfl, by cases h; rfl⟩
  case powerOnResetRelease => exact .inr (.inl ⟨rfl, by cases h; rfl⟩)
  all_goals right; right
  case' hostFrame => simp only [exec, execHostFrame] at h
  case' transmissionEnd => simp only [exec, execTransmissionEnd] at h
  case' odometerPulse => simp only [exec, execOdometerPulse] at h
  case' ready => simp only [exec, execReady] at h
  case' profile => simp only [exec, execProfile] at h
  case' headUnusableFrame => simp only [exec, execHeadUnusableFrame] at h
  case' headBadFrame => simp only [exec, execHeadBadFrame] at h
  case' motionSequenceEnd => simp only [exec, execMotionSequenceEnd] at h
  case' closingWork => simp only [exec, execClosingWork] at h
  all_goals refine wrap _ h ?_
  case hostFrame b => exact .happens (.hostFrame b s)
  case transmissionEnd => exact .happens (.transmissionEnd s)
  case odometerPulse d => exact .happens (.odometerPulse d s)
  case mastPulse =>
    split
    · rename_i hm; exact .happens (.mastPulse s hm)
    · exact .same
  case timeTriggerDue => exact .happens (.timeTriggerDue s)
  case ready j b => exact .happens (.ready j b s)
  case profile j b => exact .happens (.profile j b s)
  case headUnusableFrame j b => exact .happens (.headUnusableFrame j b s)
  case headBadFrame j b => exact .happens (.headBadFrame j b s)
  case clearingTimerExpiry j => exact .happens (.clearingTimerExpiry j s)
  case responseWindowExpiry j => exact .happens (.responseWindowExpiry j s)
  case motionSequenceEnd a1 b1 a2 b2 => exact .happens (.motionSequenceEnd a1 b1 a2 b2 s)
  case scanExtraction => exact .happens (.scanExtraction s)
  case candidateListHandover => exact .happens (.candidateListHandover s)
  case trackScan => exact .happens (.trackScan s)
  case setValuing => exact .happens (.setValuing s)
  case setOffer => exact .happens (.setOffer s)
  case spanSetTake => exact .happens (.spanSetTake s)
  case limitSetTake => exact .happens (.limitSetTake s)
  case closingWork => exact .happens (.closingWork s)
  all_goals refine .ofTake hp ?_; intro f u v data hm hw
  case getStatus => cases emptyBody_taken hw; exact .getStatus u
  case getTracks => cases emptyBody_taken hw; exact .getTracks u
  case unknownCommand => cases hw
  case setHead => obtain ⟨a, -, rfl⟩ := judged_taken_inv hw; exact .setHead a u (by simpa [inStandby] using hm)
  case headInit =>
    obtain ⟨hd, hw⟩ := headControlWork_taken hw
    unfold headInitAction at hw
    split at hw <;> cases hw <;> exact .headInit hd u
  case headRestore =>
    obtain ⟨hd, hw⟩ := headControlWork_taken hw
    unfold headRestoreAction at hw
    split at hw <;> cases hw; exact .headRestore hd u
  case headIsolate =>
    obtain ⟨hd, hw⟩ := headControlWork_taken hw
    unfold headIsolateAction at hw
    split at hw <;> cases hw
    · exact .headIsolate hd u
    · exact .headIsolateClearing hd u
  case headDisable =>
    obtain ⟨hd, hw⟩ := headControlWork_taken hw
    unfold headDisableAction at hw
    dsimp only at hw
    split at hw <;> cases hw
    · exact .headDisabled u
    · exact .headDisable hd u
    · exact .headDisableIdle hd u
  case testSourceOn => obtain ⟨hd, hw⟩ := headControlWork_taken hw; cases hw; exact .testSourceOn hd u
  case testSourceOff => obtain ⟨hd, hw⟩ := headControlWork_taken hw; cases hw; exact .testSourceOff hd u
  case setTestProfile =>
    unfold setTestProfileWork at hw
    split at hw
    · split at hw
      · cases hw
      · split at hw
        · cases hw
        · split at hw
          · cases hw
          · cases hw; exact .setTestProfile _ u
    · cases hw
  case setMotion => obtain ⟨a, -, rfl⟩ := judged_taken_inv hw; exact .setMotion a u (by simpa [inStandby] using hm)
  case setExtract => obtain ⟨a, -, rfl⟩ := judged_taken_inv hw; exact .setExtract a u (by simpa [inStandby] using hm)
  case setTracker => obtain ⟨a, -, rfl⟩ := judged_taken_inv hw; exact .setTracker a u (by simpa [inStandby] using hm)
  case setWearTable => obtain ⟨a, -, rfl⟩ := judged_taken_inv hw; exact .setWearTable a u (by simpa [inStandby] using hm)
  case setDefaultSection =>
    unfold setDefaultSectionWork at hw
    split at hw
    · cases hw
    · split at hw
      · cases hw
      · split at hw
        · cases hw
        · cases hw; exact .setDefaultSection _ u (by simpa [inStandby] using hm)
  case clearRoute =>
    unfold clearRouteWork at hw
    split at hw
    · split at hw
      · split at hw
        · cases hw
        · cases hw; exact .clearRoute _ u
      · cases hw
    · cases hw
  case appendSection =>
    unfold appendSectionWork at hw
    split at hw
    · cases hw
    · split at hw
      · cases hw
      · rename_i h1
        split at hw
        · cases hw
        · split at hw
          · cases hw
          · rename_i h2
            split at hw
            · cases hw
            · rename_i h3
              cases hw; exact .appendSection _ u (by simpa using h1) (by simpa using h2) (by omega)
  case setRule =>
    unfold setRuleWork at hw
    split at hw
    · cases hw
    · split at hw
      · cases hw
      · rename_i h1
        cases hw; exact .setRule _ _ u (by simpa [inStandby] using hm) (Bool.eq_false_iff.mpr h1)
  case setPolicy =>
    unfold setPolicyWork at hw
    split at hw
    · split at hw
      · split at hw
        · cases hw
        · rename_i h1
          cases hw; exact .setPolicy _ _ u (by simpa [inStandby] using hm) (Bool.eq_false_iff.mpr h1)
      · cases hw
    · cases hw
  case setTrigger => obtain ⟨a, -, rfl⟩ := judged_taken_inv hw; exact .setTrigger a u (by simpa [inStandby] using hm)
  case setReporting => obtain ⟨a, -, rfl⟩ := judged_taken_inv hw; exact .setReporting a u
  case startRun =>
    unfold startRunWork at hw
    split at hw
    · cases hw
    · split at hw
      · cases hw
      · rename_i h1
        split at hw
        · cases hw
        · cases hw; exact .startRun _ u (by simpa [inStandby] using hm) (by simpa using h1)
  case stopRun => cases emptyBody_taken hw; exact .stopRun u (by simpa [inRunning] using hm)
  case scanOnce =>
    unfold scanOnceWork at hw
    split at hw
    · cases hw
    · split at hw
      · cases hw
      · cases hw; exact .scanOnce u (by simpa [inRunning] using hm)
  case positionFix =>
    unfold positionFixWork at hw
    split at hw
    · dsimp only at hw
      split at hw
      · cases hw
      · split at hw
        · cases hw
        · cases hw; exact .positionFix _ u (by simpa [inRunning] using hm)
    · cases hw
  case restart => cases emptyBody_taken hw; exact .restart u

/-- Everything a step can do. -/
theorem step_becomes {s t : State} (h : step s = .next t) :
    (s.pending = [] ∧ s.pin = true ∧ t = s) ∨
    (s.pending = [] ∧ s.pin = false ∧ t = s.tick.kick) ∨
    ∃ c rest, s.pending = c :: rest ∧
      ((s.pin = true ∧ t = { s with pending := rest }) ∨
       (c = .powerOnResetAssert ∧ t = { s with pending := rest, pin := true, hli := { s.hli with tx := none } }) ∨
       (c = .powerOnResetRelease ∧ t = (({ State.powerOn with pending := rest }).event (.started .powerOn)).kick) ∨
       (s.pin = false ∧ ∃ u, Becomes c { s with pending := rest } u ∧ t = u.kick)) := by
  rcases step_cases h with ⟨hq, rfl⟩ | ⟨c, rest, hq, h⟩
  · unfold State.idle
    rcases Bool.eq_false_or_eq_true s.pin with hp | hp
    · rw [if_pos hp]; exact .inl ⟨hq, hp, rfl⟩
    · rw [if_neg (by simp [hp])]; exact .inr (.inl ⟨hq, hp, rfl⟩)
  · refine .inr (.inr ⟨c, rest, hq, ?_⟩)
    rcases Bool.eq_false_or_eq_true s.pin with hp | hp
    · have keep : ∀ effect : State → State, act effect { s with pending := rest } = .next t →
          t = { s with pending := rest } := by
        intro effect ha
        rw [act_held (s := { s with pending := rest }) effect hp] at ha
        cases ha; rfl
      by_cases h1 : c = .powerOnResetAssert
      · subst h1; cases h; exact .inr (.inl ⟨rfl, rfl⟩)
      · by_cases h2 : c = .powerOnResetRelease
        · subst h2; cases h; exact .inr (.inr (.inl ⟨rfl, rfl⟩))
        · left
          refine ⟨hp, ?_⟩
          cases c
          case powerOnResetAssert => exact absurd rfl h1
          case powerOnResetRelease => exact absurd rfl h2
          case' hostFrame => simp only [exec, execHostFrame] at h
          case' transmissionEnd => simp only [exec, execTransmissionEnd] at h
          case' odometerPulse => simp only [exec, execOdometerPulse] at h
          case' ready => simp only [exec, execReady] at h
          case' profile => simp only [exec, execProfile] at h
          case' headUnusableFrame => simp only [exec, execHeadUnusableFrame] at h
          case' headBadFrame => simp only [exec, execHeadBadFrame] at h
          case' motionSequenceEnd => simp only [exec, execMotionSequenceEnd] at h
          all_goals exact keep _ h
    · rcases exec_becomes (s := { s with pending := rest }) hp h with ⟨hc, ht⟩ | ⟨hc, ht⟩ | ⟨u, hu, ht⟩
      · exact .inr (.inl ⟨hc, by rw [ht]⟩)
      · exact .inr (.inr (.inl ⟨hc, ht⟩))
      · exact .inr (.inr (.inr ⟨hp, u, hu, ht⟩))

end Sys2Proof.Machine
end

