-- ==== Sys2Proof/Laws/Path.lean ====
section
/-! SUPPORT. The rows of the scan path and of runs: which blocks each leaves alone, what each offers to the host line,
and what it does to the bank pairs. -/

namespace Sys2Proof.Machine

/-! ## What each row leaves alone -/

@[simp] theorem State.motionEnd_pending (s : State) (codes : Vector Nat 4) : (s.motionEnd codes).pending = s.pending := by
  unfold State.motionEnd; split <;> rfl
@[simp] theorem State.motionEnd_pin (s : State) (codes : Vector Nat 4) : (s.motionEnd codes).pin = s.pin := by
  unfold State.motionEnd; split <;> rfl
@[simp] theorem State.motionEnd_mode (s : State) (codes : Vector Nat 4) : (s.motionEnd codes).mode = s.mode := by
  unfold State.motionEnd; split <;> rfl
@[simp] theorem State.motionEnd_closing (s : State) (codes : Vector Nat 4) : (s.motionEnd codes).closing = s.closing := by
  unfold State.motionEnd; split <;> rfl
@[simp] theorem State.motionEnd_tu (s : State) (codes : Vector Nat 4) : (s.motionEnd codes).tu = s.tu := by
  unfold State.motionEnd; split <;> rfl
@[simp] theorem State.motionEnd_pxu (s : State) (codes : Vector Nat 4) : (s.motionEnd codes).pxu = s.pxu := by
  unfold State.motionEnd; split <;> rfl
@[simp] theorem State.motionEnd_wtr (s : State) (codes : Vector Nat 4) : (s.motionEnd codes).wtr = s.wtr := by
  unfold State.motionEnd; split <;> rfl
@[simp] theorem State.motionEnd_wru (s : State) (codes : Vector Nat 4) : (s.motionEnd codes).wru = s.wru := by
  unfold State.motionEnd; split <;> rfl
@[simp] theorem State.motionEnd_scu (s : State) (codes : Vector Nat 4) : (s.motionEnd codes).scu = s.scu := by
  unfold State.motionEnd; split <;> rfl
@[simp] theorem State.motionEnd_spu (s : State) (codes : Vector Nat 4) : (s.motionEnd codes).spu = s.spu := by
  unfold State.motionEnd; split <;> rfl
@[simp] theorem State.motionEnd_lev (s : State) (codes : Vector Nat 4) : (s.motionEnd codes).lev = s.lev := by
  unfold State.motionEnd; split <;> rfl

@[simp] theorem State.extractNext_pending (s : State) : (s.extractNext).pending = s.pending := by
  unfold State.extractNext; split
  · split <;> rfl
  · rfl
@[simp] theorem State.extractNext_pin (s : State) : (s.extractNext).pin = s.pin := by
  unfold State.extractNext; split
  · split <;> rfl
  · rfl
@[simp] theorem State.extractNext_mode (s : State) : (s.extractNext).mode = s.mode := by
  unfold State.extractNext; split
  · split <;> rfl
  · rfl
@[simp] theorem State.extractNext_closing (s : State) : (s.extractNext).closing = s.closing := by
  unfold State.extractNext; split
  · split <;> rfl
  · rfl
@[simp] theorem State.extractNext_tu (s : State) : (s.extractNext).tu = s.tu := by
  unfold State.extractNext; split
  · split <;> rfl
  · rfl
@[simp] theorem State.extractNext_mcv (s : State) : (s.extractNext).mcv = s.mcv := by
  unfold State.extractNext; split
  · split <;> rfl
  · rfl
@[simp] theorem State.extractNext_wtr (s : State) : (s.extractNext).wtr = s.wtr := by
  unfold State.extractNext; split
  · split <;> rfl
  · rfl
@[simp] theorem State.extractNext_wru (s : State) : (s.extractNext).wru = s.wru := by
  unfold State.extractNext; split
  · split <;> rfl
  · rfl
@[simp] theorem State.extractNext_scu (s : State) : (s.extractNext).scu = s.scu := by
  unfold State.extractNext; split
  · split <;> rfl
  · rfl
@[simp] theorem State.extractNext_spu (s : State) : (s.extractNext).spu = s.spu := by
  unfold State.extractNext; split
  · split <;> rfl
  · rfl
@[simp] theorem State.extractNext_lev (s : State) : (s.extractNext).lev = s.lev := by
  unfold State.extractNext; split
  · split <;> rfl
  · rfl
@[simp] theorem State.extractNext_hli (s : State) : (s.extractNext).hli = s.hli := by
  unfold State.extractNext; split
  · split <;> rfl
  · rfl

@[simp] theorem State.handOver_pending (s : State) : (s.handOver).pending = s.pending := by
  unfold State.handOver; split <;> rfl
@[simp] theorem State.handOver_pin (s : State) : (s.handOver).pin = s.pin := by
  unfold State.handOver; split <;> rfl
@[simp] theorem State.handOver_mode (s : State) : (s.handOver).mode = s.mode := by
  unfold State.handOver; split <;> rfl
@[simp] theorem State.handOver_closing (s : State) : (s.handOver).closing = s.closing := by
  unfold State.handOver; split <;> rfl
@[simp] theorem State.handOver_tu (s : State) : (s.handOver).tu = s.tu := by
  unfold State.handOver; split <;> rfl
@[simp] theorem State.handOver_hlc (s : State) : (s.handOver).hlc = s.hlc := by
  unfold State.handOver; split <;> rfl
@[simp] theorem State.handOver_mcv (s : State) : (s.handOver).mcv = s.mcv := by
  unfold State.handOver; split <;> rfl
@[simp] theorem State.handOver_wru (s : State) : (s.handOver).wru = s.wru := by
  unfold State.handOver; split <;> rfl
@[simp] theorem State.handOver_scu (s : State) : (s.handOver).scu = s.scu := by
  unfold State.handOver; split <;> rfl
@[simp] theorem State.handOver_spu (s : State) : (s.handOver).spu = s.spu := by
  unfold State.handOver; split <;> rfl
@[simp] theorem State.handOver_lev (s : State) : (s.handOver).lev = s.lev := by
  unfold State.handOver; split <;> rfl
@[simp] theorem State.handOver_hli (s : State) : (s.handOver).hli = s.hli := by
  unfold State.handOver; split <;> rfl

@[simp] theorem State.trackNext_pending (s : State) : (s.trackNext).pending = s.pending := by
  unfold State.trackNext; split <;> rfl
@[simp] theorem State.trackNext_pin (s : State) : (s.trackNext).pin = s.pin := by
  unfold State.trackNext; split <;> rfl
@[simp] theorem State.trackNext_mode (s : State) : (s.trackNext).mode = s.mode := by
  unfold State.trackNext; split <;> rfl
@[simp] theorem State.trackNext_closing (s : State) : (s.trackNext).closing = s.closing := by
  unfold State.trackNext; split <;> rfl
@[simp] theorem State.trackNext_tu (s : State) : (s.trackNext).tu = s.tu := by
  unfold State.trackNext; split <;> rfl
@[simp] theorem State.trackNext_hlc (s : State) : (s.trackNext).hlc = s.hlc := by
  unfold State.trackNext; split <;> rfl
@[simp] theorem State.trackNext_mcv (s : State) : (s.trackNext).mcv = s.mcv := by
  unfold State.trackNext; split <;> rfl
@[simp] theorem State.trackNext_pxu (s : State) : (s.trackNext).pxu = s.pxu := by
  unfold State.trackNext; split <;> rfl
@[simp] theorem State.trackNext_wru (s : State) : (s.trackNext).wru = s.wru := by
  unfold State.trackNext; split <;> rfl
@[simp] theorem State.trackNext_scu (s : State) : (s.trackNext).scu = s.scu := by
  unfold State.trackNext; split <;> rfl
@[simp] theorem State.trackNext_spu (s : State) : (s.trackNext).spu = s.spu := by
  unfold State.trackNext; split <;> rfl
@[simp] theorem State.trackNext_lev (s : State) : (s.trackNext).lev = s.lev := by
  unfold State.trackNext; split <;> rfl

@[simp] theorem State.takeSet_pending (s : State) : (s.takeSet).pending = s.pending := by
  unfold State.takeSet; split <;> rfl
@[simp] theorem State.takeSet_pin (s : State) : (s.takeSet).pin = s.pin := by
  unfold State.takeSet; split <;> rfl
@[simp] theorem State.takeSet_mode (s : State) : (s.takeSet).mode = s.mode := by
  unfold State.takeSet; split <;> rfl
@[simp] theorem State.takeSet_closing (s : State) : (s.takeSet).closing = s.closing := by
  unfold State.takeSet; split <;> rfl
@[simp] theorem State.takeSet_tu (s : State) : (s.takeSet).tu = s.tu := by
  unfold State.takeSet; split <;> rfl
@[simp] theorem State.takeSet_hlc (s : State) : (s.takeSet).hlc = s.hlc := by
  unfold State.takeSet; split <;> rfl
@[simp] theorem State.takeSet_mcv (s : State) : (s.takeSet).mcv = s.mcv := by
  unfold State.takeSet; split <;> rfl
@[simp] theorem State.takeSet_pxu (s : State) : (s.takeSet).pxu = s.pxu := by
  unfold State.takeSet; split <;> rfl
@[simp] theorem State.takeSet_scu (s : State) : (s.takeSet).scu = s.scu := by
  unfold State.takeSet; split <;> rfl
@[simp] theorem State.takeSet_spu (s : State) : (s.takeSet).spu = s.spu := by
  unfold State.takeSet; split <;> rfl
@[simp] theorem State.takeSet_lev (s : State) : (s.takeSet).lev = s.lev := by
  unfold State.takeSet; split <;> rfl
@[simp] theorem State.takeSet_hli (s : State) : (s.takeSet).hli = s.hli := by
  unfold State.takeSet; split <;> rfl

@[simp] theorem State.offerSet_pending (s : State) : (s.offerSet).pending = s.pending := by
  unfold State.offerSet; split <;> rfl
@[simp] theorem State.offerSet_pin (s : State) : (s.offerSet).pin = s.pin := by
  unfold State.offerSet; split <;> rfl
@[simp] theorem State.offerSet_mode (s : State) : (s.offerSet).mode = s.mode := by
  unfold State.offerSet; split <;> rfl
@[simp] theorem State.offerSet_closing (s : State) : (s.offerSet).closing = s.closing := by
  unfold State.offerSet; split <;> rfl
@[simp] theorem State.offerSet_tu (s : State) : (s.offerSet).tu = s.tu := by
  unfold State.offerSet; split <;> rfl
@[simp] theorem State.offerSet_hlc (s : State) : (s.offerSet).hlc = s.hlc := by
  unfold State.offerSet; split <;> rfl
@[simp] theorem State.offerSet_mcv (s : State) : (s.offerSet).mcv = s.mcv := by
  unfold State.offerSet; split <;> rfl
@[simp] theorem State.offerSet_pxu (s : State) : (s.offerSet).pxu = s.pxu := by
  unfold State.offerSet; split <;> rfl
@[simp] theorem State.offerSet_wtr (s : State) : (s.offerSet).wtr = s.wtr := by
  unfold State.offerSet; split <;> rfl
@[simp] theorem State.offerSet_scu (s : State) : (s.offerSet).scu = s.scu := by
  unfold State.offerSet; split <;> rfl
@[simp] theorem State.offerSet_spu (s : State) : (s.offerSet).spu = s.spu := by
  unfold State.offerSet; split <;> rfl
@[simp] theorem State.offerSet_lev (s : State) : (s.offerSet).lev = s.lev := by
  unfold State.offerSet; split <;> rfl

@[simp] theorem State.spanWork_pending (s : State) (set : SampleSet) : (s.spanWork set).pending = s.pending := by
  unfold State.spanWork; split
  · rfl
  · split <;> rfl
@[simp] theorem State.spanWork_pin (s : State) (set : SampleSet) : (s.spanWork set).pin = s.pin := by
  unfold State.spanWork; split
  · rfl
  · split <;> rfl
@[simp] theorem State.spanWork_mode (s : State) (set : SampleSet) : (s.spanWork set).mode = s.mode := by
  unfold State.spanWork; split
  · rfl
  · split <;> rfl
@[simp] theorem State.spanWork_closing (s : State) (set : SampleSet) : (s.spanWork set).closing = s.closing := by
  unfold State.spanWork; split
  · rfl
  · split <;> rfl
@[simp] theorem State.spanWork_hlc (s : State) (set : SampleSet) : (s.spanWork set).hlc = s.hlc := by
  unfold State.spanWork; split
  · rfl
  · split <;> rfl
@[simp] theorem State.spanWork_mcv (s : State) (set : SampleSet) : (s.spanWork set).mcv = s.mcv := by
  unfold State.spanWork; split
  · rfl
  · split <;> rfl
@[simp] theorem State.spanWork_pxu (s : State) (set : SampleSet) : (s.spanWork set).pxu = s.pxu := by
  unfold State.spanWork; split
  · rfl
  · split <;> rfl
@[simp] theorem State.spanWork_wtr (s : State) (set : SampleSet) : (s.spanWork set).wtr = s.wtr := by
  unfold State.spanWork; split
  · rfl
  · split <;> rfl
@[simp] theorem State.spanWork_wru (s : State) (set : SampleSet) : (s.spanWork set).wru = s.wru := by
  unfold State.spanWork; split
  · rfl
  · split <;> rfl
@[simp] theorem State.spanWork_scu (s : State) (set : SampleSet) : (s.spanWork set).scu = s.scu := by
  unfold State.spanWork; split
  · rfl
  · split <;> rfl
@[simp] theorem State.spanWork_lev (s : State) (set : SampleSet) : (s.spanWork set).lev = s.lev := by
  unfold State.spanWork; split
  · rfl
  · split <;> rfl

@[simp] theorem State.limitWork_pending (s : State) (o : Offered) : (s.limitWork o).pending = s.pending := by
  unfold State.limitWork; rfl
@[simp] theorem State.limitWork_pin (s : State) (o : Offered) : (s.limitWork o).pin = s.pin := by
  unfold State.limitWork; rfl
@[simp] theorem State.limitWork_mode (s : State) (o : Offered) : (s.limitWork o).mode = s.mode := by
  unfold State.limitWork; rfl
@[simp] theorem State.limitWork_closing (s : State) (o : Offered) : (s.limitWork o).closing = s.closing := by
  unfold State.limitWork; rfl
@[simp] theorem State.limitWork_tu (s : State) (o : Offered) : (s.limitWork o).tu = s.tu := by
  unfold State.limitWork; rfl
@[simp] theorem State.limitWork_hlc (s : State) (o : Offered) : (s.limitWork o).hlc = s.hlc := by
  unfold State.limitWork; rfl
@[simp] theorem State.limitWork_mcv (s : State) (o : Offered) : (s.limitWork o).mcv = s.mcv := by
  unfold State.limitWork; rfl
@[simp] theorem State.limitWork_pxu (s : State) (o : Offered) : (s.limitWork o).pxu = s.pxu := by
  unfold State.limitWork; rfl
@[simp] theorem State.limitWork_wtr (s : State) (o : Offered) : (s.limitWork o).wtr = s.wtr := by
  unfold State.limitWork; rfl
@[simp] theorem State.limitWork_wru (s : State) (o : Offered) : (s.limitWork o).wru = s.wru := by
  unfold State.limitWork; rfl
@[simp] theorem State.limitWork_scu (s : State) (o : Offered) : (s.limitWork o).scu = s.scu := by
  unfold State.limitWork; rfl

@[simp] theorem State.endRun_pending (s : State) : (s.endRun).pending = s.pending := by
  unfold State.endRun; rfl
@[simp] theorem State.endRun_pin (s : State) : (s.endRun).pin = s.pin := by
  unfold State.endRun; rfl
@[simp] theorem State.endRun_tu (s : State) : (s.endRun).tu = s.tu := by
  unfold State.endRun; rfl
@[simp] theorem State.endRun_hlc (s : State) : (s.endRun).hlc = s.hlc := by
  unfold State.endRun; rfl
@[simp] theorem State.endRun_mcv (s : State) : (s.endRun).mcv = s.mcv := by
  unfold State.endRun; rfl
@[simp] theorem State.endRun_pxu (s : State) : (s.endRun).pxu = s.pxu := by
  unfold State.endRun; rfl
@[simp] theorem State.endRun_wtr (s : State) : (s.endRun).wtr = s.wtr := by
  unfold State.endRun; rfl
@[simp] theorem State.endRun_wru (s : State) : (s.endRun).wru = s.wru := by
  unfold State.endRun; rfl
@[simp] theorem State.endRun_spu (s : State) : (s.endRun).spu = s.spu := by
  unfold State.endRun; rfl
@[simp] theorem State.endRun_lev (s : State) : (s.endRun).lev = s.lev := by
  unfold State.endRun; rfl

@[simp] theorem State.setTaken_pending (s : State) (o : Offered) : (s.setTaken o).pending = s.pending := by
  unfold State.setTaken; split
  · dsimp only; split <;> rfl
  · rfl
@[simp] theorem State.setTaken_pin (s : State) (o : Offered) : (s.setTaken o).pin = s.pin := by
  unfold State.setTaken; split
  · dsimp only; split <;> rfl
  · rfl
@[simp] theorem State.setTaken_tu (s : State) (o : Offered) : (s.setTaken o).tu = s.tu := by
  unfold State.setTaken; split
  · dsimp only; split <;> rfl
  · rfl
@[simp] theorem State.setTaken_mcv (s : State) (o : Offered) : (s.setTaken o).mcv = s.mcv := by
  unfold State.setTaken; split
  · dsimp only; split <;> rfl
  · rfl
@[simp] theorem State.setTaken_pxu (s : State) (o : Offered) : (s.setTaken o).pxu = s.pxu := by
  unfold State.setTaken; split
  · dsimp only; split <;> rfl
  · rfl
@[simp] theorem State.setTaken_wtr (s : State) (o : Offered) : (s.setTaken o).wtr = s.wtr := by
  unfold State.setTaken; split
  · dsimp only; split <;> rfl
  · rfl
@[simp] theorem State.setTaken_spu (s : State) (o : Offered) : (s.setTaken o).spu = s.spu := by
  unfold State.setTaken; split
  · dsimp only; split <;> rfl
  · rfl
@[simp] theorem State.setTaken_lev (s : State) (o : Offered) : (s.setTaken o).lev = s.lev := by
  unfold State.setTaken; split
  · dsimp only; split <;> rfl
  · rfl

@[simp] theorem State.spanTake_pending (s : State) : (s.spanTake).pending = s.pending := by
  unfold State.spanTake; split
  · split <;> simp
  · rfl
@[simp] theorem State.spanTake_pin (s : State) : (s.spanTake).pin = s.pin := by
  unfold State.spanTake; split
  · split <;> simp
  · rfl
@[simp] theorem State.spanTake_mcv (s : State) : (s.spanTake).mcv = s.mcv := by
  unfold State.spanTake; split
  · split <;> simp
  · rfl
@[simp] theorem State.spanTake_pxu (s : State) : (s.spanTake).pxu = s.pxu := by
  unfold State.spanTake; split
  · split <;> simp
  · rfl
@[simp] theorem State.spanTake_wtr (s : State) : (s.spanTake).wtr = s.wtr := by
  unfold State.spanTake; split
  · split <;> simp
  · rfl
@[simp] theorem State.spanTake_lev (s : State) : (s.spanTake).lev = s.lev := by
  unfold State.spanTake; split
  · split <;> simp
  · rfl

@[simp] theorem State.limitTake_pending (s : State) : (s.limitTake).pending = s.pending := by
  unfold State.limitTake; split
  · split <;> simp
  · rfl
@[simp] theorem State.limitTake_pin (s : State) : (s.limitTake).pin = s.pin := by
  unfold State.limitTake; split
  · split <;> simp
  · rfl
@[simp] theorem State.limitTake_tu (s : State) : (s.limitTake).tu = s.tu := by
  unfold State.limitTake; split
  · split <;> simp
  · rfl
@[simp] theorem State.limitTake_mcv (s : State) : (s.limitTake).mcv = s.mcv := by
  unfold State.limitTake; split
  · split <;> simp
  · rfl
@[simp] theorem State.limitTake_pxu (s : State) : (s.limitTake).pxu = s.pxu := by
  unfold State.limitTake; split
  · split <;> simp
  · rfl
@[simp] theorem State.limitTake_wtr (s : State) : (s.limitTake).wtr = s.wtr := by
  unfold State.limitTake; split
  · split <;> simp
  · rfl

@[simp] theorem State.closeIfDue_pending (s : State) : (s.closeIfDue).pending = s.pending := by
  unfold State.closeIfDue; split <;> rfl
@[simp] theorem State.closeIfDue_pin (s : State) : (s.closeIfDue).pin = s.pin := by
  unfold State.closeIfDue; split <;> rfl
@[simp] theorem State.closeIfDue_mode (s : State) : (s.closeIfDue).mode = s.mode := by
  unfold State.closeIfDue; split <;> rfl
@[simp] theorem State.closeIfDue_tu (s : State) : (s.closeIfDue).tu = s.tu := by
  unfold State.closeIfDue; split <;> rfl
@[simp] theorem State.closeIfDue_hlc (s : State) : (s.closeIfDue).hlc = s.hlc := by
  unfold State.closeIfDue; split <;> rfl
@[simp] theorem State.closeIfDue_mcv (s : State) : (s.closeIfDue).mcv = s.mcv := by
  unfold State.closeIfDue; split <;> rfl
@[simp] theorem State.closeIfDue_pxu (s : State) : (s.closeIfDue).pxu = s.pxu := by
  unfold State.closeIfDue; split <;> rfl
@[simp] theorem State.closeIfDue_wru (s : State) : (s.closeIfDue).wru = s.wru := by
  unfold State.closeIfDue; split <;> rfl
@[simp] theorem State.closeIfDue_scu (s : State) : (s.closeIfDue).scu = s.scu := by
  unfold State.closeIfDue; split <;> rfl
@[simp] theorem State.closeIfDue_spu (s : State) : (s.closeIfDue).spu = s.spu := by
  unfold State.closeIfDue; split <;> rfl
@[simp] theorem State.closeIfDue_lev (s : State) : (s.closeIfDue).lev = s.lev := by
  unfold State.closeIfDue; split <;> rfl
@[simp] theorem State.closeIfDue_hli (s : State) : (s.closeIfDue).hli = s.hli := by
  unfold State.closeIfDue; split <;> rfl

@[simp] theorem State.stopRun_pending (s : State) : (s.stopRun).pending = s.pending := by
  unfold State.stopRun; simp
@[simp] theorem State.stopRun_pin (s : State) : (s.stopRun).pin = s.pin := by
  unfold State.stopRun; simp
@[simp] theorem State.stopRun_hlc (s : State) : (s.stopRun).hlc = s.hlc := by
  unfold State.stopRun; simp
@[simp] theorem State.stopRun_mcv (s : State) : (s.stopRun).mcv = s.mcv := by
  unfold State.stopRun; simp
@[simp] theorem State.stopRun_pxu (s : State) : (s.stopRun).pxu = s.pxu := by
  unfold State.stopRun; simp
@[simp] theorem State.stopRun_wru (s : State) : (s.stopRun).wru = s.wru := by
  unfold State.stopRun; simp
@[simp] theorem State.stopRun_scu (s : State) : (s.stopRun).scu = s.scu := by
  unfold State.stopRun; simp
@[simp] theorem State.stopRun_spu (s : State) : (s.stopRun).spu = s.spu := by
  unfold State.stopRun; simp
@[simp] theorem State.stopRun_lev (s : State) : (s.stopRun).lev = s.lev := by
  unfold State.stopRun; simp
@[simp] theorem State.stopRun_hli (s : State) : (s.stopRun).hli = s.hli := by
  unfold State.stopRun; simp

/-! ## What each row offers to the host line -/

theorem State.motionEnd_events (s : State) (codes : Vector Nat 4) : s.hli.Events (s.motionEnd codes).hli := by
  unfold State.motionEnd
  split
  · exact .refl _
  · refine ⟨(heads4.filter fun k => ((judgeAll s.mcv.channels codes)[k]).failed).map fun k => .motionChannelFailed k, ?_⟩
    simp [failures, Function.comp_def]

theorem State.trackNext_events (s : State) : s.hli.Events s.trackNext.hli := by
  unfold State.trackNext
  split
  · exact .refl _
  · exact Hli.Events.many _ _

theorem State.offerSet_hli (s : State) :
    ∃ rs, s.offerSet.hli = s.hli.offerAll rs ∧ (∀ r ∈ rs, ∃ t set, r = .trace t ∧ s.wru.valuing = some set ∧
      t.samples = (s.wru.value set).samples) := by
  unfold State.offerSet
  split
  · rename_i set hv
    refine ⟨_, rfl, ?_⟩
    intro r hr
    unfold traceOf at hr
    split at hr
    · rw [List.mem_singleton] at hr
      exact ⟨_, set, hr, hv, rfl⟩
    · cases hr
  · exact ⟨[], rfl, by simp⟩

theorem State.endRun_events (s : State) : s.hli.Events s.endRun.hli := by
  unfold State.endRun; exact .one _ _

theorem State.setTaken_events (s : State) (o : Offered) : s.hli.Events (s.setTaken o).hli := by
  unfold State.setTaken
  split
  · dsimp only
    split
    · exact State.endRun_events _
    · exact .refl _
  · exact .refl _

theorem State.spanTake_hli (s : State) : ∃ rs, s.spanTake.hli = s.hli.offerAll rs := by
  unfold State.spanTake
  split
  · split
    · exact ⟨[], rfl⟩
    · rename_i o _ _
      obtain ⟨es, he⟩ := State.setTaken_events (s.spanWork o.set) { o with spanTaken := true }
      have : ∃ rs, (s.spanWork o.set).hli = s.hli.offerAll rs := by
        unfold State.spanWork
        split
        · exact ⟨[], rfl⟩
        · split <;> exact ⟨_, rfl⟩
      obtain ⟨rs, hr⟩ := this
      exact ⟨rs ++ es.map .event, by rw [he, hr, Hli.offerAll_append]⟩
  · exact ⟨[], rfl⟩

theorem State.limitTake_hli (s : State) : ∃ rs, s.limitTake.hli = s.hli.offerAll rs := by
  unfold State.limitTake
  split
  · split
    · exact ⟨[], rfl⟩
    · rename_i o _ _
      obtain ⟨es, he⟩ := State.setTaken_events (s.limitWork o) { o with limitTaken := true }
      have : (s.limitWork o).hli = s.hli.offerAll (s.lev.work s.hli.gates o.set).records := rfl
      exact ⟨_ ++ es.map .event, by rw [he, this, Hli.offerAll_append]⟩
  · exact ⟨[], rfl⟩

end Sys2Proof.Machine
end

