-- ==== Sys2Proof/Laws/Tracks.lean ====
section
/-! SUPPORT. The track table: what a move, a birth and the giving of roles do to the tracks that slots hold, and that a
new id is one no slot holds. -/

namespace Sys2Proof.Machine

/-! ## Vectors of eight -/

theorem map8_get {α β : Type} (f : Fin 8 → α → β) (v : Vector α 8) (k : Fin 8) : (map8 f v)[k] = f k v[k] := by
  fin_cases k <;> rfl

theorem mem_slots8 (k : Fin 8) : k ∈ slots8 := by revert k; decide

theorem set_get {α : Type} (v : Vector α 8) (j k : Fin 8) (a : α) : (v.set j a)[k] = if k = j then a else v[k] := by
  split
  · rename_i e; subst e; simp
  · rename_i e
    simp only [Fin.getElem_fin]
    rw [Vector.getElem_set_ne]
    intro h; exact e (Fin.ext h.symm)

/-! ## Moves -/

@[simp] theorem Seen.look_id (t : Seen) (g : Option Group) : (t.look g).id = t.id := by cases g <;> rfl

/-- A slot that holds a track after its move held that track before it. -/
theorem moveSlot_id {set : TrackerSettings} {k : Fin 8} {g : Option Group} {s : Slot} {t : Seen}
    (h : (moveSlot set k g s).1.track? = some t) : ∃ u, s.track? = some u ∧ u.id = t.id := by
  unfold moveSlot at h
  split at h
  · cases h
  · split at h <;> cases h <;> exact ⟨_, rfl, (Seen.look_id _ _).symm⟩
  · cases h
  · cases h; exact ⟨_, rfl, (Seen.look_id _ _).symm⟩
  · split at h <;> cases h; exact ⟨_, rfl, (Seen.look_id _ _).symm⟩
  · cases h; exact ⟨_, rfl, (Seen.look_id _ _).symm⟩
  · split at h <;> cases h; exact ⟨_, rfl, (Seen.look_id _ _).symm⟩

theorem moveAll_get (set : TrackerSettings) (pairs : List (Group × Option (Fin 8))) (table : Vector Slot 8) (k : Fin 8) :
    (moveAll set pairs table).1[k] = (moveSlot set k (candidateAt pairs k) table[k]).1 := by
  unfold moveAll
  dsimp only
  rw [map8_get, map8_get]

/-! ## Roles -/

theorem giveRoles_get (set : TrackerSettings) (pairs : List (Group × Option (Fin 8))) (table : Vector Slot 8)
    (k : Fin 8) :
    (giveRoles set pairs table)[k] = table[k] ∨
      ∃ t r r', table[k] = .confirmed t r ∧ (giveRoles set pairs table)[k] = .confirmed t r' := by
  unfold giveRoles
  split
  · exact .inl rfl
  · rw [map8_get]
    split
    · rename_i t r g h _; exact .inr ⟨t, r, _, h, rfl⟩
    · exact .inl rfl

theorem giveRoles_track (set : TrackerSettings) (pairs : List (Group × Option (Fin 8))) (table : Vector Slot 8)
    (k : Fin 8) : ((giveRoles set pairs table)[k]).track? = (table[k]).track? := by
  rcases giveRoles_get set pairs table k with h | ⟨t, r, r', h1, h2⟩
  · rw [h]
  · rw [h1, h2]; rfl

theorem giveRoles_established (set : TrackerSettings) (pairs : List (Group × Option (Fin 8))) (table : Vector Slot 8)
    (k : Fin 8) : ((giveRoles set pairs table)[k]).established = (table[k]).established := by
  rcases giveRoles_get set pairs table k with h | ⟨t, r, r', h1, h2⟩
  · rw [h]
  · rw [h1, h2]; rfl

/-! ## New ids (R86) -/

/-- The value `n` places after `v` in the cycle of the ids. -/
theorem nextTrackId_range {v : Nat} (h : 1 ≤ v ∧ v ≤ 65535) : 1 ≤ nextTrackId v ∧ nextTrackId v ≤ 65535 := by
  unfold nextTrackId; split <;> omega

theorem freeTrackId_range (held : List Nat) (n v : Nat) (h : 1 ≤ v ∧ v ≤ 65535) :
    1 ≤ freeTrackId held n v ∧ freeTrackId held n v ≤ 65535 := by
  induction n generalizing v with
  | zero => exact h
  | succ n ih =>
    unfold freeTrackId
    split
    · exact ih _ (nextTrackId_range h)
    · exact h

/-- The cycle from `v`: values counted on from `v` and wrapped. -/
theorem nextTrackId_eq {v : Nat} (h : 1 ≤ v ∧ v ≤ 65535) : nextTrackId v = v % 65535 + 1 := by
  unfold nextTrackId; split <;> omega

/-- With fewer ids held than tries, the search ends on a free one. -/
theorem freeTrackId_free (held : List Nat) (n v : Nat) (h : 1 ≤ v ∧ v ≤ 65535) (hn : n ≤ 8)
    (hl : (held.filter fun x => decide (∃ i, i < n ∧ x = (v - 1 + i) % 65535 + 1)).length < n) :
    freeTrackId held n v ∉ held := by
  induction n generalizing v with
  | zero => omega
  | succ n ih =>
    unfold freeTrackId
    split
    · rename_i hc
      apply ih _ (nextTrackId_range h) (by omega)
      have hv : v ∈ held := by simpa using hc
      have e : (nextTrackId v - 1) = v % 65535 := by rw [nextTrackId_eq h]; rfl
      have sub : ∀ x, (∃ i, i < n ∧ x = (nextTrackId v - 1 + i) % 65535 + 1) →
          (∃ i, i < n + 1 ∧ x = (v - 1 + i) % 65535 + 1) ∧ x ≠ v := by
        rintro x ⟨i, hi, rfl⟩
        rw [e]
        exact ⟨⟨i + 1, by omega, by omega⟩, by omega⟩
      have hlt : (held.filter fun x => decide (∃ i, i < n ∧ x = (nextTrackId v - 1 + i) % 65535 + 1)).length <
          (held.filter fun x => decide (∃ i, i < n + 1 ∧ x = (v - 1 + i) % 65535 + 1)).length := by
        have hs : (held.filter fun x => decide (∃ i, i < n ∧ x = (nextTrackId v - 1 + i) % 65535 + 1)) =
            (held.filter fun x => decide (∃ i, i < n + 1 ∧ x = (v - 1 + i) % 65535 + 1)).filter
              fun x => decide (∃ i, i < n ∧ x = (nextTrackId v - 1 + i) % 65535 + 1) := by
          rw [List.filter_filter]
          apply List.filter_congr
          intro x _
          by_cases hx : ∃ i, i < n ∧ x = (nextTrackId v - 1 + i) % 65535 + 1
          · simp only [hx, (sub x hx).1, decide_true, Bool.and_true]
          · simp [hx]
        rw [hs]
        apply List.length_filter_lt_length_iff_exists.mpr
        refine ⟨v, List.mem_filter.mpr ⟨hv, ?_⟩, ?_⟩
        · simp only [decide_eq_true_eq]
          exact ⟨0, by omega, by omega⟩
        · simp only [decide_eq_true_eq]
          intro hx
          exact (sub v hx).2 rfl
      omega
    · rename_i hc; simpa using hc

theorem heldIds_length {table : Vector Slot 8} {k : Fin 8} (h : (table[k]).track? = none) :
    (heldIds table).length ≤ 7 := by
  unfold heldIds
  rw [List.length_filterMap_eq_countP]
  have h1 : (slots8.countP fun j => ((table[j]).track?.map (·.id)).isSome) +
      (slots8.countP fun j => !((table[j]).track?.map (·.id)).isSome) = slots8.length := by
    rw [List.countP_eq_length_filter, List.countP_eq_length_filter]
    have := List.length_eq_length_filter_add (l := slots8) fun j => ((table[j]).track?.map (·.id)).isSome
    omega
  have h2 : 0 < slots8.countP fun j => !((table[j]).track?.map (·.id)).isSome := by
    rw [List.countP_pos_iff]
    exact ⟨k, mem_slots8 k, by rw [h]; rfl⟩
  have h3 : slots8.length = 8 := rfl
  omega

theorem mem_heldIds {table : Vector Slot 8} {k : Fin 8} {t : Seen} (h : (table[k]).track? = some t) :
    t.id ∈ heldIds table := by
  unfold heldIds
  exact List.mem_filterMap.mpr ⟨k, mem_slots8 k, by rw [h]; rfl⟩

/-- The id given to a track that is born into an EMPTY slot is one that no slot holds. -/
theorem freeTrackId_new {table : Vector Slot 8} {k : Fin 8} (hk : (table[k]).track? = none) {v : Nat}
    (hv : 1 ≤ v ∧ v ≤ 65535) {j : Fin 8} {t : Seen} (hj : (table[j]).track? = some t) :
    t.id ≠ freeTrackId (heldIds table) 8 v := by
  intro e
  have := freeTrackId_free (heldIds table) 8 v hv le_rfl
    (lt_of_le_of_lt (List.length_filter_le _ _) (by have := heldIds_length hk; omega))
  exact this (e ▸ mem_heldIds hj)

end Sys2Proof.Machine
end

