-- ==== Sys2Proof/Laws/Layout.lean ====
section
/-! SUPPORT. The lengths of the entries of the reading commands' data, and how a fixed place is read out of a joined
list. -/

namespace Sys2Proof.Machine

theorem take_of_length {α : Type} {l : List α} {n : Nat} (m : List α) (h : l.length = n) : (l ++ m).take n = l := by
  simp [← h]

theorem drop_of_length {α : Type} {l : List α} {n : Nat} (m : List α) (h : l.length = n) : (l ++ m).drop n = m := by
  simp [← h]

@[simp] theorem Seen.bytes_length (t : Seen) : t.bytes.length = 13 := by
  simp only [Seen.bytes, List.length_append, List.length_cons, List.length_nil, fieldU_length, fieldS_length]

@[simp] theorem Slot.bytes_length (s : Slot) : s.bytes.length = 17 := by
  cases s <;> simp only [Slot.bytes, List.length_append, List.length_cons, List.length_nil, fieldU_length,
    beBytes_length, Seen.bytes_length]

@[simp] theorem CountWatch.bytes_length (w : CountWatch) : w.bytes.length = 5 := by
  cases w <;> simp only [CountWatch.bytes, List.length_cons, fieldS_length]

@[simp] theorem Head.status_length (x : Head) : x.status.length = 10 := by
  simp only [Head.status, List.length_append, List.length_cons, List.length_nil, fieldU_length]

@[simp] theorem State.runCounters_bytes_length (s : State) :
    (s.runCounters.flatMap fun (n : Nat) => fieldU 2 n).length = 28 := by
  simp only [State.runCounters, List.flatMap_cons, List.flatMap_nil, List.length_append, List.length_nil,
    fieldU_length]

end Sys2Proof.Machine
end

