-- ==== Sys2Proof/Laws/Receiver.lean ====
section
/-! SUPPORT. The receiver of the host line and the head links: its result does not depend on its fuel, nor on how the
bytes are cut into pieces, and it reads a written frame back. -/

namespace Sys2Proof.Machine

variable {limit lead : Nat}

/-! ## One byte of the hunt -/

theorem hunt_skip (n : Nat) {b : Byte} (rest : List Byte) (h : b ≠ 0xA5#8) :
    hunt limit lead (n + 1) (b :: rest) = hunt limit lead n rest := by
  cases rest with
  | nil => simp [hunt, h]
  | cons c rest =>
    cases rest with
    | nil => simp [hunt, h]
    | cons d rest => rw [hunt, if_neg h]

theorem hunt_long (n : Nat) (hi lo : Byte) (more : List Byte) (h : limit < beNat [hi, lo]) :
    hunt limit lead (n + 1) (0xA5#8 :: hi :: lo :: more) =
      (none :: (hunt limit lead n (hi :: lo :: more)).1, (hunt limit lead n (hi :: lo :: more)).2) := by
  rw [hunt, if_pos rfl]
  dsimp only
  rw [if_pos h]

theorem hunt_short (n : Nat) (hi lo : Byte) (more : List Byte) (h : ¬ limit < beNat [hi, lo])
    (hs : more.length < lead + beNat [hi, lo] + 2) :
    hunt limit lead (n + 1) (0xA5#8 :: hi :: lo :: more) = ([], 0xA5#8 :: hi :: lo :: more) := by
  rw [hunt, if_pos rfl]
  dsimp only
  rw [if_neg h, if_pos hs]

theorem hunt_good (n : Nat) (hi lo : Byte) (more : List Byte) (h : ¬ limit < beNat [hi, lo])
    (hs : ¬ more.length < lead + beNat [hi, lo] + 2)
    (hc : checkBytes (hi :: lo :: more.take (lead + beNat [hi, lo])) = (more.drop (lead + beNat [hi, lo])).take 2) :
    hunt limit lead (n + 1) (0xA5#8 :: hi :: lo :: more) =
      (some (more.take (lead + beNat [hi, lo])) :: (hunt limit lead n (more.drop (lead + beNat [hi, lo] + 2))).1,
       (hunt limit lead n (more.drop (lead + beNat [hi, lo] + 2))).2) := by
  rw [hunt, if_pos rfl]
  dsimp only
  rw [if_neg h, if_neg hs, if_pos hc]

theorem hunt_bad (n : Nat) (hi lo : Byte) (more : List Byte) (h : ¬ limit < beNat [hi, lo])
    (hs : ¬ more.length < lead + beNat [hi, lo] + 2)
    (hc : checkBytes (hi :: lo :: more.take (lead + beNat [hi, lo])) ≠ (more.drop (lead + beNat [hi, lo])).take 2) :
    hunt limit lead (n + 1) (0xA5#8 :: hi :: lo :: more) =
      (none :: (hunt limit lead n (hi :: lo :: more)).1, (hunt limit lead n (hi :: lo :: more)).2) := by
  rw [hunt, if_pos rfl]
  dsimp only
  rw [if_neg h, if_neg hs, if_neg hc]

/-- Fuel beyond the bytes at hand changes nothing. -/
theorem hunt_fuel (n : Nat) (buf : List Byte) (h : buf.length ≤ n) :
    hunt limit lead n buf = hunt limit lead buf.length buf := by
  induction n using Nat.strong_induction_on generalizing buf with
  | _ n ih =>
    match buf, h with
    | [], _ => cases n <;> rfl
    | b :: rest, h =>
      obtain ⟨m, rfl⟩ : ∃ m, n = m + 1 := ⟨n - 1, by simp at h; omega⟩
      have hr : rest.length ≤ m := by simpa using h
      have same : hunt limit lead m rest = hunt limit lead rest.length rest := ih m (by omega) rest hr
      have tail : ∀ c : List Byte, c.length ≤ rest.length →
          hunt limit lead m c = hunt limit lead rest.length c := by
        intro c hc
        rw [ih m (by omega) c (by omega)]
        rcases Nat.lt_or_ge rest.length (m + 1) with hlt | hge
        · exact (ih _ hlt _ hc).symm
        · omega
      simp only [List.length_cons]
      by_cases hb : b = 0xA5#8
      · subst hb
        match rest, hr, same, tail with
        | [], _, _, _ => cases m <;> rfl
        | [y], _, _, _ => cases m <;> rfl
        | hi :: lo :: more, hr, same, tail =>
          by_cases h1 : limit < beNat [hi, lo]
          · rw [hunt_long _ _ _ _ h1, hunt_long _ _ _ _ h1, same]
          · by_cases h2 : more.length < lead + beNat [hi, lo] + 2
            · rw [hunt_short _ _ _ _ h1 h2, hunt_short _ _ _ _ h1 h2]
            · by_cases h3 : checkBytes (hi :: lo :: more.take (lead + beNat [hi, lo])) =
                  (more.drop (lead + beNat [hi, lo])).take 2
              · rw [hunt_good _ _ _ _ h1 h2 h3, hunt_good _ _ _ _ h1 h2 h3, tail _ (by simp; omega)]
              · rw [hunt_bad _ _ _ _ h1 h2 h3, hunt_bad _ _ _ _ h1 h2 h3, same]
      · rw [hunt_skip _ _ hb, hunt_skip _ _ hb, same]

/-- The receiver with all the fuel its bytes need. -/
theorem hunt_append (a b : List Byte) :
    hunt limit lead (a ++ b).length (a ++ b) =
      ((hunt limit lead a.length a).1 ++
        (hunt limit lead ((hunt limit lead a.length a).2 ++ b).length ((hunt limit lead a.length a).2 ++ b)).1,
       (hunt limit lead ((hunt limit lead a.length a).2 ++ b).length ((hunt limit lead a.length a).2 ++ b)).2) := by
  induction h : a.length using Nat.strong_induction_on generalizing a with
  | _ n ih =>
    subst h
    cases a with
    | nil => rfl
    | cons x rest =>
      have again : ∀ c : List Byte, c.length ≤ rest.length →
          hunt limit lead (rest ++ b).length (c ++ b) =
            ((hunt limit lead rest.length c).1 ++
              (hunt limit lead ((hunt limit lead rest.length c).2 ++ b).length
                ((hunt limit lead rest.length c).2 ++ b)).1,
             (hunt limit lead ((hunt limit lead rest.length c).2 ++ b).length
                ((hunt limit lead rest.length c).2 ++ b)).2) := by
        intro c hc
        rw [hunt_fuel rest.length c hc, hunt_fuel (rest ++ b).length (c ++ b) (by simp; omega)]
        exact ih c.length (by simp; omega) c rfl
      simp only [List.cons_append, List.length_cons]
      by_cases hx : x = 0xA5#8
      · subst hx
        match rest, again with
        | [], _ => rfl
        | [y], _ => rfl
        | hi :: lo :: more, again =>
          simp only [List.cons_append] at again ⊢
          by_cases h1 : limit < beNat [hi, lo]
          · rw [hunt_long _ _ _ _ h1, hunt_long _ _ _ _ h1]
            have := again (hi :: lo :: more) le_rfl
            simp only [List.cons_append] at this
            rw [this]
            rfl
          · by_cases h2 : more.length < lead + beNat [hi, lo] + 2
            · rw [hunt_short _ _ _ _ h1 h2]
              rfl
            · have h3 : ¬ (more ++ b).length < lead + beNat [hi, lo] + 2 := by simp; omega
              have t1 : (more ++ b).take (lead + beNat [hi, lo]) = more.take (lead + beNat [hi, lo]) :=
                List.take_append_of_le_length (by omega)
              have t2 : ((more ++ b).drop (lead + beNat [hi, lo])).take 2 =
                  (more.drop (lead + beNat [hi, lo])).take 2 := by
                rw [List.drop_append_of_le_length (by omega), List.take_append_of_le_length (by simp; omega)]
              have t3 : (more ++ b).drop (lead + beNat [hi, lo] + 2) = more.drop (lead + beNat [hi, lo] + 2) ++ b :=
                List.drop_append_of_le_length (by omega)
              by_cases h4 : checkBytes (hi :: lo :: more.take (lead + beNat [hi, lo])) =
                  (more.drop (lead + beNat [hi, lo])).take 2
              · rw [hunt_good _ _ _ _ h1 h2 h4, hunt_good _ _ _ _ h1 h3 (by rw [t1, t2]; exact h4), t1, t3,
                  again _ (by simp; omega)]
                rfl
              · rw [hunt_bad _ _ _ _ h1 h2 h4, hunt_bad _ _ _ _ h1 h3 (by rw [t1, t2]; exact h4)]
                have := again (hi :: lo :: more) le_rfl
                simp only [List.cons_append] at this
                rw [this]
                rfl
      · rw [hunt_skip _ _ hx, hunt_skip _ _ hx]
        exact again rest le_rfl

/-! ## Whole frames and pieces -/

theorem beBytes_two (v : Nat) : beBytes 2 v = [BitVec.ofNat 8 (v / 256), BitVec.ofNat 8 v] := by
  simp [beBytes]

theorem checkBytes_length (bytes : List Byte) : (checkBytes bytes).length = 2 := by
  simp [checkBytes]

/-- A written frame is found, whole and alone. -/
theorem hunt_frame (first body : List Byte) (hl : first.length = lead) (hb : body.length ≤ limit)
    (hs : body.length < 65536) :
    hunt limit lead (frameBytes first body).length (frameBytes first body) = ([some (first ++ body)], []) := by
  have hn : beNat [BitVec.ofNat 8 (body.length / 256), BitVec.ofNat 8 body.length] = body.length := by
    rw [← beBytes_two]; exact beNat_beBytes 2 _ (by omega)
  obtain ⟨c1, c0, hc⟩ : ∃ c1 c0, checkBytes (beBytes 2 body.length ++ first ++ body) = [c1, c0] := by
    rw [checkBytes, beBytes_two]; exact ⟨_, _, rfl⟩
  have e1 : (first ++ (body ++ [c1, c0])).take (lead + body.length) = first ++ body := by
    rw [← List.append_assoc]; exact List.take_left' (by simp [hl])
  have e2 : (first ++ (body ++ [c1, c0])).drop (lead + body.length) = [c1, c0] := by
    rw [← List.append_assoc]; exact List.drop_left' (by simp [hl])
  have e3 : (first ++ (body ++ [c1, c0])).drop (lead + body.length + 2) = [] := by
    apply List.drop_eq_nil_of_le; simp [hl]; omega
  have hl' : ¬ (first ++ (body ++ [c1, c0])).length < lead + body.length + 2 := by simp [hl]; omega
  have e4 : checkBytes (BitVec.ofNat 8 (body.length / 256) :: BitVec.ofNat 8 body.length :: (first ++ body)) =
      [c1, c0] := by simpa only [beBytes_two, List.cons_append, List.nil_append] using hc
  have e : frameBytes first body =
      0xA5#8 :: BitVec.ofNat 8 (body.length / 256) :: BitVec.ofNat 8 body.length :: (first ++ (body ++ [c1, c0])) := by
    simp [frameBytes, beBytes_two, e4]
  rw [e, List.length_cons, hunt_good _ _ _ _ (by rw [hn]; omega) (by rw [hn]; exact hl') (by rw [hn, e1, e2]; exact e4),
    hn, e1, e3]
  rfl

/-- A receiver's result is that of its bytes taken as one buffer. -/
theorem hostReceive_eq (held a b : List Byte) :
    hostReceive held (a ++ b) =
      ((hostReceive held a).1 ++ (hostReceive (hostReceive held a).2 b).1, (hostReceive (hostReceive held a).2 b).2) := by
  unfold hostReceive
  rw [← List.append_assoc]
  simp only [hunt_append (limit := Config.hostBodyLimit) (lead := 2) (held ++ a) b, List.map_append]

theorem headReceive_eq (held a b : List Byte) :
    headReceive held (a ++ b) =
      ((headReceive held a).1 ++ (headReceive (headReceive held a).2 b).1, (headReceive (headReceive held a).2 b).2) := by
  unfold headReceive
  rw [← List.append_assoc]
  simp only [hunt_append (limit := Config.headBodyLimit) (lead := 1) (held ++ a) b, List.map_append]

end Sys2Proof.Machine
end

