-- ==== Sys2Proof/WellFormed.lean ====
section
/-! DEFINITION. When the bytes a row carries are the whole frame the row names, as a receiver that was hunting takes
them. The meanings do not need this: they follow the bytes, whatever these are (R33, R169). -/

namespace Sys2Proof

open Machine

/-- The bytes are one frame on the host line, whole: a good one, or a bad one up to where it is found bad (R169). -/
def wholeHostFrame (bytes : List Byte) : Bool :=
  match bytes with
  | 0xA5#8 :: hi :: lo :: more =>
    if Config.hostBodyLimit < beNat [hi, lo] then more.isEmpty else more.length == beNat [hi, lo] + 4
  | _ => false

/-- The bytes are one bad frame on a head link: too long, found at its length, or failing its check (R33). -/
def wholeBadFrame (bytes : List Byte) : Bool :=
  match bytes with
  | 0xA5#8 :: hi :: lo :: more =>
    if Config.headBodyLimit < beNat [hi, lo] then more.isEmpty
    else more.length == beNat [hi, lo] + 3 && (headReceive [] bytes).1.head? == some .bad
  | _ => false

/-- The command's operands are what its row says they are. -/
def Instr.wellFormed : Instr → Bool
  | .hostFrame bytes => wholeHostFrame bytes
  | .ready _ bytes =>
    match headReceive [] bytes with
    | ([.ready _], []) => true
    | _ => false
  | .profile _ bytes =>
    match headReceive [] bytes with
    | ([.profile _ _ _], []) => true
    | _ => false
  | .headUnusableFrame _ bytes => headReceive [] bytes == ([.unusable], [])
  | .headBadFrame _ bytes => wholeBadFrame bytes
  | .getStatus => true
  | .getTracks => true
  | .setHead => true
  | .headInit => true
  | .headRestore => true
  | .headIsolate => true
  | .headDisable => true
  | .testSourceOn => true
  | .testSourceOff => true
  | .setTestProfile => true
  | .setMotion => true
  | .setExtract => true
  | .setTracker => true
  | .setWearTable => true
  | .setDefaultSection => true
  | .clearRoute => true
  | .appendSection => true
  | .setRule => true
  | .setPolicy => true
  | .setTrigger => true
  | .setReporting => true
  | .startRun => true
  | .stopRun => true
  | .scanOnce => true
  | .positionFix => true
  | .restart => true
  | .unknownCommand => true
  | .transmissionEnd => true
  | .powerOnResetAssert => true
  | .powerOnResetRelease => true
  | .odometerPulse _ => true
  | .mastPulse => true
  | .timeTriggerDue => true
  | .clearingTimerExpiry _ => true
  | .responseWindowExpiry _ => true
  | .motionSequenceEnd _ _ _ _ => true
  | .scanExtraction => true
  | .candidateListHandover => true
  | .trackScan => true
  | .setValuing => true
  | .setOffer => true
  | .spanSetTake => true
  | .limitSetTake => true
  | .closingWork => true

end Sys2Proof
end

