-- ==== Sys2Proof/Tests/Slice0.lean ====
section
/-! SUPPORT. Tests of the model: the smoke test of WellFormed, values that the manual's worked cases give, and, for each
statement with hypotheses, a theorem `witness_…` that shows a state and operands that meet them, clause by clause. -/

namespace Sys2Proof.Tests

open Sys2Proof Sys2Proof.Machine

/-! ## States and frames the tests stand on -/

/-- The state after reset. -/
def base : State := State.reset

/-- A host frame with tag 9. -/
def frame (k : Byte) (body : List Byte) : HostFrame := { kind := k, tag := 9, body }

/-- `s` with one frame waiting and the reply slot EMPTY. -/
def waiting (k : Byte) (body : List Byte) (s : State) : State :=
  { s with hli := { s.hli with inbound := [frame k body], slot := none } }

theorem waiting_holds (k : Byte) (body : List Byte) (s : State) (h : s.pin = false) :
    (waiting k body s).holds (frame k body) [] := ⟨h, rfl, rfl⟩

/-- The frame of fields waits in `s`, and its fields fit their bytes. -/
def carries (s : State) (k : Byte) (fields : List (Nat × Nat)) : Prop :=
  (waiting k (bodyOf fields) s).holds (frame k (bodyOf fields)) [] ∧ (frame k (bodyOf fields)).kind = k ∧ fits fields

theorem carries_of (s : State) (k : Byte) (fields : List (Nat × Nat)) (h : s.pin = false)
    (hf : ∀ a ∈ fields, a.2 < 256 ^ a.1) : carries s k fields := ⟨waiting_holds _ _ _ h, rfl, hf⟩

/-- The part in `mode`. -/
def inMode (m : Mode) : State := { base with mode := m }

/-- Head 0 in the given state. -/
def headIn (x : HeadState) (s : State) : State := s.setHead 0 { s.head 0 with state := x }

def header (n : Nat) : Header := { scan := n, stamp := 0, chainage := 0, gap := 0, fix := none, mast := none }

def still : MotionSample := { roll := 0, rise := 0, flags := { rollLost := false, riseLost := false, held := false } }

/-- Scan 1 at a stage, with head 0's answer. -/
def scanOne (stage : ScanStage) (a : Answer) : ScanRecord :=
  { header := header 1, snapshot := Design.powerOn, motion := some still,
    answers := #v[a, .notAsked, .notAsked, .notAsked], stage }

/-- RUNNING, head 0 ACTIVE with an open answer in scan 1. -/
def live : State :=
  let s := headIn .active (inMode .running)
  { s with hlc := { s.hlc with scans := [scanOne .gathering (.open 400)] } }

/-- `live` with the bank pair of scan 1 FILLING: the closing of head 0's answer completes the scan. -/
def assembling : State := { live with hlc := { live.hlc with pairs := setOwner live.hlc.pairs 1 .filling } }

/-- The same with the motion sample of scan 1 still under way: the closing does not complete the scan. -/
def converting : State :=
  { assembling with
    hlc := { assembling.hlc with scans := [{ scanOne .gathering (.open 400) with motion := none }] }
    mcv := { assembling.mcv with sequences := [1] } }

theorem assembling_owned : assembling.banksOwned := by
  unfold State.banksOwned
  refine ⟨by decide, by decide, by decide, by decide, by decide, by decide, by decide, by decide, by decide, by decide,
    by decide⟩

theorem converting_owned : converting.banksOwned := by
  unfold State.banksOwned
  refine ⟨by decide, by decide, by decide, by decide, by decide, by decide, by decide, by decide, by decide, by decide,
    by decide⟩

def noFlags : MotionFlags := still.flags

def group : Group := { x := 0, z := 53000, face := some 50, merged := false }

def handed : HandedScan :=
  { header := header 1, snapshot := Design.powerOn, flags := noFlags, blind := false, groups := [group] }

def sample : Sample :=
  { id := 1, slot := 0, role := .running, x := 0, z := 53000, face := some 50, thickness := none, wear := none,
    merged := false, flags := noFlags, belowTable := false, beyondTable := false }

def scanSet : SampleSet :=
  { header := header 1, snapshot := Design.powerOn, blind := false, runEnd := false, notices := [], samples := [sample] }

def endSet : SampleSet := { scanSet with runEnd := true, samples := [] }

/-- The set is offered, taken or not by each consumer, with span 1 open. -/
def offering (set : SampleSet) (spanTaken limitTaken : Bool) : State :=
  { inMode .stopping with
    closing := set.runEnd
    wru := { base.wru with offered := some { set, spanTaken, limitTaken } }
    spu := { base.spu with span := some (OpenSpan.fresh 1 none 0) } }

/-- The table of section 7.9, wire type 2. -/
def tableTwo : WearTable := { nominal := 132, points := [(0, 132), (60, 125), (80, 119), (100, 109), (120, 94)] }

def seen : Seen := { id := 1, x := 0, z := 53000, face := none, age := 1 }

/-- A tracker with one CONFIRMED track, in slot 0. -/
def tracking : Wtr := { base.wtr with table := base.wtr.table.set 0 (.confirmed seen .running), nextId := 2 }

def section31 : RouteSection := { start := 1000, stop := 2000, design := { Design.powerOn with id := 31 } }

/-- An accumulator of track 1 with `n` samples. -/
def folded (n : Nat) : Accumulator := { Accumulator.first sample 0 with samples := n }

def exceedance : Exceedance :=
  { id := 1, ref := 0, quantity := .stagger, severity := .urgent, report := true, sectionId := 0, start := 0, last := 0,
    worst := 4001, worstAt := 0, role := .running, count := 1 }

/-! ## WellFormed: each check refuses an ill-formed term, and takes a well-formed one -/

theorem test_wf_host_frame_short : Instr.wellFormed (.hostFrame [0xA5, 0, 1, 0x01, 9, 0, 0]) = false := by decide

theorem test_wf_host_frame_no_start : Instr.wellFormed (.hostFrame [0xA4, 0, 0, 0x01, 9, 0, 0]) = false := by decide

theorem test_wf_host_frame_long : Instr.wellFormed (.hostFrame [0xA5, 1, 0xFB, 0]) = false := by decide

theorem test_wf_host_frame_ok : Instr.wellFormed (.hostFrame (frame 0x01 []).bytes) = true := by decide +kernel

theorem test_wf_ready_refused : Instr.wellFormed (.ready 0 (profileBytes 1 0 [])) = false := by decide +kernel

theorem test_wf_profile_refused : Instr.wellFormed (.profile 0 (readyBytes 0)) = false := by decide +kernel

theorem test_wf_unusable_refused : Instr.wellFormed (.headUnusableFrame 0 (readyBytes 0)) = false := by decide +kernel

theorem test_wf_unusable_ok : Instr.wellFormed (.headUnusableFrame 0 (headFrameBytes 0x81 [])) = true := by
  decide +kernel

theorem test_wf_bad_refused : Instr.wellFormed (.headBadFrame 0 (readyBytes 0)) = false := by decide +kernel

theorem test_wf_bad_ok : Instr.wellFormed (.headBadFrame 0 [0xA5, 0, 1, 0x81, 0, 0, 0]) = true := by decide +kernel

theorem test_no_row_gives_bits (n w : Nat) : decodeTableWord n w = none := rfl

/-! ## Values of the manual's worked cases -/

/-- The check of the nine ASCII digits 1 to 9 under this generator, preset and order, as the cyclic check with the
generator of R1 is published. -/
theorem test_frame_check : frameCheck [0x31, 0x32, 0x33, 0x34, 0x35, 0x36, 0x37, 0x38, 0x39] = 0x29B1 := by
  decide +kernel

/-- R1, Rounding. -/
theorem test_halves_away_from_zero : roundDiv 207 2 = 104 ∧ roundDiv (-7) 2 = -4 := by decide

/-- Section 1.5: head 2's point, with both leading ends. -/
theorem test_worked_point :
    let cal : Calibration := { offset := 1500, height := 40000, mirrored := true, pitch := 10, floor := 20, wear := true }
    let m : MotionSample := { still with roll := 157, rise := 8 }
    trackFrame cal m 12000 .end1 ⟨2350, 15210, 231⟩ = (-954, 55216) ∧
      trackFrame cal m 12000 .end2 ⟨2350, 15210, 231⟩ = (954, 55216) := by decide

/-- Section 4.7, scans 100 and 108: roll and rise from the side sums. -/
theorem test_worked_motion :
    motionSample 20000 (some 64) (some (-32)) false = { still with roll := 157, rise := 8 } ∧
      motionSample 20000 (some 64) (some (-30)) false = { still with roll := 154, rise := 9 } := by decide

/-- R59: the table of codes. -/
theorem test_displacements :
    [2120, 2049, 2047, 2008].map (displacement Channel.powerOn.config) = [36, 1, -1, -20] := by decide

/-- Section 2.11: the trigger positions and the first chainage. -/
theorem test_trigger_positions :
    [1, 2, 3, 4, 5].map (fun k => ceilDiv (k * 50 * 2048) 1000) = [103, 205, 308, 410, 512] ∧
      { base.tu with base := 1000000 }.chainageOf 103 = 1000050 := by decide

/-- Section 7.9: widths 70, 87, 120 and 131 under wire type 2. -/
theorem test_worked_thickness :
    [70, 87, 120, 131].map (fun w => (tableTwo.thickness w, tableTwo.wear (tableTwo.thickness w).1)) =
      [((122, false, false), 76), ((115, false, false), 129), ((94, false, false), 288), ((94, false, true), 288)] := by
  decide

/-- R180, R187: right after reset the line carries STARTED (POWER_ON). -/
theorem test_reset_frame : base = (State.powerOn.event (.started .powerOn)).kick := by decide

/-- R170, R171: a GET_TRACKS is answered on an IDLE line with its tag and 149 bytes of body. -/
theorem test_get_tracks_reply : ∃ t f, exec .getTracks { waiting 0x02 [] base with
      hli := { (waiting 0x02 [] base).hli with tx := none } } = .next t ∧ t.hli.tx = some f ∧ f.kind = 0x80 ∧ f.tag = 9 ∧
    f.body.take 2 = [0x02, 0] ∧ f.body.length = 149 := ⟨_, _, rfl, rfl, by decide +kernel⟩

/-! ## Witnesses: the hypotheses of the statements are met -/

theorem witness_StepRunsFrontCommand : ({ base with pending := [.mastPulse] } : State).pending = [.mastPulse] := rfl

theorem witness_IdleStepIsOneMicrosecond :
    base.pending = [] ∧ base.pin = false ∧ ({ base with pin := true } : State).pending = [] := ⟨rfl, rfl, rfl⟩

/-- Head 0's window and head 1's clearing timer run out in the step in which the trigger falls due. -/
theorem witness_IdleStepIsOneMicrosecond_expiry :
    let s : State := { live with
      tu := { live.tu with config := { live.tu.config with mode := .time }, nextDue := some 1000, stamp := 999 }
      hlc := { (live.setHead 1 { live.head 1 with state := .clearing, clearing := some 1 }).hlc with
        scans := [scanOne .gathering (.open 1)] } }
    s.pending = [] ∧ s.pin = false ∧ s.mode = .running ∧ s.tu.config.mode = .time ∧
    s.tu.nextDue = some (s.tu.stamp + 1) ∧ (s.openScan 0).map (·.answers[0]) = some (.open 1) ∧
    (s.head 1).clearing = some 1 := by decide

theorem witness_PowerOnResetStopsAndRestores : ({ base with pin := true } : State).pin = true ∧
    Instr.mastPulse ≠ .powerOnResetAssert ∧ Instr.mastPulse ≠ .powerOnResetRelease := by decide

theorem witness_HostFrameReceived : base.pin = false ∧ base.hli.rx = [] ∧
    (frame 0x01 (List.replicate 506 0)).body.length ≤ 506 ∧
    checkBytes (beBytes 2 ([] : List Byte).length ++ [0x01, 9] ++ []) ≠ [0, 0] ∧ 506 < beNat [1, 0xFB] ∧
    (0 : Byte) ≠ 0xA5 := by decide +kernel

theorem witness_ReceiversReadWhatSendersWrite :
    let ps : List Point := [⟨-32768, 65535, 255⟩, ⟨32767, 0, 0⟩]
    (frame 0x01 (List.replicate 506 0)).body.length ≤ 506 ∧ 65535 < 65536 ∧ ps.length ≤ 480 ∧
    ∀ p ∈ ps, (-32768 ≤ p.u ∧ p.u ≤ 32767) ∧ p.v < 65536 ∧ p.intensity < 256 := by
  decide +kernel

theorem witness_TransmitterChoosesNext :
    let q : Queued := { report := .event .allHeadsLost, lostBefore := 0 }
    base.pin = false ∧ base.hli.slot = none ∧ base.hli.queue = [] ∧
    ({ base.hli with queue := [q] } : Hli).queue = q :: [] ∧
    (base.reply (frame 0x01 []) .done []).hli.slot = some ⟨0x01, 9, .done, []⟩ := by decide

/-- The numbers at the ends of a field of one byte, unsigned and signed. -/
theorem witness_ReceiversReadWhatSendersWrite_fields :
    255 < 256 ^ 1 ∧ (0 < 1 ∧ -((256 ^ 1 / 2 : Nat) : Int) ≤ -128 ∧ (127 : Int) < ((256 ^ 1 / 2 : Nat) : Int)) ∧
    fieldS 1 (-128) = [0x80] ∧ fieldS 1 127 = [0x7F] := by decide

/-- A queue of `t` trace records behind `n` events. -/
def queueOf (n t : Nat) : List Queued :=
  let trace : TraceRecord := { scan := 1, chainage := 0, stamp := 0, sectionId := 0, flags := noFlags, samples := [] }
  List.replicate n { report := .event .allHeadsLost, lostBefore := 0 } ++
    List.replicate t { report := .trace trace, lostBefore := 0 }

theorem witness_OutboundAdmission :
    (Report.event .allHeadsLost).isTrace = false ∧
    (((queueOf 32 63).filter (·.report.isTrace)).length < 64 ∧ (queueOf 32 63).length < 96) ∧
    64 ≤ ((queueOf 0 64).filter (·.report.isTrace)).length ∧ 96 ≤ (queueOf 96 0).length ∧
    (∃ q, queueOf 95 1 = queueOf 95 0 ++ q :: [] ∧ q.report.isTrace = true) ∧
    (∀ x ∈ queueOf 95 0, x.report.isTrace = false) ∧ ∀ x ∈ queueOf 96 0, x.report.isTrace = false := by
  refine ⟨by decide, by decide +kernel, by decide +kernel, by decide +kernel, ⟨_, rfl, rfl⟩, by decide +kernel,
    by decide +kernel⟩

/-- Both settings of each gate. -/
theorem witness_OutboundAdmission_gates :
    let shut : Hli := { base.hli with gates := { base.hli.gates with span := false, event := false } }
    base.hli.gates.span = true ∧ base.hli.gates.event = true ∧ shut.gates.span = false ∧ shut.gates.event = false ∧
    ∀ cause, Event.allHeadsLost ≠ .started cause := by
  refine ⟨rfl, rfl, rfl, rfl, fun cause h => by cases h⟩

theorem witness_KindModeAndFormChecked :
    (waiting 0x03 [] base).holds (frame 0x03 []) [] ∧ (0x03 : Byte) ∉ hostRows.map (·.kind) ∧
    (waiting 0x20 [] (inMode .running)).holds (frame 0x20 []) [] ∧ inStandby (inMode .running).mode = false ∧
    (waiting 0x20 [] base).holds (frame 0x20 []) [] ∧ inStandby base.mode = true ∧ (frame 0x20 []).body.length ≠ 6 ∧
    (⟨.startRun, 0x20, inStandby, some 6⟩ : HostRow) ∈ hostRows :=
  ⟨waiting_holds _ _ _ rfl, by decide, waiting_holds _ _ _ rfl, rfl, waiting_holds _ _ _ rfl, rfl, by decide,
    by simp [hostRows]⟩

theorem witness_RefusedCommandChangesNothing :
    (⟨.startRun, 0x20, inStandby, some 6⟩ : HostRow) ∈ hostRows ∧ base.pin = false ∧ base.hli.inbound = [] ∧
    (base.reply (frame 0x01 []) .done []).hli.slot ≠ none ∧
    (waiting 0x2F [] base).holds (frame 0x2F []) [] ∧ (frame 0x2F []).kind ≠ 0x20 ∧
    ∃ t, exec .startRun (waiting 0x20 [] base) = .next t :=
  ⟨by simp [hostRows], rfl, rfl, by decide, waiting_holds _ _ _ rfl, by decide, _, rfl⟩

theorem witness_StatusAndTracksRead : (waiting 0x01 [] base).holds (frame 0x01 []) [] ∧
    (waiting 0x02 [] base).holds (frame 0x02 []) [] ∧ (frame 0x02 []).body = [] :=
  ⟨waiting_holds _ _ _ rfl, waiting_holds _ _ _ rfl, rfl⟩

/-- Both ends of the offset's range are taken, and head 4 is the first that is refused. -/
theorem witness_SetHeadLoadsOrRefuses :
    carries base 0x10 [(1, 3), (2, 55536), (2, 60000), (1, 1), (1, 50), (1, 255), (1, 0), (2, 5000), (1, 16)] ∧
    carries base 0x10 [(1, 4), (2, 10000), (2, 0), (1, 0), (1, 1), (1, 0), (1, 1), (2, 100), (1, 1)] ∧
    base.mode = .standby ∧ ((3 : HeadNo).val = 3 ∧ signedOf 2 55536 = -10000 ∧ signedOf 2 10000 = 10000) :=
  ⟨carries_of _ _ _ rfl (by decide), carries_of _ _ _ rfl (by decide), rfl, by decide⟩

/-- Two runs that leave one tenth between them, two that touch, and a width of 4001. -/
theorem witness_TestProfileAndTestSource :
    let wires (ws : List TestWire) : List Byte := beBytes 1 ws.length ++
      ws.flatMap fun w => fieldS 2 w.centre ++ fieldU 2 w.v ++ fieldU 2 w.width ++ fieldU 2 w.face
    let clear : List TestWire := [⟨-4000, 20000, 4000, 4000⟩, ⟨0, 0, 3999, 0⟩, ⟨1, 0, 3999, 0⟩]
    (∀ ws, (waiting 0x12 (wires ws) base).holds (frame 0x12 (wires ws)) []) ∧
    (∀ w ∈ clear, (-6000 ≤ w.centre ∧ w.centre ≤ 6000) ∧ w.v ≤ 20000 ∧ w.width ≤ 4000 ∧ w.face ≤ w.width) ∧
    (clear.map fun w => (w.centre - ((w.width + 1) / 2 : Int), w.centre + ((w.width + 1) / 2 : Int))) =
      [(-6000, -2000), (-2000, 2000), (-1999, 2001)] ∧
    ¬ (4001 : Nat) ≤ 4000 ∧ (∀ n ws, ([1] : List Byte) = n :: ws → ws.length ≠ 8 * n.toNat) ∧
    (∀ a, (waiting 0x11 [3, a] base).holds (frame 0x11 [3, a]) []) ∧ (0 : Int) - 5 + (1 : Nat) * (10 : Nat) ≤ 0 + 5 ∧
    (0 : Int) + 5 < 0 - 5 + (2 : Nat) * (10 : Nat) :=
  ⟨fun _ => waiting_holds _ _ _ rfl, by decide, by decide, by decide, by
    intro n ws h; cases h; decide, fun _ => waiting_holds _ _ _ rfl, by decide, by decide⟩

theorem witness_SetMotionLoadsOrRefuses :
    let fields (lo hi t : Nat) : List (Nat × Nat) := (heads4.flatMap fun _ =>
      [(1, 1), (2, 4095), (2, 4096), (2, lo), (2, hi)]) ++ [(2, t), (2, 40000)]
    carries base 0x13 (fields 4094 4095 40000) ∧ carries base 0x13 (fields 0 4095 4999) ∧
    carries base 0x13 (fields 64 64 5000) ∧ base.mode = .standby ∧ (4094 < 4095 ∧ ¬ 5000 ≤ 4999) :=
  ⟨carries_of _ _ _ rfl (by decide), carries_of _ _ _ rfl (by decide), carries_of _ _ _ rfl (by decide), rfl, by decide⟩

theorem witness_SettingCommandsLoadOrRefuse :
    let extract (n lo hi : Nat) : List (Nat × Nat) :=
      [(2, 500), (2, 1), (2, n), (2, lo), (2, hi), (2, 255), (2, 200), (2, 500), (2, 1000)]
    (carries base 0x14 (extract 32 1999 2000) ∧ carries base 0x14 (extract 33 10 2000) ∧
      carries base 0x14 (extract 2 2000 2000)) ∧
    (carries base 0x15 [(2, 1000), (2, 2000), (1, 8), (1, 64), (2, 5000), (2, 1000)] ∧
      carries base 0x15 [(2, 0), (2, 2000), (1, 8), (1, 64), (2, 5000), (2, 1000)]) ∧
    (carries base 0x1C [(1, 2), (2, 500), (2, 100), (2, 20000), (4, 100000)] ∧
      carries base 0x1C [(1, 3), (2, 500), (2, 100), (2, 20000), (4, 100000)] ∧
      carries base 0x1C [(1, 0), (2, 9), (2, 100), (2, 20000), (4, 100000)]) ∧
    (carries base 0x1D [(1, 31), (2, 1000), (1, 19), (1, 20)] ∧ carries base 0x1D [(1, 32), (2, 1000), (1, 19), (1, 20)] ∧
      carries base 0x1D [(1, 31), (2, 1000), (1, 20), (1, 20)]) ∧ base.mode = .standby := by
  refine ⟨⟨?_, ?_, ?_⟩, ⟨?_, ?_⟩, ⟨?_, ?_, ?_⟩, ⟨?_, ?_, ?_⟩, rfl⟩ <;> exact carries_of _ _ _ rfl (by decide)

theorem witness_SetWearTableLoadsOrRefuses :
    let fields (t h : Nat) (ps : List (Nat × Nat)) : List (Nat × Nat) :=
      [(1, t), (1, h), (1, ps.length)] ++ ps.flatMap fun p => [(2, p.1), (1, p.2)]
    carries base 0x16 (fields 7 250 [(0, 250), (400, 250)]) ∧ carries base 0x16 (fields 8 250 [(0, 250), (400, 250)]) ∧
    carries base 0x16 (fields 7 50 [(0, 50), (0, 50)]) ∧ carries base 0x16 (fields 7 50 []) ∧
    (∀ t h n ps, (frame 0x16 [0, 50, 1]).body = t :: h :: n :: ps → ps.length ≠ 3 * n.toNat) ∧ base.mode = .standby := by
  refine ⟨?_, ?_, ?_, ?_, ?_, rfl⟩
  all_goals first | exact carries_of _ _ _ rfl (by decide) | (intro t h n ps e; cases e; decide)

/-- Wire type 0 is UNLOADED in the first state and LOADED in the second. -/
def loaded : State := { base with wru := { base.wru with tables := base.wru.tables.set 0 (some tableTwo) } }

theorem witness_SetDefaultSectionStages :
    let fields (lo hi band : Nat) : List (Nat × Nat) :=
      [(1, 0), (1, lo), (1, hi), (4, 80000), (2, band), (2, 7000), (1, 250), (1, 1)]
    carries base 0x17 (fields 1 4 10001) ∧ carries base 0x17 (fields 2 1 500) ∧ carries base 0x17 (fields 4 4 10000) ∧
    carries loaded 0x17 (fields 4 4 10000) ∧ base.wru.tables[Design.powerOn.wireType] = none ∧
    loaded.wru.tables[Design.powerOn.wireType] ≠ none ∧ base.mode = .standby := by
  refine ⟨?_, ?_, ?_, ?_, rfl, by decide, rfl⟩ <;> exact carries_of _ _ _ rfl (by decide)

theorem witness_ClearRouteStages : (∀ b, (waiting 0x18 [b] base).holds (frame 0x18 [b]) []) ∧ base.mode = .standby ∧
    (waiting 0x18 [1] (inMode .running)).holds (frame 0x18 [1]) [] ∧ (inMode .running).mode ≠ .standby ∧
    Dir.descending ≠ (inMode .running).tu.dir ∧ 2 ≤ (2 : Byte).toNat ∧ (frame 0x18 []).body.length ≠ 1 :=
  ⟨fun _ => waiting_holds _ _ _ rfl, rfl, waiting_holds _ _ _ rfl, by decide, by decide, by decide, by decide⟩

/-- The fields of `section31` with other ends: the start 1000 is taken with the queue empty; behind `section31` it is not
placed; the id 31 does not combine. -/
theorem witness_AppendSectionStages :
    let fields (id a b : Nat) : List (Nat × Nat) := [(2, id), (4, a), (4, b), (1, 0), (1, 1), (1, 4), (4, 53000),
      (2, 3000), (2, 4000), (1, 90), (1, 0)]
    let queued (n : Nat) : State := { loaded with scu := { loaded.scu with queue := List.replicate n section31 } }
    carries loaded 0x19 (fields 31 1000 2000) ∧ carries loaded 0x19 (fields 0 1000 2000) ∧
    carries (queued 1) 0x19 (fields 31 2000 3000) ∧ carries base 0x19 (fields 31 1000 2000) ∧
    carries (queued 1) 0x19 (fields 32 1999 3000) ∧ carries (queued 32) 0x19 (fields 32 2000 3000) ∧
    Dir.ascending.reached 2000 section31.stop = true ∧ Dir.ascending.reached 1999 section31.stop = false ∧
    32 ≤ (queued 32).scu.queue.length ∧ (queued 31).scu.queue.length < 32 ∧ base.scu.dir = .ascending := by
  refine ⟨?_, ?_, ?_, ?_, ?_, ?_, by decide, by decide, by decide, by decide, rfl⟩ <;>
    exact carries_of _ _ _ rfl (by decide)

theorem witness_RuleAndPolicyStages :
    let fields (i first last t : Nat) : List (Nat × Nat) :=
      [(1, i), (1, 1), (1, 2), (2, first), (2, last), (1, 0), (4, t), (1, 2), (1, 1), (1, 1)]
    let locked (b : Bool) : State := { base with lev := { base.lev with
      rules := base.lev.rules.set 15 { LimitRule.powerOn with lock := true }, bypass := b, design := true } }
    carries base 0x1A (fields 15 1 1 7000) ∧ carries base 0x1A (fields 15 1 1 7001) ∧ carries base 0x1A (fields 16 1 1 0) ∧
    carries base 0x1A (fields 15 2 1 0) ∧ carries (locked false) 0x1A (fields 15 1 1 0) ∧
    carries (locked true) 0x1A (fields 15 1 1 0) ∧
    (((locked false).lev.rules[15]).lock = true ∧ (locked false).lev.bypass = false ∧ base.mode = .standby) ∧
    (Quantity.stagger.code = BitVec.ofNat 8 2 ∧ Severity.urgent.code = BitVec.ofNat 8 2) ∧
    (∀ p b, (waiting 0x1B [p, b] (locked false)).holds (frame 0x1B [p, b]) []) ∧ ¬ (2 : Byte).toNat ≤ 1 := by
  refine ⟨?_, ?_, ?_, ?_, ?_, ?_, by decide, by decide, fun _ _ => waiting_holds _ _ _ rfl, by decide⟩ <;>
    exact carries_of _ _ _ rfl (by decide)

/-- For both statements: HEAD_CONTROL frames in every head state, and an open answer of an ACTIVE head. -/
theorem witness_HeadInitAndRestore_HeadIsolateAndDisable :
    (∀ x a, (waiting 0x11 [0, a] (headIn x base)).holds (frame 0x11 [0, a]) []) ∧
    (∀ x a, ((waiting 0x11 [0, a] (headIn x base)).head 0).state = x) ∧
    (waiting 0x11 [4, 0] base).holds (frame 0x11 [4, 0]) [] ∧ 4 ≤ (4 : Byte).toNat ∧
    (waiting 0x11 [0, 6] base).holds (frame 0x11 [0, 6]) [] ∧ 6 ≤ (6 : Byte).toNat ∧
    (waiting 0x11 [0, 2] live).holds (frame 0x11 [0, 2]) [] ∧
    (waiting 0x11 [0, 2] live).openScan 0 = some (scanOne .gathering (.open 400)) :=
  ⟨fun _ _ => waiting_holds _ _ _ rfl, fun _ _ => rfl, waiting_holds _ _ _ rfl, by decide, waiting_holds _ _ _ rfl,
    by decide, waiting_holds _ _ _ rfl, by decide⟩

/-- An ACTIVE head that owes no answer. -/
theorem witness_HeadIsolateAndDisable_nothing_open :
    (waiting 0x11 [0, 2] (headIn .active base)).holds (frame 0x11 [0, 2]) [] ∧
    ((waiting 0x11 [0, 2] (headIn .active base)).head 0).state = .active ∧
    (waiting 0x11 [0, 2] (headIn .active base)).openScan 0 = none := ⟨waiting_holds _ _ _ rfl, rfl, rfl⟩

theorem witness_ReadyOrTimerEndsClearing :
    let s := headIn .clearing base
    s.pin = false ∧ (s.head 0).rx = [] ∧ (s.head 0).state = .clearing ∧ (2 : Byte).getLsbD 0 = false ∧
    (1 : Byte).getLsbD 0 = true ∧ (base.head 0).state ≠ .clearing := by decide

theorem witness_ProfileClosesItsAnswer :
    let ps : List Point := [⟨-6000, 20000, 255⟩, ⟨6000, 0, 0⟩]
    live.pin = false ∧ (live.head 0).rx = [] ∧ (live.head 0).state = .active ∧
    live.openScan 0 = some (scanOne .gathering (.open 400)) ∧ ps.length ≤ 480 ∧ ps.Pairwise (fun a b => a.u < b.u) ∧
    (∀ p ∈ ps, (-6000 ≤ p.u ∧ p.u ≤ 6000) ∧ p.v ≤ 20000 ∧ p.intensity < 256) ∧ (2 : Byte).getLsbD 0 = false ∧
    (1 : Byte).getLsbD 0 = true ∧ 1 = (header 1).scan % 65536 ∧ 2 ≠ (header 1).scan % 65536 ∧
    ((headIn .clearing base).head 0).state = .clearing ∧ (base.head 0).state = .disabled := by decide

theorem witness_MissClosesAnswer :
    headReceive [] [0xA5, 0, 1, 0x81, 0, 0, 0] = ([.bad], []) ∧
    headReceive [] (headFrameBytes 0x81 []) = ([.unusable], []) ∧
    live.pin = false ∧ (live.head 0).rx = [] ∧ (live.head 0).state = .active ∧
    live.openScan 0 = some (scanOne .gathering (.open 400)) ∧ ¬ (live.head 0).missLimit ≤ (live.head 0).misses + 1 ∧
    (headIn .active base).openScan 0 = none ∧ (base.head 0).state = .disabled := by decide +kernel

/-- A command, a PROFILE or a miss closes the one open answer: with the motion sample there, and with it under way. -/
theorem witness_answers_close_R51 :
    assembling.banksOwned ∧ converting.banksOwned ∧
    assembling.openScan 0 = some (scanOne .gathering (.open 400)) ∧
    converting.openScan 0 = some { scanOne .gathering (.open 400) with motion := none } ∧
    (converting.head 0).state = .active ∧ (waiting 0x11 [0, 2] assembling).holds (frame 0x11 [0, 2]) [] ∧
    (waiting 0x11 [0, 3] converting).holds (frame 0x11 [0, 3]) [] :=
  ⟨assembling_owned, converting_owned, by decide, by decide, rfl, waiting_holds _ _ _ rfl, waiting_holds _ _ _ rfl⟩

/-- Two lists that are malformed: two points at one place, and a point one beyond the window. -/
theorem witness_ProfileClosesItsAnswer_malformed :
    (∀ ps ∈ ([[⟨0, 0, 0⟩, ⟨0, 1, 0⟩], [⟨6001, 0, 0⟩], [⟨0, 20001, 0⟩]] : List (List Point)),
      (∀ p ∈ ps, (-32768 ≤ p.u ∧ p.u ≤ 32767) ∧ p.v < 65536 ∧ p.intensity < 256) ∧
      ¬ (ps.Pairwise (fun a b => a.u < b.u) ∧ ∀ p ∈ ps, (-6000 ≤ p.u ∧ p.u ≤ 6000) ∧ p.v ≤ 20000)) ∧
    (0 : Byte).getLsbD 0 = false := by decide

/-- The miss that reaches the limit, of the run's last ACTIVE head. -/
theorem witness_misses_at_the_limit :
    let s := assembling.setHead 0 { assembling.head 0 with misses := 3 }
    s.banksOwned ∧ s.pin = false ∧ (s.head 0).rx = [] ∧ (s.head 0).state = .active ∧ s.lastActive 0 = true ∧
    s.openScan 0 = some (scanOne .gathering (.open 400)) ∧ (s.head 0).missLimit ≤ (s.head 0).misses + 1 :=
  ⟨assembling_owned, by decide⟩

/-- In the second state the next pulse toward end 1 is the one to T_1, 103. -/
theorem witness_OdometerPulseCounts :
    let s : State := { inMode .running with tu := { base.tu with p := 102, high := 102 } }
    base.pin = false ∧ base.mode ≠ .running ∧ s.mode = .running ∧ s.tu.config.mode = .distance ∧
    s.pxu.leading = .end1 ∧
    s.tu.p + 1 = ((s.tu.nextTrigger * s.tu.config.spacing * s.tu.config.ppm + 999) / 1000 : Nat) := by
  decide

/-- The pulse that lowers p to h less the pulses per metre, and the first pulse above h. -/
theorem witness_OdometerPulseCounts_watch :
    let t : Tu := { base.tu with p := 0, high := 2047 }
    let u : Tu := { base.tu with p := 7, high := 7, watch := .reversed }
    (t.watch = .forward ∧ t.p - 1 < t.p ∧ t.p - 1 ≤ max t.high (t.p - 1) - t.config.ppm) ∧
    (u.watch = .reversed ∧ u.high < u.p + 1) := by decide

/-- A trigger is accepted while head 0 owes its answer of the scan before, with a fix and a mark pending. -/
theorem witness_TriggersDueAcceptedOrOverrun_before :
    let s : State := { assembling with tu := { assembling.tu with scan := 1, pendingFix := some 5001, mast := some 7 } }
    (s.hlc.pairs[parity (s.tu.scan + 1)]).owner = .free ∧ s.tu.scan < 4294967295 ∧
    (heads4.filter fun h => (s.openScan h).isSome) = [0] ∧ s.tu.config.fixLimit < (5001 : Int).natAbs := by decide

theorem witness_TriggersDueAcceptedOrOverrun :
    let time : State := { inMode .running with tu := { base.tu with
      config := { base.tu.config with mode := .time }, nextDue := some 1000 } }
    let command : State := { inMode .running with tu := { base.tu with
      config := { base.tu.config with mode := .command } } }
    let last : State := { base with tu := { base.tu with scan := 4294967295 } }
    ((base.hlc.pairs[parity (base.tu.scan + 1)]).owner = .free ∧ base.tu.scan < 4294967295) ∧
    ¬ last.tu.scan < 4294967295 ∧ (time.pin = false ∧ time.mode = .running ∧ time.tu.config.mode = .time ∧
      time.tu.nextDue = some 1000) ∧ base.mode ≠ .running ∧
    (waiting 0x22 [] command).holds (frame 0x22 []) [] ∧ command.tu.config.mode = .command ∧
    (waiting 0x22 [] time).holds (frame 0x22 []) [] :=
  ⟨by decide, by decide, by decide, by decide, waiting_holds _ _ _ rfl, rfl, waiting_holds _ _ _ rfl⟩

theorem witness_MastPulseAndPositionFix :
    let s := inMode .running
    let marked : State := { s with tu := { s.tu with mast := some 0 } }
    s.pin = false ∧ s.mode = .running ∧ s.tu.high ≤ s.tu.p ∧ s.tu.mast = none ∧ marked.tu.mast ≠ none ∧
    base.mode ≠ .running ∧ carries s 0x23 [(4, 2000000000)] ∧ carries s 0x23 [(4, 2000000001)] ∧
    carries { s with tu := { s.tu with base := -1 } } 0x23 [(4, 2000000000)] ∧
    signedOf 4 2000000000 - ({ s.tu with base := -1 } : Tu).chainage = 2000000001 :=
  ⟨rfl, rfl, by decide, rfl, by decide, by decide, carries_of _ _ _ rfl (by decide), carries_of _ _ _ rfl (by decide),
    carries_of _ _ _ rfl (by decide), by decide⟩

theorem witness_RoundingAndChainage : (0 : Int) < 2 ∧ 0 < base.tu.config.ppm := by decide

theorem witness_ChannelJudgement :
    let c := Channel.powerOn
    c.state = .armed ∧ c.config.low ≤ 64 ∧ 4031 ≤ c.config.high ∧ c.config.high < 4032 ∧ c.count < 15 ∧
    15 ≤ ({ c with count := 15 } : Channel).count ∧ ({ c with state := .failed } : Channel).state ≠ .armed := by decide

theorem witness_MotionSequenceDelivers :
    base.pin = false ∧ base.mcv.sequences = [] ∧ 0 < base.mcv.spacing ∧
    ({ base.mcv with sequences := [1] } : Mcv).sequences = 1 :: [] := by decide

/-- The sequence of scan 1 ends with head 0's answer open, and with it closed: the scan gathers on, and is complete. -/
theorem witness_MotionSequenceDelivers_R51 :
    let s : State := { converting with hlc := { converting.hlc with
      scans := [{ scanOne .gathering (.present false) with motion := none }] } }
    converting.banksOwned ∧ converting.mcv.sequences = 1 :: [] ∧ s.banksOwned ∧ s.mcv.sequences = 1 :: [] := by
  refine ⟨converting_owned, rfl, ?_, rfl⟩
  unfold State.banksOwned
  refine ⟨by decide, by decide, by decide, by decide, by decide, by decide, by decide, by decide, by decide, by decide,
    by decide⟩

theorem witness_ScanExtractedAndHandedOver :
    let s : State := { live with hlc := { live.hlc with scans := [scanOne .complete (.present false)] } }
    let t : State := { base with pxu := { base.pxu with current := some handed } }
    s.pin = false ∧ s.pxu.current = none ∧ s.hlc.scans = [] ++ scanOne .complete (.present false) :: [] ∧
    (scanOne .complete (.present false)).motion = some still ∧ t.pxu.current = some handed ∧ base.pxu.current = none ∧
    ∀ x ∈ base.hlc.scans, x.stage ≠ .complete := by decide

/-- Four points at the pitch and a fifth one step too far; a face of the middle two; and one of none. -/
theorem witness_ScanExtractedAndHandedOver_cluster :
    let pt (i : Nat) (x : Int) (bright : Bool) : TrackPoint :=
      { index := i, x, z := 53000, intensity := if bright then 200 else 199 }
    let cluster := [pt 0 0 false, pt 1 10 true, pt 2 20 true, pt 3 50 false]
    let set := Pxu.powerOn.settings
    clusters set (cluster ++ [pt 4 81 true]) = [] ++ cluster :: [pt 4 81 true] :: [] ∧
    cluster.head? = some (pt 0 0 false) ∧ cluster.getLast? = some (pt 3 50 false) ∧ pt 1 10 true ∈ cluster ∧
    (∀ p ∈ cluster, (pt 1 10 true).z ≤ p.z) ∧ faceWidth set 10 cluster = some 20 ∧
    faceWidth set 10 [pt 4 81 true] = none ∧ acceptance set 10 Design.powerOn cluster = .accepted ∧
    ∀ n : Nat, n ∈ [0, 65535] → n ≤ 65535 := by decide

theorem witness_CandidateListAndGroups :
    let c (h : HeadNo) (x : Int) : Candidate := { head := h, x, z := 53000, count := 4, face := none }
    [c 0 0] ≠ [] ∧ (groupOf [{ c 0 0 with face := some 50 }, c 1 1]).face = some 50 ∧
    groups Pxu.powerOn.settings [c 0 0, c 1 40, c 0 41] = [] ++ [c 0 0, c 1 40] :: [c 0 41] :: [] := by decide

theorem witness_ScanTracked :
    let s : State := { base with wtr := { base.wtr with inbox := [handed, { handed with blind := true }] } }
    s.pin = false ∧ s.wtr.inbox = handed :: [{ handed with blind := true }] ∧ handed.blind = false ∧
    base.wtr.inbox = [] := by decide

/-- A table with every slot as given. -/
def tableOf (x : Fin 8 → Slot) : Vector Slot 8 := Vector.ofFn x

/-- A birth into the lowest EMPTY slot, into the longest COASTING one, and into none; and the heights at the band. -/
theorem witness_ScanTracked_births_and_roles :
    let id (k : Fin 8) : Seen := { seen with id := k.val + 1 }
    let coasting := tableOf fun k => .coasting (id k) (if k = 3 ∨ k = 5 then 7 else 6) .running
    let full := tableOf fun k => .confirmed (id k) .running
    let lowest : Slot := .confirmed seen .running
    let above (z : Nat) : Vector Slot 8 := (tracking.table.set 0 lowest).set 1 (.confirmed { id 1 with z } .running)
    (1 ≤ (65535 : Nat) ∧ (base.wtr.table[0]) = .empty) ∧
    ((∀ j : Fin 8, coasting[j] ≠ .empty) ∧ coasting[(3 : Fin 8)] = .coasting (id 3) 7 .running ∧
      (birth base.wtr.settings ⟨coasting, 4, [], 0⟩ group).2 = some 3 ∧
      (birth base.wtr.settings ⟨coasting, 4, [], 0⟩ group).1.nextId = 5) ∧
    (∀ j : Fin 8, full[j] ≠ .empty) ∧ (birth base.wtr.settings ⟨full, 9, [], 65535⟩ group).2 = none ∧
    (giveRoles base.wtr.settings [(group, some 0), (group, some 1)] (above 53300))[(1 : Fin 8)] =
      .confirmed { id 1 with z := 53300 } .running ∧
    (giveRoles base.wtr.settings [(group, some 0), (group, some 1)] (above 53301))[(1 : Fin 8)] =
      .confirmed { id 1 with z := 53301 } .raised := by decide

/-- A candidate of a CONFIRMED slot, and one of an EMPTY slot. -/
theorem witness_ScanTracked_samples :
    tracking.table[(0 : Fin 8)] = .confirmed seen .running ∧
    sampleFor noFlags tracking.table (group, some 0) = some { sample with face := group.face } ∧
    sampleFor noFlags tracking.table (group, some 1) = none := by decide

/-- R86 by its steps: the counter has wrapped onto the id of the track that the birth replaces. -/
theorem test_birth_takes_the_id_of_an_ended_track :
    let full := tableOf fun k => .coasting { seen with id := k.val + 1 } (if k = 3 then 7 else 6) .running
    ((birth base.wtr.settings ⟨full, 4, [], 0⟩ group).1.table[(3 : Fin 8)]).track?.map (·.id) = some 4 := by decide

/-- One group at the lateral gate of track 1, and one beyond it. -/
theorem witness_AssociationTakesNearest :
    associate tracking.settings tracking.table [] [{ group with x := 80 }, { group with x := 81 }] =
      [({ group with x := 80 }, some 0), ({ group with x := 81 }, none)] := by decide

theorem witness_SamplesAndNoticesOfTracks :
    handed.blind = false ∧ (tracking.table[0]).established = true ∧ (tracking.table[0]).track? = some seen ∧
    (tracking.track handed).2.1.samples ≠ [] ∧
    ({ tracking with settings := { tracking.settings with coast := 1 } }.track { handed with groups := [] }).2.1.notices =
      [{ slot := 0, id := 1, reason := .lost }] := by decide

theorem witness_WireCountWatch :
    (tracking.track handed).1.watch = .normal ∧
    (base.wtr.track { handed with groups := [] }).1.watch = .pending 0 ∧
    ({ base.wtr with watch := .pending (-10000) }.track { handed with groups := [] }).1.watch = .reported ∧
    ({ base.wtr with watch := .pending (-9999) }.track { handed with groups := [] }).1.watch = .pending (-9999) := by decide

theorem witness_ThicknessAndWearOfFace :
    tableTwo.points.head? = some (0, 132) ∧ tableTwo.points.getLast? = some (120, 94) ∧ 2 ≤ tableTwo.points.length ∧
    tableTwo.points.Pairwise (fun a b => a.1 < b.1 ∧ b.2 ≤ a.2) ∧ (∀ p ∈ tableTwo.points, p.2 ≤ tableTwo.nominal) ∧
    0 < tableTwo.nominal ∧ sample.face = some 50 ∧
    tableTwo.points = [] ++ (0, 132) :: (60, 125) :: [(80, 119), (100, 109), (120, 94)] ∧ 120 < 121 ∧
    19 < ([(20, 80), (90, 71)] : List (Nat × Nat)).head!.1 :=
  ⟨rfl, rfl, by decide, by decide, by decide, by decide, rfl, rfl, by decide, by decide⟩

theorem witness_SetValuedAndOffered :
    let s : State := { base with wtr := { base.wtr with outbox := [scanSet] } }
    let v : State := { base with
      wru := { base.wru with valuing := some scanSet }, hli := { base.hli with decimation := 1 } }
    s.pin = false ∧ s.wru.valuing = none ∧ s.wru.offered = none ∧ s.wtr.outbox = scanSet :: [] ∧ base.wtr.outbox = [] ∧
    v.wru.valuing = some scanSet ∧ v.hli.decimation ≠ 0 ∧ scanSet.header.scan % v.hli.decimation = 0 ∧
    scanSet.samples ≠ [] ∧ base.hli.decimation = 0 ∧ base.wru.tables[scanSet.snapshot.wireType] = none := by decide

theorem witness_SectionActivation :
    let u : Scu := { base.scu with queue := [section31] }
    let a : Scu := { base.scu with cache := some section31, armed := true }
    u.activate 999 = (u, []) ∧ (u.activate 1000).1.cache = some section31 ∧ (a.activate 1999) = (a, []) ∧
    (a.activate 2000).2 = [.routeStarved 2000] ∧ (u.activate 2000).2 = [.sectionSkipped 31] := by decide

theorem witness_SpanCloseTests :
    let sp := OpenSpan.fresh 1 (some 31) 0
    let h (c : Int) (m : Option Int) : Header := { header 1 with chainage := c, mast := m }
    closeTest 20 85 sp { header 1 with fix := some true } 31 = (some (.fix, 0), false) ∧
    closeTest 20 85 sp (header 1) 0 = (some (.sectionChange, 0), false) ∧
    closeTest 20 85 sp (h 20001 (some 20000)) 31 = (some (.mast, 20000), false) ∧
    closeTest 20 85 sp (h 85000 (some 19999)) 31 = (some (.noMast, 85000), true) ∧
    closeTest 20 85 sp (h 84999 (some 19999)) 31 = (none, true) ∧
    closeTest 20 85 sp (h 85000 none) 31 = (some (.noMast, 85000), false) ∧
    closeTest 20 85 sp (h 84999 none) 31 = (none, false) := by decide

theorem witness_AccumulatorsFoldAndRetain :
    base.spu.accumulators[sample.slot] = none ∧
    (base.spu.accumulators.set 0 (some (folded 1)))[sample.slot] = some (folded 1) ∧
    (List.replicate 7 (folded 1)).length < 8 ∧
    retainEntry (List.replicate 8 (folded 2)) (folded 2) = (List.replicate 8 (folded 2), true) := by decide

theorem witness_SpanSetTaken : ∀ b : Bool, (offering scanSet false b).pin = false ∧
    (offering scanSet false b).wru.offered = some ⟨scanSet, false, b⟩ ∧
    (offering scanSet false b).spu.span = some (OpenSpan.fresh 1 none 0) ∧ scanSet.runEnd = false ∧
    ((closeTest 20 85 (OpenSpan.fresh 1 (some 0) 0) scanSet.header 0).1 = none) ∧
    ((closeTest 20 85 (OpenSpan.fresh 1 (some 0) 85000) scanSet.header 0).1 = some (.noMast, 0)) := by decide

/-- A notice that ends the one track with an accumulator, a loss pending for the scan, and a set that closes the span. -/
theorem witness_SpanSetTaken_notice :
    let u : Applied := { accumulators := base.spu.accumulators.set 0 (some (folded 3)), retain := [], isPartial := false }
    let far : State := { offering scanSet false true with spu := { (offering scanSet false true).spu with
      span := some (OpenSpan.fresh 1 (some 0) 85000), losses := [1] } }
    u.accumulators[(0 : Fin 8)] = some (folded 3) ∧ u.accumulators[(1 : Fin 8)] = none ∧
    (applyNotice u { slot := 0, id := 1, reason := .lost }).retain = [folded 3] ∧
    far.spu.span = some (OpenSpan.fresh 1 (some 0) 85000) ∧ scanSet.header.scan ∈ far.spu.losses ∧
    (closeTest 20 85 (OpenSpan.fresh 1 (some 0) 85000) scanSet.header 0).1 = some (.noMast, 0) := by decide

theorem witness_DecidingRule :
    let rule : LimitRule := { LimitRule.powerOn with enabled := true }
    let l : Lev := { base.lev with rules := base.lev.rules.set 15 rule }
    sample.value .thickness = none ∧ sample.value .stagger = some 0 ∧ Design.powerOn.neutral = false ∧
    ({ Design.powerOn with neutral := true } : Design).neutral = true ∧ rule.passes .stagger 0 .running = true ∧
    (l.rules[15]) = rule ∧ (∀ j : Fin 16, j < 15 → (l.rules[j]).enabled = false) ∧
    (∀ k : Fin 16, (base.lev.rules[k]).enabled = false) ∧ ({ base.lev with design := true } : Lev).design = true := by
  decide

theorem witness_ExceedancesOpenExtendAndClose :
    let l : Lev := { base.lev with rules := base.lev.rules.set 0 { LimitRule.powerOn with enabled := true } }
    let m : Sample := { sample with x := 1 }
    let w (n : Nat) : Work := { entries := List.replicate n { exceedance with id := 2 }, opened := 0, overflow := 0,
                                records := [], lost := false }
    l.decision Design.powerOn m .stagger = .decided 0 .advise false true ∧ m.value .stagger = some 1 ∧
    l.decision Design.powerOn m .wear = .absent ∧
    (∀ e ∈ (w 16).entries, ¬ (e.id = m.id ∧ e.ref = 0)) ∧ (w 15).entries.length < 16 ∧ 16 ≤ (w 16).entries.length ∧
    [exceedance] = [] ++ exceedance :: [] ∧ exceedance.id = m.id ∧ exceedance.ref = 0 ∧
    exceedance.quantity = .stagger ∧ exceedance.quantity ≠ .wear ∧ Quantity.stagger.worse 4002 exceedance.worst = true ∧
    Quantity.stagger.worse (-4001) exceedance.worst = false ∧ endSet.runEnd = true := by decide

theorem witness_LimitSetTaken : ∀ b : Bool, (offering scanSet b false).pin = false ∧
    (offering scanSet b false).wru.offered = some ⟨scanSet, b, false⟩ ∧ scanSet.runEnd = false ∧
    (base.lev.work base.hli.gates scanSet).lost = false := by decide

/-- A list that is full of another track's entries loses a design violation of the sample. -/
theorem witness_LimitSetTaken_loss :
    ({ base.lev with design := true, entries := List.replicate 16 { exceedance with id := 2 } }.work base.hli.gates
      { scanSet with samples := [{ sample with x := 4001 }] }).lost = true := by decide

theorem witness_StartRunStages :
    let fields (c d : Nat) : List (Nat × Nat) := [(4, c), (1, d), (1, 1)]
    carries base 0x20 (fields 2000000001 0) ∧ carries base 0x20 (fields 2000000000 1) ∧
    carries base 0x20 (fields 2000000000 0) ∧ carries (headIn .active base) 0x20 (fields 2294967296 0) ∧
    signedOf 4 2294967296 = -2000000000 ∧ base.scu.dir = .ascending ∧ ((headIn .active base).head 0).state = .active ∧
    (∀ h, (base.head h).state ≠ .active) ∧ base.mode = .standby := by
  refine ⟨?_, ?_, ?_, ?_, by decide, rfl, rfl, by decide, rfl⟩ <;> exact carries_of _ _ _ rfl (by decide)

theorem witness_RunEndsInOrder :
    (waiting 0x21 [] live).holds (frame 0x21 []) [] ∧ live.mode = .running ∧ live.hlc.scans ≠ [] ∧
    (waiting 0x21 [] (inMode .running)).holds (frame 0x21 []) [] ∧ (inMode .running).hlc.scans = [] ∧
    ((inMode .stopping).pin = false ∧ (inMode .stopping).mode = .stopping ∧ (inMode .stopping).hlc.scans = [] ∧
      (inMode .stopping).closing = false) ∧ base.mode ≠ .stopping ∧
    (∀ b : Bool, (offering endSet false b).wru.offered = some ⟨endSet, false, b⟩ ∧
      (offering endSet b false).wru.offered = some ⟨endSet, b, false⟩ ∧ endSet.runEnd = true ∧
      (offering endSet false b).spu.span = some (OpenSpan.fresh 1 none 0)) :=
  ⟨waiting_holds _ _ _ rfl, rfl, by decide, waiting_holds _ _ _ rfl, rfl, by decide, by decide, by decide⟩

theorem witness_RestartAborts : (waiting 0x2F [] live).holds (frame 0x2F []) [] ∧ (frame 0x2F []).body = [] :=
  ⟨waiting_holds _ _ _ rfl, rfl⟩

/-- The premises of the invariants, met by states that hold something. -/
theorem witness_HostLineStaysBounded :
    let s : State := { base with pending := [.transmissionEnd], hli := { base.hli with queue := queueOf 32 64 } }
    s.lineBounded ∧ ∃ t, step s = .next t := by
  refine ⟨?_, _, rfl⟩
  unfold State.lineBounded
  decide +kernel

theorem witness_TrackIdsStayDistinct :
    tracking.idsDistinct ∧ ∃ t, step { base with wtr := tracking, pending := [.trackScan] } = .next t := by
  have h : ∀ k : Fin 8, (tracking.table[k]).track? = if k = 0 then some seen else none := by decide
  refine ⟨⟨by decide, fun k t hk => ?_, fun j k t u hj hk _ => ?_⟩, _, rfl⟩
  · rw [h] at hk
    split at hk
    · cases hk; decide
    · cases hk
  · rw [h] at hj hk
    split at hj <;> split at hk <;> simp_all

theorem witness_ExceedanceListStaysKeyed :
    let l : Lev := { base.lev with entries := [exceedance, { exceedance with ref := 16 }] }
    l.keyed ∧ ∃ t, step { base with lev := l, pending := [.limitSetTake] } = .next t := by
  refine ⟨?_, _, rfl⟩
  unfold Lev.keyed
  decide

theorem witness_RouteQueueStaysOrdered :
    let u : Scu := { base.scu with queue := [section31, { start := 2000, stop := 3000, design := Design.powerOn }] }
    u.ordered ∧ ∃ t, step { base with scu := u, pending := [.clearRoute] } = .next t := by
  refine ⟨?_, _, rfl⟩
  unfold Scu.ordered
  decide

/-- Scan 1 gathers its answers, and the pair of its parity is FILLING. -/
theorem witness_BanksStayOwnedByScans_ModesAndRunSettings :
    assembling.banksOwned ∧ assembling.mode ≠ .standby ∧ assembling.pending = [] ∧ (∃ t, step assembling = .next t) ∧
    ∃ t, step { assembling with pending := [.restart] } = .next t :=
  ⟨assembling_owned, by decide, rfl, ⟨_, rfl⟩, _, rfl⟩

theorem witness_CountersStayStopped :
    let s : State := { base with pending := [.mastPulse], tu := { base.tu with accepted := 65535 } }
    s.countersStopped ∧ ∃ t, step s = .next t := by
  refine ⟨?_, _, rfl⟩
  unfold State.countersStopped
  decide

/-- A candidate at the edge of the frame is held by the extractor. -/
theorem witness_GeometryStaysFramed :
    let s : State := { base with
      pending := [.candidateListHandover]
      pxu := { base.pxu with current := some { handed with groups := [{ group with x := -7000, z := 99999 }] } } }
    s.geometryFramed ∧ ∃ t, step s = .next t := by
  have ht : ∀ k : Fin 8, (base.wtr.table[k]).track? = none := by decide
  have ha : ∀ k : Fin 8, base.spu.accumulators[k] = none := by decide
  have hw : ∀ k : Fin 8, base.wru.tables[k] = none := by decide
  refine ⟨⟨?_, fun k t h => ?_, ?_, fun k a h => ?_, ?_, ?_, ?_⟩, _, rfl⟩
  · intro scan hs g hg
    obtain rfl : scan = { handed with groups := [{ group with x := -7000, z := 99999 }] } := by
      simpa [base, State.reset, State.powerOn, Wtr.powerOn] using hs
    obtain rfl : g = { group with x := -7000, z := 99999 } := by simpa using hg
    unfold framed
    decide
  · exact absurd ((ht k).symm.trans h) (by simp)
  · intro set h; cases h
  · exact absurd ((ha k).symm.trans h) (by simp)
  · intro a h; cases h
  · intro e h; cases h
  · exact ⟨fun q h => (List.not_mem_nil h).elim, fun k t h => by rw [hw] at h; cases h⟩

/-- A locked rule, for the premises of the lock's invariant. -/
theorem witness_LocksAndPolicyHold :
    let l : Lev := { base.lev with rules := base.lev.rules.set 0 { LimitRule.powerOn with lock := true }, design := true }
    l.design = true ∧ l.bypass = false ∧ (l.rules[(0 : Fin 16)]).lock = true := by decide

end Sys2Proof.Tests
end

section
/-! PROOFS. Rounding as the manual words it (R1), and the transform of a point to the track frame (R8 to R11). -/

namespace Sys2Proof.Machine

/-- The model's division is the rounding of R1: the nearest integer, halves away from zero. -/
theorem roundDiv_rounds (n : Int) {d : Int} (hd : 0 < d) : Rounds n d (roundDiv n d) := by
  have twice_pos : 0 < 2 * d := by omega
  unfold Rounds roundDiv
  split
  case isTrue hn =>
    have hlow := Int.mul_ediv_self_le (x := 2 * n + d) (k := 2 * d) (by omega)
    have hhigh := Int.lt_mul_ediv_self_add (x := 2 * n + d) twice_pos
    rw [Int.mul_assoc, Int.mul_comm d] at hlow hhigh
    have hq : 0 ≤ (2 * n + d) / (2 * d) * d := Int.mul_nonneg (Int.ediv_nonneg (by omega) (by omega)) (by omega)
    omega
  case isFalse hn =>
    have hlow := Int.mul_ediv_self_le (x := -(2 * n) + d) (k := 2 * d) (by omega)
    have hhigh := Int.lt_mul_ediv_self_add (x := -(2 * n) + d) twice_pos
    rw [Int.mul_assoc, Int.mul_comm d] at hlow hhigh
    have hq : 0 ≤ (-(2 * n) + d) / (2 * d) * d := Int.mul_nonneg (Int.ediv_nonneg (by omega) (by omega)) (by omega)
    rw [Int.neg_mul]
    omega

/-- R8: the lateral coordinate in the car frame, the mirroring as a sign. -/
theorem carFrame_eq (cal : Calibration) (p : Point) :
    carFrame cal p = (cal.offset + (if cal.mirrored then -1 else 1) * p.u, (cal.height : Int) + p.v) := by
  unfold carFrame
  split <;> simp

/-- Settles O32: the two rounded products are the model's own quotients, taken from car-frame coordinates. -/
theorem pointTransform : Obligations.PointTransform := by
  intro cal m zr lead p xcar zcar
  refine ⟨_, _, roundDiv_rounds (m.roll * xcar) (by decide), roundDiv_rounds (m.roll * (zcar - zr)) (by decide), ?_⟩
  unfold trackFrame bodyCorrect
  rw [carFrame_eq]
  cases lead <;> rfl

end Sys2Proof.Machine
end

section
/-! PROOFS. What the extractor and the tracker make of points in the reportable frame (R13, R14). -/

namespace Sys2Proof.Machine

/-! ## The candidate list -/

theorem inFrame_iff (c : Int × Int) : inFrame c = true ↔ framed c.1 c.2 := by
  simp [inFrame, within, framed]

/-- A kept candidate of an answer comes from points within the reportable frame. -/
theorem headYield_framed {x : Pxu} {zr : Nat} {m : MotionSample} {snapshot : Design} {h : HeadNo} {window : Bool}
    {points : List Point} {c : Candidate} (hc : c ∈ (headYield x zr m snapshot h window points).candidates) :
    framed c.x c.z := by
  obtain ⟨cluster, hcl, rfl⟩ := List.mem_map.mp ((headCap_sublist _).subset hc)
  have hmem := (List.mem_filter.mp hcl).1
  refine candidateOf_framed (clusters_ne_nil _ _ _ hmem) fun p hp => ?_
  exact (inFrame_iff (p.x, p.z)).mp (List.mem_filter.mp (mem_of_mem_clusters hmem hp)).2

theorem groups_flatten (set : ExtractSettings) (cs : List Candidate) : (groups set cs).flatten = cs := by
  cases cs with
  | nil => rfl
  | cons c cs => exact groupsFrom_flatten set cs [c]

theorem groups_ne_nil {set : ExtractSettings} {cs g : List Candidate} (hg : g ∈ groups set cs) : g ≠ [] := by
  cases cs with
  | nil => cases hg
  | cons c cs => exact groupsFrom_keeps set (· ≠ []) (by simp) (by simp) cs [c] (by simp) g hg

/-- R79: the means of a group's members lie between their bounds. -/
theorem groupOf_framed {members : List Candidate} (hm : members ≠ []) (h : ∀ c ∈ members, framed c.x c.z) :
    framed (groupOf members).x (groupOf members).z :=
  ⟨⟨le_mean hm fun c hc => (h c hc).1.1, mean_le hm fun c hc => (h c hc).1.2⟩,
    le_mean hm fun c hc => (h c hc).2.1, mean_le hm fun c hc => (h c hc).2.2⟩

/-- Every group of a handed-on scan is in the frame. -/
def HandedScan.Framed (scan : HandedScan) : Prop := ∀ g ∈ scan.groups, framed g.x g.z

/-- The list the extractor holds is in the frame. -/
def Pxu.Framed (x : Pxu) : Prop := ∀ scan, x.current = some scan → scan.Framed

/-- R14: whatever the points of a scan, its candidate list is in the frame. -/
theorem extract_framed (x : Pxu) (zr : Nat) (r : ScanRecord) (m : MotionSample) (pair : BankPair) :
    (extract x zr r m pair).Framed := by
  intro scan hscan g hg
  cases hscan
  obtain ⟨members, hmem, rfl⟩ := List.mem_map.mp ((scanCap_sublist _).subset hg)
  refine groupOf_framed (groups_ne_nil hmem) fun c hc => ?_
  have hseq := groups_flatten x.settings _ ▸ List.mem_flatten.mpr ⟨members, hmem, hc⟩
  obtain ⟨y, hy, hcy⟩ := List.mem_flatMap.mp ((sortBy_perm _ _).subset hseq)
  obtain ⟨a, -, rfl⟩ := List.mem_map.mp hy
  exact headYield_framed hcy

/-! ## The track table -/

/-- Every track of the table stands in the frame. -/
def TracksFramed (table : Vector Slot 8) : Prop := ∀ (k : Fin 8) t, (table[k]).track? = some t → framed t.x t.z

theorem tracksFramed_empty : TracksFramed (Vector.replicate 8 .empty) := by
  intro k t h
  simp [Slot.track?] at h

theorem TracksFramed.set {table : Vector Slot 8} (h : TracksFramed table) (k : Fin 8) {slot : Slot}
    (hs : ∀ t, slot.track? = some t → framed t.x t.z) : TracksFramed (table.set k slot) := by
  intro j t ht
  rw [set_get] at ht
  split at ht
  · exact hs t ht
  · exact h j t ht

/-- What a slot holds after its move is the track it held, looked at with its candidate. -/
theorem moveSlot_look {set : TrackerSettings} {k : Fin 8} {g : Option Group} {s : Slot} {t : Seen}
    (h : (moveSlot set k g s).1.track? = some t) : ∃ u, s.track? = some u ∧ t = u.look g := by
  unfold moveSlot at h
  split at h
  · cases h
  · split at h <;> cases h <;> exact ⟨_, rfl, rfl⟩
  · cases h
  · cases h; exact ⟨_, rfl, rfl⟩
  · split at h <;> cases h; exact ⟨_, rfl, rfl⟩
  · cases h; exact ⟨_, rfl, rfl⟩
  · split at h <;> cases h; exact ⟨_, rfl, rfl⟩

theorem Seen.look_framed {u : Seen} {g : Option Group} (hu : framed u.x u.z) (hg : ∀ c ∈ g, framed c.x c.z) :
    framed (u.look g).x (u.look g).z := by
  cases g with
  | none => exact hu
  | some c => exact hg c rfl

/-- The candidates of a list of associations are in the frame. -/
def PairsFramed (pairs : List (Group × Option (Fin 8))) : Prop := ∀ a ∈ pairs, framed a.1.x a.1.z

theorem associate_map_fst (set : TrackerSettings) (table : Vector Slot 8) (taken : List (Fin 8)) (gs : List Group) :
    (associate set table taken gs).map (·.1) = gs := by
  induction gs generalizing taken with
  | nil => rfl
  | cons g gs ih => unfold associate; split <;> simp [ih]

theorem HandedScan.Framed.associate {scan : HandedScan} (h : scan.Framed) (set : TrackerSettings)
    (table : Vector Slot 8) (taken : List (Fin 8)) : PairsFramed (associate set table taken scan.groups) := by
  intro a ha
  exact h a.1 (associate_map_fst set table taken scan.groups ▸ List.mem_map_of_mem ha)

theorem PairsFramed.candidateAt {pairs : List (Group × Option (Fin 8))} (h : PairsFramed pairs) (k : Fin 8) :
    ∀ c ∈ candidateAt pairs k, framed c.x c.z := by
  intro c hc
  obtain ⟨a, ha, rfl⟩ := Option.map_eq_some_iff.mp hc
  exact h a (List.mem_of_find?_eq_some ha)

theorem TracksFramed.moveAll {table : Vector Slot 8} {pairs : List (Group × Option (Fin 8))} (h : TracksFramed table)
    (hp : PairsFramed pairs) (set : TrackerSettings) : TracksFramed (moveAll set pairs table).1 := by
  intro k t ht
  rw [moveAll_get] at ht
  obtain ⟨u, hu, rfl⟩ := moveSlot_look ht
  exact Seen.look_framed (h k u hu) (hp.candidateAt k)

theorem Births.bear_framed {b : Births} (h : TracksFramed b.table) {g : Group} (hg : framed g.x g.z)
    (set : TrackerSettings) (k : Fin 8) : TracksFramed (b.bear set k g).table := by
  refine h.set k fun t ht => ?_
  split at ht <;> cases ht <;> exact hg

theorem Births.replace_framed {b : Births} (h : TracksFramed b.table) (k : Fin 8) :
    TracksFramed (b.replace k).table := h.set k fun _ ht => by cases ht

theorem birth_framed {b : Births} (h : TracksFramed b.table) {g : Group} (hg : framed g.x g.z)
    (set : TrackerSettings) : TracksFramed (birth set b g).1.table := by
  unfold birth
  split
  · exact Births.bear_framed h hg set _
  · split
    · exact Births.bear_framed (Births.replace_framed h _) hg set _
    · exact h

theorem births_framed (set : TrackerSettings) {pairs : List (Group × Option (Fin 8))} (hp : PairsFramed pairs)
    {b : Births} (h : TracksFramed b.table) :
    TracksFramed (births set b pairs).1.table ∧ PairsFramed (births set b pairs).2 := by
  induction pairs generalizing b with
  | nil => exact ⟨h, hp⟩
  | cons a rest ih =>
    obtain ⟨hg, hrest⟩ := List.forall_mem_cons.mp hp
    obtain ⟨g, _ | k⟩ := a
    · obtain ⟨ht, hq⟩ := ih hrest (birth_framed h hg set)
      exact ⟨ht, List.forall_mem_cons.mpr ⟨hg, hq⟩⟩
    · obtain ⟨ht, hq⟩ := ih hrest h
      exact ⟨ht, List.forall_mem_cons.mpr ⟨hg, hq⟩⟩

/-! ## Sample sets -/

/-- Every sample of a set is in the frame, and its values are in range. -/
def SampleSet.Framed (set : SampleSet) : Prop := ∀ m ∈ set.samples, m.framed

theorem Sample.framed_of_unvalued {m : Sample} (hm : Machine.framed m.x m.z) (ht : m.thickness = none)
    (hw : m.wear = none) : m.framed :=
  ⟨hm, by simp [ht], by simp [hw]⟩

/-- A sample stands where its candidate was, and has no values yet. -/
theorem sampleFor_framed {flags : MotionFlags} {table : Vector Slot 8} {a : Group × Option (Fin 8)} {m : Sample}
    (h : sampleFor flags table a = some m) (ha : framed a.1.x a.1.z) : m.framed := by
  unfold sampleFor at h
  split at h
  · cases h
  · split at h
    · cases h
      exact Sample.framed_of_unvalued ha rfl rfl
    · cases h

/-- What the tracker holds is in the frame: its tracks, the lists it has been handed and the sets it hands on. -/
structure Wtr.Framed (w : Wtr) : Prop where
  tracks : TracksFramed w.table
  inbox : ∀ scan ∈ w.inbox, scan.Framed
  outbox : ∀ set ∈ w.outbox, set.Framed

theorem Wtr.framed_of_empty {w : Wtr} (ht : w.table = Vector.replicate 8 .empty) (hi : w.inbox = [])
    (ho : w.outbox = []) : w.Framed := ⟨ht ▸ tracksFramed_empty, by simp [hi], by simp [ho]⟩

theorem Wtr.trackSeen_framed {w : Wtr} {scan : HandedScan} (hw : TracksFramed w.table) (hs : scan.Framed) :
    TracksFramed (w.trackSeen scan).1.table ∧ (w.trackSeen scan).2.1.Framed := by
  have hp := hs.associate w.settings w.table []
  obtain ⟨hborn, hpairs⟩ := births_framed w.settings hp
    (b := { table := _, nextId := w.nextId, notices := _, full := w.tableFull }) (hw.moveAll hp w.settings)
  refine ⟨fun k t ht => hborn k t (giveRoles_track _ _ _ k ▸ ht), fun m hm => ?_⟩
  obtain ⟨a, ha, hma⟩ := List.mem_filterMap.mp hm
  exact sampleFor_framed hma (hpairs a ha)

theorem Wtr.track_framed {w : Wtr} {scan : HandedScan} (hw : TracksFramed w.table) (hs : scan.Framed) :
    TracksFramed (w.track scan).1.table ∧ (w.track scan).2.1.Framed := by
  unfold Wtr.track
  split
  · exact ⟨hw, fun m hm => by cases hm⟩
  · exact Wtr.trackSeen_framed hw hs

@[simp] theorem Wtr.track_inbox (w : Wtr) (scan : HandedScan) : (w.track scan).1.inbox = w.inbox := by
  unfold Wtr.track; split <;> rfl

@[simp] theorem Wtr.track_outbox (w : Wtr) (scan : HandedScan) : (w.track scan).1.outbox = w.outbox := by
  unfold Wtr.track; split <;> rfl

end Sys2Proof.Machine
end

section
/-! PROOFS. Wear tables in the shape of R108, and what they make of a sample (R109, R113 to R116). -/

namespace Sys2Proof.Machine

/-! ## Loading -/

theorem breakpointsOf_length (n : Nat) {bytes : List Byte} (h : bytes.length = 3 * n) :
    (breakpointsOf bytes).length = n := by
  induction n generalizing bytes with
  | zero => rw [List.length_eq_zero_iff.mp h]; rfl
  | succ n ih =>
    match bytes, h with
    | _ :: _ :: _ :: rest, h => simp [breakpointsOf, ih (bytes := rest) (by simp at h; omega)]

/-- R109 stage 3 compares neighbours; the comparison carries over to any two breakpoints. -/
theorem pairwise_of_descending {ps : List (Nat × Nat)} (h : descending ps = true) :
    ps.Pairwise fun a b => a.1 < b.1 ∧ b.2 ≤ a.2 := by
  induction ps with
  | nil => exact List.Pairwise.nil
  | cons a rest ih =>
    cases rest with
    | nil => exact List.pairwise_singleton _ _
    | cons b rest =>
      simp only [descending, Bool.and_eq_true, decide_eq_true_eq] at h
      obtain ⟨⟨hw, hr⟩, hd⟩ := h
      have hrest := ih hd
      refine List.pairwise_cons.mpr ⟨List.forall_mem_cons.mpr ⟨⟨hw, hr⟩, fun p hp => ?_⟩, hrest⟩
      obtain ⟨hw', hr'⟩ := (List.pairwise_cons.mp hrest).1 p hp
      exact ⟨hw.trans hw', hr'.trans hr⟩

/-- A table that SET_WEAR_TABLE accepts has the shape of R108. -/
theorem parseWearTable_shaped {body : List Byte} {a : Fin 8 × WearTable} (h : parseWearTable body = .ok a) :
    a.2.shaped := by
  unfold parseWearTable at h
  split at h
  case h_2 => cases h
  case h_1 _ nominal count rest =>
  dsimp only at h
  split at h
  · cases h
  · rename_i hlen
    split at h
    · split at h
      · rename_i hrange
        split at h
        · rename_i hform
          cases h
          obtain ⟨hnominal, hpoints⟩ := hrange
          obtain ⟨hcount, hdesc, hheight⟩ := hform
          simp only [List.all_eq_true, Bool.and_eq_true, decide_eq_true_eq] at hpoints hheight
          refine ⟨hnominal, ?_, pairwise_of_descending hdesc, fun p hp => ⟨(hpoints p hp).1, hheight p hp⟩⟩
          rw [breakpointsOf_length count.toNat (by simpa using hlen)]
          exact hcount
        · cases h
      · cases h
    · cases h

/-! ## Valuing -/

/-- Along one segment the thickness lies between those of its ends. -/
theorem segment_between {w w0 w1 r0 r1 : Int} (h0 : w0 ≤ w) (h1 : w ≤ w1) (hw : w0 < w1) (hr : r1 ≤ r0) :
    r1 ≤ r0 + roundDiv ((w - w0) * (r1 - r0)) (w1 - w0) ∧ r0 + roundDiv ((w - w0) * (r1 - r0)) (w1 - w0) ≤ r0 := by
  have hlow : r1 - r0 ≤ roundDiv ((w - w0) * (r1 - r0)) (w1 - w0) := le_roundDiv (by omega) (by nlinarith)
  have hhigh : roundDiv ((w - w0) * (r1 - r0)) (w1 - w0) ≤ 0 := roundDiv_le (by omega) (by nlinarith)
  omega

/-- R113: within the table the thickness lies between bounds of the breakpoints' thicknesses. -/
theorem interpolate_between {w : Nat} {ps : List (Nat × Nat)} {lo hi : Int} (hne : ps ≠ [])
    (hp : ps.Pairwise fun a b => a.1 < b.1 ∧ b.2 ≤ a.2) (hb : ∀ p ∈ ps, lo ≤ (p.2 : Int) ∧ (p.2 : Int) ≤ hi)
    (hfirst : ∀ p ∈ ps.head?, p.1 ≤ w) (hlast : ∀ p ∈ ps.getLast?, w ≤ p.1) :
    lo ≤ interpolate w ps ∧ interpolate w ps ≤ hi := by
  induction ps with
  | nil => exact absurd rfl hne
  | cons a rest ih =>
    obtain ⟨w0, r0⟩ := a
    have ha := hb (w0, r0) (by simp)
    cases rest with
    | nil => exact ha
    | cons b rest =>
      obtain ⟨w1, r1⟩ := b
      have hb' := hb (w1, r1) (by simp)
      obtain ⟨hhead, htail⟩ := List.pairwise_cons.mp hp
      unfold interpolate
      split
      case isTrue hseg =>
        obtain ⟨hw, hr⟩ := hhead (w1, r1) (by simp)
        have h0 : w0 ≤ w := hfirst (w0, r0) rfl
        have h1 : w ≤ w1 := by
          rcases hseg with h | rfl
          · exact h.le
          · exact hlast (w1, r1) rfl
        have hbetween := segment_between (w := w) (w0 := w0) (w1 := w1) (r0 := r0) (r1 := r1)
          (by omega) (by omega) (by omega) (by omega)
        dsimp only at ha hb'
        omega
      case isFalse hseg =>
        rw [not_or] at hseg
        refine ih (by simp) htail (fun p hp => hb p (by simp [hp])) ?_ (fun p hp => hlast p (by simpa using hp))
        intro p hp
        cases hp
        exact Nat.not_lt.mp hseg.1

/-- R113, R114: the thickness of any face width lies within the nominal height. -/
theorem WearTable.shaped.thickness {t : WearTable} (h : t.shaped) (w : Nat) :
    0 ≤ (t.thickness w).1 ∧ (t.thickness w).1 ≤ t.nominal := by
  obtain ⟨-, hlen, hpair, hpoints⟩ := h
  have hbound : ∀ p ∈ t.points, (0 : Int) ≤ (p.2 : Int) ∧ (p.2 : Int) ≤ t.nominal := fun p hp => by
    have := (hpoints p hp).2
    omega
  unfold WearTable.thickness
  split
  case h_2 => exact ⟨le_rfl, Int.natCast_nonneg _⟩
  case h_1 w0 r0 wl rl hfirst hlast =>
  split
  case isTrue => exact hbound _ (List.mem_of_head? hfirst)
  case isFalse hw0 =>
  split
  case isTrue => exact hbound _ (List.mem_of_getLast? hlast)
  case isFalse hwl =>
  refine interpolate_between (List.ne_nil_of_length_pos (by omega)) hpair hbound ?_ ?_
  · rw [hfirst]; rintro _ ⟨⟩; exact Nat.not_lt.mp hw0
  · rw [hlast]; rintro _ ⟨⟩; exact Nat.not_lt.mp hwl

/-- R116: the wear of a thickness within the nominal height is at most 1000 per mille. -/
theorem WearTable.shaped.wear {t : WearTable} (h : t.shaped) {r : Int} (h0 : 0 ≤ r) (h1 : r ≤ t.nominal) :
    wearOk (t.wear r) := by
  have hn := h.1.1
  exact ⟨le_roundDiv (by omega) (by nlinarith), roundDiv_le (by omega) (by nlinarith)⟩

theorem valueSample_framed {table : Option WearTable} {m : Sample} (ht : ∀ t ∈ table, t.shaped) (hm : m.framed) :
    (valueSample table m).framed := by
  unfold valueSample
  split
  case h_2 => exact Sample.framed_of_unvalued hm.1 rfl rfl
  case h_1 _ _ w t _ =>
  have hshape := ht t rfl
  obtain ⟨h0, h1⟩ := hshape.thickness w
  have hn := hshape.1.2
  refine ⟨hm.1, ?_, ?_⟩
  · rintro r ⟨⟩; exact ⟨h0, by omega⟩
  · rintro q ⟨⟩; exact hshape.wear h0 h1

end Sys2Proof.Machine
end

section
/-! PROOFS. What the span unit, the limit evaluator and the host line hold of samples in range (R14, R116). -/

namespace Sys2Proof.Machine

/-! ## The span unit -/

/-- Every accumulator that holds samples is in range. -/
def AccumulatorsFramed (v : Vector (Option Accumulator) 8) : Prop := ∀ (k : Fin 8) a, v[k] = some a → a.framed

theorem accumulatorsFramed_zeroed : AccumulatorsFramed (Vector.replicate 8 none) := by
  intro k a h
  simp at h

theorem AccumulatorsFramed.set {v : Vector (Option Accumulator) 8} (h : AccumulatorsFramed v) (k : Fin 8)
    {slot : Option Accumulator} (hs : ∀ a ∈ slot, a.framed) : AccumulatorsFramed (v.set k slot) := by
  intro j a ha
  rw [set_get] at ha
  split at ha
  · exact hs a ha
  · exact h j a ha

theorem Accumulator.first_framed {m : Sample} (hm : m.framed) (chainage : Int) :
    (Accumulator.first m chainage).framed := by
  obtain ⟨hpos, hthick, -⟩ := hm
  refine ⟨hpos, hpos, fun r hr => ?_⟩
  obtain ⟨t, ht, rfl⟩ := Option.map_eq_some_iff.mp hr
  exact hthick t ht

/-- The least thickness after a sample is the one held or the sample's. -/
theorem minThicknessOf_framed {held : Option (Int × Int)} {thickness : Option Int} {chainage : Int} {r : Int × Int}
    (h : minThicknessOf held thickness chainage = some r) (hh : ∀ r ∈ held, thicknessOk r.1)
    (ht : ∀ t ∈ thickness, thicknessOk t) : thicknessOk r.1 := by
  unfold minThicknessOf at h
  split at h
  · split at h <;> cases h
    · exact ht _ rfl
    · exact hh _ rfl
  · cases h; exact ht _ rfl
  · exact hh r h

theorem Accumulator.fold_framed {a : Accumulator} (ha : a.framed) {m : Sample} (hm : m.framed) (chainage : Int) :
    (a.fold m chainage).framed := by
  obtain ⟨⟨hstagger, hmin⟩, ⟨-, hmax⟩, hthin⟩ := ha
  obtain ⟨⟨hx, hz⟩, hthick, -⟩ := hm
  have stagger : -7000 ≤ (a.fold m chainage).maxStagger.1 ∧ (a.fold m chainage).maxStagger.1 ≤ 7000 :=
    iteInduction (motive := fun s : Int × Int => -7000 ≤ s.1 ∧ s.1 ≤ 7000) (fun _ => hx) (fun _ => hstagger)
  have height {held : Int} (hheld : 0 ≤ held ∧ held ≤ 99999) (c : Prop) [Decidable c] :
      0 ≤ (if c then m.z else held) ∧ (if c then m.z else held) ≤ 99999 :=
    iteInduction (motive := fun z : Int => 0 ≤ z ∧ z ≤ 99999) (fun _ => hz) (fun _ => hheld)
  exact ⟨⟨stagger, height hmin _⟩, ⟨stagger, height hmax _⟩, fun r hr => minThicknessOf_framed hr hthin hthick⟩

theorem foldSample_framed {v : Vector (Option Accumulator) 8} (h : AccumulatorsFramed v) {m : Sample} (hm : m.framed)
    (chainage : Int) : AccumulatorsFramed (foldSample chainage v m) := by
  refine h.set m.slot ?_
  rintro _ ⟨⟩
  split
  · rename_i a ha; exact Accumulator.fold_framed (h m.slot a ha) hm chainage
  · exact Accumulator.first_framed hm chainage

theorem mem_retainEntry {l : List Accumulator} {a b : Accumulator} (h : b ∈ (retainEntry l a).1) : b ∈ l ∨ b = a := by
  unfold retainEntry at h
  split at h
  · simpa using h
  · simpa using List.mem_of_mem_eraseP h

theorem applyNotice_framed {u : Applied} (h : AccumulatorsFramed u.accumulators ∧ ∀ a ∈ u.retain, a.framed)
    (n : Notice) : AccumulatorsFramed (applyNotice u n).accumulators ∧ ∀ a ∈ (applyNotice u n).retain, a.framed := by
  obtain ⟨hacc, hret⟩ := h
  unfold applyNotice
  split
  · rename_i a ha
    refine ⟨hacc.set n.slot (by simp), fun b hb => ?_⟩
    rcases mem_retainEntry hb with hb | rfl
    · exact hret b hb
    · exact hacc n.slot b ha
  · exact ⟨hacc, hret⟩

/-- What the span unit holds is in range: its accumulators and its retain list. -/
structure Spu.Framed (u : Spu) : Prop where
  accumulators : AccumulatorsFramed u.accumulators
  retain : ∀ a ∈ u.retain, a.framed

theorem Spu.framed_of_zeroed {u : Spu} (ha : u.accumulators = Vector.replicate 8 none) (hr : u.retain = []) :
    u.Framed := ⟨ha ▸ accumulatorsFramed_zeroed, by simp [hr]⟩

theorem Spu.emptied_framed (u : Spu) : u.emptied.Framed := Spu.framed_of_zeroed rfl rfl

theorem Spu.Framed.prepare {u : Spu} (h : u.Framed) (sp : OpenSpan) (set : SampleSet) :
    (u.prepare sp set).1.Framed := by
  obtain ⟨hacc, hret⟩ := foldl_keeps
    (fun a : Applied => AccumulatorsFramed a.accumulators ∧ ∀ b ∈ a.retain, b.framed)
    (b := { accumulators := u.accumulators, retain := u.retain, isPartial := sp.flags.isPartial })
    ⟨h.accumulators, h.retain⟩ (l := set.notices) fun _ n _ ha => applyNotice_framed ha n
  exact ⟨hacc, hret⟩

/-- R148: the entries of a span record are what the span unit holds. -/
theorem Spu.Framed.record {u : Spu} (h : u.Framed) (sp : OpenSpan) (reason : SpanReason) (stop : Int) :
    (Report.span (u.record sp reason stop)).framed := by
  intro e he
  rcases List.mem_append.mp he with he | he
  · obtain ⟨a, ha, rfl⟩ := List.mem_map.mp he
    exact h.retain a ha
  · obtain ⟨k, -, hk⟩ := List.mem_filterMap.mp he
    obtain ⟨a, ha, rfl⟩ := Option.map_eq_some_iff.mp hk
    exact h.accumulators k a ha

theorem Spu.Framed.workScan {u : Spu} (h : u.Framed) (sp : OpenSpan) {set : SampleSet} (hs : set.Framed) :
    (u.workScan sp set).1.Framed ∧ ∀ r ∈ (u.workScan sp set).2.1, r.framed := by
  have hp := h.prepare sp set
  have fold : ∀ {v}, AccumulatorsFramed v → AccumulatorsFramed (set.samples.foldl (foldSample set.header.chainage) v) :=
    fun hv => foldl_keeps AccumulatorsFramed hv fun _ m hm hv => foldSample_framed hv (hs m hm) _
  unfold Spu.workScan
  dsimp only
  split
  · have hemptied := Spu.emptied_framed (u.prepare sp set).1
    exact ⟨⟨fold hemptied.accumulators, hemptied.retain⟩, List.forall_mem_singleton.mpr (hp.record _ _ _)⟩
  · exact ⟨⟨fold hp.accumulators, hp.retain⟩, List.forall_mem_nil _⟩

theorem Spu.Framed.workRunEnd {u : Spu} (h : u.Framed) (sp : OpenSpan) (set : SampleSet) :
    (u.workRunEnd sp set).1.Framed ∧ ∀ r ∈ (u.workRunEnd sp set).2, r.framed := by
  have hemptied := Spu.emptied_framed (u.prepare sp set).1
  exact ⟨⟨hemptied.accumulators, hemptied.retain⟩, List.forall_mem_singleton.mpr ((h.prepare sp set).record _ _ _)⟩

theorem Spu.Framed.loseScan {u : Spu} (h : u.Framed) (taken : Bool) (scan : Nat) : (u.loseScan taken scan).Framed := by
  unfold Spu.loseScan
  split <;> exact ⟨h.accumulators, h.retain⟩

/-! ## The limit evaluator -/

/-- The range of a quantity's values (R14, R116). -/
def Quantity.Framed (v : Int) : Quantity → Prop
  | .stagger => framed v 0
  | .heightLow => framed 0 v
  | .heightHigh => framed 0 v
  | .thickness => thicknessOk v
  | .wear => wearOk v

theorem Exceedance.framed_iff (e : Exceedance) : e.framed ↔ e.quantity.Framed e.worst := by
  unfold Exceedance.framed
  cases e.quantity <;> exact Iff.rfl

theorem Sample.framed.value {m : Sample} (h : m.framed) {q : Quantity} {v : Int} (hv : m.value q = some v) :
    q.Framed v := by
  obtain ⟨⟨hx, hz⟩, hthick, hwear⟩ := h
  cases q with
  | thickness => exact hthick v hv
  | wear => exact hwear v hv
  | stagger => cases hv; exact ⟨hx, by decide⟩
  | heightLow => cases hv; exact ⟨by decide, hz⟩
  | heightHigh => cases hv; exact ⟨by decide, hz⟩

/-- R163: the worst value after a violation is the one held or the violating one. -/
theorem Exceedance.framed.extend {e : Exceedance} (h : e.framed) {v : Int} (hv : e.quantity.Framed v) (chainage : Int)
    (role : Role) : (e.extend v chainage role).framed := by
  rw [Exceedance.framed_iff] at h ⊢
  unfold Exceedance.extend
  dsimp only
  split
  · exact hv
  · exact h

theorem extendIn_framed {id ref : Nat} {v chainage : Int} {role : Role} {es : List Exceedance}
    (h : ∀ e ∈ es, e.framed) (hv : ∀ e ∈ es.find? (hasKey id ref), e.quantity.Framed v) :
    ∀ e ∈ extendIn id ref v chainage role es, e.framed := by
  induction es with
  | nil => exact h
  | cons a rest ih =>
    obtain ⟨ha, hrest⟩ := List.forall_mem_cons.mp h
    unfold extendIn
    split
    case isTrue hk =>
      rw [List.find?_cons_of_pos hk] at hv
      exact List.forall_mem_cons.mpr ⟨ha.extend (hv a rfl) chainage role, hrest⟩
    case isFalse hk =>
      rw [List.find?_cons_of_neg hk] at hv
      exact List.forall_mem_cons.mpr ⟨ha, ih hrest hv⟩

/-- The evaluator's list and the records it offers are in range. -/
structure Work.Framed (w : Work) : Prop where
  entries : ∀ e ∈ w.entries, e.framed
  records : ∀ r ∈ w.records, r.framed

theorem closedRecord_framed {g : Gates} {e : Exceedance} (he : e.framed) (reason : CloseReason) :
    ∀ r ∈ closedRecord g e reason, r.framed := by
  unfold closedRecord
  split
  · exact List.forall_mem_singleton.mpr he
  · exact List.forall_mem_nil _

theorem onsetRecord_framed {g : Gates} {e : Exceedance} (he : e.framed) : ∀ r ∈ onsetRecord g e, r.framed := by
  unfold onsetRecord
  split
  · exact List.forall_mem_singleton.mpr he
  · exact List.forall_mem_nil _

theorem Work.Framed.closeBy {w : Work} (h : w.Framed) (g : Gates) (why : Exceedance → Option CloseReason) :
    (closeBy g why w).Framed := by
  refine ⟨fun e he => h.entries e (List.mem_filter.mp he).1, fun r hr => ?_⟩
  rcases List.mem_append.mp hr with hr | hr
  · exact h.records r hr
  · obtain ⟨e, he, hr⟩ := List.mem_flatMap.mp hr
    split at hr
    · exact closedRecord_framed (h.entries e he) _ r hr
    · cases hr

theorem Work.Framed.openEntry {w : Work} (h : w.Framed) (g : Gates) {e : Exceedance} (he : e.framed) :
    (w.openEntry g e).Framed := by
  refine ⟨fun a ha => ?_, fun r hr => ?_⟩
  · rcases List.mem_append.mp ha with ha | ha
    · exact h.entries a ha
    · rwa [List.mem_singleton.mp ha]
  · rcases List.mem_append.mp hr with hr | hr
    · exact h.records r hr
    · exact onsetRecord_framed he r hr

theorem Work.Framed.judgeQuantity {w : Work} (h : w.Framed) (g : Gates) (set : SampleSet) {m : Sample}
    (hm : m.framed) (decide : Quantity → Decision) (q : Quantity) : (judgeQuantity g set m decide w q).Framed := by
  unfold Machine.judgeQuantity
  split
  case h_2 => exact h
  case h_1 ref severity report v _ hv =>
  have hq : q.Framed v := hm.value hv
  split
  case h_1 e hfind =>
    split
    · rename_i hquantity
      refine ⟨extendIn_framed h.entries ?_, h.records⟩
      rw [hfind]
      rintro _ ⟨⟩
      rwa [hquantity]
    · exact ⟨h.entries, h.records⟩
  case h_2 =>
    split
    · exact h.openEntry g ((Exceedance.framed_iff _).mpr hq)
    · exact ⟨h.entries, h.records⟩

theorem Work.Framed.judgeSample {w : Work} (h : w.Framed) (l : Lev) (g : Gates) (set : SampleSet) {m : Sample}
    (hm : m.framed) : (l.judgeSample g set w m).Framed :=
  foldl_keeps Work.Framed (h.closeBy g _) fun _ q _ hw => hw.judgeQuantity g set hm _ q

/-- The open exceedances are in range. -/
def Lev.Framed (l : Lev) : Prop := ∀ e ∈ l.entries, e.framed

theorem Lev.Framed.work {l : Lev} (h : l.Framed) (g : Gates) {set : SampleSet} (hs : set.Framed) :
    (l.work g set).Framed := by
  have hw : Work.Framed
      { entries := l.entries, opened := l.opened, overflow := l.overflow, records := [], lost := false } :=
    ⟨h, List.forall_mem_nil _⟩
  unfold Lev.work
  dsimp only
  split
  · exact hw.closeBy g _
  · have hnotices := foldl_keeps Work.Framed hw (f := noticeCloses g) (l := set.notices) fun _ _ _ hb => hb.closeBy g _
    exact foldl_keeps Work.Framed hnotices fun _ m hm hb => hb.judgeSample l g set (hs m hm)

/-! ## The host line -/

/-- Every record in the outbound queue is in range. -/
def Hli.Framed (l : Hli) : Prop := ∀ q ∈ l.queue, q.report.framed

theorem Hli.Framed.offerAll {l : Hli} (h : l.Framed) {rs : List Report} (hr : ∀ r ∈ rs, r.framed) :
    (l.offerAll rs).Framed := fun q hq => (Hli.mem_offerAll hq).elim (h q) (hr q.report)

theorem Hli.Framed.events {l m : Hli} (h : l.Framed) (k : l.Events m) : m.Framed := by
  intro q hq
  rcases Hli.mem_events k hq with hq | ⟨e, he⟩
  · exact h q hq
  · rw [he]; trivial

theorem Hli.Framed.kick {l : Hli} (h : l.Framed) : l.kick.Framed := fun q hq => h q (Hli.mem_kick hq)

theorem Hli.received_queue (l : Hli) (f : Option HostFrame) : (l.received f).queue = l.queue := by
  unfold Hli.received
  split
  · rfl
  · split <;> rfl

theorem Hli.Framed.bytes {l : Hli} (h : l.Framed) (bs : List Byte) : (l.bytes bs).Framed :=
  foldl_keeps Hli.Framed h fun b f _ hb => by
    unfold Hli.Framed at hb ⊢
    rwa [b.received_queue f]

end Sys2Proof.Machine
end

section
/-! PROOFS. Every step keeps what is held for a report in range (R14, R108, R116), block by block and row by row. -/

namespace Sys2Proof.Machine

/-! ## The invariant, block by block -/

/-- The wear unit holds sets in range, and LOADED tables in the shape of R108. -/
structure Wru.Framed (u : Wru) : Prop where
  valuing : ∀ set ∈ u.valuing, set.Framed
  offered : ∀ o ∈ u.offered, o.set.Framed
  tables : ∀ (k : Fin 8) (t : WearTable), u.tables[k] = some t → t.shaped

/-- R14, R108 and R116 over the whole state, as an invariant of each block that holds what is reported. -/
structure State.Framed (s : State) : Prop where
  pxu : s.pxu.Framed
  wtr : s.wtr.Framed
  wru : s.wru.Framed
  spu : s.spu.Framed
  lev : s.lev.Framed
  hli : s.hli.Framed

theorem State.geometryFramed_iff (s : State) : s.geometryFramed ↔ s.Framed := by
  unfold State.geometryFramed State.sets
  simp only [List.forall_mem_append, Option.mem_toList, Option.map_eq_some_iff]
  constructor
  · rintro ⟨⟨hcurrent, hinbox⟩, htracks, ⟨⟨hoffered, hvaluing⟩, houtbox⟩, hacc, hretain, hentries, hqueue, htables⟩
    exact ⟨hcurrent, ⟨htracks, hinbox, houtbox⟩, ⟨hvaluing, fun o ho => hoffered _ ⟨o, ho, rfl⟩, htables⟩,
      ⟨hacc, hretain⟩, hentries, hqueue⟩
  · rintro ⟨hcurrent, ⟨htracks, hinbox, houtbox⟩, ⟨hvaluing, hoffered, htables⟩, ⟨hacc, hretain⟩, hentries, hqueue⟩
    exact ⟨⟨hcurrent, hinbox⟩, htracks, ⟨⟨by rintro _ ⟨o, ho, rfl⟩; exact hoffered o ho, hvaluing⟩, houtbox⟩,
      hacc, hretain, hentries, hqueue, htables⟩

theorem Pxu.framed_of_none {x : Pxu} (hx : x.current = none) : x.Framed := by simp [Pxu.Framed, hx]

theorem Wru.framed_of_none {u : Wru} (hv : u.valuing = none) (ho : u.offered = none)
    (ht : ∀ (k : Fin 8) (t : WearTable), u.tables[k] = some t → t.shaped) : u.Framed :=
  ⟨by simp [hv], by simp [ho], ht⟩

theorem Wru.Framed.value {u : Wru} (h : u.Framed) {set : SampleSet} (hs : set.Framed) : (u.value set).Framed := by
  intro m hm
  obtain ⟨a, ha, rfl⟩ := List.mem_map.mp hm
  exact valueSample_framed (fun t ht => h.tables _ t ht) (hs a ha)

/-- A trace record holds the samples of its set (R183). -/
theorem traceOf_framed {set : SampleSet} (hs : set.Framed) (decimation : Nat) :
    ∀ r ∈ traceOf decimation set, r.framed := by
  unfold traceOf
  split
  · exact List.forall_mem_singleton.mpr hs
  · exact List.forall_mem_nil _

/-! ## Rows of the scan path -/

namespace State.Framed

variable {s : State}

/-- A state that differs from one in range at most in its other blocks and in records of the line that are in range. -/
theorem of_blocks {t : State} (h : s.Framed) (pxu : t.pxu = s.pxu) (wtr : t.wtr = s.wtr) (wru : t.wru = s.wru)
    (spu : t.spu = s.spu) (lev : t.lev = s.lev) (hli : t.hli.Framed) : t.Framed :=
  ⟨pxu ▸ h.pxu, wtr ▸ h.wtr, wru ▸ h.wru, spu ▸ h.spu, lev ▸ h.lev, hli⟩

theorem offerAll (h : s.Framed) {rs : List Report} (hr : ∀ r ∈ rs, r.framed) : (s.offerAll rs).Framed :=
  { h with hli := h.hli.offerAll hr }

theorem kick (h : s.Framed) : s.kick.Framed := { h with hli := h.hli.kick }

theorem reply (h : s.Framed) (f : HostFrame) (r : Result) (data : List Byte) : (s.reply f r data).Framed :=
  { h with hli := h.hli }

theorem popped (h : s.Framed) (rest : List HostFrame) : (s.popped rest).Framed := { h with hli := h.hli }

theorem event (h : s.Framed) (e : Event) : (s.event e).Framed := { h with hli := h.hli.events (.one _ e) }

theorem headStep {t : State} (h : s.Framed) (k : HeadStep s t) : t.Framed := by
  obtain ⟨-, -, -, -, -, -, hpxu, hwtr, hwru, -, hspu, hlev⟩ := k.behind
  exact h.of_blocks hpxu hwtr hwru hspu hlev (h.hli.events k.events)

theorem extractNext (h : s.Framed) : s.extractNext.Framed := by
  unfold State.extractNext
  split
  · split
    · exact { h with pxu := extract_framed _ _ _ _ _ }
    · exact h
  · exact h

theorem handOver (h : s.Framed) : s.handOver.Framed := by
  unfold State.handOver
  split
  · rename_i scan hscan
    have hinbox : ∀ c ∈ s.wtr.inbox ++ [scan], c.Framed :=
      List.forall_mem_append.mpr ⟨h.wtr.inbox, List.forall_mem_singleton.mpr (h.pxu scan hscan)⟩
    exact { h with
      pxu := Pxu.framed_of_none rfl
      wtr := ⟨h.wtr.tracks, hinbox, h.wtr.outbox⟩ }
  · exact h

theorem trackNext (h : s.Framed) : s.trackNext.Framed := by
  unfold State.trackNext
  split
  · exact h
  · rename_i scan rest hinbox
    obtain ⟨hscan, hrest⟩ := List.forall_mem_cons.mp (hinbox ▸ h.wtr.inbox)
    obtain ⟨htable, hset⟩ := Wtr.track_framed h.wtr.tracks hscan
    have houtbox : ∀ set ∈ (s.wtr.track scan).1.outbox ++ [(s.wtr.track scan).2.1], set.Framed := by
      rw [Wtr.track_outbox]
      exact List.forall_mem_append.mpr ⟨h.wtr.outbox, List.forall_mem_singleton.mpr hset⟩
    exact { h with
      wtr := ⟨htable, hrest, houtbox⟩
      hli := h.hli.events (.many _ _) }

theorem takeSet (h : s.Framed) : s.takeSet.Framed := by
  unfold State.takeSet
  split
  · rename_i set rest _ _ houtbox
    obtain ⟨hset, hrest⟩ := List.forall_mem_cons.mp (houtbox ▸ h.wtr.outbox)
    exact { h with
      wru := ⟨by rintro _ ⟨⟩; exact hset, h.wru.offered, h.wru.tables⟩
      wtr := ⟨h.wtr.tracks, h.wtr.inbox, hrest⟩ }
  · exact h

theorem offerSet (h : s.Framed) : s.offerSet.Framed := by
  unfold State.offerSet
  split
  · rename_i set hv
    have hvalued := h.wru.value (h.wru.valuing set hv)
    have hwru : Wru.Framed { s.wru with
        valuing := none
        offered := some { set := s.wru.value set, spanTaken := false, limitTaken := false } } :=
      ⟨by rintro _ ⟨⟩, by rintro _ ⟨⟩; exact hvalued, h.wru.tables⟩
    refine offerAll ?_ (traceOf_framed hvalued _)
    exact { h with wru := hwru }
  · exact h

theorem endRun (h : s.Framed) : s.endRun.Framed := { h with hli := h.hli.events (.one _ _) }

theorem setTaken (h : s.Framed) {o : Offered} (ho : o.set.Framed) : (s.setTaken o).Framed := by
  have gone : Wru.Framed { s.wru with offered := none } := ⟨h.wru.valuing, by rintro _ ⟨⟩, h.wru.tables⟩
  unfold State.setTaken
  dsimp only
  split
  · split
    · exact endRun { h with wru := gone }
    · exact { h with wru := gone }
  · exact { h with wru := ⟨h.wru.valuing, by rintro _ ⟨⟩; exact ho, h.wru.tables⟩ }

theorem spanWork (h : s.Framed) {set : SampleSet} (hs : set.Framed) : (s.spanWork set).Framed := by
  unfold State.spanWork
  split
  · exact h
  · rename_i sp _
    split
    · obtain ⟨hspu, hrecords⟩ := h.spu.workRunEnd sp set
      refine offerAll ?_ hrecords
      exact { h with spu := hspu }
    · obtain ⟨hspu, hrecords⟩ := h.spu.workScan sp hs
      refine offerAll ?_ hrecords
      exact { h with spu := hspu }

theorem spanTake (h : s.Framed) : s.spanTake.Framed := by
  unfold State.spanTake
  split
  · rename_i o ho
    have hset := h.wru.offered o ho
    split
    · exact h
    · exact (h.spanWork hset).setTaken hset
  · exact h

theorem limitWork (h : s.Framed) {o : Offered} (ho : o.set.Framed) : (s.limitWork o).Framed := by
  have hwork := h.lev.work s.hli.gates ho
  have hspu : (if (s.lev.work s.hli.gates o.set).lost then s.spu.loseScan o.spanTaken o.set.header.scan
      else s.spu).Framed := by
    split
    · exact h.spu.loseScan _ _
    · exact h.spu
  refine offerAll ?_ hwork.records
  exact { h with lev := hwork.entries, spu := hspu }

theorem limitTake (h : s.Framed) : s.limitTake.Framed := by
  unfold State.limitTake
  split
  · rename_i o ho
    have hset := h.wru.offered o ho
    split
    · exact h
    · exact (h.limitWork hset).setTaken hset
  · exact h

/-! ## Runs -/

/-- R105: the end-of-run set has no samples. -/
theorem beginClosing (h : s.Framed) : s.beginClosing.Framed :=
  { h with wtr := ⟨tracksFramed_empty, h.wtr.inbox,
      List.forall_mem_append.mpr ⟨h.wtr.outbox, List.forall_mem_singleton.mpr (List.forall_mem_nil _)⟩⟩ }

theorem closeIfDue (h : s.Framed) : s.closeIfDue.Framed := by
  unfold State.closeIfDue
  split
  · exact h.beginClosing
  · exact h

theorem stopRun (h : s.Framed) : s.stopRun.Framed := closeIfDue { h with }

theorem startRun (h : s.Framed) (a : RunStart) : (s.startRun a).Framed :=
  { pxu := Pxu.framed_of_none rfl
    wtr := Wtr.framed_of_empty rfl rfl rfl
    wru := Wru.framed_of_none rfl rfl h.wru.tables
    spu := Spu.framed_of_zeroed rfl rfl
    lev := h.lev
    hli := Hli.Framed.events (l := { s.hli with traceDropped := 0, reportsLost := 0 }) h.hli (.one _ _) }

theorem restart (h : s.Framed) : s.restart.Framed := by
  unfold State.restart
  refine event ?_ _
  exact {
    pxu := Pxu.framed_of_none rfl
    wtr := Wtr.framed_of_empty rfl rfl rfl
    wru := Wru.framed_of_none rfl rfl h.wru.tables
    spu := Spu.framed_of_zeroed rfl rfl
    lev := List.forall_mem_nil _
    hli := List.forall_mem_nil _ }

theorem powerOn : State.powerOn.Framed :=
  { pxu := Pxu.framed_of_none rfl
    wtr := Wtr.framed_of_empty rfl rfl rfl
    wru := Wru.framed_of_none rfl rfl fun k t h => by simp [State.powerOn, Wru.powerOn] at h
    spu := Spu.framed_of_zeroed rfl rfl
    lev := List.forall_mem_nil _
    hli := List.forall_mem_nil _ }

/-! ## Triggers, pulses and time -/

theorem trigger (h : s.Framed) : s.trigger.Framed :=
  h.of_blocks (by simp) (by simp) (by simp) (by simp) (by simp) (h.hli.events s.trigger_events)

theorem pulse (h : s.Framed) (toward : CarEnd) : (s.pulse toward).Framed :=
  h.of_blocks (by simp) (by simp) (by simp) (by simp) (by simp) (h.hli.events (s.pulse_events toward))

theorem timeDue (h : s.Framed) : s.timeDue.Framed :=
  h.of_blocks (by simp) (by simp) (by simp) (by simp) (by simp) (h.hli.events s.timeDue_events)

theorem motionEnd (h : s.Framed) (codes : Vector Nat 4) : (s.motionEnd codes).Framed :=
  h.of_blocks (by simp) (by simp) (by simp) (by simp) (by simp) (h.hli.events (s.motionEnd_events codes))

theorem tick (h : s.Framed) : s.tick.Framed := by
  have helapsed : s.elapse.Framed := { h with }
  have hexpired := (helapsed.headStep (.expireWindows _)).headStep (.expireClearing _)
  unfold State.tick
  dsimp only
  split
  · exact hexpired.timeDue
  · exact hexpired

/-! ## Rows and steps -/

theorem happens {c : Instr} {t : State} (h : s.Framed) (k : Happens c s t) : t.Framed := by
  by_cases hc : onHeads c = true
  · exact h.headStep (.ofHappens k hc)
  cases k with
  | hostFrame bytes => exact { h with hli := h.hli.bytes bytes }
  | transmissionEnd => exact { h with hli := h.hli }
  | mastPulse => exact { h with }
  | odometerPulse toward => exact h.pulse toward
  | timeTriggerDue => exact h.timeDue
  | motionSequenceEnd => exact h.motionEnd _
  | scanExtraction => exact h.extractNext
  | candidateListHandover => exact h.handOver
  | trackScan => exact h.trackNext
  | setValuing => exact h.takeSet
  | setOffer => exact h.offerSet
  | spanSetTake => exact h.spanTake
  | limitSetTake => exact h.limitTake
  | closingWork => exact h.closeIfDue
  | ready | profile | headUnusableFrame | headBadFrame | clearingTimerExpiry | responseWindowExpiry =>
    exact absurd rfl hc

/-- Of the host commands only SET_WEAR_TABLE touches the tables; what it loads is judged by its own lemma. -/
theorem takes {c : Instr} {t : State} (h : s.Framed) (k : Takes c s t) (hw : c ≠ .setWearTable) : t.Framed := by
  by_cases hc : onHeads c = true
  · exact h.headStep (.ofTakes k hc)
  cases k with
  | setWearTable => exact absurd rfl hw
  | setHead | setExtract => exact { h with pxu := h.pxu }
  | setTracker => exact { h with wtr := ⟨h.wtr.tracks, h.wtr.inbox, h.wtr.outbox⟩ }
  | setRule | setPolicy => exact { h with lev := h.lev }
  | setReporting => exact { h with spu := ⟨h.spu.accumulators, h.spu.retain⟩, hli := h.hli }
  | getStatus | getTracks => exact h
  | setTestProfile | setMotion | setDefaultSection | clearRoute | appendSection | setTrigger | positionFix =>
    exact { h with }
  | startRun a => exact h.startRun a
  | stopRun => exact h.stopRun
  | scanOnce => exact h.trigger
  | restart => exact h.restart
  | headInit | headRestore | headIsolate | headIsolateClearing | headDisabled | headDisable | headDisableIdle
  | testSourceOn | testSourceOff => exact absurd rfl hc

theorem becomes {c : Instr} {t : State} (h : s.Framed) (k : Becomes c s t) (hw : c ≠ .setWearTable) : t.Framed := by
  cases k with
  | same => exact h
  | happens k => exact h.happens k
  | answered f rest r => exact (h.popped rest).reply f r []
  | taken f rest data _ k => exact ((h.popped rest).takes k hw).reply f .done data

theorem loadTable (h : s.Framed) {a : Fin 8 × WearTable} (ha : a.2.shaped) : (s.loadTable a).Framed := by
  refine { h with wru := ⟨h.wru.valuing, h.wru.offered, fun k t ht => ?_⟩ }
  change (s.wru.tables.set a.1 (some a.2))[k] = some t at ht
  rw [set_get] at ht
  split at ht
  · cases ht; exact ha
  · exact h.wru.tables k t ht

/-- SET_WEAR_TABLE loads no table that R109 refuses. -/
theorem exec_setWearTable {t : State} (h : s.Framed) (k : exec .setWearTable s = .next t) : t.Framed := by
  rcases act_inv k with ⟨-, rfl⟩ | ⟨-, rfl⟩
  · exact h
  refine kick ?_
  rcases takeCommand_cases (ofKind 0x16) inStandby
    (fun f t => judged (parseWearTable f.body) State.loadTable t) s with hsame | ⟨f, rest, -, -, -, htaken⟩
  · rwa [hsame]
  rcases htaken with ⟨r, -, heq⟩ | ⟨r, -, -, heq⟩ | ⟨u, data, -, hwork, heq⟩
  · rw [heq]; exact (h.popped rest).reply f r []
  · rw [heq]; exact (h.popped rest).reply f r []
  · obtain ⟨a, hparsed, rfl⟩ := judged_taken_inv hwork
    rw [heq]
    exact ((h.popped rest).loadTable (parseWearTable_shaped hparsed)).reply f .done data

theorem step {t : State} (h : s.Framed) (k : step s = .next t) : t.Framed := by
  rcases step_becomes k with ⟨-, -, rfl⟩ | ⟨-, -, rfl⟩ | ⟨c, rest, hq, hcases⟩
  · exact h
  · exact h.tick.kick
  have hrest : State.Framed { s with pending := rest } := { h with }
  rcases hcases with ⟨-, rfl⟩ | ⟨-, rfl⟩ | ⟨-, rfl⟩ | ⟨-, u, hu, rfl⟩
  · exact hrest
  · exact { h with hli := h.hli }
  · have hreset : State.Framed { State.powerOn with pending := rest } := { powerOn with }
    exact (hreset.event _).kick
  · by_cases hw : c = .setWearTable
    · subst hw
      refine hrest.exec_setWearTable ?_
      rw [← k, Machine.step, hq]
    · exact (hrest.becomes hu hw).kick

end State.Framed

/-- Settles O56: each block's invariant is kept by every row, and what passes between blocks carries it along. -/
theorem geometryStaysFramed : Obligations.GeometryStaysFramed := by
  intro s t hs h
  rw [State.geometryFramed_iff] at hs ⊢
  exact hs.step h

end Sys2Proof.Machine
end

section
/-! PROOFS. An open answer closes, and its scan is settled (R51); ISOLATE and DISABLE, which close one (R38, R39). -/

namespace Sys2Proof.Machine

/-! ## Completion, record by record (R51) -/

theorem ScanRecord.closed_iff (r : ScanRecord) : r.closed = true ↔ ∀ h : HeadNo, (r.answers[h]).isOpen = false := by
  have every : ∀ h : HeadNo, h ∈ heads4 := by decide
  simp [ScanRecord.closed, every]

theorem ScanRecord.isComplete_iff (r : ScanRecord) : r.isComplete = true ↔
    r.stage = .gathering ∧ (∀ h : HeadNo, (r.answers[h]).isOpen = false) ∧ r.motion.isSome = true := by
  simp [ScanRecord.isComplete, ScanRecord.closed_iff, and_assoc]

theorem ScanRecord.settled_eq (r : ScanRecord) :
    r.settled = if r.isComplete then { r with stage := .complete } else r := by
  unfold ScanRecord.settled
  simp only [← ScanRecord.isComplete_iff]
  split <;> rfl

theorem ScanRecord.settled_of_not_complete {r : ScanRecord} (h : r.isComplete = false) : r.settled = r := by
  simp [ScanRecord.settled_eq, h]

theorem Hlc.complete_scans (c : Hlc) : c.complete.scans = c.scans.map ScanRecord.settled :=
  List.map_congr_left fun r _ => r.settled_eq.symm

theorem State.banksOwned.owned {s : State} (h : s.banksOwned) : s.hlc.Owned := by
  obtain ⟨apart, used, unused, -⟩ := h
  exact ⟨apart, used, unused⟩

theorem State.banksOwned.not_complete {s : State} (h : s.banksOwned) : ∀ r ∈ s.hlc.scans, r.isComplete = false := by
  obtain ⟨-, -, -, -, -, -, -, -, -, gathers, -⟩ := h
  intro r hr
  rw [Bool.eq_false_iff, ne_eq, ScanRecord.isComplete_iff]
  rintro ⟨hstage, hclosed, hmotion⟩
  rcases gathers r hr hstage with hnone | ⟨h, hopen⟩
  · simp [hnone] at hmotion
  · exact absurd hopen (by rw [hclosed h]; decide)

/-! ## The closing of an open answer -/

/-- The answer is written into the record that is found, and no other changes. -/
theorem answerIn_of_find {h : HeadNo} (a : Answer) {l : List ScanRecord} {r : ScanRecord}
    (hr : l.find? (fun x => (x.answers[h]).isOpen) = some r) :
    ∃ before behind, l = before ++ r :: behind ∧
      answerIn h a l = before ++ { r with answers := r.answers.set h a } :: behind := by
  induction l with
  | nil => cases hr
  | cons x rest ih =>
    by_cases hx : (x.answers[h]).isOpen = true
    · simp only [List.find?_cons, hx, Option.some.injEq] at hr
      subst hr
      exact ⟨[], rest, rfl, by simp only [answerIn, hx, if_true, List.nil_append]⟩
    · simp only [List.find?_cons, hx] at hr
      obtain ⟨before, behind, hl, hin⟩ := ih hr
      exact ⟨x :: before, behind, by rw [hl]; rfl, by simp only [answerIn, hx, hin]; rfl⟩

/-- Where no two records share a parity, the record that is found is the only one with its scan number. -/
theorem answerIn_eq_map {h : HeadNo} (a : Answer) {l : List ScanRecord} {r : ScanRecord}
    (apart : l.Pairwise fun x y => parity x.header.scan ≠ parity y.header.scan)
    (hr : l.find? (fun x => (x.answers[h]).isOpen) = some r) :
    answerIn h a l =
      l.map fun x => if x.header.scan = r.header.scan then { x with answers := x.answers.set h a } else x := by
  obtain ⟨before, behind, rfl, hin⟩ := answerIn_of_find a hr
  obtain ⟨-, hbehind, hbefore⟩ := List.pairwise_append.mp apart
  have skip : ∀ m : List ScanRecord, (∀ x ∈ m, x.header.scan ≠ r.header.scan) →
      (m.map fun x => if x.header.scan = r.header.scan then { x with answers := x.answers.set h a } else x) = m :=
    fun m hm => (List.map_congr_left fun x hx => if_neg (hm x hx)).trans m.map_id
  rw [hin, List.map_append, List.map_cons, if_pos rfl, skip before, skip behind]
  · exact fun x hx e => (List.pairwise_cons.mp hbehind).1 x hx (by rw [e])
  · exact fun x hx e => hbefore x hx r List.mem_cons_self (by rw [e])

theorem State.closeAnswer_scans (s : State) (h : HeadNo) (a : Answer) :
    (s.closeAnswer h a).hlc.scans = (answerIn h a s.hlc.scans).map ScanRecord.settled :=
  Hlc.complete_scans _

theorem State.closeAnswer_answerIs {s : State} {h : HeadNo} {r : ScanRecord} (a : Answer)
    (hr : s.openScan h = some r) : (s.closeAnswer h a).answerIs r.header.scan h a := by
  obtain ⟨before, behind, -, hin⟩ := answerIn_of_find a hr
  refine ⟨ScanRecord.settled { r with answers := r.answers.set h a }, ?_, rfl, ?_⟩
  · rw [State.closeAnswer_scans, hin]
    exact List.mem_map_of_mem (List.mem_append_right _ List.mem_cons_self)
  · simp [ScanRecord.settled]

/-- R51 of a closing, where the bank pairs follow the records: the record of the open answer alone changes. -/
theorem State.closeAnswer_answerTakes {s : State} {h : HeadNo} {r : ScanRecord} (a : Answer) (hs : s.banksOwned)
    (hr : s.openScan h = some r) : s.answerTakes (s.closeAnswer h a) r h a := by
  obtain ⟨apart, -, unused⟩ := hs.owned
  have step := HeadStep.closeAnswer s h a
  obtain ⟨-, used', unused'⟩ := step.owned hs.owned
  refine ⟨?_, used', fun k hk => ?_⟩
  · rw [State.closeAnswer_scans, answerIn_eq_map a apart hr, List.map_map]
    refine List.map_congr_left fun x hx => ?_
    by_cases e : x.header.scan = r.header.scan
    · simp only [Function.comp, if_pos e]
    · simp only [Function.comp, if_neg e, ScanRecord.settled_of_not_complete (hs.not_complete x hx)]
  · rw [unused k hk]
    refine unused' k fun x hx => ?_
    have hcore : x.core ∈ s.hlc.scans.map ScanRecord.core := step.core ▸ List.mem_map_of_mem hx
    obtain ⟨y, hy, e⟩ := List.mem_map.mp hcore
    have hheader : y.header = x.header := congrArg Prod.fst e
    exact hheader ▸ hk y hy

/-! ## HEAD_CONTROL on a head by its number (R170) -/

theorem headOf_val (h : HeadNo) : headOf (BitVec.ofNat 8 h.val).toNat = some h := by
  have hval : (BitVec.ofNat 8 h.val).toNat = h.val := by
    rw [BitVec.toNat_ofNat]
    exact Nat.mod_eq_of_lt (by omega)
  simp [headOf, hval]

theorem headControlRow_names {f : HostFrame} {h code : Byte} (hk : f.kind = 0x11) (hb : f.body = [h, code]) :
    headControlRow code f = true := by
  simp [headControlRow, hk, hb]

theorem headControlWork_names {f : HostFrame} {h : HeadNo} {code : Byte} (action : HeadNo → State → Verdict) (s : State)
    (hb : f.body = [BitVec.ofNat 8 h.val, code]) : headControlWork code action f s = action h s := by
  simp only [headControlWork, hb, headOf_val, if_true]

/-! ## A head leaves its state by command (R38, R39) -/

/-- An ACTIVE head's open answer closes with reason COMMAND; a head in another state is not asked. -/
def State.closeIfActive (s : State) (h : HeadNo) : State :=
  if (s.head h).state = .active then s.closeByCommand h else s

/-- What ISOLATE and DISABLE share: the open answer of an ACTIVE head closes, and then the head becomes `x`. -/
def State.leaveByCommand (s : State) (h : HeadNo) (x : Head) : State := (s.closeIfActive h).moveHead h x

theorem headIsolateAction_leaves {s : State} {h : HeadNo}
    (hst : (s.head h).state = .active ∨ (s.head h).state = .clearing) :
    headIsolateAction h s =
      .taken (s.leaveByCommand h { s.head h with state := .isolated .command, clearing := none }) [] := by
  unfold headIsolateAction State.leaveByCommand State.closeIfActive
  rcases hst with hst | hst <;> simp [hst]

theorem headIsolateAction_refused {s : State} {h : HeadNo}
    (hst : (s.head h).state = .disabled ∨ ∃ r, (s.head h).state = .isolated r) :
    headIsolateAction h s = .refused .invalidCombination := by
  unfold headIsolateAction
  rcases hst with hst | ⟨r, hst⟩ <;> simp [hst]

theorem headDisableAction_disabled {s : State} {h : HeadNo} (hst : (s.head h).state = .disabled) :
    headDisableAction h s = .taken s [] := by
  simp [headDisableAction, hst]

theorem headDisableAction_leaves {s : State} {h : HeadNo} (hst : (s.head h).state ≠ .disabled) :
    headDisableAction h s = .taken
      (s.leaveByCommand h { s.head h with state := .disabled, clearing := none, misses := 0, window := false }) [] := by
  unfold headDisableAction State.leaveByCommand State.closeIfActive
  cases e : (s.head h).state <;> simp_all

theorem State.closeIfActive_of_open {s : State} {h : HeadNo} {r : ScanRecord} (hst : (s.head h).state = .active)
    (hr : s.openScan h = some r) : s.closeIfActive h = s.closeAnswer h (.absent .command) := by
  simp [State.closeIfActive, State.closeByCommand, hst, hr]

theorem State.closeIfActive_of_none {s : State} {h : HeadNo}
    (hno : (s.head h).state ≠ .active ∨ s.openScan h = none) : s.closeIfActive h = s := by
  unfold State.closeIfActive State.closeByCommand
  rcases hno with hst | hr
  · rw [if_neg hst]
  · simp [hr]

/-- A closing, or nothing: what holds of both holds of `closeIfActive`. -/
theorem State.closeIfActive_cases (s : State) (h : HeadNo) :
    s.closeIfActive h = s.closeAnswer h (.absent .command) ∨ s.closeIfActive h = s := by
  by_cases hst : (s.head h).state = .active
  · cases hr : s.openScan h with
    | none => exact .inr (closeIfActive_of_none (.inr hr))
    | some r => exact .inl (closeIfActive_of_open hst hr)
  · exact .inr (closeIfActive_of_none (.inl hst))

@[simp] theorem State.head_closeIfActive (s : State) (h j : HeadNo) : (s.closeIfActive h).head j = s.head j := by
  rcases s.closeIfActive_cases h with e | e
  · rw [e]; rfl
  · rw [e]

@[simp] theorem State.closeIfActive_hli (s : State) (h : HeadNo) : (s.closeIfActive h).hli = s.hli := by
  rcases s.closeIfActive_cases h with e | e
  · rw [e]; rfl
  · rw [e]

@[simp] theorem State.closeIfActive_lastActive (s : State) (h : HeadNo) :
    (s.closeIfActive h).lastActive h = s.lastActive h := by
  rcases s.closeIfActive_cases h with e | e
  · rw [e]; rfl
  · rw [e]

theorem State.closeIfActive_sameBehindHeads (s : State) (h : HeadNo) : s.sameBehindHeads (s.closeIfActive h) := by
  rcases s.closeIfActive_cases h with e | e <;> rw [e]
  · exact (HeadStep.closeAnswer s h _).behind
  · exact s.sameBehindHeads_refl

theorem State.closeIfActive_sameBanks (s : State) (h : HeadNo) : s.sameBanks (s.closeIfActive h) := by
  rcases s.closeIfActive_cases h with e | e <;> rw [e]
  · exact s.closeAnswer_sameBanks h _
  · exact s.sameBanks_refl

theorem State.leaveByCommand_eq (s : State) (h : HeadNo) {x : Head} (hx : x.state ≠ .active) :
    s.leaveByCommand h x =
      { (s.closeIfActive h).setHead h x with hli := s.hli.headMoved h x.state (s.lastActive h) } := by
  have leaves : (x.state != .active) = true := bne_iff_ne.mpr hx
  simp [State.leaveByCommand, State.moveHead_eq, leaves]

/-- From `s` to `t` the head `h` left its state by command and became `x`, and `line` is what stands on the host line
after it: R38 and R39 but for the head's own fields. -/
def State.leftByCommand (s t : State) (h : HeadNo) (x : Head) (line : Hli) : Prop :=
  t.head h = x ∧ (∀ j, j ≠ h → t.head j = s.head j) ∧ s.sameBehindHeads t ∧ t.hli = line ∧ s.sameBanks t ∧
  ((s.head h).state ≠ .active ∨ s.openScan h = none → t.hlc.scans = s.hlc.scans ∧ t.hlc.pairs = s.hlc.pairs) ∧
  ((s.head h).state = .active → ∀ r, s.openScan h = some r →
    t.answerIs r.header.scan h (.absent .command) ∧ (s.banksOwned → s.answerTakes t r h (.absent .command)))

theorem State.leaveByCommand_left (s : State) (h : HeadNo) {x : Head} (hx : x.state ≠ .active) :
    s.leftByCommand (s.leaveByCommand h x) h x (s.hli.headMoved h x.state (s.lastActive h)) := by
  rw [s.leaveByCommand_eq h hx]
  refine ⟨State.head_setHead_same _ _ _, fun j hj => ?_, s.closeIfActive_sameBehindHeads h, rfl,
    s.closeIfActive_sameBanks h, fun hno => ?_, fun hst r hr => ?_⟩
  · exact (State.head_setHead_ne _ x hj).trans (s.head_closeIfActive h j)
  · rw [State.closeIfActive_of_none hno]
    exact ⟨rfl, rfl⟩
  · rw [State.closeIfActive_of_open hst hr]
    exact ⟨State.closeAnswer_answerIs _ hr, fun hs => State.closeAnswer_answerTakes _ hs hr⟩

/-- The reply to a command, and its frame's leaving of the holding list, touch the host line alone. -/
theorem State.leftByCommand.answered {s u : State} {rest : List HostFrame} {h : HeadNo} {x : Head} {line : Hli}
    (hu : (s.popped rest).leftByCommand u h x line) (f : HostFrame) (result : Result) (data : List Byte) :
    s.leftByCommand (u.answered f result data) h x (line.answered f result data) := by
  obtain ⟨hhead, hothers, hbehind, rfl, hbanks, hnone, hopen⟩ := hu
  exact ⟨hhead, hothers, hbehind, rfl, hbanks, hnone, hopen⟩

section HeadControl

variable {s : State} {f : HostFrame} {rest : List HostFrame} {h : HeadNo}

theorem exec_headIsolate_leaves (hf : s.holds f rest) (hk : f.kind = 0x11) (hb : f.body = [BitVec.ofNat 8 h.val, 2])
    (hst : (s.head h).state = .active ∨ (s.head h).state = .clearing) :
    exec .headIsolate s = .next (((s.popped rest).leaveByCommand h
      { s.head h with state := .isolated .command, clearing := none }).answered f .done []) :=
  act_take_taken hf (headControlRow_names hk hb) rfl
    ((headControlWork_names _ _ hb).trans (headIsolateAction_leaves (s := s.popped rest) hst))

theorem exec_headIsolate_refused (hf : s.holds f rest) (hk : f.kind = 0x11) (hb : f.body = [BitVec.ofNat 8 h.val, 2])
    (hst : (s.head h).state = .disabled ∨ ∃ r, (s.head h).state = .isolated r) :
    exec .headIsolate s = .next ((s.popped rest).answered f .invalidCombination []) :=
  act_take_refused hf (headControlRow_names hk hb) rfl
    ((headControlWork_names _ _ hb).trans (headIsolateAction_refused (s := s.popped rest) hst))

theorem exec_headDisable_disabled (hf : s.holds f rest) (hk : f.kind = 0x11) (hb : f.body = [BitVec.ofNat 8 h.val, 3])
    (hst : (s.head h).state = .disabled) : exec .headDisable s = .next ((s.popped rest).answered f .done []) :=
  act_take_taken hf (headControlRow_names hk hb) rfl
    ((headControlWork_names _ _ hb).trans (headDisableAction_disabled (s := s.popped rest) hst))

theorem exec_headDisable_leaves (hf : s.holds f rest) (hk : f.kind = 0x11) (hb : f.body = [BitVec.ofNat 8 h.val, 3])
    (hst : (s.head h).state ≠ .disabled) :
    exec .headDisable s = .next (((s.popped rest).leaveByCommand h
      { s.head h with state := .disabled, clearing := none, misses := 0, window := false }).answered f .done []) :=
  act_take_taken hf (headControlRow_names hk hb) rfl
    ((headControlWork_names _ _ hb).trans (headDisableAction_leaves (s := s.popped rest) hst))

end HeadControl

/-- Settles O22: both commands are one leaving of the head's state, whose only effect behind the head is the closing of
its open answer. -/
theorem headIsolateAndDisable : Obligations.HeadIsolateAndDisable := by
  intro s f rest h hf hk reported
  refine ⟨fun hb => ⟨fun hst => ⟨_, exec_headIsolate_leaves hf hk hb hst, ?_⟩,
      exec_headIsolate_refused hf hk hb⟩,
    fun hb => ⟨exec_headDisable_disabled hf hk hb, fun hst => ⟨_, exec_headDisable_leaves hf hk hb hst, ?_⟩⟩⟩
  · obtain ⟨hhead, hothers, hbehind, hline, hbanks, hnone, hopen⟩ :=
      ((s.popped rest).leaveByCommand_left h (x := { s.head h with state := .isolated .command, clearing := none })
        (by simp)).answered f .done []
    exact ⟨hhead, hothers, hbehind, hline, hbanks,
      fun hno => hnone (hno.imp_left fun (hc : (s.head h).state = .clearing) => by simp [hc]), hopen⟩
  · exact ((s.popped rest).leaveByCommand_left h (by simp)).answered f .done []

end Sys2Proof.Machine
end

section
/-! PROOFS. What a transducer channel makes of its code (R59 to R62), branch by branch. -/

namespace Sys2Proof.Machine

/-- Limiting, in the order of R59: to the upper bound, then to the lower. -/
theorem clamp_eq_max_min {lo hi : Int} (h : lo ≤ hi) (v : Int) : clamp lo hi v = max lo (min hi v) := by
  unfold clamp
  split
  case isTrue hlow => omega
  case isFalse hlow => split <;> omega

theorem displacement_eq (cfg : ChannelConfig) (code : Nat) :
    displacement cfg code = max (-2000) (min 2000 (roundDiv (((code : Int) - cfg.zero) * cfg.scale) 1024)) :=
  clamp_eq_max_min (by decide) _

section JudgeCode

variable {c : Channel} {code : Nat}

/-- R59: the code is in range. -/
theorem judgeCode_inRange (ha : c.state = .armed) (hlow : c.config.low ≤ code) (hhigh : code ≤ c.config.high) :
    judgeCode c code =
      { channel := { c with last := some (displacement c.config code), count := 0 },
        value := some (displacement c.config code), held := false, failed := false } := by
  simp [judgeCode, ha, hlow, hhigh]

/-- R60, R61: the code is out of range, and what becomes of the channel turns on the raised count alone. -/
theorem judgeCode_outOfRange (ha : c.state = .armed) (hout : code < c.config.low ∨ c.config.high < code) :
    judgeCode c code =
      if c.count + 1 < 16 then
        { channel := { c with count := c.count + 1 }, value := some (c.last.getD 0), held := true, failed := false }
      else
        { channel := { c with count := c.count + 1, state := .failed }, value := none, held := false,
          failed := true } := by
  have hrange : ¬ (c.config.low ≤ code ∧ code ≤ c.config.high) := by omega
  simp [judgeCode, ha, hrange]

/-- R61, R62: a FAILED or OFF channel does not judge its code. -/
theorem judgeCode_notArmed (ha : c.state ≠ .armed) :
    judgeCode c code = { channel := c, value := none, held := false, failed := false } := by
  unfold judgeCode
  split
  case h_1 harmed => exact absurd harmed ha
  case h_2 => rfl

end JudgeCode

/-- Settles O30: the rounded quotient is the model's own, and the branches are those of the range, the raised count and
the channel's state. -/
theorem channelJudgement : Obligations.ChannelJudgement := by
  intro c code
  refine ⟨fun ha hlow hhigh => ⟨_, roundDiv_rounds _ (by decide), ?_⟩, fun ha hout hcount => ?_,
    fun ha hout hcount => ?_, judgeCode_notArmed⟩
  · rw [judgeCode_inRange ha hlow hhigh, displacement_eq]
  · rw [judgeCode_outOfRange ha hout, if_pos (by omega)]
  · rw [judgeCode_outOfRange ha hout, if_neg (by omega)]

end Sys2Proof.Machine
end

section
/-! PROOFS. The candidate list of a scan (R76 to R80): the sequence, the pieces it is cut into, the caps, and the values
of a group. -/

namespace Sys2Proof.Machine

/-! ## The sequence (R77) -/

theorem sortBy_concat {α : Type} (less : α → α → Bool) (l : List α) (a : α) :
    sortBy less (l ++ [a]) = insertBy less a (sortBy less l) := by
  simp [sortBy]

/-- Among the elements of one key, an insertion into a sorted list puts the new one last. -/
theorem filter_insertBy_of_sorted {α : Type} {key : α → Int} (v : Int) (a : α) {l : List α}
    (hl : l.Pairwise fun a b => key a ≤ key b) :
    (insertBy (fun a b => key a < key b) a l).filter (fun c => key c = v) =
      (l ++ [a]).filter (fun c => key c = v) := by
  induction l with
  | nil => rfl
  | cons b l ih =>
    obtain ⟨hb, hl⟩ := List.pairwise_cons.mp hl
    unfold insertBy
    split
    case isTrue hlt =>
      have hab : key a < key b := of_decide_eq_true hlt
      have above : ∀ c ∈ b :: l, key a < key c :=
        List.forall_mem_cons.mpr ⟨hab, fun c hc => hab.trans_le (hb c hc)⟩
      by_cases ha : key a = v
      · have none_left : (b :: l).filter (fun c => key c = v) = [] := by
          refine List.filter_eq_nil_iff.mpr fun c hc => ?_
          have := above c hc
          simp; omega
        rw [List.filter_append, none_left, List.filter_cons, none_left]
        simp [ha]
      · simp [List.filter_cons, ha]
    case isFalse => rw [List.cons_append, List.filter_cons, List.filter_cons, ih hl]

/-- A sort by a key leaves the elements of each key as they stood. -/
theorem filter_sortBy_key {α : Type} (key : α → Int) (v : Int) (l : List α) :
    (sortBy (fun a b => key a < key b) l).filter (fun c => key c = v) = l.filter (fun c => key c = v) := by
  induction l using List.reverseRecOn with
  | nil => rfl
  | append_singleton l a ih =>
    rw [sortBy_concat, filter_insertBy_of_sorted v a (sortBy_sorted key l), List.filter_append, ih, List.filter_append]

theorem sequenceOf_sorted (ys : List HeadYield) : (sequenceOf ys).Pairwise fun a b => a.x ≤ b.x :=
  sortBy_sorted Candidate.x _

/-! ## The groups (R78) -/

/-- R78: the three conditions, the comparison being with the group's first member. -/
theorem joinsGroup_cons_iff {set : ExtractSettings} {first c : Candidate} {tail : List Candidate} :
    joinsGroup set (first :: tail) c = true ↔ c.head ∉ (first :: tail).map (·.head) ∧
      (c.x - first.x).natAbs ≤ set.mergeX ∧ (c.z - first.z).natAbs ≤ set.mergeZ := by
  simp [joinsGroup, and_assoc, eq_comm (a := c.head)]

/-- What R78 keeps true of the group opened last: no head stands twice in it, and its first member is near every other. -/
def Merged (set : ExtractSettings) (g : List Candidate) : Prop :=
  (g.map (·.head)).Nodup ∧ ∀ first rest, g = first :: rest →
    ∀ c ∈ rest, (c.x - first.x).natAbs ≤ set.mergeX ∧ (c.z - first.z).natAbs ≤ set.mergeZ

theorem merged_singleton (set : ExtractSettings) (c : Candidate) : Merged set [c] := by
  refine ⟨by simp, fun first rest h => ?_⟩
  obtain ⟨-, rfl⟩ := List.cons.inj h
  simp

theorem Merged.concat {set : ExtractSettings} {g : List Candidate} {c : Candidate} (hg : Merged set g)
    (hj : joinsGroup set g c = true) : Merged set (g ++ [c]) := by
  cases g with
  | nil => cases hj
  | cons first tail =>
    obtain ⟨hheads, hnear⟩ := hg
    obtain ⟨hhead, hc⟩ := joinsGroup_cons_iff.mp hj
    constructor
    · rw [List.map_append, List.nodup_append]
      refine ⟨hheads, by simp, fun h hh k hk => ?_⟩
      obtain rfl : k = c.head := by simpa using hk
      rintro rfl
      exact hhead hh
    · intro first' rest h
      obtain ⟨rfl, rfl⟩ := List.cons.inj h
      exact List.forall_mem_append.mpr ⟨hnear _ _ rfl, by simpa using hc⟩

/-- There are four heads. -/
theorem Merged.length_le {set : ExtractSettings} {g : List Candidate} (hg : Merged set g) : g.length ≤ 4 := by
  have := hg.1.length_le_card
  simpa using this

theorem groups_merged {set : ExtractSettings} {cs g : List Candidate} (hg : g ∈ groups set cs) : Merged set g := by
  cases cs with
  | nil => cases hg
  | cons c cs =>
    exact groupsFrom_keeps set (Merged set) (merged_singleton set) (fun _ _ h hj => h.concat hj) cs [c]
      (merged_singleton set c) g hg

theorem groups_next {set : ExtractSettings} {cs g more : List Candidate} {next : Candidate}
    {a b : List (List Candidate)} (h : groups set cs = a ++ g :: (next :: more) :: b) :
    joinsGroup set g next = false := by
  cases cs with
  | nil => simp [groups] at h
  | cons c cs => exact groupsFrom_next set cs [c] h

/-- R78: the candidate that opened the next group failed one of the three conditions. -/
theorem not_joinsGroup_cons {set : ExtractSettings} {first c : Candidate} {tail : List Candidate}
    (h : joinsGroup set (first :: tail) c = false) :
    c.head ∈ (first :: tail).map (·.head) ∨ set.mergeX < (c.x - first.x).natAbs ∨
      set.mergeZ < (c.z - first.z).natAbs := by
  by_contra hall
  simp only [not_or, not_lt] at hall
  rw [joinsGroup_cons_iff.mpr hall] at h
  cases h

/-! ## The caps (R76, R80) -/

/-- What `keepFirst` keeps, by any spelling of the order in which it ranks the elements. -/
theorem keepFirst_eq_of_ahead {α : Type} {less : α → α → Bool} (ho : Orders less) (n : Nat) (l : List α)
    {ahead : α × Nat → α × Nat → Prop} [DecidableRel ahead]
    (h : ∀ b a, ahead b a ↔ less b.1 a.1 = true ∨ (less a.1 b.1 = false ∧ b.2 < a.2)) :
    keepFirst less n l =
      (l.zipIdx.filter fun a => (l.zipIdx.filter fun b => ahead b a).length < n).map (·.1) := by
  have rank : ∀ a b : α × Nat, (less b.1 a.1 || (!less a.1 b.1 && decide (b.2 < a.2))) = decide (ahead b a) := by
    intro a b
    rw [Bool.eq_iff_iff, decide_eq_true_iff, h]
    simp
  rw [keepFirst_eq ho]
  simp only [rank]

theorem headCap_eq_keepFirst (cs : List Candidate) : headCap cs = keepFirst keptBefore 6 cs := by
  unfold headCap
  split
  case isTrue h => exact (keepFirst_all keptBefore_orders h).symm
  case isFalse => rfl

theorem scanCap_eq_keepFirst (gs : List Group) : scanCap gs = keepFirst (fun a b => a.z < b.z) 12 gs := by
  unfold scanCap
  split
  case isTrue h => exact (keepFirst_all lower_orders h).symm
  case isFalse => rfl

theorem keptBefore_iff {a b : Candidate} : keptBefore a b = true ↔ a.z < b.z ∨ (a.z = b.z ∧ b.count < a.count) := by
  simp [keptBefore]

/-! ## The values of a group (R79) -/

theorem foldl_maxFace_mem (faces : List (Option Nat)) (f : Option Nat) : faces.foldl maxFace f ∈ f :: faces := by
  induction faces generalizing f with
  | nil => simp
  | cons e faces ih =>
    have one_of : maxFace f e = f ∨ maxFace f e = e := by
      rcases f with _ | v <;> rcases e with _ | w
      case some.some => rcases le_total v w with h | h <;> simp [maxFace, h]
      all_goals simp [maxFace]
    rcases List.mem_cons.mp (ih (maxFace f e)) with h | h
    · rw [List.foldl_cons, h]
      rcases one_of with h | h <;> simp [h]
    · simp [h]

theorem le_foldl_maxFace {faces : List (Option Nat)} {f : Option Nat} {v : Nat} (hv : some v ∈ f :: faces) :
    ∃ w, faces.foldl maxFace f = some w ∧ v ≤ w := by
  induction faces generalizing f v with
  | nil => exact ⟨v, (List.mem_singleton.mp hv).symm, le_rfl⟩
  | cons e faces ih =>
    have raised : some v = f ∨ some v = e → ∃ u, maxFace f e = some u ∧ v ≤ u := by
      rintro (rfl | rfl)
      · cases e <;> simp [maxFace]
      · cases f <;> simp [maxFace]
    rw [List.mem_cons, List.mem_cons, ← or_assoc] at hv
    rcases hv with hv | hv
    · obtain ⟨u, hu, hvu⟩ := raised hv
      obtain ⟨w, hw, huw⟩ := ih (f := maxFace f e) (v := u) (by simp [hu])
      exact ⟨w, hw, hvu.trans huw⟩
    · exact ih (List.mem_cons_of_mem _ hv)

theorem groupOf_face_mem {members : List Candidate} {w : Nat} (h : (groupOf members).face = some w) :
    ∃ c ∈ members, c.face = some w := by
  have hmem := foldl_maxFace_mem (members.map (·.face)) none
  rw [show (members.map (·.face)).foldl maxFace none = some w from h] at hmem
  simpa using hmem

theorem le_groupOf_face {members : List Candidate} {c : Candidate} (hc : c ∈ members) {v : Nat} (hv : c.face = some v) :
    ∃ w, (groupOf members).face = some w ∧ v ≤ w :=
  le_foldl_maxFace (List.mem_cons_of_mem _ (hv ▸ List.mem_map_of_mem hc))

theorem groupOf_face_eq_none_iff {members : List Candidate} :
    (groupOf members).face = none ↔ ∀ c ∈ members, c.face = none := by
  constructor
  · intro h c hc
    refine Option.eq_none_iff_forall_ne_some.mpr fun v hv => ?_
    obtain ⟨w, hw, -⟩ := le_groupOf_face hc hv
    cases h.symm.trans hw
  · intro h
    refine Option.eq_none_iff_forall_ne_some.mpr fun w hw => ?_
    obtain ⟨c, hc, hcw⟩ := groupOf_face_mem hw
    cases (h c hc).symm.trans hcw

/-! ## The list of one scan -/

/-- The pieces of a sequence by rising x have their means in order, each being between the bounds of its members. -/
theorem groups_means_sorted (set : ExtractSettings) {cs : List Candidate} (hcs : cs.Pairwise fun a b => a.x ≤ b.x) :
    ((groups set cs).map groupOf).Pairwise fun a b => a.x ≤ b.x := by
  rw [← groups_flatten set cs, List.pairwise_flatten] at hcs
  refine List.pairwise_map.mpr (hcs.2.imp_of_mem fun hg hk hle => ?_)
  exact le_mean (groups_ne_nil hk) fun c hc => mean_le (groups_ne_nil hg) fun b hb => hle b hb c hc

/-- Settles O34: the scan's list is cut from a sorted sequence and capped from it in order; what each cap and each piece
keeps is what the sort and the merging rule keep. -/
theorem candidateListAndGroups : Obligations.CandidateListAndGroups := by
  refine ⟨fun x zr r m pair => ⟨_, rfl, scanCap_length _, ?_, extract_framed x zr r m pair _ rfl⟩,
    fun set cs => ⟨groups_flatten set cs, fun g hg => ?_, fun a first tail next more b h =>
      not_joinsGroup_cons (groups_next h)⟩, fun cs => ?_, fun gs => ?_,
    fun ys => ⟨sortBy_perm _ _, sequenceOf_sorted ys, fun v => filter_sortBy_key Candidate.x v _⟩, fun members hm => ?_⟩
  · exact (groups_means_sorted _ (sequenceOf_sorted _)).sublist (scanCap_sublist _)
  · have hmerged := groups_merged hg
    exact ⟨groups_ne_nil hg, hmerged.1, hmerged.length_le, hmerged.2⟩
  · refine (headCap_eq_keepFirst cs).trans (keepFirst_eq_of_ahead keptBefore_orders 6 cs fun b a => ?_)
    rw [keptBefore_iff, ← Bool.not_eq_true, keptBefore_iff]
    omega
  · refine (scanCap_eq_keepFirst gs).trans (keepFirst_eq_of_ahead lower_orders 12 gs fun b a => ?_)
    simp only [decide_eq_true_eq, decide_eq_false_iff_not]
    omega
  · have hlen : (0 : Int) < members.length := Int.natCast_pos.mpr (List.length_pos_iff.mpr hm)
    refine ⟨roundDiv_rounds _ hlen, roundDiv_rounds _ hlen, decide_eq_true_iff, groupOf_face_eq_none_iff,
      fun w hw => ⟨groupOf_face_mem hw, fun c hc v hv => ?_⟩⟩
    obtain ⟨u, hu, hvu⟩ := le_groupOf_face hc hv
    exact hvu.trans_eq (Option.some.inj (hu.symm.trans hw))

end Sys2Proof.Machine
end

section
/-! PROOFS. Association (R89, R90): the search over the slots, and the list that is associated by it. -/

namespace Sys2Proof.Machine

/-! ## Eligible tracks (R89) -/

/-- R89: slot `k` holds the track `t`, is not among those taken, and the candidate lies within both gates of it. -/
def Fits (set : TrackerSettings) (table : Vector Slot 8) (taken : List (Fin 8)) (g : Group) (k : Fin 8) (t : Seen) :
    Prop :=
  (table[k]).track? = some t ∧ k ∉ taken ∧ (apart g t).1 ≤ set.gateX ∧ (apart g t).2 ≤ set.gateZ

theorem eligible_eq_some_iff {set : TrackerSettings} {table : Vector Slot 8} {taken : List (Fin 8)} {g : Group}
    {k : Fin 8} {d : Nat × Nat} :
    eligible set table taken g k = some d ↔ ∃ t, Fits set table taken g k t ∧ apart g t = d := by
  unfold eligible Fits
  generalize (table[k]).track? = track
  cases track with
  | none => simp
  | some t => by_cases htaken : k ∈ taken <;> simp [htaken, and_assoc]

theorem Fits.eligible {set : TrackerSettings} {table : Vector Slot 8} {taken : List (Fin 8)} {g : Group} {k : Fin 8}
    {t : Seen} (h : Fits set table taken g k t) : eligible set table taken g k = some (apart g t) :=
  eligible_eq_some_iff.mpr ⟨t, h, rfl⟩

/-! ## The search for the nearest (R90) -/

theorem nearer_iff {d e : Nat × Nat} : nearer d e = true ↔ d.1 < e.1 ∨ (d.1 = e.1 ∧ d.2 < e.2) := by
  simp [nearer]

/-- Slot `k` at distances `d` stands before slot `j` at `e`: nearer by stagger, then by height, then the lower slot. -/
def StandsBefore (k : Fin 8) (d : Nat × Nat) (j : Fin 8) (e : Nat × Nat) : Prop :=
  d.1 < e.1 ∨ (d.1 = e.1 ∧ (d.2 < e.2 ∨ (d.2 = e.2 ∧ k ≤ j)))

theorem StandsBefore.refl (k : Fin 8) (d : Nat × Nat) : StandsBefore k d k d := by
  simp [StandsBefore]

theorem StandsBefore.trans {i j k : Fin 8} {c d e : Nat × Nat} (h : StandsBefore i c j d)
    (h' : StandsBefore j d k e) : StandsBefore i c k e := by
  unfold StandsBefore at *
  omega

theorem standsBefore_of_nearer {k j : Fin 8} {d e : Nat × Nat} (h : nearer d e = true) : StandsBefore k d j e := by
  have := nearer_iff.mp h
  unfold StandsBefore
  omega

/-- What is not nearer than an earlier slot stands behind it. -/
theorem standsBefore_of_not_nearer {k j : Fin 8} {d e : Nat × Nat} (hkj : k < j) (h : ¬ nearer e d = true) :
    StandsBefore k d j e := by
  have := mt nearer_iff.mpr h
  unfold StandsBefore
  omega

/-- One slot of the search, `el` giving the distances of the eligible slots. -/
def searchStep (el : Fin 8 → Option (Nat × Nat)) (best : Option (Fin 8 × Nat × Nat)) (k : Fin 8) :
    Option (Fin 8 × Nat × Nat) :=
  match el k, best with
  | none, _ => best
  | some d, none => some (k, d)
  | some d, some (k', d') => if nearer d d' then some (k, d) else some (k', d')

theorem nearest_eq_search (set : TrackerSettings) (table : Vector Slot 8) (taken : List (Fin 8)) (g : Group) :
    nearest set table taken g = (slots8.foldl (searchStep (eligible set table taken g)) none).map (·.1) := rfl

/-- What the search knows of the slots it has seen: none is eligible, or the best stands before every eligible one. -/
def BestOf (el : Fin 8 → Option (Nat × Nat)) (slots : List (Fin 8)) : Option (Fin 8 × Nat × Nat) → Prop
  | none => ∀ j ∈ slots, el j = none
  | some (k, d) => k ∈ slots ∧ el k = some d ∧ ∀ j ∈ slots, ∀ e, el j = some e → StandsBefore k d j e

theorem forall_eligible_concat {el : Fin 8 → Option (Nat × Nat)} {P : Fin 8 → Nat × Nat → Prop} {slots : List (Fin 8)}
    {k : Fin 8} {d : Nat × Nat} (hd : el k = some d) (hslots : ∀ j ∈ slots, ∀ e, el j = some e → P j e) (hk : P k d) :
    ∀ j ∈ slots ++ [k], ∀ e, el j = some e → P j e := by
  refine List.forall_mem_append.mpr ⟨hslots, List.forall_mem_singleton.mpr fun e he => ?_⟩
  cases hd.symm.trans he
  exact hk

theorem BestOf.searchStep {el : Fin 8 → Option (Nat × Nat)} {slots : List (Fin 8)}
    {best : Option (Fin 8 × Nat × Nat)} (h : BestOf el slots best) {k : Fin 8} (hk : ∀ j ∈ slots, j < k) :
    BestOf el (slots ++ [k]) (searchStep el best k) := by
  unfold Machine.searchStep
  cases hd : el k with
  | none =>
    rcases best with _ | ⟨k', d'⟩
    · exact List.forall_mem_append.mpr ⟨h, by simpa using hd⟩
    · obtain ⟨hmem, hel, hleast⟩ := h
      exact ⟨List.mem_append_left _ hmem, hel, List.forall_mem_append.mpr ⟨hleast, by simp [hd]⟩⟩
  | some d =>
    rcases best with _ | ⟨k', d'⟩
    · refine ⟨by simp, hd, forall_eligible_concat hd (fun j hj e he => ?_) (.refl k d)⟩
      cases (h j hj).symm.trans he
    · obtain ⟨hmem, hel, hleast⟩ := h
      dsimp only
      split
      case isTrue hnear =>
        exact ⟨by simp, hd, forall_eligible_concat hd
          (fun j hj e he => (standsBefore_of_nearer hnear).trans (hleast j hj e he)) (.refl k d)⟩
      case isFalse hfar =>
        exact ⟨List.mem_append_left _ hmem, hel,
          forall_eligible_concat hd hleast (standsBefore_of_not_nearer (hk k' hmem) hfar)⟩

theorem bestOf_search (el : Fin 8 → Option (Nat × Nat)) {slots : List (Fin 8)} (h : slots.Pairwise (· < ·)) :
    BestOf el slots (slots.foldl (searchStep el) none) := by
  induction slots using List.reverseRecOn with
  | nil => exact fun j hj => by cases hj
  | append_singleton slots k ih =>
    obtain ⟨hslots, -, hbelow⟩ := List.pairwise_append.mp h
    rw [List.foldl_concat]
    exact (ih hslots).searchStep fun j hj => hbelow j hj k (List.mem_singleton_self k)

section Nearest

variable {set : TrackerSettings} {table : Vector Slot 8} {taken : List (Fin 8)} {g : Group}

/-- R90: no slot is chosen only when none is eligible. -/
theorem not_fits_of_nearest_eq_none (h : nearest set table taken g = none) (j : Fin 8) (u : Seen) :
    ¬ Fits set table taken g j u := by
  have hbest := bestOf_search (eligible set table taken g) (slots := slots8) (by decide)
  rw [nearest_eq_search, Option.map_eq_none_iff] at h
  rw [h] at hbest
  intro hu
  cases (hbest j (mem_slots8 j)).symm.trans hu.eligible

/-- R90: the slot chosen is eligible and stands before every eligible one. -/
theorem fits_of_nearest_eq_some {k : Fin 8} (h : nearest set table taken g = some k) :
    ∃ t, Fits set table taken g k t ∧
      ∀ j u, Fits set table taken g j u → StandsBefore k (apart g t) j (apart g u) := by
  have hbest := bestOf_search (eligible set table taken g) (slots := slots8) (by decide)
  rw [nearest_eq_search, Option.map_eq_some_iff] at h
  obtain ⟨⟨k, d⟩, hsearch, rfl⟩ := h
  rw [hsearch] at hbest
  obtain ⟨-, hel, hleast⟩ := hbest
  obtain ⟨t, ht, rfl⟩ := eligible_eq_some_iff.mp hel
  exact ⟨t, ht, fun j u hu => hleast j (mem_slots8 j) _ hu.eligible⟩

end Nearest

/-! ## The associated list (R90) -/

theorem associate_cons (set : TrackerSettings) (table : Vector Slot 8) (taken : List (Fin 8)) (g : Group)
    (gs : List Group) :
    associate set table taken (g :: gs) = (g, nearest set table taken g) ::
      associate set table ((nearest set table taken g).toList ++ taken) gs := by
  rw [associate]
  split
  case h_1 k hk => simp [hk]
  case h_2 hnone => simp [hnone]

/-- No slot is taken twice, nor one that was taken before. -/
theorem associate_nodup (set : TrackerSettings) (table : Vector Slot 8) (taken : List (Fin 8)) (gs : List Group) :
    ((associate set table taken gs).filterMap (·.2)).Nodup ∧
      ∀ k ∈ (associate set table taken gs).filterMap (·.2), k ∉ taken := by
  induction gs generalizing taken with
  | nil => simp [associate]
  | cons g gs ih =>
    obtain ⟨hnodup, hnew⟩ := ih ((nearest set table taken g).toList ++ taken)
    rw [associate_cons]
    cases hnearest : nearest set table taken g with
    | none => simpa [hnearest] using And.intro hnodup hnew
    | some k =>
      obtain ⟨t, ⟨-, hfree, -⟩, -⟩ := fits_of_nearest_eq_some hnearest
      rw [hnearest] at hnodup hnew
      simp only [List.filterMap_cons, List.nodup_cons, List.forall_mem_cons]
      exact ⟨⟨fun hk => hnew k hk (by simp), hnodup⟩, hfree, fun j hj htaken => hnew j hj (by simp [htaken])⟩

/-- The slot at a place of the list is the nearest, the slots before that place being taken. -/
theorem associate_chosen {set : TrackerSettings} {table : Vector Slot 8} {taken : List (Fin 8)} {gs : List Group}
    {a b : List (Group × Option (Fin 8))} {g : Group} {chosen : Option (Fin 8)}
    (h : associate set table taken gs = a ++ (g, chosen) :: b) :
    chosen = nearest set table ((a.filterMap (·.2)).reverse ++ taken) g := by
  induction a generalizing taken gs with
  | nil =>
    cases gs with
    | nil => cases h
    | cons f gs =>
      rw [associate_cons, List.nil_append, List.cons.injEq, Prod.mk.injEq] at h
      obtain ⟨⟨rfl, rfl⟩, -⟩ := h
      rfl
  | cons p a ih =>
    cases gs with
    | nil => cases h
    | cons f gs =>
      rw [associate_cons, List.cons_append, List.cons.injEq] at h
      obtain ⟨rfl, hrest⟩ := h
      rw [ih hrest]
      cases nearest set table taken f <;> simp

/-- Settles O36: each candidate has the outcome of the search over the slots that the candidates before it left. -/
theorem associationTakesNearest : Obligations.AssociationTakesNearest := by
  intro set table gs
  refine ⟨associate_map_fst set table [] gs, (associate_nodup set table [] gs).1, fun a g chosen b hsplit => ?_⟩
  have fits_iff : ∀ j t, Fits set table ((a.filterMap (·.2)).reverse ++ []) g j t ↔
      (table[j]).track? = some t ∧ j ∉ a.filterMap (·.2) ∧
        (g.x - t.x).natAbs ≤ set.gateX ∧ (g.z - t.z).natAbs ≤ set.gateZ := by
    simp [Fits, apart]
  have hchosen := (associate_chosen hsplit).symm
  constructor
  · rintro k rfl
    obtain ⟨t, ht, hleast⟩ := fits_of_nearest_eq_some hchosen
    exact ⟨t, (fits_iff k t).mp ht, fun j u hu => hleast j u ((fits_iff j u).mpr hu)⟩
  · rintro rfl j u hu
    exact not_fits_of_nearest_eq_none hchosen j u ((fits_iff j u).mpr hu)

end Sys2Proof.Machine
end

section
/-! PROOFS. The wire-count watch over one scan (R103, R104). -/

namespace Sys2Proof.Machine

theorem Wtr.track_of_blind {w : Wtr} {scan : HandedScan} (h : scan.blind = true) :
    w.track scan = (w, setOf scan [] [], []) := if_pos h

theorem Wtr.track_of_not_blind {w : Wtr} {scan : HandedScan} (h : scan.blind = false) :
    w.track scan = w.trackSeen scan := if_neg (by simp [h])

theorem establishedCount_eq (table : Vector Slot 8) :
    establishedCount table = ((List.finRange 8).filter fun k => (table[k]).established).length :=
  List.countP_eq_length_filter

/-- R103: the watch is stepped once, by the count over the table as the scan leaves it. -/
theorem Wtr.trackSeen_watch (w : Wtr) (scan : HandedScan) :
    ((w.trackSeen scan).1.watch, (w.trackSeen scan).2.2) =
      watchScan w.watch w.settings.mismatch scan.snapshot scan.header.chainage
        (establishedCount (w.trackSeen scan).1.table) := rfl

section WatchScan

variable {w : CountWatch} {mismatch count : Nat} {snapshot : Design} {chainage : Int}

theorem watchScan_of_inRange (h : snapshot.expectedMin ≤ count ∧ count ≤ snapshot.expectedMax) :
    watchScan w mismatch snapshot chainage count = (.normal,
      if w = .reported then [.wireCount true count snapshot.expectedMin snapshot.expectedMax chainage] else []) := by
  cases w <;> simp [watchScan, h]

theorem watchScan_reported_of_outOfRange
    (h : ¬ (snapshot.expectedMin ≤ count ∧ count ≤ snapshot.expectedMax)) :
    watchScan .reported mismatch snapshot chainage count = (.reported, []) := if_neg h

/-- R103: a mismatch that begins with this scan has its onset here; either way the distance from the onset decides. -/
theorem watchScan_of_outOfRange {onset : Int}
    (h : ¬ (snapshot.expectedMin ≤ count ∧ count ≤ snapshot.expectedMax))
    (hw : w = .pending onset ∨ (w = .normal ∧ onset = chainage)) :
    watchScan w mismatch snapshot chainage count =
      if mismatch * 1000 ≤ (chainage - onset).natAbs then
        (.reported, [.wireCount false count snapshot.expectedMin snapshot.expectedMax chainage])
      else (.pending onset, []) := by
  rcases hw with rfl | ⟨rfl, rfl⟩ <;> exact if_neg h

end WatchScan

/-- Settles O38: a scan that is not blind steps the watch once, and that step turns on the range, on the state of the
watch and on the distance from the onset. -/
theorem wireCountWatch : Obligations.WireCountWatch := by
  intro w scan r count lo hi c reached
  have step : scan.blind = false → (r.1.watch, r.2.2) =
      watchScan w.watch w.settings.mismatch scan.snapshot c count := by
    intro hseen
    have hr : r = w.trackSeen scan := Wtr.track_of_not_blind hseen
    simp only [count, ← establishedCount_eq, hr]
    exact w.trackSeen_watch scan
  refine ⟨fun hblind => ?_, fun hseen hin => ?_, fun hseen hout => ⟨fun hw => ?_, fun onset hw => ⟨fun hfar => ?_,
    fun hnear => ?_⟩⟩⟩
  · simp only [r, Wtr.track_of_blind hblind, and_self]
  · exact Prod.mk.inj ((step hseen).trans (watchScan_of_inRange hin))
  · exact Prod.mk.inj ((step hseen).trans (hw ▸ watchScan_reported_of_outOfRange hout))
  · exact Prod.mk.inj ((step hseen).trans ((watchScan_of_outOfRange hout hw).trans (if_pos hfar)))
  · exact Prod.mk.inj ((step hseen).trans ((watchScan_of_outOfRange hout hw).trans (if_neg hnear)))

end Sys2Proof.Machine
end

section
/-! PROOFS. SET_WEAR_TABLE, stage by stage (R109, R110). -/

namespace Sys2Proof.Machine

/-- R109 stage 3, exactly: the comparison of neighbours is that of any two breakpoints. -/
theorem descending_iff_pairwise (ps : List (Nat × Nat)) :
    descending ps = true ↔ ps.Pairwise fun a b => a.1 < b.1 ∧ b.2 ≤ a.2 := by
  refine ⟨pairwise_of_descending, fun h => ?_⟩
  induction ps with
  | nil => rfl
  | cons a rest ih =>
    cases rest with
    | nil => rfl
    | cons b rest =>
      obtain ⟨hhead, htail⟩ := List.pairwise_cons.mp h
      simp [descending, ih htail, hhead b (by simp)]

/-- The fields of a breakpoint list (R187). -/
def breakpointFields (points : List (Nat × Nat)) : List (Nat × Nat) := points.flatMap fun p => [(2, p.1), (1, p.2)]

/-- The fields of a SET_WEAR_TABLE body (R187). -/
def wearTableFields (t h : Nat) (points : List (Nat × Nat)) : List (Nat × Nat) :=
  [(1, t), (1, h), (1, points.length)] ++ breakpointFields points

theorem fits_wearTableFields {t h : Nat} {points : List (Nat × Nat)} (hf : fits (wearTableFields t h points)) :
    t < 256 ∧ h < 256 ∧ points.length < 256 ∧ fits (breakpointFields points) := by
  simpa [fits, wearTableFields, or_imp, forall_and] using hf

theorem bodyOf_wearTableFields (t h : Nat) (points : List (Nat × Nat)) :
    bodyOf (wearTableFields t h points) = BitVec.ofNat 8 t :: BitVec.ofNat 8 h :: BitVec.ofNat 8 points.length ::
      bodyOf (breakpointFields points) := rfl

theorem breakpointFields_cons (p : Nat × Nat) (ps : List (Nat × Nat)) :
    breakpointFields (p :: ps) = (2, p.1) :: (1, p.2) :: breakpointFields ps := rfl

theorem bodyOf_breakpointFields_length (points : List (Nat × Nat)) :
    (bodyOf (breakpointFields points)).length = 3 * points.length := by
  induction points with
  | nil => rfl
  | cons p ps ih =>
    rw [bodyOf_length] at ih ⊢
    simp only [breakpointFields_cons, List.map_cons, List.sum_cons, ih, List.length_cons]
    omega

/-- The breakpoints of a body are read back. -/
theorem breakpointsOf_bodyOf {points : List (Nat × Nat)} (hf : fits (breakpointFields points)) :
    breakpointsOf (bodyOf (breakpointFields points)) = points := by
  induction points with
  | nil => rfl
  | cons p ps ih =>
    rw [breakpointFields_cons] at hf ⊢
    obtain ⟨hw, hr, hrest⟩ : p.1 < 256 ^ 2 ∧ p.2 < 256 ^ 1 ∧ fits (breakpointFields ps) := by
      simpa [fits] using hf
    have hwidth : beNat (beBytes 2 p.1) = p.1 := beNat_beBytes 2 _ hw
    have hthick : (BitVec.ofNat 8 p.2).toNat = p.2 := Nat.mod_eq_of_lt hr
    calc breakpointsOf (bodyOf ((2, p.1) :: (1, p.2) :: breakpointFields ps))
        = (beNat (beBytes 2 p.1), (BitVec.ofNat 8 p.2).toNat) :: breakpointsOf (bodyOf (breakpointFields ps)) := rfl
      _ = p :: ps := by rw [hwidth, hthick, ih hrest]

/-- R109 stage 2: the wire type, the nominal height and every breakpoint are in range. -/
abbrev WearTableInRange (t h : Nat) (points : List (Nat × Nat)) : Prop :=
  t < 8 ∧ (50 ≤ h ∧ h ≤ 250) ∧ ∀ p ∈ points, p.1 ≤ 400 ∧ p.2 ≤ 250

/-- R109 stage 3: the breakpoints make a table under the nominal height. -/
abbrev WearTableForm (h : Nat) (points : List (Nat × Nat)) : Prop :=
  (2 ≤ points.length ∧ points.length ≤ 16) ∧ points.Pairwise (fun a b => a.1 < b.1 ∧ b.2 ≤ a.2) ∧
    ∀ p ∈ points, p.2 ≤ h

/-- R109 stage 1 refuses: no count, or a length that is not that of the count. -/
theorem parseWearTable_badLength {body : List Byte}
    (h : ∀ t h n points, body = t :: h :: n :: points → points.length ≠ 3 * n.toNat) :
    parseWearTable body = .error .badLength := by
  unfold parseWearTable
  split
  case h_1 t nominal n points => exact if_pos (h t nominal n points rfl)
  case h_2 => rfl

/-- R109 stages 2 and 3, for a body that passes the first. -/
theorem parseWearTable_bodyOf {t h : Nat} {points : List (Nat × Nat)} (hf : fits (wearTableFields t h points)) :
    parseWearTable (bodyOf (wearTableFields t h points)) =
      if hr : WearTableInRange t h points then
        if WearTableForm h points then .ok (⟨t, hr.1⟩, { nominal := h, points }) else .error .badTable
      else .error .badValue := by
  obtain ⟨ht, hh, hn, hpoints⟩ := fits_wearTableFields hf
  have htype : (BitVec.ofNat 8 t).toNat = t := Nat.mod_eq_of_lt ht
  have hheight : (BitVec.ofNat 8 h).toNat = h := Nat.mod_eq_of_lt hh
  have hcount : (BitVec.ofNat 8 points.length).toNat = points.length := Nat.mod_eq_of_lt hn
  rw [bodyOf_wearTableFields]
  simp only [parseWearTable, htype, hheight, hcount, breakpointsOf_bodyOf hpoints, bodyOf_breakpointFields_length,
    descending_iff_pairwise, List.all_eq_true, Bool.and_eq_true, decide_eq_true_eq, fin8Of]
  rw [if_neg (not_not.mpr rfl)]
  by_cases hr : WearTableInRange t h points
  · rw [dif_pos hr, dif_pos hr.1]
    exact if_pos hr.2
  · rw [dif_neg hr]
    by_cases h8 : t < 8
    · rw [dif_pos h8]
      exact if_neg fun hrange => hr ⟨h8, hrange⟩
    · rw [dif_neg h8]

section Exec

variable {s : State} {f : HostFrame} {rest : List HostFrame}

theorem exec_setWearTable_refused {r : Result} (hs : s.holds f rest) (hk : f.kind = 0x16) (hm : s.mode = .standby)
    (hp : parseWearTable f.body = .error r) : exec .setWearTable s = .next ((s.popped rest).answered f r []) :=
  act_take_refused hs (beq_iff_eq.mpr hk) (beq_iff_eq.mpr hm) (judged_refused hp)

theorem exec_setWearTable_taken {a : Fin 8 × WearTable} (hs : s.holds f rest) (hk : f.kind = 0x16)
    (hm : s.mode = .standby) (hp : parseWearTable f.body = .ok a) :
    exec .setWearTable s = .next (((s.popped rest).loadTable a).answered f .done []) :=
  act_take_taken hs (beq_iff_eq.mpr hk) (beq_iff_eq.mpr hm) (judged_taken hp)

end Exec

/-- Settles O16: the body's fields are read back, so the parsed table is the one sent, and its stages decide. -/
theorem setWearTableLoadsOrRefuses : Obligations.SetWearTableLoadsOrRefuses := by
  refine ⟨fun s f rest hs hk hm hlen => exec_setWearTable_refused hs hk hm (parseWearTable_badLength hlen), ?_⟩
  intro s f rest t h points fields hs hk hm hfits hbody inRange shaped
  have hparse := (congrArg parseWearTable hbody).trans (parseWearTable_bodyOf hfits)
  refine ⟨fun hr hform k hkt => ?_, fun hr => ?_, fun hr hform => ?_⟩
  · subst hkt
    exact exec_setWearTable_taken hs hk hm (hparse.trans ((dif_pos hr).trans (if_pos hform)))
  · exact exec_setWearTable_refused hs hk hm (hparse.trans (dif_neg hr))
  · exact exec_setWearTable_refused hs hk hm (hparse.trans ((dif_pos hr).trans (if_neg hform)))

end Sys2Proof.Machine
end

section
/-! PROOFS. Thickness and wear of a face width (R113 to R116). -/

namespace Sys2Proof.Machine

theorem valueSample_of_face {t : WearTable} {m : Sample} {w : Nat} (h : m.face = some w) :
    valueSample (some t) m = { m with
      thickness := some (t.thickness w).1, wear := some (t.wear (t.thickness w).1)
      belowTable := (t.thickness w).2.1, beyondTable := (t.thickness w).2.2 } := by
  simp [valueSample, h]

/-- R113: the thickness on the segment that holds the width; only the last segment holds its end. -/
theorem interpolate_of_segment {w : Nat} {p0 p1 : Nat × Nat} {a b : List (Nat × Nat)}
    (hp : (a ++ p0 :: p1 :: b).Pairwise fun x y => x.1 < y.1 ∧ y.2 ≤ x.2) (h0 : p0.1 ≤ w)
    (h1 : w < p1.1 ∨ b = []) :
    interpolate w (a ++ p0 :: p1 :: b) =
      (p0.2 : Int) + roundDiv (((w : Int) - p0.1) * ((p1.2 : Int) - p0.2)) ((p1.1 : Int) - p0.1) := by
  induction a with
  | nil => exact if_pos h1
  | cons x a ih =>
    have htail := ih (List.pairwise_cons.mp hp).2
    cases a with
    | nil => exact (if_neg (not_or.mpr ⟨Nat.not_lt.mpr h0, by simp⟩)).trans htail
    | cons y a =>
      have hy : y.1 < p0.1 := ((List.pairwise_cons.mp (List.pairwise_cons.mp hp).2).1 p0 (by simp)).1
      exact (if_neg (not_or.mpr ⟨by omega, by simp⟩)).trans htail

/-- Every breakpoint stands between the first and the last, in width and in thickness. -/
theorem breakpoint_between_ends {ps : List (Nat × Nat)} {first last : Nat × Nat}
    (hp : ps.Pairwise fun a b => a.1 < b.1 ∧ b.2 ≤ a.2) (hfirst : ps.head? = some first)
    (hlast : ps.getLast? = some last) {p : Nat × Nat} (hmem : p ∈ ps) :
    (first.1 ≤ p.1 ∧ p.1 ≤ last.1) ∧ last.2 ≤ p.2 ∧ p.2 ≤ first.2 := by
  have hfromFirst : first.1 ≤ p.1 ∧ p.2 ≤ first.2 := by
    obtain ⟨back, rfl⟩ := List.head?_eq_some_iff.mp hfirst
    rcases List.mem_cons.mp hmem with rfl | h
    · exact ⟨le_rfl, le_rfl⟩
    · exact ((List.pairwise_cons.mp hp).1 p h).imp_left le_of_lt
  have htoLast : p.1 ≤ last.1 ∧ last.2 ≤ p.2 := by
    obtain ⟨front, rfl⟩ := List.getLast?_eq_some_iff.mp hlast
    rcases List.mem_append.mp hmem with h | h
    · exact ((List.pairwise_append.mp hp).2.2 p h last (by simp)).imp_left le_of_lt
    · rw [List.mem_singleton.mp h]
      exact ⟨le_rfl, le_rfl⟩
  exact ⟨⟨hfromFirst.1, htoLast.1⟩, htoLast.2, hfromFirst.2⟩

namespace WearTable

variable {t : WearTable} {w : Nat} {first last : Nat × Nat}

/-- R113 and R114: outside the table the nearer end with its flag, within it the interpolation. -/
theorem thickness_eq (hfirst : t.points.head? = some first) (hlast : t.points.getLast? = some last) :
    t.thickness w =
      if w < first.1 then ((first.2 : Int), true, false)
      else if last.1 < w then ((last.2 : Int), false, true)
      else (interpolate w t.points, false, false) := by
  simp [thickness, hfirst, hlast]

/-- R116, the thickness: every branch stays between the two ends. -/
theorem thickness_between (hfirst : t.points.head? = some first) (hlast : t.points.getLast? = some last)
    (hp : t.points.Pairwise fun a b => a.1 < b.1 ∧ b.2 ≤ a.2) :
    (last.2 : Int) ≤ (t.thickness w).1 ∧ (t.thickness w).1 ≤ first.2 := by
  have hends : ∀ p ∈ t.points, (last.2 : Int) ≤ p.2 ∧ (p.2 : Int) ≤ first.2 := fun p hmem => by
    exact_mod_cast (breakpoint_between_ends hp hfirst hlast hmem).2
  have hspan := (hends first (List.mem_of_head? hfirst)).1
  rw [thickness_eq hfirst hlast]
  split
  case isTrue => exact ⟨hspan, le_rfl⟩
  case isFalse hlow =>
  split
  case isTrue => exact ⟨le_rfl, hspan⟩
  case isFalse hhigh =>
  refine interpolate_between (List.ne_nil_of_mem (List.mem_of_head? hfirst)) hp hends ?_ ?_
  · rw [hfirst]; rintro _ ⟨⟩; exact Nat.not_lt.mp hlow
  · rw [hlast]; rintro _ ⟨⟩; exact Nat.not_lt.mp hhigh

/-- R116, the wear: it asks of the nominal height only that it is not 0. -/
theorem wear_ok {r : Int} (hn : 0 < t.nominal) (h0 : 0 ≤ r) (h1 : r ≤ t.nominal) : wearOk (t.wear r) :=
  ⟨le_roundDiv (by omega) (by nlinarith), roundDiv_le (by omega) (by nlinarith)⟩

end WearTable

/-- Settles O39: the branches are those of the table's two ends; within them the segment is the one the interpolation
stops at. -/
theorem thicknessAndWearOfFace : Obligations.ThicknessAndWearOfFace := by
  intro t m w first last hface hfirst hlast _ hp hnominal hn
  have heq := t.thickness_eq (w := w) hfirst hlast
  obtain ⟨hlow, hhigh⟩ := t.thickness_between (w := w) hfirst hlast hp
  have hfirstMem : first ∈ t.points := List.mem_of_head? hfirst
  have hfirstLe := hnominal first hfirstMem
  have hwidths : first.1 ≤ last.1 := (breakpoint_between_ends hp hfirst hlast hfirstMem).1.2
  have hwear : wearOk (t.wear (t.thickness w).1) := t.wear_ok hn (by omega) (by omega)
  refine ⟨_, _, _, _, valueSample_of_face hface, fun hbelow => ?_, fun hbeyond => ?_, fun h0 h1 => ?_, ⟨hlow, hhigh⟩,
    roundDiv_rounds _ (by omega), hwear⟩
  · rw [heq, if_pos hbelow]
    exact ⟨rfl, rfl, rfl⟩
  · rw [heq, if_neg (by omega), if_pos hbeyond]
    exact ⟨rfl, rfl, rfl⟩
  · rw [heq, if_neg (by omega), if_neg (by omega)]
    refine ⟨rfl, rfl, fun a p0 p1 b hsplit hp0 hp1 => ?_⟩
    rw [hsplit] at hp ⊢
    have hrise : p0.1 < p1.1 :=
      ((List.pairwise_cons.mp (List.pairwise_append.mp hp).2.1).1 p1 (by simp)).1
    exact ⟨_, roundDiv_rounds _ (by omega), interpolate_of_segment hp hp0 (hp1.imp_right And.left)⟩

end Sys2Proof.Machine
end

section
/-! PROOFS. CLEAR_ROUTE, stage by stage (R123). -/

namespace Sys2Proof.Machine

theorem dirOf_eq_none_of_two_le {v : Nat} (h : 2 ≤ v) : dirOf v = none := by
  match v, h with
  | _ + 2, _ => rfl

theorem splitFields_one_byte (b : Byte) : splitFields [1] [b] = some [b.toNat] := by
  simp [splitFields, beNat]

section ClearRoute

variable {s : State} {f : HostFrame} {rest : List HostFrame} {b : Byte} {d : Dir}

theorem clearRouteWork_badLength (h : f.body.length ≠ 1) : clearRouteWork f s = .refused .badLength := by
  simp [clearRouteWork, splitFields_none [1] f.body h]

theorem clearRouteWork_badValue (hb : f.body = [b]) (hd : dirOf b.toNat = none) :
    clearRouteWork f s = .refused .badValue := by
  simp [clearRouteWork, hb, splitFields_one_byte, hd]

/-- R123, the combination stage of a direction that is assigned. -/
theorem clearRouteWork_of_dir (hb : f.body = [b]) (hd : dirOf b.toNat = some d) :
    clearRouteWork f s =
      if s.mode ≠ .standby ∧ d ≠ s.tu.dir then .refused .invalidCombination
      else .taken { s with scu := { s.scu.cleared with dir := d } } [] := by
  simp [clearRouteWork, hb, splitFields_one_byte, hd]

theorem exec_clearRoute_refused {r : Result} (hs : s.holds f rest) (hk : f.kind = 0x18)
    (hw : clearRouteWork f (s.popped rest) = .refused r) :
    exec .clearRoute s = .next ((s.popped rest).answered f r []) :=
  act_take_refused hs (beq_iff_eq.mpr hk) rfl hw

theorem exec_clearRoute_taken {t : State} (hs : s.holds f rest) (hk : f.kind = 0x18)
    (hw : clearRouteWork f (s.popped rest) = .taken t []) : exec .clearRoute s = .next (t.answered f .done []) :=
  act_take_taken hs (beq_iff_eq.mpr hk) rfl hw

end ClearRoute

/-- Settles O18: the body's one byte is the direction, and the run's direction decides where there is a run. -/
theorem clearRouteStages : Obligations.ClearRouteStages := by
  refine ⟨fun s f rest hs hk hlen => exec_clearRoute_refused hs hk (clearRouteWork_badLength hlen), ?_⟩
  intro s f rest b hs hk hb
  refine ⟨fun h2 => exec_clearRoute_refused hs hk (clearRouteWork_badValue hb (dirOf_eq_none_of_two_le h2)), ?_⟩
  intro d hd
  have hdir : dirOf b.toNat = some d := by rcases hd with ⟨rfl, rfl⟩ | ⟨rfl, rfl⟩ <;> rfl
  have hwork := clearRouteWork_of_dir (s := s.popped rest) hb hdir
  refine ⟨fun hrun hother => ?_, fun hfree => ?_⟩
  · exact exec_clearRoute_refused hs hk (hwork.trans (if_pos ⟨hrun, hother⟩))
  · exact exec_clearRoute_taken hs hk (hwork.trans (if_neg fun h => hfree.elim h.1 h.2))

end Sys2Proof.Machine
end

section
/-! PROOFS. APPEND_SECTION, stage by stage (R125, R126). -/

namespace Sys2Proof.Machine

/-! ## The form and the ranges -/

/-- R120: the fields of a design are in range; its wire type and its NEUTRAL are given by their codes. -/
abbrev DesignInRange (d : Design) (wire n : Nat) : Prop :=
  wire < 8 ∧ (1 ≤ d.expectedMin ∧ d.expectedMin ≤ 4) ∧ (1 ≤ d.expectedMax ∧ d.expectedMax ≤ 4) ∧
    (30000 ≤ d.height ∧ d.height ≤ 80000) ∧ (500 ≤ d.band ∧ d.band ≤ 10000) ∧
    (500 ≤ d.staggerLimit ∧ d.staggerLimit ≤ 7000) ∧ d.minThickness ≤ 250 ∧ n ≤ 1

theorem boolOf_of_le {n : Nat} (h : n ≤ 1) : boolOf n = some (n == 1) := by
  match n, h with
  | 0, _ => rfl
  | 1, _ => rfl

theorem boolOf_eq_none_of_not_le {n : Nat} (h : ¬ n ≤ 1) : boolOf n = none := by
  match n, h with
  | 0, h | 1, h => exact absurd (by decide) h
  | _ + 2, _ => rfl

/-- A design is made from its fields exactly when they are in range (R120). -/
theorem designOf_eq {d : Design} {wire n : Nat} (hwire : d.wireType.val = wire ∨ 8 ≤ wire)
    (hn : d.neutral = (n == 1)) :
    designOf d.id wire d.expectedMin d.expectedMax d.height d.band d.staggerLimit d.minThickness n =
      if DesignInRange d wire n then some d else none := by
  by_cases hw8 : wire < 8
  case neg => simp [designOf, fin8Of, hw8]
  by_cases hn1 : n ≤ 1
  case neg => simp [designOf, boolOf_eq_none_of_not_le hn1, hn1]
  have hwt : fin8Of wire = some d.wireType := by
    obtain rfl : d.wireType.val = wire := by omega
    exact dif_pos hw8
  simp only [designOf, hwt, boolOf_of_le hn1, ← hn]
  exact if_congr (by simp only [DesignInRange, hw8, hn1, true_and, and_true]) rfl rfl

/-- The fields of an APPEND_SECTION body (R187). -/
def sectionFields (d : Design) (a b wire n : Nat) : List (Nat × Nat) :=
  [(2, d.id), (4, a), (4, b), (1, wire), (1, d.expectedMin), (1, d.expectedMax), (4, d.height), (2, d.band),
    (2, d.staggerLimit), (1, d.minThickness), (1, n)]

/-- R125, the range stage. -/
abbrev SectionInRange (sec : RouteSection) (wire n : Nat) : Prop :=
  1 ≤ sec.design.id ∧ (-2000000000 ≤ sec.start ∧ sec.start ≤ 2000000000) ∧
    (-2000000000 ≤ sec.stop ∧ sec.stop ≤ 2000000000) ∧ DesignInRange sec.design wire n

theorem chainageOk_iff (c : Int) : chainageOk c = true ↔ -2000000000 ≤ c ∧ c ≤ 2000000000 := by
  simp only [chainageOk, within, Bool.and_eq_true, decide_eq_true_eq]
  exact Iff.rfl

/-- R125: a body of the right length gives the section sent, when it is in range. -/
theorem parseSection_bodyOf {sec : RouteSection} {a b wire n : Nat} (hf : fits (sectionFields sec.design a b wire n))
    (ha : sec.start = signedOf 4 a) (hb : sec.stop = signedOf 4 b)
    (hwire : sec.design.wireType.val = wire ∨ 8 ≤ wire) (hn : sec.design.neutral = (n == 1)) :
    parseSection (bodyOf (sectionFields sec.design a b wire n)) =
      if SectionInRange sec wire n then .ok sec else .error .badValue := by
  have hsplit : splitFields [2, 4, 4, 1, 1, 1, 4, 2, 2, 1, 1] (bodyOf (sectionFields sec.design a b wire n)) =
      some [sec.design.id, a, b, wire, sec.design.expectedMin, sec.design.expectedMax, sec.design.height,
        sec.design.band, sec.design.staggerLimit, sec.design.minThickness, n] := splitFields_bodyOf _ hf
  simp only [parseSection, hsplit, designOf_eq hwire hn, ← ha, ← hb, chainageOk_iff]
  by_cases hd : DesignInRange sec.design wire n
  · rw [if_pos hd]
    exact if_congr (by rw [SectionInRange, and_iff_left hd]) rfl rfl
  · rw [if_neg hd, if_neg fun hr => hd hr.2.2.2]

/-! ## The combination and the placement -/

/-- R125, the combination stage. -/
abbrev Scu.Combined (u : Scu) (sec : RouteSection) : Prop :=
  (u.dir = .ascending → sec.start < sec.stop) ∧ (u.dir = .descending → sec.stop < sec.start) ∧
    sec.design.expectedMin ≤ sec.design.expectedMax ∧ (∀ q ∈ u.queue, q.design.id ≠ sec.design.id) ∧
    ∀ q, u.cache = some q → q.design.id ≠ sec.design.id

/-- R125, the placement stage. -/
abbrev Scu.Placed (u : Scu) (sec : RouteSection) : Prop :=
  (∀ q, u.queue.getLast? = some q → u.dir.reached sec.start q.stop = true) ∧
    ∀ q, u.queue = [] → u.cache = some q → u.dir.reached sec.start q.stop = true

/-- R125: the end lies beyond the start, said as the model tests it and by the two directions. -/
theorem Dir.beyond_iff (dir : Dir) (a b : Int) :
    (a ≠ b ∧ dir.reached b a = true) ↔ (dir = .ascending → a < b) ∧ (dir = .descending → b < a) := by
  cases dir <;> simp [Dir.reached] <;> omega

theorem Scu.combines_iff (u : Scu) (sec : RouteSection) : u.combines sec = true ↔ u.Combined sec := by
  rw [Scu.Combined, ← and_assoc, ← Dir.beyond_iff]
  cases hcache : u.cache <;> simp [Scu.combines, hcache, and_assoc]

theorem Scu.places_iff (u : Scu) (sec : RouteSection) : u.places sec = true ↔ u.Placed sec := by
  unfold Scu.places
  split
  case h_1 tail hlast =>
    have hne : u.queue ≠ [] := by rintro h; simp [h] at hlast
    simp [Scu.Placed, hlast, hne]
  case h_2 a hlast hcache => simp [Scu.Placed, List.getLast?_eq_none_iff.mp hlast, hcache]
  case h_3 hlast hcache => simp [Scu.Placed, hlast, hcache]

theorem State.tableLoaded_iff (s : State) (d : Design) : s.tableLoaded d = true ↔ s.wru.tables[d.wireType] ≠ none := by
  simp [State.tableLoaded, Option.isSome_iff_ne_none]

/-! ## The stages -/

section AppendSection

variable {s : State} {f : HostFrame} {rest : List HostFrame} {sec : RouteSection}

theorem appendSectionWork_of_error {r : Result} (hp : parseSection f.body = .error r) :
    appendSectionWork f s = .refused r := by
  simp only [appendSectionWork, hp]

/-- R125 and R126: the stages of a descriptor in range, in their order. -/
theorem appendSectionWork_of_ok (hp : parseSection f.body = .ok sec) :
    appendSectionWork f s =
      if ¬ s.scu.combines sec then .refused .invalidCombination
      else if ¬ s.tableLoaded sec.design then .refused .badTable
      else if ¬ s.scu.places sec then .refused .badValue
      else if 32 ≤ s.scu.queue.length then .refused .queueFull
      else .taken { s with scu := { s.scu with queue := s.scu.queue ++ [sec] } } [] := by
  simp only [appendSectionWork, hp, Bool.not_eq_true', Bool.not_eq_true]

theorem exec_appendSection_refused {r : Result} (hs : s.holds f rest) (hk : f.kind = 0x19)
    (hw : appendSectionWork f (s.popped rest) = .refused r) :
    exec .appendSection s = .next ((s.popped rest).answered f r []) :=
  act_take_refused hs (beq_iff_eq.mpr hk) rfl hw

theorem exec_appendSection_taken {t : State} (hs : s.holds f rest) (hk : f.kind = 0x19)
    (hw : appendSectionWork f (s.popped rest) = .taken t []) :
    exec .appendSection s = .next (t.answered f .done []) :=
  act_take_taken hs (beq_iff_eq.mpr hk) rfl hw

end AppendSection

/-- Settles O19: the body's fields are read back, so the parsed descriptor is the one sent, and its stages decide. -/
theorem appendSectionStages : Obligations.AppendSectionStages := by
  intro s f rest a b wire n sec d fields hs hk hf hbody ha hb hwire hn inRange combined placed loaded
  have hparse : parseSection f.body = if inRange then .ok sec else .error .badValue :=
    (congrArg parseSection hbody).trans (parseSection_bodyOf hf ha hb hwire hn)
  have hranged (hr : inRange) := appendSectionWork_of_ok (s := s.popped rest) (hparse.trans (if_pos hr))
  have hcombined (hr : inRange) (hc : combined) :=
    (hranged hr).trans (if_neg (not_not.mpr ((Scu.combines_iff _ _).mpr hc)))
  have hloaded (hr : inRange) (hc : combined) (hl : loaded) :=
    (hcombined hr hc).trans (if_neg (not_not.mpr ((State.tableLoaded_iff _ _).mpr hl)))
  have hplaced (hr : inRange) (hc : combined) (hl : loaded) (hp : placed) :=
    (hloaded hr hc hl).trans (if_neg (not_not.mpr ((Scu.places_iff _ _).mpr hp)))
  refine ⟨fun hr => ?_, fun hr hc => ?_, fun hr hc hl => ?_, fun hr hc hl hp => ?_, fun hr hc hl hp hq => ?_,
    fun hr hc hl hp hq => ?_⟩
  · exact exec_appendSection_refused hs hk (appendSectionWork_of_error (hparse.trans (if_neg hr)))
  · exact exec_appendSection_refused hs hk ((hranged hr).trans (if_pos (mt (Scu.combines_iff _ _).mp hc)))
  · exact exec_appendSection_refused hs hk ((hcombined hr hc).trans (if_pos (mt (State.tableLoaded_iff _ _).mp hl)))
  · exact exec_appendSection_refused hs hk ((hloaded hr hc hl).trans (if_pos (mt (Scu.places_iff _ _).mp hp)))
  · exact exec_appendSection_refused hs hk ((hplaced hr hc hl hp).trans (if_pos hq))
  · exact exec_appendSection_taken hs hk ((hplaced hr hc hl hp).trans (if_neg (Nat.not_le.mpr hq)))

end Sys2Proof.Machine
end

section
/-! PROOFS. Section activation at an acceptance (R128 to R131). -/

namespace Sys2Proof.Machine

/-- R129: the descriptors skipped are the longest run of reached ones at the head. -/
theorem skipReached_eq (dir : Dir) (c : Int) (l : List RouteSection) :
    skipReached dir c l = (l.takeWhile fun x => dir.reached c x.stop, l.dropWhile fun x => dir.reached c x.stop) := by
  induction l with
  | nil => rfl
  | cons x l ih => cases hx : dir.reached c x.stop <;> simp [skipReached, hx, ih]

namespace Scu

variable {u : Scu} {c : Int}

/-- R128: an active section whose end is reached leaves the cache; with the cache at DEFAULT nothing leaves. -/
theorem retire_of_ended (h : ∀ sec, u.cache = some sec → u.dir.reached c sec.stop = true) :
    u.retire c = { u with cache := none } := by
  unfold retire
  split
  case h_1 sec hsec => exact if_pos (h sec hsec)
  case h_2 hnone => rw [← hnone]

/-- R131: an ARMED watch with the route used up reports. -/
theorem starve_reports (ha : u.armed = true) (hc : u.cache = none) (hq : u.queue = []) :
    u.starve c = ({ u with armed := false }, [.routeStarved c]) := by
  simp [starve, ha, hc, hq]

theorem starve_silent (h : u.armed = true → u.cache = none → u.queue ≠ []) : u.starve c = (u, []) := by
  refine if_neg fun hcond => ?_
  obtain ⟨⟨ha, hc⟩, hq⟩ : (u.armed = true ∧ u.cache = none) ∧ u.queue = [] := by simpa using hcond
  exact h ha hc hq

/-- R128: a section not yet left stays, and the queue is not examined. -/
theorem activate_of_active {sec : RouteSection} (hsec : u.cache = some sec) (h : u.dir.reached c sec.stop = false) :
    u.activate c = (u, []) := by
  have hretire : u.retire c = u := by simp [retire, hsec, h]
  have hstarve : u.starve c = (u, []) := starve_silent (by simp [hsec])
  simp [activate, hretire, hsec, hstarve]

/-- R128 to R131: with the cache at DEFAULT the queue is examined, and then the watch. -/
theorem activate_of_ended {v w : Scu} {es fs : List Event}
    (h : ∀ sec, u.cache = some sec → u.dir.reached c sec.stop = true)
    (hload : { u with cache := none }.load c = (v, es)) (hstarve : v.starve c = (w, fs)) :
    u.activate c = (w, es ++ fs) := by
  simp [activate, retire_of_ended h, hload, hstarve]

section Load

variable {skipped more : List RouteSection} {x : RouteSection}

/-- R130: the chainage lies within the next section. -/
theorem load_of_covers (hq : skipReached u.dir c u.queue = (skipped, x :: more)) (hx : x.covers u.dir c = true) :
    u.load c = ({ u with queue := more, cache := some x, armed := true },
      skipped.map fun sec => .sectionSkipped sec.design.id) := by
  simp [load, hq, hx]

/-- R130: the next section is not reached yet. -/
theorem load_of_not_covers (hq : skipReached u.dir c u.queue = (skipped, x :: more)) (hx : x.covers u.dir c = false) :
    u.load c = ({ u with queue := x :: more }, skipped.map fun sec => .sectionSkipped sec.design.id) := by
  simp [load, hq, hx]

/-- R129: nothing is left to load. -/
theorem load_of_empty (hq : skipReached u.dir c u.queue = (skipped, [])) :
    u.load c = ({ u with queue := [] }, skipped.map fun sec => .sectionSkipped sec.design.id) := by
  simp [load, hq]

end Load

end Scu

/-- Settles O41: the queue splits at the first section not yet left, which is loaded or waits; without one the watch
decides. -/
theorem sectionActivation : Obligations.SectionActivation := by
  refine ⟨fun c x => by simp [Dir.reached], fun u c => ⟨fun sec => Scu.activate_of_active, fun hended => ?_⟩⟩
  have hskip := skipReached_eq u.dir c u.queue
  have hfirst (x) (hx : (u.queue.dropWhile fun x => u.dir.reached c x.stop).head? = some x) :
      u.dir.reached c x.stop = false := by
    simpa [hx] using List.head?_dropWhile_not (fun x => u.dir.reached c x.stop) u.queue
  refine ⟨_, _, List.takeWhile_append_dropWhile.symm,
    fun x => List.mem_takeWhile_imp (p := fun x : RouteSection => u.dir.reached c x.stop), hfirst, ?_⟩
  generalize u.queue.takeWhile (fun x => u.dir.reached c x.stop) = skipped at hskip ⊢
  generalize u.queue.dropWhile (fun x => u.dir.reached c x.stop) = kept at hskip hfirst ⊢
  intro reports
  refine ⟨?_, ?_, ?_, ?_⟩
  · rintro x more rfl hstart
    have hx : x.covers u.dir c = true := by simp [RouteSection.covers, hstart, hfirst x rfl]
    simpa using Scu.activate_of_ended hended (Scu.load_of_covers hskip hx) (Scu.starve_silent (by simp))
  · rintro x more rfl hstart
    have hx : x.covers u.dir c = false := by simp [RouteSection.covers, hstart]
    simpa using Scu.activate_of_ended hended (Scu.load_of_not_covers hskip hx) (Scu.starve_silent (by simp))
  · rintro rfl harmed
    exact Scu.activate_of_ended hended (Scu.load_of_empty hskip) (Scu.starve_reports harmed rfl rfl)
  · rintro rfl harmed
    simpa using Scu.activate_of_ended hended (Scu.load_of_empty hskip) (Scu.starve_silent (by simp [harmed]))

end Sys2Proof.Machine
end

section
/-! PROOFS. Folding a sample into its slot's accumulator (R145), and the retain list (R147). -/

namespace Sys2Proof.Machine

/-! ## The fold (R145) -/

/-- An absent thickness changes no thickness field. -/
@[simp] theorem minThicknessOf_absent (held : Option (Int × Int)) (c : Int) : minThicknessOf held none c = held := by
  cases held <;> rfl

section Slots

variable (c : Int) (v : Vector (Option Accumulator) 8) (m : Sample)

/-- A sample folds into no slot but its own. -/
theorem foldSample_get_other {k : Fin 8} (h : k ≠ m.slot) : (foldSample c v m)[k] = v[k] :=
  (set_get v m.slot k _).trans (if_neg h)

variable {c v m}

theorem foldSample_get_of_empty (h : v[m.slot] = none) :
    (foldSample c v m)[m.slot] = some (Accumulator.first m c) := by
  rw [foldSample, set_get, if_pos rfl, h]

theorem foldSample_get_of_held {a : Accumulator} (h : v[m.slot] = some a) :
    (foldSample c v m)[m.slot] = some (a.fold m c) := by
  rw [foldSample, set_get, if_pos rfl, h]

end Slots

theorem Accumulator.fold_minHeight (a : Accumulator) (m : Sample) (c : Int) :
    (a.fold m c).minHeight = min a.minHeight m.z := by
  simp only [fold]; omega

theorem Accumulator.fold_maxHeight (a : Accumulator) (m : Sample) (c : Int) :
    (a.fold m c).maxHeight = max a.maxHeight m.z := by
  simp only [fold]; omega

/-! ## The retain list (R147) -/

/-- `fewest` is the least of the entries' sample counts. -/
theorem some_fewest {l : List Accumulator} (h : l ≠ []) : some (fewest l) = (l.map (·.samples)).min? := by
  cases l with
  | nil => exact absurd rfl h
  | cons a rest => rw [List.map_cons, List.min?_cons', List.foldl_map, fewest]

/-- R147: a list gives up, of the entries with the fewest samples, the one that stands first. -/
theorem eraseP_fewest {l : List Accumulator} (h : l ≠ []) : ∃ x y z, l = x ++ y :: z ∧
    l.eraseP (fun b => b.samples == fewest l) = x ++ z ∧
    (∀ e ∈ x, y.samples < e.samples) ∧ ∀ e ∈ z, y.samples ≤ e.samples := by
  obtain ⟨hmem, hleast⟩ := List.min?_eq_some_iff.mp (some_fewest h).symm
  replace hleast (e) (he : e ∈ l) : fewest l ≤ e.samples := hleast _ (List.mem_map_of_mem he)
  obtain ⟨b, hb, hbfew⟩ := List.mem_map.mp hmem
  obtain ⟨y, x, z, hx, hy, hl, herase⟩ :=
    List.exists_of_eraseP (p := fun b => b.samples == fewest l) hb (by simp [hbfew])
  replace hy : y.samples = fewest l := by simpa using hy
  refine ⟨x, y, z, hl, herase, fun e he => ?_, fun e he => hy ▸ hleast e (by simp [hl, he])⟩
  have hne : e.samples ≠ fewest l := by simpa using hx e he
  exact hy ▸ lt_of_le_of_ne (hleast e (by simp [hl, he])) hne.symm

theorem retainEntry_of_room {l : List Accumulator} (h : l.length < 8) (a : Accumulator) :
    retainEntry l a = (l ++ [a], false) := if_pos h

/-- R147: beyond 8 entries, of the nine the one with the fewest samples that ended first goes. -/
theorem retainEntry_of_full {l : List Accumulator} (h : 8 ≤ l.length) (a : Accumulator) :
    ∃ x y z, l ++ [a] = x ++ y :: z ∧ retainEntry l a = (x ++ z, true) ∧
      (∀ e ∈ x, y.samples < e.samples) ∧ ∀ e ∈ z, y.samples ≤ e.samples := by
  obtain ⟨x, y, z, hnine, herase, hbefore, hafter⟩ := eraseP_fewest (l := l ++ [a]) (by simp)
  exact ⟨x, y, z, hnine, (if_neg (Nat.not_lt.mpr h)).trans (congrArg (·, true) herase), hbefore, hafter⟩

/-- Settles O43: the accumulator a sample starts is `Accumulator.first`, the one it folds into becomes `Accumulator.fold`,
field by field; the retain list has room or is full. -/
theorem accumulatorsFoldAndRetain : Obligations.AccumulatorsFoldAndRetain := by
  refine ⟨fun c v m => ⟨fun k => foldSample_get_other c v m, foldSample_get_of_empty, fun a ha => ?held⟩,
    fun l a => ⟨fun hroom => retainEntry_of_room hroom a, fun hfull => retainEntry_of_full hfull a⟩⟩
  case held =>
    refine ⟨a.fold m c, foldSample_get_of_held ha, rfl, rfl, rfl, a.fold_minHeight m c, a.fold_maxHeight m c, rfl,
      fun habsent => ?_, fun r hr => ⟨fun hnone => ?_, fun q hq => ?_⟩⟩
    · simp [Accumulator.fold, habsent]
    · simp [Accumulator.fold, hr, hnone, minThicknessOf]
    · simp [Accumulator.fold, hr, hq, minThicknessOf]

end Sys2Proof.Machine
end

section
/-! PROOFS. What every step keeps: the induction over rows, said once for a property that does not look at the host line,
and once for a property of the line alone. -/

namespace Sys2Proof.Machine

/-! ## A property behind the host line -/

/-- The time of an idle step passes, the heads have their say, and a trigger may fall due. -/
theorem State.tick_cases (s : State) : ∃ u, HeadStep s.elapse u ∧ (s.tick = u ∨ s.tick = u.timeDue) := by
  refine ⟨_, (HeadStep.expireWindows s.elapse).trans (.expireClearing _), ?_⟩
  unfold State.tick
  dsimp only
  split
  · exact .inr rfl
  · exact .inl rfl

/-- The property neither looks at the host line, the pin or the queue of commands, nor is broken by what heads, timers,
rows and taken commands do. -/
structure State.Kept (P : State → Prop) : Prop where
  line : ∀ {s : State}, P s → ∀ l q p, P { s with hli := l, pending := q, pin := p }
  elapse : ∀ {s : State}, P s → P s.elapse
  heads : ∀ {s t : State}, P s → HeadStep s t → P t
  happens : ∀ {c : Instr} {s t : State}, P s → Happens c s t → onHeads c = false → P t
  takes : ∀ {c : Instr} {s t : State}, P s → Takes c s t → onHeads c = false → P t

namespace State.Kept

variable {P : State → Prop}

theorem kick (k : State.Kept P) {s : State} (h : P s) : P s.kick := k.line h s.hli.kick s.pending s.pin

theorem tick (k : State.Kept P) {s : State} (h : P s) : P s.tick := by
  obtain ⟨u, hu, htick | htick⟩ := s.tick_cases
  · exact htick ▸ k.heads (k.elapse h) hu
  · exact htick ▸ k.happens (k.heads (k.elapse h) hu) (.timeTriggerDue u) rfl

theorem becomes (k : State.Kept P) {c : Instr} {s t : State} (h : P s) (b : Becomes c s t) : P t := by
  cases b with
  | same => exact h
  | happens b =>
    cases hc : onHeads c with
    | true => exact k.heads h (.ofHappens b hc)
    | false => exact k.happens h b hc
  | answered f rest r => exact k.line h _ s.pending s.pin
  | @taken u f rest data _ b =>
    have hp : P (s.popped rest) := k.line h _ s.pending s.pin
    have hu : P u := by
      cases hc : onHeads c with
      | true => exact k.heads hp (.ofTakes b hc)
      | false => exact k.takes hp b hc
    exact k.line hu _ u.pending u.pin

/-- Every step keeps the property, when the power-on values have it wherever a step gives them. -/
theorem step (k : State.Kept P) {s t : State} (h : P s)
    (hpower : s.pending.head? = some .powerOnResetRelease → P State.powerOn) (hs : step s = .next t) : P t := by
  rcases step_becomes hs with ⟨-, -, rfl⟩ | ⟨-, -, rfl⟩ | ⟨c, rest, hq, hcases⟩
  · exact h
  · exact k.kick (k.tick h)
  have hrest : P { s with pending := rest } := k.line h s.hli rest s.pin
  rcases hcases with ⟨-, rfl⟩ | ⟨-, rfl⟩ | ⟨rfl, rfl⟩ | ⟨-, u, hu, rfl⟩
  · exact hrest
  · exact k.line h _ rest true
  · exact k.kick (k.line (hpower (by rw [hq]; rfl)) _ rest false)
  · exact k.kick (k.becomes hrest hu)

end State.Kept

/-! ## A property of the host line -/

/-- What the rows do to the line keeps the property: offers, receptions, the end of a transmission, choices, replies, the
taking of a frame, and the values that SET_REPORTING, START_RUN, RESTART and power-on reset give it. -/
structure Hli.Kept (P : Hli → Prop) : Prop where
  offer : ∀ {l : Hli}, P l → ∀ r, P (l.offer r)
  received : ∀ {l : Hli}, P l → ∀ f, P (l.received f)
  held : ∀ {l : Hli}, P l → ∀ bytes, P { l with rx := bytes }
  sent : ∀ {l : Hli}, P l → P { l with tx := none }
  kick : ∀ {l : Hli}, P l → P l.kick
  reply : ∀ {l : Hli}, P l → ∀ r, P { l with slot := some r }
  popped : ∀ {l : Hli}, P l → ∀ f rest, l.inbound = f :: rest → P { l with inbound := rest }
  reporting : ∀ {l : Hli}, P l → ∀ g d, P { l with gates := g, decimation := d }
  startRun : ∀ {l : Hli}, P l → P { l with traceDropped := 0, reportsLost := 0 }
  restart : ∀ {l : Hli}, P l → P { l with queue := [], loss := 0, traceDropped := 0, reportsLost := 0 }
  powerOn : P Hli.powerOn

namespace Hli.Kept

variable {P : Hli → Prop}

theorem offerAll (k : Hli.Kept P) {l : Hli} (h : P l) (rs : List Report) : P (l.offerAll rs) :=
  foldl_keeps P h fun _ r _ hl => k.offer hl r

theorem events (k : Hli.Kept P) {l m : Hli} (h : P l) (hm : l.Events m) : P m := by
  obtain ⟨es, rfl⟩ := hm
  exact k.offerAll h _

theorem bytes (k : Hli.Kept P) {l : Hli} (h : P l) (bs : List Byte) : P (l.bytes bs) :=
  foldl_keeps P (k.held h _) fun _ f _ hl => k.received hl f

theorem happens (k : Hli.Kept P) {c : Instr} {s t : State} (h : P s.hli) (b : Happens c s t) : P t.hli := by
  by_cases hc : onHeads c = true
  · exact k.events h (HeadStep.ofHappens b hc).events
  cases b with
  | hostFrame bytes => exact k.bytes h bytes
  | transmissionEnd => exact k.sent h
  | odometerPulse toward => exact k.events h (s.pulse_events toward)
  | mastPulse => exact h
  | timeTriggerDue => exact k.events h s.timeDue_events
  | motionSequenceEnd => exact k.events h (s.motionEnd_events _)
  | scanExtraction => rwa [State.extractNext_hli]
  | candidateListHandover => rwa [State.handOver_hli]
  | trackScan => exact k.events h s.trackNext_events
  | setValuing => rwa [State.takeSet_hli]
  | setOffer => obtain ⟨rs, hrs, -⟩ := s.offerSet_hli; exact hrs ▸ k.offerAll h rs
  | spanSetTake => obtain ⟨rs, hrs⟩ := s.spanTake_hli; exact hrs ▸ k.offerAll h rs
  | limitSetTake => obtain ⟨rs, hrs⟩ := s.limitTake_hli; exact hrs ▸ k.offerAll h rs
  | closingWork => rwa [State.closeIfDue_hli]
  | ready | profile | headUnusableFrame | headBadFrame | clearingTimerExpiry | responseWindowExpiry =>
    exact absurd rfl hc

theorem takes (k : Hli.Kept P) {c : Instr} {s t : State} (h : P s.hli) (b : Takes c s t) : P t.hli := by
  by_cases hc : onHeads c = true
  · exact k.events h (HeadStep.ofTakes b hc).events
  cases b with
  | getStatus | getTracks | setHead | setTestProfile | setMotion | setExtract | setTracker | setWearTable
  | setDefaultSection | clearRoute | appendSection | setRule | setPolicy | setTrigger | positionFix => exact h
  | setReporting a => exact k.reporting h _ _
  | startRun a => exact k.offer (k.startRun h) (.event (.runStarted a.start a.dir a.leading))
  | stopRun => rwa [State.stopRun_hli]
  | scanOnce => exact k.events h s.trigger_events
  | restart => exact k.offer (k.restart h) (.event (.started .restart))
  | headInit | headRestore | headIsolate | headIsolateClearing | headDisabled | headDisable | headDisableIdle
  | testSourceOn | testSourceOff => exact absurd rfl hc

theorem becomes (k : Hli.Kept P) {c : Instr} {s t : State} (h : P s.hli) (b : Becomes c s t) : P t.hli := by
  cases b with
  | same => exact h
  | happens b => exact k.happens h b
  | answered f rest r hf => exact k.reply (k.popped h f rest hf.2.2) _
  | taken f rest data hf b => exact k.reply (k.takes (s := s.popped rest) (k.popped h f rest hf.2.2) b) _

theorem tick (k : Hli.Kept P) {s : State} (h : P s.hli) : P s.tick.hli := by
  obtain ⟨u, hu, htick | htick⟩ := s.tick_cases
  · exact htick ▸ k.events (l := s.elapse.hli) h hu.events
  · exact htick ▸ k.events (k.events (l := s.elapse.hli) h hu.events) u.timeDue_events

/-- Every step keeps the property of the line. -/
theorem step (k : Hli.Kept P) {s t : State} (h : P s.hli) (hs : step s = .next t) : P t.hli := by
  rcases step_becomes hs with ⟨-, -, rfl⟩ | ⟨-, -, rfl⟩ | ⟨c, rest, -, hcases⟩
  · exact h
  · exact State.kick_hli _ ▸ k.kick (k.tick h)
  rcases hcases with ⟨-, rfl⟩ | ⟨-, rfl⟩ | ⟨-, rfl⟩ | ⟨-, u, hu, rfl⟩
  · exact h
  · exact k.sent h
  · exact State.kick_hli _ ▸ k.kick (k.offer k.powerOn (.event (.started .powerOn)))
  · exact State.kick_hli _ ▸ k.kick (k.becomes (s := { s with pending := rest }) h hu)

end Hli.Kept

/-! ## The bounds of the line -/

theorem Hli.bounded_kept : Hli.Kept Hli.Bounded where
  offer h r := h.offer r
  received h f := h.received f
  held h _ := h
  sent h := h
  kick h := h.kick
  reply h _ := h
  popped := by
    rintro l ⟨hqueue, htraces, hinbound⟩ f rest hl
    rw [hl, List.length_cons] at hinbound
    exact ⟨hqueue, htraces, by dsimp only; omega⟩
  reporting h _ _ := h
  startRun h := h
  restart h := ⟨by simp, by simp [traceCount], h.2.2⟩
  powerOn := ⟨by decide, by decide, by decide⟩

/-- The line is within its bounds, and an IDLE transmitter leaves nothing waiting unless the pin is held. -/
theorem State.lineBounded_iff (s : State) : s.lineBounded ↔
    s.hli.Bounded ∧ (s.pin = false → s.hli.tx = none → s.hli.slot = none ∧ s.hli.queue = []) := by
  simp only [State.lineBounded, Hli.Bounded, traceCount_eq, and_assoc]

theorem State.kick_leaves_nothing {s t : State} (ht : t = s.kick) (htx : t.hli.tx = none) :
    t.hli.slot = none ∧ t.hli.queue = [] := by
  subst ht
  exact Hli.kick_idle htx

/-- A step leaves the pin held, or leaves nothing waiting at an IDLE transmitter. -/
theorem step_leaves_nothing {s t : State} (h : step s = .next t) (hp : t.pin = false) (htx : t.hli.tx = none) :
    t.hli.slot = none ∧ t.hli.queue = [] := by
  rcases step_becomes h with ⟨-, hpin, rfl⟩ | ⟨-, -, ht⟩ | ⟨c, rest, -, hcases⟩
  · rw [hpin] at hp; cases hp
  · exact State.kick_leaves_nothing ht htx
  rcases hcases with ⟨hpin, rfl⟩ | ⟨-, rfl⟩ | ⟨-, ht⟩ | ⟨-, u, -, ht⟩
  · rw [hpin] at hp; cases hp
  · cases hp
  · exact State.kick_leaves_nothing ht htx
  · exact State.kick_leaves_nothing ht htx

/-- Settles O51: each use of the line keeps its bounds, and every row but the pin's ends with a choice of the next frame. -/
theorem hostLineStaysBounded : Obligations.HostLineStaysBounded := by
  intro s t hs h
  rw [State.lineBounded_iff] at hs ⊢
  exact ⟨Hli.bounded_kept.step hs.1 h, step_leaves_nothing h⟩

end Sys2Proof.Machine
end

section
/-! PROOFS. Track ids stay distinct and in range (R86): what the tracker's update does to the ids that the slots hold. -/

namespace Sys2Proof.Machine

/-- R86 of a table and an id counter. -/
def IdsDistinct (table : Vector Slot 8) (next : Nat) : Prop :=
  (1 ≤ next ∧ next ≤ 65535) ∧ (∀ (k : Fin 8) t, (table[k]).track? = some t → 1 ≤ t.id ∧ t.id ≤ 65535) ∧
  ∀ (j k : Fin 8) t u, (table[j]).track? = some t → (table[k]).track? = some u → t.id = u.id → j = k

theorem Wtr.idsDistinct_iff (w : Wtr) : w.idsDistinct ↔ IdsDistinct w.table w.nextId := Iff.rfl

theorem idsDistinct_empty {next : Nat} (h : 1 ≤ next ∧ next ≤ 65535) :
    IdsDistinct (Vector.replicate 8 .empty) next :=
  ⟨h, by simp [Slot.track?], by simp [Slot.track?]⟩

namespace IdsDistinct

variable {table : Vector Slot 8} {next : Nat}

/-- A table whose tracks all stood in their slots before. -/
theorem of_tracks (h : IdsDistinct table next) {table' : Vector Slot 8}
    (hid : ∀ (k : Fin 8) t, (table'[k]).track? = some t → ∃ u, (table[k]).track? = some u ∧ u.id = t.id) :
    IdsDistinct table' next := by
  obtain ⟨hnext, hrange, hdistinct⟩ := h
  refine ⟨hnext, fun k t ht => ?_, fun j k t u ht hu heq => ?_⟩
  · obtain ⟨v, hv, hvid⟩ := hid k t ht
    exact hvid ▸ hrange k v hv
  · obtain ⟨v, hv, hvid⟩ := hid j t ht
    obtain ⟨w, hw, hwid⟩ := hid k u hu
    exact hdistinct j k v w hv hw (by rw [hvid, hwid, heq])

theorem moveAll (h : IdsDistinct table next) (set : TrackerSettings) (pairs : List (Group × Option (Fin 8))) :
    IdsDistinct (moveAll set pairs table).1 next :=
  h.of_tracks fun k _ ht => moveSlot_id (moveAll_get set pairs table k ▸ ht)

theorem giveRoles (h : IdsDistinct table next) (set : TrackerSettings) (pairs : List (Group × Option (Fin 8))) :
    IdsDistinct (giveRoles set pairs table) next :=
  h.of_tracks fun k t ht => ⟨t, giveRoles_track set pairs table k ▸ ht, rfl⟩

theorem setEmpty (h : IdsDistinct table next) (k : Fin 8) : IdsDistinct (table.set k .empty) next := by
  refine h.of_tracks fun j t ht => ?_
  rw [set_get] at ht
  split at ht
  · cases ht
  · exact ⟨t, ht, rfl⟩

/-- R86: the id of a birth is one that no slot holds, and the counter goes on behind it. -/
theorem bear {b : Births} (h : IdsDistinct b.table b.nextId) {k : Fin 8} (hk : (b.table[k]).track? = none)
    (set : TrackerSettings) (g : Group) : IdsDistinct (b.bear set k g).table (b.bear set k g).nextId := by
  obtain ⟨hnext, hrange, hdistinct⟩ := h
  have hid := freeTrackId_range (heldIds b.table) 8 b.nextId hnext
  have hborn : ∀ (j : Fin 8) t, ((b.bear set k g).table[j]).track? = some t →
      j = k ∧ t.id = freeTrackId (heldIds b.table) 8 b.nextId ∨ j ≠ k ∧ (b.table[j]).track? = some t := by
    intro j t ht
    rw [show (b.bear set k g).table[j] = _ from set_get _ k j _] at ht
    split at ht
    · rename_i hj
      refine .inl ⟨hj, ?_⟩
      split at ht <;> cases ht <;> rfl
    · rename_i hj
      exact .inr ⟨hj, ht⟩
  refine ⟨nextTrackId_range hid, fun j t ht => ?_, fun j l t u ht hu heq => ?_⟩
  · rcases hborn j t ht with ⟨-, hnew⟩ | ⟨-, hold⟩
    · rw [hnew]; exact hid
    · exact hrange j t hold
  · rcases hborn j t ht with ⟨hj, hnew⟩ | ⟨-, hold⟩ <;> rcases hborn l u hu with ⟨hl, hnew'⟩ | ⟨-, hold'⟩
    · rw [hj, hl]
    · exact absurd (heq.symm.trans hnew) (freeTrackId_new hk hnext hold')
    · exact absurd (heq.trans hnew') (freeTrackId_new hk hnext hold)
    · exact hdistinct j l t u hold hold' heq

theorem birth {b : Births} (h : IdsDistinct b.table b.nextId) (set : TrackerSettings) (g : Group) :
    IdsDistinct (birth set b g).1.table (birth set b g).1.nextId := by
  unfold Machine.birth
  split
  · rename_i k hk
    exact h.bear (by simpa [Slot.isEmpty] using List.find?_some hk) set g
  · split
    · rename_i k hk
      refine bear (b := b.replace k) (h.setEmpty k) ?_ set g
      rw [show (b.replace k).table[k] = _ from set_get _ k k _, if_pos rfl]
      rfl
    · exact h

theorem births (set : TrackerSettings) (pairs : List (Group × Option (Fin 8))) {b : Births}
    (h : IdsDistinct b.table b.nextId) : IdsDistinct (births set b pairs).1.table (births set b pairs).1.nextId := by
  induction pairs generalizing b with
  | nil => exact h
  | cons a rest ih =>
    obtain ⟨g, chosen⟩ := a
    cases chosen with
    | some k => exact ih h
    | none => exact ih (h.birth set g)

end IdsDistinct

theorem Wtr.idsDistinct.track {w : Wtr} (h : w.idsDistinct) (scan : HandedScan) : (w.track scan).1.idsDistinct := by
  unfold Wtr.track
  split
  · exact h
  · have htable : IdsDistinct w.table w.nextId := h
    exact ((htable.moveAll w.settings _).births w.settings _).giveRoles w.settings _

/-! ## Rows and steps -/

/-- The id law is kept where the tracks and the counter are. -/
theorem Wtr.idsDistinct.congr {w v : Wtr} (h : w.idsDistinct) (ht : v.table = w.table) (hn : v.nextId = w.nextId) :
    v.idsDistinct := by
  rw [Wtr.idsDistinct_iff] at h ⊢
  rwa [ht, hn]

theorem State.trackNext_idsDistinct {s : State} (h : s.wtr.idsDistinct) : s.trackNext.wtr.idsDistinct := by
  unfold State.trackNext
  split
  · exact h
  · exact (h.track _).congr rfl rfl

theorem State.closeIfDue_idsDistinct {s : State} (h : s.wtr.idsDistinct) : s.closeIfDue.wtr.idsDistinct := by
  unfold State.closeIfDue
  split
  · exact idsDistinct_empty h.1
  · exact h

theorem State.idsDistinct_kept : State.Kept fun s => s.wtr.idsDistinct where
  line h _ _ _ := h
  elapse h := h
  heads h k := by
    obtain ⟨-, -, -, -, -, -, -, hwtr, -⟩ := k.behind
    exact hwtr ▸ h
  happens {c s t} h b hc := by
    cases b with
    | hostFrame | transmissionEnd | mastPulse => exact h
    | odometerPulse toward => rwa [State.pulse_wtr]
    | timeTriggerDue => rwa [State.timeDue_wtr]
    | motionSequenceEnd => rwa [State.motionEnd_wtr]
    | scanExtraction => rwa [State.extractNext_wtr]
    | candidateListHandover => unfold State.handOver; split <;> exact h
    | trackScan => exact State.trackNext_idsDistinct h
    | setValuing => unfold State.takeSet; split <;> exact h
    | setOffer => rwa [State.offerSet_wtr]
    | spanSetTake => rwa [State.spanTake_wtr]
    | limitSetTake => rwa [State.limitTake_wtr]
    | closingWork => exact State.closeIfDue_idsDistinct h
    | ready | profile | headUnusableFrame | headBadFrame | clearingTimerExpiry | responseWindowExpiry => cases hc
  takes {c s t} h b hc := by
    cases b with
    | getStatus | getTracks | setHead | setTestProfile | setMotion | setExtract | setTracker | setWearTable
    | setDefaultSection | clearRoute | appendSection | setRule | setPolicy | setTrigger | setReporting
    | positionFix => exact h
    | startRun => exact idsDistinct_empty ⟨le_rfl, Nat.le_of_ble_eq_true rfl⟩
    | stopRun => exact State.closeIfDue_idsDistinct (s := { s with mode := _, tu := _ }) h
    | scanOnce => rwa [State.trigger_wtr]
    | restart => exact idsDistinct_empty h.1
    | headInit | headRestore | headIsolate | headIsolateClearing | headDisabled | headDisable | headDisableIdle
    | testSourceOn | testSourceOff => cases hc

/-- Settles O52: moves and roles leave the ids in their slots, and a birth takes one that no slot holds. -/
theorem trackIdsStayDistinct : Obligations.TrackIdsStayDistinct := fun _ _ hs h =>
  State.idsDistinct_kept.step hs (fun _ => idsDistinct_empty ⟨le_rfl, by decide⟩) h

end Sys2Proof.Machine
end

section
/-! PROOFS. The limit evaluator's list keeps its length and its keys (R158), and its rules and policy keep their locks
(R156, R157). -/

namespace Sys2Proof.Machine

/-! ## The list and its keys (R158) -/

/-- The key of an entry. -/
def Exceedance.key (e : Exceedance) : Nat × Nat := (e.id, e.ref)

/-- R158 of a list of entries. -/
def Keyed (es : List Exceedance) : Prop :=
  es.length ≤ 16 ∧ (es.map Exceedance.key).Nodup ∧ ∀ e ∈ es, e.ref ≤ 16

theorem Lev.keyed_iff (l : Lev) : l.keyed ↔ Keyed l.entries := Iff.rfl

theorem keyed_nil : Keyed [] := ⟨Nat.zero_le _, List.nodup_nil, List.forall_mem_nil _⟩

theorem hasKey_iff {id ref : Nat} {e : Exceedance} : hasKey id ref e = true ↔ e.key = (id, ref) := by
  simp [hasKey, Exceedance.key]

/-- R163: an extension leaves the keys as they stand. -/
theorem extendIn_keys (id ref : Nat) (v c : Int) (role : Role) (es : List Exceedance) :
    (extendIn id ref v c role es).map Exceedance.key = es.map Exceedance.key := by
  induction es with
  | nil => rfl
  | cons e es ih =>
    unfold extendIn
    split
    · rfl
    · simp only [List.map_cons, ih]

namespace Keyed

variable {es : List Exceedance}

theorem of_keys (h : Keyed es) {es' : List Exceedance} (hk : es'.map Exceedance.key = es.map Exceedance.key) :
    Keyed es' := by
  obtain ⟨hlength, hnodup, hrefs⟩ := h
  refine ⟨?_, hk ▸ hnodup, fun e he => ?_⟩
  · rw [← List.length_map (f := Exceedance.key), hk, List.length_map]; exact hlength
  · obtain ⟨e', he', heq⟩ := List.mem_map.mp (hk ▸ List.mem_map_of_mem (f := Exceedance.key) he)
    have href : e'.ref = e.ref := congrArg Prod.snd heq
    exact href ▸ hrefs e' he'

theorem filter (h : Keyed es) (p : Exceedance → Bool) : Keyed (es.filter p) := by
  obtain ⟨hlength, hnodup, hrefs⟩ := h
  exact ⟨(List.length_filter_le p es).trans hlength, hnodup.sublist (List.filter_sublist.map _),
    fun e he => hrefs e (List.mem_of_mem_filter he)⟩

/-- R161: an entry opens under a key that no entry has, while there is room. -/
theorem concat (h : Keyed es) {e : Exceedance} (hroom : es.length < 16) (href : e.ref ≤ 16)
    (hnew : es.find? (hasKey e.id e.ref) = none) : Keyed (es ++ [e]) := by
  obtain ⟨-, hnodup, hrefs⟩ := h
  refine ⟨by simp; omega, ?_, List.forall_mem_append.mpr ⟨hrefs, List.forall_mem_singleton.mpr href⟩⟩
  rw [List.map_append, List.map_singleton, List.nodup_append_comm]
  refine List.nodup_cons.mpr ⟨fun hmem => ?_, hnodup⟩
  obtain ⟨x, hx, hkey⟩ := List.mem_map.mp hmem
  exact List.find?_eq_none.mp hnew x hx (hasKey_iff.mpr hkey)

theorem closeBy {w : Work} (h : Keyed w.entries) (g : Gates) (why : Exceedance → Option CloseReason) :
    Keyed (closeBy g why w).entries := h.filter _

theorem judgeQuantity {w : Work} (h : Keyed w.entries) (g : Gates) (set : SampleSet) (m : Sample)
    {decide : Quantity → Decision}
    (href : ∀ q ref sev rep viol, decide q = .decided ref sev rep viol → ref ≤ 16) (q : Quantity) :
    Keyed (judgeQuantity g set m decide w q).entries := by
  unfold Machine.judgeQuantity
  split
  · rename_i ref severity report v hd hv
    split
    · split
      · exact h.of_keys (extendIn_keys ..)
      · exact h
    · rename_i hnone
      split
      · rename_i hroom
        exact h.concat hroom (href _ _ _ _ _ hd) hnone
      · exact h
  · exact h

end Keyed

/-- R154, R155: a reference is the index of a rule, or 16. -/
theorem Lev.decision_ref_le {l : Lev} {d : Design} {m : Sample} {q : Quantity} {ref : Nat} {sev : Severity}
    {rep viol : Bool} (h : l.decision d m q = .decided ref sev rep viol) : ref ≤ 16 := by
  unfold Lev.decision at h
  split at h
  · cases h
  · split at h
    · cases h
    · split at h
      · rename_i r i hrule
        have hindex := List.mem_zipIdx (List.mem_of_find?_eq_some hrule)
        have hlength : l.rules.toList.length = 16 := by simp
        cases h
        omega
      · split at h
        · split at h <;> cases h
          exact le_rfl
        · cases h

theorem Keyed.judgeSample {w : Work} (h : Keyed w.entries) (l : Lev) (g : Gates) (set : SampleSet) (m : Sample) :
    Keyed (l.judgeSample g set w m).entries :=
  foldl_keeps (fun w : Work => Keyed w.entries) (h.closeBy g _) fun _ q _ hw =>
    hw.judgeQuantity g set m (fun _ _ _ _ _ hd => Lev.decision_ref_le hd) q

theorem Lev.keyed.work {l : Lev} (h : l.keyed) (g : Gates) (set : SampleSet) : Keyed (l.work g set).entries := by
  unfold Lev.work
  dsimp only
  split
  · exact Keyed.closeBy (w := { entries := l.entries, opened := _, overflow := _, records := _, lost := _ }) h g _
  · refine foldl_keeps (fun w : Work => Keyed w.entries) (foldl_keeps (fun w : Work => Keyed w.entries) h ?_) ?_
    · exact fun w n _ hw => hw.closeBy g _
    · exact fun w m _ hw => hw.judgeSample l g set m

/-! ## What a row does to the evaluator -/

/-- LIMIT_SET_TAKE is the one row that changes the evaluator: its list and counters become those of its work on a set. -/
theorem State.limitTake_lev (s : State) : s.limitTake.lev = s.lev ∨
    ∃ g set, s.limitTake.lev = { s.lev with
      entries := (s.lev.work g set).entries
      opened := (s.lev.work g set).opened
      overflow := (s.lev.work g set).overflow } := by
  unfold State.limitTake
  split
  · rename_i o _
    split
    · exact .inl rfl
    · refine .inr ⟨s.hli.gates, o.set, ?_⟩
      rw [State.setTaken_lev]
      rfl
  · exact .inl rfl

theorem Happens.lev {c : Instr} {s t : State} (b : Happens c s t) : t.lev = s.lev ∨
    ∃ g set, t.lev = { s.lev with
      entries := (s.lev.work g set).entries
      opened := (s.lev.work g set).opened
      overflow := (s.lev.work g set).overflow } := by
  by_cases hc : onHeads c = true
  · obtain ⟨-, -, -, -, -, -, -, -, -, -, -, hlev⟩ := (HeadStep.ofHappens b hc).behind
    exact .inl hlev
  cases b with
  | limitSetTake => exact s.limitTake_lev
  | hostFrame | transmissionEnd | mastPulse => exact .inl rfl
  | candidateListHandover | setValuing | setOffer | spanSetTake | closingWork | odometerPulse | timeTriggerDue
  | motionSequenceEnd | scanExtraction | trackScan => exact .inl (by simp)
  | ready | profile | headUnusableFrame | headBadFrame | clearingTimerExpiry | responseWindowExpiry =>
    exact absurd rfl hc

theorem State.keyed_kept : State.Kept fun s => s.lev.keyed where
  line h _ _ _ := h
  elapse h := h
  heads h k := by
    obtain ⟨-, -, -, -, -, -, -, -, -, -, -, hlev⟩ := k.behind
    exact hlev ▸ h
  happens {c s t} h b _ := by
    rcases b.lev with hlev | ⟨g, set, hlev⟩
    · exact hlev ▸ h
    · exact hlev ▸ h.work g set
  takes {c s t} h b hc := by
    cases b with
    | getStatus | getTracks | setHead | setTestProfile | setMotion | setExtract | setTracker | setWearTable
    | setDefaultSection | clearRoute | appendSection | setRule | setPolicy | setTrigger | setReporting | positionFix
    | startRun => exact h
    | stopRun => rwa [State.stopRun_lev]
    | scanOnce => rwa [State.trigger_lev]
    | restart => exact keyed_nil
    | headInit | headRestore | headIsolate | headIsolateClearing | headDisabled | headDisable | headDisableIdle
    | testSourceOn | testSourceOff => cases hc

/-- Settles O53: an entry opens only under a new key and while there is room, and no other work adds one. -/
theorem exceedanceListStaysKeyed : Obligations.ExceedanceListStaysKeyed := fun _ _ hs h =>
  State.keyed_kept.step hs (fun _ => keyed_nil) h

/-! ## Locks and the policy (R156, R157) -/

/-- From `l` to `m` the policy DESIGN has stayed, and what a lock with the bypass OFF protects has not moved. -/
def Lev.Protects (l m : Lev) : Prop :=
  (l.design = true → m.design = true) ∧
  ∀ k : Fin 16, l.bypass = false → (l.rules[k]).lock = true → m.bypass = false ∧ m.rules[k] = l.rules[k]

theorem Lev.Protects.refl (l : Lev) : l.Protects l := ⟨id, fun _ hb _ => ⟨hb, rfl⟩⟩

theorem Lev.Protects.setRule {l m : Lev} (h : l.Protects m) {i : Fin 16}
    (hi : ((m.rules[i]).lock && !m.bypass) = false) (r : LimitRule) :
    l.Protects { m with rules := m.rules.set i r } := by
  refine ⟨h.1, fun k hb hl => ?_⟩
  obtain ⟨hbypass, hrule⟩ := h.2 k hb hl
  refine ⟨hbypass, ?_⟩
  have hne : i ≠ k := by
    rintro rfl
    rw [hrule, hl, hbypass] at hi
    cases hi
  rw [← hrule]
  exact Vector.getElem_set_ne i.2 k.2 fun he => hne (Fin.ext he)

theorem Lev.lockedCount_pos {l : Lev} {k : Fin 16} (h : (l.rules[k]).lock = true) : 0 < l.lockedCount :=
  List.countP_pos_iff.mpr ⟨l.rules[k], by simp, h⟩

theorem Lev.Protects.setPolicy {l m : Lev} (h : l.Protects m) {design bypass : Bool}
    (hp : ((m.design && !design) || (!m.bypass && bypass && 0 < m.lockedCount)) = false) :
    l.Protects { m with design := design, bypass := bypass } := by
  obtain ⟨hdesign, hbypass⟩ := Bool.or_eq_false_iff.mp hp
  refine ⟨fun hl => ?_, fun k hb hl => ?_⟩
  · simpa [h.1 hl] using hdesign
  · obtain ⟨hoff, hrule⟩ := h.2 k hb hl
    have hlocked : 0 < m.lockedCount := Lev.lockedCount_pos (k := k) (hrule ▸ hl)
    exact ⟨by simpa [hoff, hlocked] using hbypass, hrule⟩

theorem State.protects_kept (l : Lev) : State.Kept fun s => l.Protects s.lev where
  line h _ _ _ := h
  elapse h := h
  heads h k := by
    obtain ⟨-, -, -, -, -, -, -, -, -, -, -, hlev⟩ := k.behind
    exact hlev ▸ h
  happens {c s t} h b _ := by
    rcases b.lev with hlev | ⟨g, set, hlev⟩
    · exact hlev ▸ h
    · exact hlev ▸ h
  takes {c s t} h b hc := by
    cases b with
    | getStatus | getTracks | setHead | setTestProfile | setMotion | setExtract | setTracker | setWearTable
    | setDefaultSection | clearRoute | appendSection | setTrigger | setReporting | positionFix | startRun
    | restart => exact h
    | setRule i r _ _ hl => exact h.setRule hl r
    | setPolicy design bypass _ _ hl => exact h.setPolicy hl
    | stopRun => rwa [State.stopRun_lev]
    | scanOnce => rwa [State.trigger_lev]
    | headInit | headRestore | headIsolate | headIsolateClearing | headDisabled | headDisable | headDisableIdle
    | testSourceOn | testSourceOff => cases hc

/-- Settles O58: of all rows SET_RULE and SET_POLICY alone touch rules and policy, and their stages protect both. -/
theorem locksAndPolicyHold : Obligations.LocksAndPolicyHold := fun s _ h hrelease =>
  (State.protects_kept s.lev).step (Lev.Protects.refl s.lev) (fun hpower => absurd hpower hrelease) h

end Sys2Proof.Machine
end

section
/-! PROOFS. The law of the route queue (R124): what leaves the queue and the cache breaks nothing, and APPEND_SECTION adds
a descriptor only where the law lets it stand. -/

namespace Sys2Proof.Machine

/-! ## What leaves the route -/

/-- `v` holds of the route of `u` what has not been skipped, retired or cleared. -/
structure Scu.Leaves (u v : Scu) : Prop where
  dir : v.dir = u.dir
  default : v.default = u.default
  queue : v.queue.Sublist u.queue
  route : (v.cache.toList ++ v.queue).Sublist (u.cache.toList ++ u.queue)

namespace Scu.Leaves

theorem refl (u : Scu) : u.Leaves u := ⟨rfl, rfl, .refl _, .refl _⟩

theorem trans {u v w : Scu} (a : u.Leaves v) (b : v.Leaves w) : u.Leaves w :=
  ⟨b.dir.trans a.dir, b.default.trans a.default, b.queue.trans a.queue, b.route.trans a.route⟩

theorem uncached (u : Scu) : u.Leaves { u with cache := none } :=
  ⟨rfl, rfl, .refl _, List.sublist_append_right _ _⟩

theorem retire (u : Scu) (c : Int) : u.Leaves (u.retire c) := by
  unfold Scu.retire
  split
  · split
    · exact uncached u
    · exact refl u
  · exact refl u

theorem starve (u : Scu) (c : Int) : u.Leaves (u.starve c).1 := by
  unfold Scu.starve
  split
  · exact ⟨rfl, rfl, .refl _, .refl _⟩
  · exact refl u

/-- R129, R130: what is skipped leaves the head of the queue, and what is loaded passes from there to the cache. -/
theorem load {u : Scu} (hcache : u.cache = none) (c : Int) : u.Leaves (u.load c).1 := by
  have hkept : (skipReached u.dir c u.queue).2.Sublist u.queue := by
    rw [skipReached_eq]
    exact List.dropWhile_sublist _
  unfold Scu.load
  dsimp only
  split
  · rename_i sec rest hsec
    rw [hsec] at hkept
    split
    · exact ⟨rfl, rfl, (List.sublist_cons_self sec rest).trans hkept, by simpa [hcache] using hkept⟩
    · exact ⟨rfl, rfl, hkept, by simpa [hcache] using hkept⟩
  · exact ⟨rfl, rfl, List.nil_sublist _, by simp [hcache]⟩

theorem activate (u : Scu) (c : Int) : u.Leaves (u.activate c).1 := by
  refine (retire u c).trans ?_
  unfold Scu.activate
  dsimp only
  split
  · exact starve _ c
  · rename_i hcache
    exact (load hcache c).trans (starve _ c)

end Scu.Leaves

theorem Scu.ordered.leaves {u v : Scu} (h : u.ordered) (k : u.Leaves v) : v.ordered := by
  obtain ⟨hlength, hbeyond, hends, hids⟩ := h
  unfold Scu.ordered
  rw [k.dir]
  exact ⟨k.queue.length_le.trans hlength, hbeyond.sublist k.queue, fun a ha => hends a (k.queue.subset ha),
    hids.sublist (k.route.map _)⟩

theorem Scu.ordered_cleared (u : Scu) (dir : Dir) : ({ u.cleared with dir := dir } : Scu).ordered :=
  ⟨Nat.zero_le _, List.Pairwise.nil, List.forall_mem_nil _, List.nodup_nil⟩

/-! ## What joins the route (R125) -/

theorem Dir.reached_trans {d : Dir} {a b c : Int} (hab : d.reached a b = true) (hbc : d.reached b c = true) :
    d.reached a c = true := by
  cases d <;> simp only [Dir.reached, decide_eq_true_eq] at * <;> omega

/-- A descriptor that starts beyond the tail of an ordered queue starts beyond every one before it. -/
theorem Scu.ordered.reached_of_tail {u : Scu} (h : u.ordered) {x : Int}
    (hx : ∀ q, u.queue.getLast? = some q → u.dir.reached x q.stop = true) :
    ∀ a ∈ u.queue, u.dir.reached x a.stop = true := by
  obtain ⟨-, hbeyond, hends, -⟩ := h
  intro a ha
  obtain ⟨front, tail, hqueue⟩ : ∃ front tail, u.queue = front ++ [tail] :=
    ⟨_, _, (List.dropLast_append_getLast (List.ne_nil_of_mem ha)).symm⟩
  have htail : u.dir.reached x tail.stop = true := hx tail (by simp [hqueue])
  rw [hqueue] at ha hbeyond
  rcases List.mem_append.mp ha with hfront | hlast
  · have hstart := (List.pairwise_append.mp hbeyond).2.2 a hfront tail (List.mem_singleton_self tail)
    exact Dir.reached_trans htail (Dir.reached_trans (hends tail (by simp [hqueue])).2 hstart)
  · rw [List.mem_singleton.mp hlast]
    exact htail

theorem Scu.ordered.append {u : Scu} (h : u.ordered) {sec : RouteSection} (hc : u.combines sec = true)
    (hp : u.places sec = true) (hl : u.queue.length < 32) : ({ u with queue := u.queue ++ [sec] } : Scu).ordered := by
  obtain ⟨hascending, hdescending, -, hqueueIds, hcacheId⟩ := (u.combines_iff sec).mp hc
  have hbehind := h.reached_of_tail ((u.places_iff sec).mp hp).1
  have hend := (u.dir.beyond_iff sec.start sec.stop).mpr ⟨hascending, hdescending⟩
  obtain ⟨-, hbeyond, hends, hids⟩ := h
  refine ⟨by simp; omega, ?_, ?_, ?_⟩
  · exact List.pairwise_append.mpr ⟨hbeyond, List.pairwise_singleton _ _, fun a ha b hb => by
      rw [List.mem_singleton.mp hb]; exact hbehind a ha⟩
  · exact List.forall_mem_append.mpr ⟨hends, List.forall_mem_singleton.mpr hend⟩
  · dsimp only
    rw [← List.append_assoc, List.map_append, List.map_singleton, List.nodup_append_comm]
    refine List.nodup_cons.mpr ⟨fun hmem => ?_, hids⟩
    obtain ⟨q, hq, hid⟩ := List.mem_map.mp hmem
    rcases List.mem_append.mp hq with hcache | hqueue
    · exact hcacheId q (Option.mem_toList.mp hcache) hid
    · exact hqueueIds q hqueue hid

/-! ## Rows and steps -/

theorem State.trigger_leaves (s : State) : s.scu.Leaves s.trigger.scu := by
  cases ha : s.accepts with
  | true =>
    rw [State.trigger_accepted ha, State.accept_scu]
    exact .activate _ _
  | false =>
    rw [State.trigger_refused ha]
    exact .refl _

theorem State.setTaken_leaves (s : State) (o : Offered) : s.scu.Leaves (s.setTaken o).scu := by
  unfold State.setTaken
  split
  · dsimp only
    split
    · exact .uncached _
    · exact .refl _
  · exact .refl _

/-- Of the events, acceptances and the end of a run touch the route, and both only take from it. -/
theorem Happens.leaves {c : Instr} {s t : State} (b : Happens c s t) : s.scu.Leaves t.scu := by
  by_cases hc : onHeads c = true
  · obtain ⟨-, -, -, -, -, -, -, -, -, hscu, -⟩ := (HeadStep.ofHappens b hc).behind
    exact hscu ▸ .refl _
  cases b with
  | hostFrame | transmissionEnd | mastPulse => exact .refl _
  | odometerPulse toward =>
    rcases s.pulse_cases toward with ⟨u, hu, -, -, hscu, -⟩ | ⟨-, -, hscu, -⟩
    · exact hu ▸ hscu ▸ u.trigger_leaves
    · exact hscu ▸ .refl _
  | timeTriggerDue =>
    rcases s.timeDue_cases with ⟨u, hu, -, -, hscu, -⟩ | hsame
    · exact hu ▸ hscu ▸ u.trigger_leaves
    · rw [hsame]; exact .refl _
  | motionSequenceEnd => rw [State.motionEnd_scu]; exact .refl _
  | scanExtraction => rw [State.extractNext_scu]; exact .refl _
  | candidateListHandover => rw [State.handOver_scu]; exact .refl _
  | trackScan => rw [State.trackNext_scu]; exact .refl _
  | setValuing => rw [State.takeSet_scu]; exact .refl _
  | setOffer => rw [State.offerSet_scu]; exact .refl _
  | spanSetTake =>
    unfold State.spanTake
    split
    · split
      · exact .refl _
      · exact State.spanWork_scu s _ ▸ State.setTaken_leaves _ _
    · exact .refl _
  | limitSetTake =>
    unfold State.limitTake
    split
    · split
      · exact .refl _
      · exact State.limitWork_scu s _ ▸ State.setTaken_leaves _ _
    · exact .refl _
  | closingWork => rw [State.closeIfDue_scu]; exact .refl _
  | ready | profile | headUnusableFrame | headBadFrame | clearingTimerExpiry | responseWindowExpiry =>
    exact absurd rfl hc

theorem State.ordered_kept : State.Kept fun s => s.scu.ordered where
  line h _ _ _ := h
  elapse h := h
  heads h k := by
    obtain ⟨-, -, -, -, -, -, -, -, -, hscu, -⟩ := k.behind
    exact hscu ▸ h
  happens h b _ := h.leaves b.leaves
  takes {c s t} h b hc := by
    cases b with
    | getStatus | getTracks | setHead | setTestProfile | setMotion | setExtract | setTracker | setWearTable
    | setDefaultSection | setRule | setPolicy | setTrigger | setReporting | positionFix | startRun => exact h
    | clearRoute dir => exact s.scu.ordered_cleared dir
    | appendSection sec _ hc hp hl => exact h.append hc hp hl
    | stopRun => rwa [State.stopRun_scu]
    | scanOnce => exact h.leaves s.trigger_leaves
    | restart => exact s.scu.ordered_cleared s.scu.dir
    | headInit | headRestore | headIsolate | headIsolateClearing | headDisabled | headDisable | headDisableIdle
    | testSourceOn | testSourceOff => cases hc

/-- Settles O54: a descriptor joins the queue only by APPEND_SECTION, whose stages are the law, and all else takes from
the route or empties it. -/
theorem routeQueueStaysOrdered : Obligations.RouteQueueStaysOrdered := fun _ _ hs h =>
  State.ordered_kept.step hs (fun _ => Scu.ordered_cleared Scu.powerOn .ascending) h

end Sys2Proof.Machine
end

section
/-! PROOFS. What a count of R1 stops at, block by block: heads, extractor, tracker, span unit and limit evaluator. -/

namespace Sys2Proof.Machine

/-! ## The heads and the extractor -/

def HeadsStopped (heads : Vector Head 4) : Prop :=
  ∀ h : HeadNo, (heads[h]).missed ≤ 65535 ∧ (heads[h]).late ≤ 65535 ∧ (heads[h]).frameErrors ≤ 65535

theorem map4_get {α β : Type} (f : α → β) (v : Vector α 4) (k : Fin 4) : (map4 f v)[k] = f v[k] := by
  obtain ⟨k, hk⟩ := k
  match k, hk with
  | 0, _ | 1, _ | 2, _ | 3, _ => rfl

theorem headsStopped_zeroed (heads : Vector Head 4) : HeadsStopped (map4 Head.zeroCounts heads) := fun h => by
  rw [map4_get]
  exact ⟨Nat.zero_le _, Nat.zero_le _, Nat.zero_le _⟩

theorem HeadsStopped.tick {heads : Vector Head 4} (h : HeadsStopped heads) : HeadsStopped (map4 Head.tick heads) :=
  fun k => by
    rw [map4_get]
    exact h k

/-- R41: link settings are no counts. -/
theorem HeadsStopped.setLinks {s : State} (h : HeadsStopped s.hlc.heads) (j : HeadNo) (window limit : Nat) :
    HeadsStopped (s.setHead j { s.head j with responseWindow := window, missLimit := limit }).hlc.heads := fun k => by
  have hk := s.head_setHead j k { s.head j with responseWindow := window, missLimit := limit }
  rw [State.head_eq, hk]
  split
  · exact h j
  · exact h k

structure ExtractCounters.Stopped (c : ExtractCounters) : Prop where
  outOfFrame : c.outOfFrame ≤ 65535
  short : c.short ≤ 65535
  narrow : c.narrow ≤ 65535
  wide : c.wide ≤ 65535
  outOfWindow : c.outOfWindow ≤ 65535
  dropped : c.dropped ≤ 65535

theorem ExtractCounters.stopped_zero : ExtractCounters.zero.Stopped := by
  constructor <;> exact Nat.zero_le _

theorem ExtractCounters.Stopped.add {c : ExtractCounters} (h : c.Stopped) (ys : List HeadYield) (n : Nat) :
    (c.add ys n).Stopped :=
  ⟨countBy_le h.outOfFrame _, countBy_le h.short _, countBy_le h.narrow _, countBy_le h.wide _,
    countBy_le h.outOfWindow _, countBy_le h.dropped _⟩

/-! ## The tracker -/

/-- The ages of the tracks have stopped at 65535 or stand below it. -/
def AgesStopped (table : Vector Slot 8) : Prop := ∀ (k : Fin 8) t, (table[k]).track? = some t → t.age ≤ 65535

theorem agesStopped_empty : AgesStopped (Vector.replicate 8 .empty) := by simp [AgesStopped, Slot.track?]

theorem AgesStopped.set {table : Vector Slot 8} (h : AgesStopped table) (k : Fin 8) {slot : Slot}
    (hs : ∀ t, slot.track? = some t → t.age ≤ 65535) : AgesStopped (table.set k slot) := fun j t ht => by
  rw [set_get] at ht
  split at ht
  · exact hs t ht
  · exact h j t ht

theorem Seen.look_age (t : Seen) (g : Option Group) : (t.look g).age = countUp t.age := by cases g <;> rfl

theorem AgesStopped.moveAll {table : Vector Slot 8} (h : AgesStopped table) (set : TrackerSettings)
    (pairs : List (Group × Option (Fin 8))) : AgesStopped (moveAll set pairs table).1 := fun k t ht => by
  rw [moveAll_get] at ht
  obtain ⟨u, hu, rfl⟩ := moveSlot_look ht
  rw [Seen.look_age]
  exact countUp_le (h k u hu)

theorem AgesStopped.giveRoles {table : Vector Slot 8} (h : AgesStopped table) (set : TrackerSettings)
    (pairs : List (Group × Option (Fin 8))) : AgesStopped (giveRoles set pairs table) := fun k t ht =>
  h k t (giveRoles_track set pairs table k ▸ ht)

/-- During the births of a scan, the ages and the table-full count. -/
def Births.Stopped (b : Births) : Prop := AgesStopped b.table ∧ b.full ≤ 65535

theorem Births.Stopped.bear {b : Births} (h : b.Stopped) (set : TrackerSettings) (k : Fin 8) (g : Group) :
    (b.bear set k g).Stopped := by
  refine ⟨h.1.set k fun t ht => ?_, h.2⟩
  split at ht <;> cases ht <;> exact Nat.le_of_ble_eq_true rfl

theorem Births.Stopped.birth {b : Births} (h : b.Stopped) (set : TrackerSettings) (g : Group) :
    (birth set b g).1.Stopped := by
  unfold Machine.birth
  split
  · exact h.bear set _ g
  · split
    · rename_i k _
      have hreplaced : (b.replace k).Stopped := ⟨h.1.set k fun t ht => (nomatch ht), h.2⟩
      exact hreplaced.bear set k g
    · exact ⟨h.1, countUp_le h.2⟩

theorem Births.Stopped.births (set : TrackerSettings) (pairs : List (Group × Option (Fin 8))) {b : Births}
    (h : b.Stopped) : (births set b pairs).1.Stopped := by
  induction pairs generalizing b with
  | nil => exact h
  | cons a rest ih =>
    obtain ⟨g, _ | k⟩ := a
    · exact ih (h.birth set g)
    · exact ih h

structure Wtr.Stopped (w : Wtr) : Prop where
  ages : AgesStopped w.table
  tableFull : w.tableFull ≤ 65535

theorem Wtr.Stopped.track {w : Wtr} (h : w.Stopped) (scan : HandedScan) : (w.track scan).1.Stopped := by
  unfold Wtr.track
  split
  · exact h
  · let pairs := associate w.settings w.table [] scan.groups
    let moved := moveAll w.settings pairs w.table
    have hmoved : Births.Stopped
        { table := moved.1, nextId := w.nextId, notices := moved.2, full := w.tableFull } :=
      ⟨h.ages.moveAll w.settings pairs, h.tableFull⟩
    have hborn := hmoved.births w.settings pairs
    exact ⟨hborn.1.giveRoles w.settings _, hborn.2⟩

theorem Wtr.Stopped.trackNext {s : State} (h : s.wtr.Stopped) : s.trackNext.wtr.Stopped := by
  unfold State.trackNext
  split
  · exact h
  · exact ⟨(h.track _).ages, (h.track _).tableFull⟩

theorem Wtr.Stopped.closeIfDue {s : State} (h : s.wtr.Stopped) : s.closeIfDue.wtr.Stopped := by
  unfold State.closeIfDue
  split
  · exact ⟨agesStopped_empty, h.tableFull⟩
  · exact h

/-! ## The span unit -/

def AccumulatorsStopped (v : Vector (Option Accumulator) 8) : Prop :=
  ∀ (k : Fin 8) a, v[k] = some a → a.samples ≤ 65535

theorem accumulatorsStopped_zeroed : AccumulatorsStopped (Vector.replicate 8 none) := by simp [AccumulatorsStopped]

theorem AccumulatorsStopped.set {v : Vector (Option Accumulator) 8} (h : AccumulatorsStopped v) (k : Fin 8)
    {slot : Option Accumulator} (hs : ∀ a ∈ slot, a.samples ≤ 65535) : AccumulatorsStopped (v.set k slot) :=
  fun j a ha => by
    rw [set_get] at ha
    split at ha
    · exact hs a ha
    · exact h j a ha

theorem AccumulatorsStopped.foldSample {v : Vector (Option Accumulator) 8} (h : AccumulatorsStopped v)
    (chainage : Int) (m : Sample) : AccumulatorsStopped (foldSample chainage v m) := by
  refine h.set m.slot fun a ha => ?_
  cases ha
  split
  · exact countUp_le (h m.slot _ ‹_›)
  · exact Nat.le_of_ble_eq_true rfl

/-- What notices change in the span unit has stopped at 65535 or stands below it. -/
def Applied.Stopped (u : Applied) : Prop :=
  AccumulatorsStopped u.accumulators ∧ ∀ a ∈ u.retain, a.samples ≤ 65535

theorem Applied.Stopped.applyNotice {u : Applied} (h : u.Stopped) (n : Notice) : (applyNotice u n).Stopped := by
  unfold Machine.applyNotice
  split
  · rename_i a ha
    refine ⟨h.1.set n.slot fun b hb => (nomatch hb), fun b hb => ?_⟩
    rcases mem_retainEntry hb with hold | rfl
    · exact h.2 b hold
    · exact h.1 n.slot b ha
  · exact h

structure OpenSpan.Stopped (sp : OpenSpan) : Prop where
  scans : sp.scans ≤ 65535
  skipped : sp.skipped ≤ 65535

theorem OpenSpan.Stopped.account {sp : OpenSpan} (h : sp.Stopped) (set : SampleSet) (lost : Bool) :
    (sp.account set lost).Stopped := ⟨countUp_le h.scans, countBy_le h.skipped _⟩

theorem OpenSpan.stopped_fresh (number : Nat) (id : Option Nat) (start : Int) :
    (OpenSpan.fresh number id start).Stopped := ⟨Nat.zero_le _, Nat.zero_le _⟩

structure Spu.Stopped (u : Spu) : Prop where
  closed : u.closed ≤ 65535
  span : ∀ sp ∈ u.span, sp.Stopped
  accumulators : AccumulatorsStopped u.accumulators
  retain : ∀ a ∈ u.retain, a.samples ≤ 65535

namespace Spu.Stopped

variable {u : Spu}

/-- R140, R137, R150: nothing is accumulated. -/
theorem of_zeroed (hclosed : u.closed ≤ 65535) (hspan : ∀ sp ∈ u.span, sp.Stopped)
    (ha : u.accumulators = Vector.replicate 8 none) (hr : u.retain = []) : u.Stopped :=
  ⟨hclosed, hspan, ha ▸ accumulatorsStopped_zeroed, by simp [hr]⟩

theorem prepare (h : u.Stopped) {sp : OpenSpan} (hsp : sp.Stopped) (set : SampleSet) :
    (u.prepare sp set).1.Stopped ∧ (u.prepare sp set).2.Stopped := by
  have happlied : Applied.Stopped (set.notices.foldl applyNotice
      { accumulators := u.accumulators, retain := u.retain, isPartial := sp.flags.isPartial }) :=
    foldl_keeps Applied.Stopped ⟨h.accumulators, h.retain⟩ fun _ n _ hu => hu.applyNotice n
  have hopen : (u.prepare sp set).2.Stopped := ⟨hsp.scans, hsp.skipped⟩
  exact ⟨⟨h.closed, fun _ hx => Option.some.inj hx ▸ hopen, happlied.1, happlied.2⟩, hopen⟩

theorem workScan (h : u.Stopped) {sp : OpenSpan} (hsp : sp.Stopped) (set : SampleSet) :
    (u.workScan sp set).1.Stopped := by
  obtain ⟨hp, hopen⟩ := h.prepare hsp set
  have fold : ∀ {v}, AccumulatorsStopped v →
      AccumulatorsStopped (set.samples.foldl (foldSample set.header.chainage) v) :=
    fun hv => foldl_keeps AccumulatorsStopped hv fun _ m _ hv => hv.foldSample _ m
  unfold Spu.workScan
  dsimp only
  split
  · exact ⟨countUp_le hp.closed, fun _ hx => Option.some.inj hx ▸ (OpenSpan.stopped_fresh _ _ _).account _ _,
      fold accumulatorsStopped_zeroed, List.forall_mem_nil _⟩
  · exact ⟨hp.closed, fun _ hx => Option.some.inj hx ▸ hopen.account _ _, fold hp.accumulators, hp.retain⟩

theorem workRunEnd (h : u.Stopped) {sp : OpenSpan} (hsp : sp.Stopped) (set : SampleSet) :
    (u.workRunEnd sp set).1.Stopped :=
  of_zeroed (countUp_le (h.prepare hsp set).1.closed) (fun _ hx => (nomatch hx)) rfl rfl

theorem loseScan (h : u.Stopped) (taken : Bool) (scan : Nat) : (u.loseScan taken scan).Stopped := by
  unfold Spu.loseScan
  split
  · refine ⟨h.closed, fun sp hsp => ?_, h.accumulators, h.retain⟩
    obtain ⟨sp', hsp', rfl⟩ := Option.map_eq_some_iff.mp hsp
    exact ⟨(h.span sp' hsp').scans, (h.span sp' hsp').skipped⟩
  · exact ⟨h.closed, h.span, h.accumulators, h.retain⟩

end Spu.Stopped

/-! ## The limit evaluator -/

/-- The counters and the entries' counts of the evaluator during one set. -/
structure Work.Stopped (w : Work) : Prop where
  opened : w.opened ≤ 65535
  overflow : w.overflow ≤ 65535
  entries : ∀ e ∈ w.entries, e.count ≤ 65535

theorem extendIn_stopped {id ref : Nat} {v c : Int} {role : Role} {es : List Exceedance}
    (h : ∀ e ∈ es, e.count ≤ 65535) : ∀ e ∈ extendIn id ref v c role es, e.count ≤ 65535 := by
  induction es with
  | nil => exact h
  | cons e es ih =>
    obtain ⟨he, hes⟩ := List.forall_mem_cons.mp h
    unfold extendIn
    split
    · exact List.forall_mem_cons.mpr ⟨countUp_le he, hes⟩
    · exact List.forall_mem_cons.mpr ⟨he, ih hes⟩

namespace Work.Stopped

variable {w : Work}

theorem closeBy (h : w.Stopped) (g : Gates) (why : Exceedance → Option CloseReason) : (closeBy g why w).Stopped :=
  ⟨h.opened, h.overflow, fun e he => h.entries e (List.mem_of_mem_filter he)⟩

theorem lose (h : w.Stopped) : w.lose.Stopped := ⟨h.opened, countUp_le h.overflow, h.entries⟩

theorem judgeQuantity (h : w.Stopped) (g : Gates) (set : SampleSet) (m : Sample) (decide : Quantity → Decision)
    (q : Quantity) : (judgeQuantity g set m decide w q).Stopped := by
  unfold Machine.judgeQuantity
  split
  · split
    · split
      · exact ⟨h.opened, h.overflow, extendIn_stopped h.entries⟩
      · exact h.lose
    · split
      · exact ⟨countUp_le h.opened, h.overflow, List.forall_mem_append.mpr
          ⟨h.entries, List.forall_mem_singleton.mpr (Nat.le_of_ble_eq_true rfl)⟩⟩
      · exact h.lose
  · exact h

theorem judgeSample (h : w.Stopped) (l : Lev) (g : Gates) (set : SampleSet) (m : Sample) :
    (l.judgeSample g set w m).Stopped :=
  foldl_keeps Work.Stopped (h.closeBy g _) fun _ q _ hw => hw.judgeQuantity g set m _ q

end Work.Stopped

structure Lev.Stopped (l : Lev) : Prop where
  opened : l.opened ≤ 65535
  overflow : l.overflow ≤ 65535
  entries : ∀ e ∈ l.entries, e.count ≤ 65535

theorem Lev.Stopped.work {l : Lev} (h : l.Stopped) (g : Gates) (set : SampleSet) : (l.work g set).Stopped := by
  have hbegin : Work.Stopped
      { entries := l.entries, opened := l.opened, overflow := l.overflow, records := [], lost := false } :=
    ⟨h.opened, h.overflow, h.entries⟩
  unfold Lev.work
  dsimp only
  split
  · exact hbegin.closeBy g _
  · exact foldl_keeps Work.Stopped (foldl_keeps Work.Stopped hbegin fun _ n _ hw => hw.closeBy g _)
      fun _ m _ hw => hw.judgeSample l g set m

end Sys2Proof.Machine
end

section
/-! PROOFS. No count that stops at 65535 passes it in a step (R1, R185). -/

namespace Sys2Proof.Machine

/-- Every count behind the host line has stopped at 65535 or stands below it. -/
structure State.Stopped (s : State) : Prop where
  tu : s.tu.Stopped
  heads : HeadsStopped s.hlc.heads
  pxu : s.pxu.counters.Stopped
  wtr : s.wtr.Stopped
  spu : s.spu.Stopped
  lev : s.lev.Stopped

theorem forall_mem_slots8 {α : Type} {f : Fin 8 → Option α} {P : α → Prop} :
    (∀ a ∈ slots8.filterMap f, P a) ↔ ∀ k a, f k = some a → P a := by
  simp only [List.mem_filterMap]
  exact ⟨fun h k a hk => h a ⟨k, mem_slots8 k, hk⟩, fun h a ⟨k, _, hk⟩ => h k a hk⟩

theorem forall_mem_heads4 {P : HeadNo → Prop} : (∀ h ∈ heads4, P h) ↔ ∀ h, P h :=
  ⟨fun k h => k h (by revert h; decide), fun k h _ => k h⟩

theorem State.countersStopped_iff (s : State) : s.countersStopped ↔ s.Stopped ∧ s.hli.Stopped := by
  unfold State.countersStopped State.counters State.runCounters
  simp only [List.forall_mem_append, List.forall_mem_cons, List.not_mem_nil, false_implies, implies_true, and_true,
    List.forall_mem_flatMap, List.forall_mem_map, forall_mem_slots8, forall_mem_heads4, Option.mem_toList]
  constructor
  · rintro ⟨⟨⟨⟨⟨⟨⟨haccepted, hoverruns, hframe, hshort, hnarrow, hwide, hwindow, hdropped, hfull, hmasts, hopened,
      hoverflow, htrace, hlost⟩, hheads⟩, hbad, hinbound, hloss, hgap⟩, hclosed, hspan⟩, hacc, hretain⟩, hentries⟩,
      hages⟩
    exact ⟨⟨⟨haccepted, hoverruns, hmasts, hgap⟩, hheads, ⟨hframe, hshort, hnarrow, hwide, hwindow, hdropped⟩,
      ⟨hages, hfull⟩, ⟨hclosed, fun sp hsp => ⟨(hspan sp hsp).1, (hspan sp hsp).2⟩, hacc, hretain⟩,
      ⟨hopened, hoverflow, hentries⟩⟩, htrace, hlost, hbad, hinbound, hloss⟩
  · rintro ⟨⟨⟨haccepted, hoverruns, hmasts, hgap⟩, hheads, ⟨hframe, hshort, hnarrow, hwide, hwindow, hdropped⟩,
      ⟨hages, hfull⟩, ⟨hclosed, hspan, hacc, hretain⟩, ⟨hopened, hoverflow, hentries⟩⟩, htrace, hlost, hbad, hinbound,
      hloss⟩
    exact ⟨⟨⟨⟨⟨⟨⟨haccepted, hoverruns, hframe, hshort, hnarrow, hwide, hwindow, hdropped, hfull, hmasts, hopened,
      hoverflow, htrace, hlost⟩, hheads⟩, hbad, hinbound, hloss, hgap⟩, hclosed,
      fun sp hsp => ⟨(hspan sp hsp).scans, (hspan sp hsp).skipped⟩⟩, hacc, hretain⟩, hentries⟩, hages⟩

theorem Hli.stopped_kept : Hli.Kept Hli.Stopped where
  offer h r := h.offer r
  received {l} h f := by
    obtain ⟨htrace, hlost, hbad, hinbound, hloss⟩ := h
    unfold Hli.received
    split
    · exact ⟨htrace, hlost, countUp_le hbad, hinbound, hloss⟩
    · split
      · exact ⟨htrace, hlost, hbad, hinbound, hloss⟩
      · exact ⟨htrace, hlost, hbad, countUp_le hinbound, hloss⟩
  held h _ := h
  sent h := h
  kick h := h.kick
  reply h _ := h
  popped h _ _ _ := h
  reporting h _ _ := h
  startRun h := ⟨Nat.zero_le _, Nat.zero_le _, h.2.2⟩
  restart h := ⟨Nat.zero_le _, Nat.zero_le _, h.2.2.1, h.2.2.2.1, Nat.zero_le _⟩
  powerOn := ⟨Nat.zero_le _, Nat.zero_le _, Nat.zero_le _, Nat.zero_le _, Nat.zero_le _⟩

theorem Tu.Stopped.mastPulse {t : Tu} (h : t.Stopped) : t.mastPulse.Stopped := by
  unfold Tu.mastPulse
  split
  · exact h
  · exact ⟨h.1, h.2.1, countUp_le h.2.2.1, h.2.2.2⟩

theorem State.motionEnd_heads (s : State) (codes : Vector Nat 4) : (s.motionEnd codes).hlc.heads = s.hlc.heads := by
  unfold State.motionEnd
  split
  · rfl
  · simp

theorem State.setTaken_heads (s : State) (o : Offered) : (s.setTaken o).hlc.heads = s.hlc.heads := by
  unfold State.setTaken
  split
  · dsimp only
    split
    · rw [State.endRun_hlc]
    · rfl
  · rfl

namespace State.Stopped

variable {s : State}

/-- A state whose blocks with counts are those of a stopped one. -/
theorem of_blocks {t : State} (h : s.Stopped) (tu : t.tu = s.tu) (heads : t.hlc.heads = s.hlc.heads)
    (pxu : t.pxu = s.pxu) (wtr : t.wtr = s.wtr) (spu : t.spu = s.spu) (lev : t.lev = s.lev) : t.Stopped :=
  ⟨tu ▸ h.tu, heads ▸ h.heads, pxu ▸ h.pxu, wtr ▸ h.wtr, spu ▸ h.spu, lev ▸ h.lev⟩

theorem headStep {t : State} (h : s.Stopped) (k : HeadStep s t) : t.Stopped := by
  obtain ⟨-, -, -, -, htu, -, hpxu, hwtr, -, -, hspu, hlev⟩ := k.behind
  exact ⟨htu ▸ h.tu, k.stopped h.heads, hpxu ▸ h.pxu, hwtr ▸ h.wtr, hspu ▸ h.spu, hlev ▸ h.lev⟩

theorem trigger (h : s.Stopped) : s.trigger.Stopped :=
  ⟨State.trigger_stopped h.tu, State.trigger_heads_stopped h.heads, s.trigger_pxu ▸ h.pxu, s.trigger_wtr ▸ h.wtr,
    s.trigger_spu ▸ h.spu, s.trigger_lev ▸ h.lev⟩

theorem pulse (h : s.Stopped) (toward : CarEnd) : (s.pulse toward).Stopped := by
  have hheads : HeadsStopped (s.pulse toward).hlc.heads := by
    rcases s.pulse_cases toward with ⟨u, hu, hhlc, -⟩ | ⟨hhlc, -⟩
    · rw [hu]
      exact State.trigger_heads_stopped (s := u) (show HeadsStopped u.hlc.heads from hhlc ▸ h.heads)
    · exact hhlc ▸ h.heads
  exact ⟨State.pulse_stopped h.tu toward, hheads, s.pulse_pxu toward ▸ h.pxu, s.pulse_wtr toward ▸ h.wtr,
    s.pulse_spu toward ▸ h.spu, s.pulse_lev toward ▸ h.lev⟩

theorem timeDue (h : s.Stopped) : s.timeDue.Stopped := by
  unfold State.timeDue
  split
  · exact trigger { h with tu := h.tu }
  · exact h

theorem extractNext (h : s.Stopped) : s.extractNext.Stopped := by
  unfold State.extractNext
  split
  · split
    · exact { h with pxu := h.pxu.add _ _ }
    · exact h
  · exact h

theorem handOver (h : s.Stopped) : s.handOver.Stopped := by
  unfold State.handOver
  split
  · exact { h with wtr := ⟨h.wtr.ages, h.wtr.tableFull⟩ }
  · exact h

theorem trackNext (h : s.Stopped) : s.trackNext.Stopped :=
  ⟨s.trackNext_tu ▸ h.tu, s.trackNext_hlc ▸ h.heads, s.trackNext_pxu ▸ h.pxu, h.wtr.trackNext,
    s.trackNext_spu ▸ h.spu, s.trackNext_lev ▸ h.lev⟩

theorem takeSet (h : s.Stopped) : s.takeSet.Stopped := by
  unfold State.takeSet
  split
  · exact { h with wtr := ⟨h.wtr.ages, h.wtr.tableFull⟩ }
  · exact h

theorem setTaken (h : s.Stopped) (o : Offered) : (s.setTaken o).Stopped :=
  h.of_blocks (by simp) (s.setTaken_heads o) (by simp) (by simp) (by simp) (by simp)

theorem spanWork (h : s.Stopped) (set : SampleSet) : (s.spanWork set).Stopped := by
  unfold State.spanWork
  split
  · exact h
  · rename_i sp hsp
    split
    · exact { h with spu := h.spu.workRunEnd (h.spu.span sp hsp) set }
    · have hmasts : (if (s.spu.workScan sp set).2.2 then countUp s.tu.mastsIgnored else s.tu.mastsIgnored) ≤ 65535 := by
        split
        · exact countUp_le h.tu.2.2.1
        · exact h.tu.2.2.1
      exact { h with tu := ⟨h.tu.1, h.tu.2.1, hmasts, h.tu.2.2.2⟩, spu := h.spu.workScan (h.spu.span sp hsp) set }

theorem spanTake (h : s.Stopped) : s.spanTake.Stopped := by
  unfold State.spanTake
  split
  · split
    · exact h
    · exact (h.spanWork _).setTaken _
  · exact h

theorem limitWork (h : s.Stopped) (o : Offered) : (s.limitWork o).Stopped := by
  have hwork := h.lev.work s.hli.gates o.set
  have hspu : (if (s.lev.work s.hli.gates o.set).lost then s.spu.loseScan o.spanTaken o.set.header.scan
      else s.spu).Stopped := by
    split
    · exact h.spu.loseScan _ _
    · exact h.spu
  exact { h with lev := ⟨hwork.opened, hwork.overflow, hwork.entries⟩, spu := hspu }

theorem limitTake (h : s.Stopped) : s.limitTake.Stopped := by
  unfold State.limitTake
  split
  · split
    · exact h
    · exact (h.limitWork _).setTaken _
  · exact h

theorem closeIfDue (h : s.Stopped) : s.closeIfDue.Stopped :=
  ⟨s.closeIfDue_tu ▸ h.tu, s.closeIfDue_hlc ▸ h.heads, s.closeIfDue_pxu ▸ h.pxu, h.wtr.closeIfDue,
    s.closeIfDue_spu ▸ h.spu, s.closeIfDue_lev ▸ h.lev⟩

theorem startRun (h : s.Stopped) (a : RunStart) : (s.startRun a).Stopped :=
  { tu := ⟨Nat.zero_le _, Nat.zero_le _, Nat.zero_le _, Nat.zero_le _⟩
    heads := headsStopped_zeroed _
    pxu := ExtractCounters.stopped_zero
    wtr := ⟨agesStopped_empty, Nat.zero_le _⟩
    spu := Spu.Stopped.of_zeroed (Nat.zero_le _) (fun _ hx => Option.some.inj hx ▸ OpenSpan.stopped_fresh _ _ _) rfl rfl
    lev := ⟨Nat.zero_le _, Nat.zero_le _, h.lev.entries⟩ }

theorem restart (s : State) : s.restart.Stopped :=
  { tu := ⟨Nat.zero_le _, Nat.zero_le _, Nat.zero_le _, Nat.zero_le _⟩
    heads := headsStopped_zeroed _
    pxu := ExtractCounters.stopped_zero
    wtr := ⟨agesStopped_empty, Nat.zero_le _⟩
    spu := Spu.Stopped.of_zeroed (Nat.zero_le _) (fun _ hx => (nomatch hx)) rfl rfl
    lev := ⟨Nat.zero_le _, Nat.zero_le _, List.forall_mem_nil _⟩ }

theorem powerOn : State.powerOn.Stopped :=
  { tu := ⟨Nat.zero_le _, Nat.zero_le _, Nat.zero_le _, Nat.zero_le _⟩
    heads := by simp [HeadsStopped, State.powerOn, Hlc.powerOn, Head.powerOn]
    pxu := ExtractCounters.stopped_zero
    wtr := ⟨agesStopped_empty, Nat.zero_le _⟩
    spu := Spu.Stopped.of_zeroed (Nat.zero_le _) (fun _ hx => (nomatch hx)) rfl rfl
    lev := ⟨Nat.zero_le _, Nat.zero_le _, List.forall_mem_nil _⟩ }

end State.Stopped

theorem State.stopped_kept : State.Kept State.Stopped where
  line h _ _ _ := { h with }
  elapse h := { h with tu := h.tu, heads := h.heads.tick }
  heads h k := h.headStep k
  happens {c s t} h b hc := by
    cases b with
    | hostFrame | transmissionEnd => exact { h with }
    | odometerPulse toward => exact h.pulse toward
    | mastPulse => exact { h with tu := h.tu.mastPulse }
    | timeTriggerDue => exact h.timeDue
    | motionSequenceEnd =>
      exact h.of_blocks (by simp) (s.motionEnd_heads _) (by simp) (by simp) (by simp) (by simp)
    | scanExtraction => exact h.extractNext
    | candidateListHandover => exact h.handOver
    | trackScan => exact h.trackNext
    | setValuing => exact h.takeSet
    | setOffer => exact h.of_blocks (by simp) (by simp) (by simp) (by simp) (by simp) (by simp)
    | spanSetTake => exact h.spanTake
    | limitSetTake => exact h.limitTake
    | closingWork => exact h.closeIfDue
    | ready | profile | headUnusableFrame | headBadFrame | clearingTimerExpiry | responseWindowExpiry => cases hc
  takes {c s t} h b hc := by
    cases b with
    | getStatus | getTracks => exact h
    | setTestProfile | setMotion | setWearTable | setDefaultSection | clearRoute | appendSection => exact { h with }
    | setHead a => exact { h with heads := h.heads.setLinks a.head _ _, pxu := h.pxu }
    | setExtract => exact { h with pxu := h.pxu }
    | setTracker => exact { h with wtr := ⟨h.wtr.ages, h.wtr.tableFull⟩ }
    | setRule | setPolicy => exact { h with lev := ⟨h.lev.opened, h.lev.overflow, h.lev.entries⟩ }
    | setTrigger | positionFix => exact { h with tu := h.tu }
    | setReporting => exact { h with spu := ⟨h.spu.closed, h.spu.span, h.spu.accumulators, h.spu.retain⟩ }
    | startRun a => exact h.startRun a
    | stopRun => exact State.Stopped.closeIfDue (s := { s with mode := _, tu := _ }) { h with tu := h.tu }
    | scanOnce => exact h.trigger
    | restart => exact .restart s
    | headInit | headRestore | headIsolate | headIsolateClearing | headDisabled | headDisable | headDisableIdle
    | testSourceOn | testSourceOff => cases hc

/-- Settles O57: every count rises by `countUp` or `countBy`, or starts at 0 or 1, in whichever block holds it. -/
theorem countersStayStopped : Obligations.CountersStayStopped := by
  intro s t hs h
  rw [State.countersStopped_iff] at hs ⊢
  exact ⟨State.stopped_kept.step hs.1 (fun _ => State.Stopped.powerOn) h, Hli.stopped_kept.step hs.2 h⟩

end Sys2Proof.Machine
end

section
/-! PROOFS. The settings taken in STANDBY alone stay through every row but their own commands, and the mode moves only
along the table of R172. -/

namespace Sys2Proof.Machine

/-! ## The settings, block by block -/

/-- From `s` to `t` the settings that only their own commands change have stayed, block by block. -/
structure SameSettings (s t : State) : Prop where
  config : t.tu.config = s.tu.config
  calibration : t.pxu.calibration = s.pxu.calibration
  extraction : t.pxu.settings = s.pxu.settings
  links : ∀ h, (t.head h).responseWindow = (s.head h).responseWindow ∧ (t.head h).missLimit = (s.head h).missLimit
  channels : ∀ k : Fin 4, (t.mcv.channels[k]).config = (s.mcv.channels[k]).config
  spacing : t.mcv.spacing = s.mcv.spacing
  rollCentre : t.mcv.rollCentre = s.mcv.rollCentre
  tracker : t.wtr.settings = s.wtr.settings
  tables : t.wru.tables = s.wru.tables
  default : t.scu.default = s.scu.default
  rules : t.lev.rules = s.lev.rules
  design : t.lev.design = s.lev.design
  bypass : t.lev.bypass = s.lev.bypass

theorem SameSettings.settings {s t : State} (h : SameSettings s t) : t.settings = s.settings := by
  obtain ⟨hconfig, hcalibration, hextraction, hlinks, hchannels, hspacing, hroll, htracker, htables, hdefault, hrules,
    hdesign, hbypass⟩ := h
  simp only [State.settings, Prod.mk.injEq, hconfig, hcalibration, hextraction, hspacing, hroll, htracker, htables,
    hdefault, hrules, hdesign, hbypass, and_true, true_and]
  exact ⟨⟨(hlinks 0).1, (hlinks 1).1, (hlinks 2).1, (hlinks 3).1⟩,
    ⟨(hlinks 0).2, (hlinks 1).2, (hlinks 2).2, (hlinks 3).2⟩,
    ⟨hchannels 0, hchannels 1, hchannels 2, hchannels 3⟩⟩

namespace SameSettings

theorem refl (s : State) : SameSettings s s :=
  ⟨rfl, rfl, rfl, fun _ => ⟨rfl, rfl⟩, fun _ => rfl, rfl, rfl, rfl, rfl, rfl, rfl, rfl, rfl⟩

theorem trans {s t u : State} (a : SameSettings s t) (b : SameSettings t u) : SameSettings s u :=
  ⟨b.config.trans a.config, b.calibration.trans a.calibration, b.extraction.trans a.extraction,
    fun h => ⟨(b.links h).1.trans (a.links h).1, (b.links h).2.trans (a.links h).2⟩,
    fun k => (b.channels k).trans (a.channels k), b.spacing.trans a.spacing, b.rollCentre.trans a.rollCentre,
    b.tracker.trans a.tracker, b.tables.trans a.tables, b.default.trans a.default, b.rules.trans a.rules,
    b.design.trans a.design, b.bypass.trans a.bypass⟩

theorem headStep {s t : State} (k : HeadStep s t) : SameSettings s t := by
  obtain ⟨-, -, -, -, htu, hmcv, hpxu, hwtr, hwru, hscu, -, hlev⟩ := k.behind
  exact ⟨by rw [htu], by rw [hpxu], by rw [hpxu], k.links, fun _ => by rw [hmcv], by rw [hmcv], by rw [hmcv], by rw [hwtr],
    by rw [hwru], by rw [hscu], by rw [hlev], by rw [hlev], by rw [hlev]⟩

theorem elapse (s : State) : SameSettings s s.elapse :=
  { refl s with
    config := rfl
    links := fun h => by
      rw [show s.elapse.head h = (s.head h).tick from map4_get Head.tick s.hlc.heads h]
      exact ⟨rfl, rfl⟩ }

theorem trigger (s : State) : SameSettings s s.trigger :=
  { config := s.trigger_config
    calibration := by rw [State.trigger_pxu]
    extraction := by rw [State.trigger_pxu]
    links := s.trigger_links
    channels := fun _ => by rw [s.trigger_mcv.1]
    spacing := s.trigger_mcv.2.1
    rollCentre := s.trigger_mcv.2.2
    tracker := by rw [State.trigger_wtr]
    tables := by rw [State.trigger_wru]
    default := s.trigger_leaves.default
    rules := by rw [State.trigger_lev]
    design := by rw [State.trigger_lev]
    bypass := by rw [State.trigger_lev] }

theorem timeDue (s : State) : SameSettings s s.timeDue := by
  unfold State.timeDue
  split
  · refine SameSettings.trans ?_ (trigger _)
    exact { refl s with }
  · exact refl s

theorem kick (s : State) : SameSettings s s.kick := { refl s with }

theorem tick (s : State) : SameSettings s s.tick := by
  obtain ⟨u, hu, htick | htick⟩ := s.tick_cases
  · exact htick ▸ (elapse s).trans (headStep hu)
  · exact htick ▸ ((elapse s).trans (headStep hu)).trans (timeDue u)

/-- The blocks with settings are as they were, but for the travel unit's other fields. -/
theorem of_blocks {s t : State} (config : t.tu.config = s.tu.config) (hlc : t.hlc = s.hlc) (mcv : t.mcv = s.mcv)
    (pxu : t.pxu = s.pxu) (wtr : t.wtr = s.wtr) (wru : t.wru = s.wru) (scu : t.scu = s.scu) (lev : t.lev = s.lev) :
    SameSettings s t :=
  ⟨config, by rw [pxu], by rw [pxu], fun h => by rw [State.head, State.head, hlc]; exact ⟨rfl, rfl⟩,
    fun _ => by rw [mcv], by rw [mcv], by rw [mcv], by rw [wtr], by rw [wru], by rw [scu], by rw [lev], by rw [lev],
    by rw [lev]⟩

theorem pulse (s : State) (toward : CarEnd) : SameSettings s (s.pulse toward) := by
  rcases s.pulse_cases toward with ⟨u, hu, hhlc, hmcv, hscu, hpxu, hwtr, hwru, -, -, -, hconfig⟩ |
    ⟨hhlc, hmcv, hscu, hconfig⟩
  · have hlev : u.lev = s.lev := by rw [← u.trigger_lev, ← hu, State.pulse_lev]
    rw [hu]
    exact (of_blocks hconfig hhlc hmcv hpxu hwtr hwru hscu hlev).trans (trigger u)
  · exact of_blocks hconfig hhlc hmcv (by simp) (by simp) (by simp) hscu (by simp)

theorem closeIfDue (s : State) : SameSettings s s.closeIfDue := by
  unfold State.closeIfDue
  split
  · exact { refl s with }
  · exact refl s

end SameSettings

theorem judgeCode_config (c : Channel) (code : Nat) : (judgeCode c code).channel.config = c.config := by
  unfold judgeCode
  split
  · split
    · rfl
    · split <;> rfl
  · rfl

theorem judgeAll_get (chs : Vector Channel 4) (codes : Vector Nat 4) (k : Fin 4) :
    (judgeAll chs codes)[k] = judgeCode chs[k] codes[k] := by
  obtain ⟨k, hk⟩ := k
  match k, hk with
  | 0, _ | 1, _ | 2, _ | 3, _ => rfl

theorem Wtr.track_settings (w : Wtr) (scan : HandedScan) : (w.track scan).1.settings = w.settings := by
  unfold Wtr.track
  split <;> rfl

theorem Tu.mastPulse_config (t : Tu) : t.mastPulse.config = t.config := by
  unfold Tu.mastPulse
  split <;> rfl

/-! ## The settings through rows and commands -/

namespace SameSettings

variable (s : State)

theorem motionEnd (codes : Vector Nat 4) : SameSettings s (s.motionEnd codes) := by
  unfold State.motionEnd
  split
  · exact refl s
  · refine { refl s with channels := fun k => ?_ }
    exact (congrArg Channel.config (map4_get Judged.channel _ k)).trans
      ((congrArg (fun j => j.channel.config) (judgeAll_get _ _ k)).trans (judgeCode_config _ _))

theorem extractNext : SameSettings s s.extractNext := by
  unfold State.extractNext
  split
  · split
    · exact { refl s with }
    · exact refl s
  · exact refl s

theorem handOver : SameSettings s s.handOver := by
  unfold State.handOver
  split
  · exact { refl s with }
  · exact refl s

theorem trackNext : SameSettings s s.trackNext := by
  unfold State.trackNext
  split
  · exact refl s
  · exact { refl s with tracker := Wtr.track_settings _ _ }

theorem takeSet : SameSettings s s.takeSet := by
  unfold State.takeSet
  split
  · exact { refl s with }
  · exact refl s

theorem offerSet : SameSettings s s.offerSet := by
  unfold State.offerSet
  split
  · exact { refl s with }
  · exact refl s

theorem setTaken (o : Offered) : SameSettings s (s.setTaken o) := by
  unfold State.setTaken
  split
  · dsimp only
    split
    · exact { refl s with }
    · exact { refl s with }
  · exact { refl s with }

theorem spanWork (set : SampleSet) : SameSettings s (s.spanWork set) := by
  unfold State.spanWork
  split
  · exact refl s
  · split
    · exact { refl s with }
    · exact { refl s with }

theorem spanTake : SameSettings s s.spanTake := by
  unfold State.spanTake
  split
  · split
    · exact refl s
    · exact (spanWork s _).trans (setTaken _ _)
  · exact refl s

theorem limitTake : SameSettings s s.limitTake := by
  unfold State.limitTake
  split
  · split
    · exact refl s
    · exact SameSettings.trans (t := s.limitWork _) { refl s with } (setTaken _ _)
  · exact refl s

theorem startRun (a : RunStart) : SameSettings s (s.startRun a) :=
  { refl s with
    links := fun h => by
      rw [show (s.startRun a).head h = (s.head h).zeroCounts from map4_get Head.zeroCounts s.hlc.heads h]
      exact ⟨rfl, rfl⟩
    channels := fun k => by
      rw [show (s.startRun a).mcv.channels[k] = (s.mcv.channels[k]).startRun from
        map4_get Channel.startRun s.mcv.channels k]
      unfold Channel.startRun
      split <;> rfl }

theorem restart : SameSettings s s.restart :=
  { refl s with
    links := fun h => by
      rw [show s.restart.head h = (s.head h).zeroCounts from map4_get Head.zeroCounts s.hlc.heads h]
      exact ⟨rfl, rfl⟩
    channels := fun k => by
      rw [show s.restart.mcv.channels[k] = (s.mcv.channels[k]).rearm from map4_get Channel.rearm s.mcv.channels k]
      rfl }

variable {s}

theorem ofHappens {c : Instr} {t : State} (b : Happens c s t) : SameSettings s t := by
  by_cases hc : onHeads c = true
  · exact headStep (.ofHappens b hc)
  cases b with
  | hostFrame | transmissionEnd => exact { refl s with }
  | odometerPulse toward => exact pulse s toward
  | mastPulse => exact { refl s with config := s.tu.mastPulse_config }
  | timeTriggerDue => exact timeDue s
  | motionSequenceEnd => exact motionEnd s _
  | scanExtraction => exact extractNext s
  | candidateListHandover => exact handOver s
  | trackScan => exact trackNext s
  | setValuing => exact takeSet s
  | setOffer => exact offerSet s
  | spanSetTake => exact spanTake s
  | limitSetTake => exact limitTake s
  | closingWork => exact closeIfDue s
  | ready | profile | headUnusableFrame | headBadFrame | clearingTimerExpiry | responseWindowExpiry =>
    exact absurd rfl hc

/-- R172: the commands that change the settings are taken in STANDBY alone. -/
theorem ofTakes {c : Instr} {t : State} (b : Takes c s t) (hm : s.mode ≠ .standby) : SameSettings s t := by
  by_cases hc : onHeads c = true
  · exact headStep (.ofTakes b hc)
  cases b with
  | setHead _ _ h | setMotion _ _ h | setExtract _ _ h | setTracker _ _ h | setWearTable _ _ h
  | setDefaultSection _ _ h | setRule _ _ _ h | setPolicy _ _ _ h | setTrigger _ _ h | startRun _ _ h =>
    exact absurd h hm
  | getStatus | getTracks => exact refl s
  | setTestProfile | clearRoute | appendSection | setReporting | positionFix => exact { refl s with }
  | stopRun =>
    refine SameSettings.trans ?_ (closeIfDue _)
    exact { refl s with }
  | scanOnce => exact trigger s
  | restart => exact restart s
  | headInit | headRestore | headIsolate | headIsolateClearing | headDisabled | headDisable | headDisableIdle
  | testSourceOn | testSourceOff => exact absurd rfl hc

end SameSettings

/-! ## The mode -/

theorem State.setTaken_mode (s : State) (o : Offered) :
    (s.setTaken o).mode = s.mode ∨ o.set.runEnd = true ∧ (s.setTaken o).mode = .standby := by
  unfold State.setTaken
  split
  · dsimp only
    split
    · rename_i hend
      exact .inr ⟨hend, rfl⟩
    · exact .inl rfl
  · exact .inl rfl

/-- R105, R178: an end-of-run set is offered in STOPPING alone. -/
theorem State.banksOwned.stopping_of_runEnd {s : State} (h : s.banksOwned) {o : Offered} (ho : s.wru.offered = some o)
    (hend : o.set.runEnd = true) : s.mode = .stopping := by
  obtain ⟨-, -, -, -, -, hclosing, hrun, -⟩ := h
  cases hc : s.closing with
  | true => exact (hclosing hc).1
  | false =>
    have hset : o.set ∈ s.sets := by simp [State.sets, ho]
    have := List.all_eq_true.mp (hrun hc) o.set hset
    simp [hend] at this

theorem State.spanTake_mode {s : State} (h : s.banksOwned) :
    s.spanTake.mode = s.mode ∨ s.mode = .stopping ∧ s.spanTake.mode = .standby := by
  unfold State.spanTake
  split
  · rename_i o ho
    split
    · exact .inl rfl
    · rcases (s.spanWork o.set).setTaken_mode { o with spanTaken := true } with hmode | ⟨hend, hmode⟩
      · exact .inl (hmode.trans (s.spanWork_mode _))
      · exact .inr ⟨h.stopping_of_runEnd ho hend, hmode⟩
  · exact .inl rfl

theorem State.limitTake_mode {s : State} (h : s.banksOwned) :
    s.limitTake.mode = s.mode ∨ s.mode = .stopping ∧ s.limitTake.mode = .standby := by
  unfold State.limitTake
  split
  · rename_i o ho
    split
    · exact .inl rfl
    · rcases (s.limitWork o).setTaken_mode { o with limitTaken := true } with hmode | ⟨hend, hmode⟩
      · exact .inl (hmode.trans (s.limitWork_mode _))
      · exact .inr ⟨h.stopping_of_runEnd ho hend, hmode⟩
  · exact .inl rfl

theorem modePassage_same (c : Instr) (m : Mode) : modePassage c m m = true := by simp [modePassage]

theorem modePassage_of_eq (c : Instr) {a b : Mode} (h : b = a) : modePassage c a b = true := h ▸ modePassage_same c a

theorem HeadStep.mode {s t : State} (k : HeadStep s t) : t.mode = s.mode := k.behind.2.2.1

theorem Happens.mode {c : Instr} {s t : State} (h : s.banksOwned) (b : Happens c s t) :
    modePassage c s.mode t.mode = true := by
  by_cases hc : onHeads c = true
  · exact modePassage_of_eq c (HeadStep.ofHappens b hc).mode
  cases b with
  | hostFrame | transmissionEnd | mastPulse => exact modePassage_same _ _
  | spanSetTake =>
    rcases State.spanTake_mode h with hmode | ⟨hfrom, hto⟩
    · exact modePassage_of_eq _ hmode
    · rw [hfrom, hto]; rfl
  | limitSetTake =>
    rcases State.limitTake_mode h with hmode | ⟨hfrom, hto⟩
    · exact modePassage_of_eq _ hmode
    · rw [hfrom, hto]; rfl
  | odometerPulse | timeTriggerDue | motionSequenceEnd | scanExtraction | candidateListHandover | trackScan
  | setValuing | setOffer | closingWork => exact modePassage_of_eq _ (by simp)
  | ready | profile | headUnusableFrame | headBadFrame | clearingTimerExpiry | responseWindowExpiry =>
    exact absurd rfl hc

theorem State.stopRun_mode (s : State) : s.stopRun.mode = .stopping := by
  unfold State.stopRun
  rw [State.closeIfDue_mode]

theorem Takes.mode {c : Instr} {s t : State} (b : Takes c s t) : modePassage c s.mode t.mode = true := by
  by_cases hc : onHeads c = true
  · exact modePassage_of_eq c (HeadStep.ofTakes b hc).mode
  cases b with
  | getStatus | getTracks | setHead | setTestProfile | setMotion | setExtract | setTracker | setWearTable
  | setDefaultSection | clearRoute | appendSection | setRule | setPolicy | setTrigger | setReporting
  | positionFix => exact modePassage_same _ _
  | startRun _ _ h => rw [h]; rfl
  | stopRun _ h => rw [h, State.stopRun_mode]; rfl
  | scanOnce => exact modePassage_of_eq _ s.trigger_mode
  | restart =>
    rw [show s.restart.mode = .standby from rfl]
    cases s.mode <;> rfl
  | headInit | headRestore | headIsolate | headIsolateClearing | headDisabled | headDisable | headDisableIdle
  | testSourceOn | testSourceOff => exact absurd rfl hc

/-! ## A command, and a step -/

theorem Becomes.mode {c : Instr} {s t : State} (h : s.banksOwned) (b : Becomes c s t) :
    modePassage c s.mode t.mode = true := by
  cases b with
  | same => exact modePassage_same _ _
  | happens b => exact b.mode h
  | answered => exact modePassage_same _ _
  | taken f rest data _ b => exact b.mode

theorem SameSettings.ofBecomes {c : Instr} {s t : State} (b : Becomes c s t) (hm : s.mode ≠ .standby) :
    SameSettings s t := by
  cases b with
  | same => exact refl s
  | happens b => exact ofHappens b
  | answered => exact { refl s with }
  | @taken u f rest data _ b =>
    have hu : SameSettings (s.popped rest) u := ofTakes b hm
    exact { hu with }

theorem State.tick_mode (s : State) : s.tick.mode = s.mode := by
  obtain ⟨u, hu, htick | htick⟩ := s.tick_cases
  · exact htick ▸ hu.mode
  · exact htick ▸ (u.timeDue_mode).trans hu.mode

/-- Settles O59: the mode moves in the rows of its table alone, and the settings' own commands are taken in STANDBY. -/
theorem modesAndRunSettings : Obligations.ModesAndRunSettings := by
  intro s t hs h
  rcases step_becomes h with ⟨hq, -, rfl⟩ | ⟨hq, -, rfl⟩ | ⟨c, rest, hq, hcases⟩
  · exact ⟨fun _ => rfl, fun c rest _ => modePassage_same c _, fun _ _ => rfl⟩
  · refine ⟨fun _ => s.tick.kick_mode.trans s.tick_mode, fun c rest hcons => ?_, fun _ _ => ?_⟩
    · rw [hq] at hcons; cases hcons
    · exact ((SameSettings.tick s).trans (.kick _)).settings
  have hnone : s.pending = [] → t.mode = s.mode := fun hempty => by rw [hq] at hempty; cases hempty
  have hfront : modePassage c s.mode t.mode = true ∧
      (s.mode ≠ .standby → c ≠ .powerOnResetRelease → SameSettings s t) := by
    rcases hcases with ⟨-, rfl⟩ | ⟨rfl, rfl⟩ | ⟨rfl, rfl⟩ | ⟨-, u, hu, rfl⟩
    · exact ⟨modePassage_same _ _, fun _ _ => { SameSettings.refl s with }⟩
    · exact ⟨modePassage_same _ _, fun _ _ => { SameSettings.refl s with }⟩
    · exact ⟨by cases s.mode <;> rfl, fun _ hc => absurd rfl hc⟩
    · have hmode := Becomes.mode (s := { s with pending := rest }) hs hu
      refine ⟨by rwa [State.kick_mode], fun hm _ => ?_⟩
      have hkept : SameSettings { s with pending := rest } u := .ofBecomes hu hm
      exact SameSettings.trans { hkept with } (.kick u)
  refine ⟨hnone, fun d more hcons => ?_, fun hm hrelease => ?_⟩
  · rw [hq] at hcons
    cases hcons
    exact hfront.1
  · refine (hfront.2 hm ?_).settings
    rintro rfl
    exact hrelease (by rw [hq]; rfl)

end Sys2Proof.Machine
end

section
/-! PROOFS. The scan path and the bank pairs (R42 to R44, R51, R52, R58): what each row does to the scan records, to the
scans in flight behind the extractor, and to the conversion sequences. -/

namespace Sys2Proof.Machine

/-! ## The scan records -/

/-- The numbers of the scans that the extractor has taken. -/
def Hlc.takenScans (c : Hlc) : List Nat := (c.scans.filter fun r => r.stage == .taken).map (·.header.scan)

/-- The numbers of the scans whose motion sample has not arrived. -/
def Hlc.unmeasured (c : Hlc) : List Nat := (c.scans.filter fun r => r.motion.isNone).map (·.header.scan)

theorem Hlc.takenScans_core (c : Hlc) :
    c.takenScans = ((c.scans.map ScanRecord.core).filter (·.2.2.2)).map (·.1.scan) := by
  simp only [Hlc.takenScans, List.filter_map, List.map_map]
  rfl

theorem Hlc.unmeasured_core (c : Hlc) :
    c.unmeasured = ((c.scans.map ScanRecord.core).filter (·.2.2.1.isNone)).map (·.1.scan) := by
  simp only [Hlc.unmeasured, List.filter_map, List.map_map]
  rfl

/-- Two controllers whose records differ at most in answers and completion. -/
def Hlc.SameCore (c d : Hlc) : Prop := d.scans.map ScanRecord.core = c.scans.map ScanRecord.core

namespace Hlc.SameCore

variable {c d : Hlc}

theorem takenScans (h : c.SameCore d) : d.takenScans = c.takenScans := by
  rw [Hlc.takenScans_core, Hlc.takenScans_core, h]

theorem unmeasured (h : c.SameCore d) : d.unmeasured = c.unmeasured := by
  rw [Hlc.unmeasured_core, Hlc.unmeasured_core, h]

theorem scans_eq_nil (h : c.SameCore d) (hc : c.scans = []) : d.scans = [] := by
  simpa [Hlc.SameCore, hc] using h

end Hlc.SameCore

/-- A use of the bank pairs: the scan number and the owner that its record's stage gives the pair. -/
def ScanRecord.use (r : ScanRecord) : Nat × Owner := (r.header.scan, r.stage.owner)

theorem Hlc.owned_iff (c : Hlc) : c.Owned ↔
    ((c.scans.map ScanRecord.use).Pairwise fun a b => parity a.1 ≠ parity b.1) ∧
    (∀ u ∈ c.scans.map ScanRecord.use, (c.pairs[parity u.1]).owner = u.2) ∧
    ∀ k : Fin 2, (∀ u ∈ c.scans.map ScanRecord.use, parity u.1 ≠ k) → (c.pairs[k]).owner = .free := by
  simp only [List.pairwise_map, List.forall_mem_map]
  rfl

/-- The pairs follow the numbers of the records and the owners that their stages give. -/
theorem Hlc.Owned.of_uses {c d : Hlc} (h : c.Owned) (hs : d.scans.map ScanRecord.use = c.scans.map ScanRecord.use)
    (hp : ∀ k : Fin 2, (d.pairs[k]).owner = (c.pairs[k]).owner) : d.Owned := by
  rw [Hlc.owned_iff] at h ⊢
  simpa only [hs, hp] using h

theorem Hlc.owned_of_no_scans {c : Hlc} (hs : c.scans = []) (hp : ∀ k : Fin 2, (c.pairs[k]).owner = .free) : c.Owned := by
  rw [Hlc.owned_iff, hs]
  exact ⟨.nil, List.forall_mem_nil _, fun k _ => hp k⟩

theorem Hlc.settled_of_no_scans {c : Hlc} (hs : c.scans = []) : c.Settled := by
  unfold Hlc.Settled
  rw [hs]
  exact ⟨List.forall_mem_nil _, List.forall_mem_nil _⟩

/-- R43: no two records have one number. -/
theorem Hlc.Owned.nodup {c : Hlc} (h : c.Owned) : (c.scans.map (·.header.scan)).Nodup :=
  List.pairwise_map.mpr (h.1.imp fun hne heq => hne (congrArg parity heq))

theorem Hlc.Owned.unmeasured_nodup {c : Hlc} (h : c.Owned) : c.unmeasured.Nodup :=
  h.nodup.sublist (List.filter_sublist.map _)

theorem Hlc.Owned.takenScans_nodup {c : Hlc} (h : c.Owned) : c.takenScans.Nodup :=
  h.nodup.sublist (List.filter_sublist.map _)

/-! ### A microsecond -/

theorem Answer.tick_isOpen (a : Answer) : a.tick.isOpen = a.isOpen := by cases a <;> rfl

theorem ScanRecord.tick_isComplete (r : ScanRecord) : r.tick.isComplete = r.isComplete := by
  have hanswers : ∀ h : HeadNo, (r.tick.answers[h]).isOpen = (r.answers[h]).isOpen := fun h => by
    rw [show r.tick.answers[h] = (r.answers[h]).tick from map4_get Answer.tick r.answers h, Answer.tick_isOpen]
  have hclosed : r.tick.closed = r.closed := by simp only [ScanRecord.closed, hanswers]
  unfold ScanRecord.isComplete
  rw [hclosed]
  rfl

theorem State.elapse_core (s : State) : s.hlc.SameCore s.elapse.hlc := by
  simp only [Hlc.SameCore, State.elapse, List.map_map]
  rfl

theorem State.elapse_owned {s : State} (h : s.hlc.Owned) : s.elapse.hlc.Owned :=
  h.of_uses (by simp only [State.elapse, List.map_map]; rfl) fun _ => rfl

theorem State.elapse_settled {s : State} (h : s.hlc.Settled) : s.elapse.hlc.Settled := by
  refine ⟨List.forall_mem_map.mpr fun r hr => ?_, List.forall_mem_map.mpr fun r hr => ?_⟩
  · rw [ScanRecord.tick_isComplete]
    exact h.1 r hr
  · exact h.2 r hr

/-! ### The motion sample of a scan (R58, R65) -/

/-- The records with the sample of scan `n` delivered, before completion. -/
def Hlc.delivered (c : Hlc) (n : Nat) (m : MotionSample) : Hlc := { c with scans := deliver n m c.scans }

theorem deliver_uses (n : Nat) (m : MotionSample) (l : List ScanRecord) :
    (deliver n m l).map ScanRecord.use = l.map ScanRecord.use := by
  unfold deliver
  rw [List.map_map]
  refine List.map_congr_left fun r _ => ?_
  simp only [Function.comp]
  split <;> rfl

theorem deliver_unmeasured (n : Nat) (m : MotionSample) (l : List ScanRecord) :
    ((deliver n m l).filter fun r => r.motion.isNone).map (·.header.scan) =
      (((l.filter fun r => r.motion.isNone).map (·.header.scan)).filter (· ≠ n)) := by
  induction l with
  | nil => rfl
  | cons r l ih =>
    simp only [deliver] at ih ⊢
    by_cases hn : r.header.scan = n <;> cases hm : r.motion <;> simp [hn, hm, ih]

theorem Hlc.delivered_takenScans (c : Hlc) (n : Nat) (m : MotionSample) :
    (c.delivered n m).takenScans = c.takenScans := by
  unfold Hlc.takenScans Hlc.delivered
  dsimp only
  induction c.scans with
  | nil => rfl
  | cons r l ih =>
    simp only [deliver] at ih ⊢
    by_cases hn : r.header.scan = n <;> cases ht : r.stage == .taken <;> simp_all

theorem filter_ne_head {n : Nat} {rest : List Nat} (h : (n :: rest).Nodup) : (n :: rest).filter (· ≠ n) = rest := by
  rw [List.filter_cons_of_neg (by simp)]
  exact List.filter_eq_self.mpr fun a ha => by simpa using fun heq : a = n => (List.nodup_cons.mp h).1 (heq ▸ ha)

theorem Hlc.delivered_measures {c : Hlc} (h : c.Owned) {n : Nat} {rest : List Nat} (hn : c.unmeasured = n :: rest)
    (m : MotionSample) : (c.delivered n m).unmeasured = rest := by
  have hnodup : (n :: rest).Nodup := hn ▸ h.unmeasured_nodup
  refine (deliver_unmeasured n m c.scans).trans ?_
  change c.unmeasured.filter (· ≠ n) = rest
  rw [hn]
  exact filter_ne_head hnodup

theorem Hlc.delivered_owned {c : Hlc} (h : c.Owned) (n : Nat) (m : MotionSample) : (c.delivered n m).Owned :=
  h.of_uses (deliver_uses n m c.scans) fun _ => rfl

theorem Hlc.delivered_settled {c : Hlc} (h : c.Settled) (n : Nat) (m : MotionSample) :
    (c.delivered n m).complete.Settled := by
  refine Hlc.Settled.complete (List.forall_mem_map.mpr fun r hr => ?_)
  split
  · intro _ hnone
    cases hnone
  · exact h.2 r hr

/-! ### The extractor takes a scan (R68) -/

theorem takeComplete_eq {a b : List ScanRecord} {r : ScanRecord} (ha : ∀ x ∈ a, x.stage ≠ .complete)
    (hr : r.stage = .complete) : takeComplete (a ++ r :: b) = a ++ { r with stage := .taken } :: b := by
  induction a with
  | nil => simp [takeComplete, hr]
  | cons x a ih =>
    obtain ⟨hx, hrest⟩ := List.forall_mem_cons.mp ha
    simp [takeComplete, hx, ih hrest]

theorem find_complete {l : List ScanRecord} {r : ScanRecord} (h : l.find? (fun r => r.stage == .complete) = some r) :
    ∃ a b, l = a ++ r :: b ∧ r.stage = .complete ∧ ∀ x ∈ a, x.stage ≠ .complete := by
  obtain ⟨hr, a, b, hl, ha⟩ := List.find?_eq_some_iff_append.mp h
  exact ⟨a, b, hl, by simpa using hr, fun x hx => by simpa using ha x hx⟩

/-- The records with the first complete one taken. -/
def Hlc.extracted (c : Hlc) : Hlc := { c with scans := takeComplete c.scans }

section Extracted

variable {c : Hlc} {a b : List ScanRecord} {r : ScanRecord}

theorem Hlc.extracted_scans (hl : c.scans = a ++ r :: b) (hr : r.stage = .complete)
    (ha : ∀ x ∈ a, x.stage ≠ .complete) : c.extracted.scans = a ++ { r with stage := .taken } :: b :=
  (congrArg takeComplete hl).trans (takeComplete_eq ha hr)

theorem Hlc.extracted_owned (h : c.Owned) (hl : c.scans = a ++ r :: b) (hr : r.stage = .complete)
    (ha : ∀ x ∈ a, x.stage ≠ .complete) : c.extracted.Owned := by
  refine h.of_uses ?_ fun _ => rfl
  rw [Hlc.extracted_scans hl hr ha, hl]
  simp [ScanRecord.use, ScanStage.owner, hr]

theorem Hlc.extracted_takenScans (hl : c.scans = a ++ r :: b) (hr : r.stage = .complete)
    (ha : ∀ x ∈ a, x.stage ≠ .complete) : c.extracted.takenScans.Perm (c.takenScans ++ [r.header.scan]) := by
  unfold Hlc.takenScans
  rw [Hlc.extracted_scans hl hr ha, hl]
  simp only [List.filter_append, List.filter_cons, hr, List.map_append, beq_self_eq_true, ↓reduceIte]
  rw [List.append_assoc]
  exact (List.perm_append_singleton _ _).symm.append_left _

theorem Hlc.extracted_unmeasured (hl : c.scans = a ++ r :: b) (hr : r.stage = .complete)
    (ha : ∀ x ∈ a, x.stage ≠ .complete) : c.extracted.unmeasured = c.unmeasured := by
  unfold Hlc.unmeasured
  rw [Hlc.extracted_scans hl hr ha, hl]
  cases hm : r.motion <;> simp [hm]

theorem Hlc.extracted_settled (h : c.Settled) (hl : c.scans = a ++ r :: b) (hr : r.stage = .complete)
    (ha : ∀ x ∈ a, x.stage ≠ .complete) : c.extracted.Settled := by
  obtain ⟨hcomplete, hmotion⟩ := h
  rw [hl] at hcomplete hmotion
  simp only [List.forall_mem_append, List.forall_mem_cons] at hcomplete hmotion
  unfold Hlc.Settled
  rw [Hlc.extracted_scans hl hr ha]
  simp only [List.forall_mem_append, List.forall_mem_cons]
  exact ⟨⟨hcomplete.1, rfl, hcomplete.2.2⟩, hmotion.1, fun _ => hmotion.2.1 (by rw [hr]; decide), hmotion.2.2⟩

end Extracted

/-! ### A scan ends (R52) -/

section Release

variable {c : Hlc} {n : Nat}

theorem Hlc.release_owned (h : c.Owned) (hn : n ∈ c.takenScans) : (c.release n).Owned := by
  obtain ⟨apart, used, unused⟩ := h
  obtain ⟨r, hr, rfl⟩ := List.mem_map.mp hn
  replace hr := List.mem_of_mem_filter hr
  have hother : ∀ x ∈ c.scans, x.header.scan ≠ r.header.scan → parity x.header.scan ≠ parity r.header.scan :=
    fun x hx hne heq => hne (by rw [parity_inj_of_pairwise apart hx hr heq])
  refine ⟨apart.sublist List.filter_sublist, fun x hx => ?_, fun k hk => ?_⟩
  · obtain ⟨hmem, hne⟩ := List.mem_filter.mp hx
    have hparity := hother x hmem (by simpa using hne)
    exact (setOwner_owner c.pairs _ _ .free).trans (by rw [if_neg hparity]; exact used x hmem)
  · refine (setOwner_owner c.pairs _ k .free).trans ?_
    split
    · rfl
    · rename_i hne
      refine unused k fun x hx heq => ?_
      by_cases hx' : x.header.scan = r.header.scan
      · exact hne (heq.symm.trans (congrArg parity hx'))
      · exact hk x (List.mem_filter.mpr ⟨hx, by simpa using hx'⟩) heq

theorem Hlc.release_settled (h : c.Settled) : (c.release n).Settled :=
  ⟨fun r hr => h.1 r (List.mem_of_mem_filter hr), fun r hr => h.2 r (List.mem_of_mem_filter hr)⟩

theorem Hlc.release_takenScans (c : Hlc) (n : Nat) : (c.release n).takenScans = c.takenScans.filter (· ≠ n) := by
  simp only [Hlc.takenScans, Hlc.release, List.filter_map, List.filter_filter, Function.comp_def, Bool.and_comm]

theorem Hlc.release_unmeasured (c : Hlc) (n : Nat) : (c.release n).unmeasured = c.unmeasured.filter (· ≠ n) := by
  simp only [Hlc.unmeasured, Hlc.release, List.filter_map, List.filter_filter, Function.comp_def, Bool.and_comm]

/-- A taken scan has its motion sample. -/
theorem Hlc.not_unmeasured_of_taken (ho : c.Owned) (h : c.Settled) (hn : n ∈ c.takenScans) : n ∉ c.unmeasured := by
  intro hu
  obtain ⟨r, hr, rfl⟩ := List.mem_map.mp hn
  obtain ⟨x, hx, heq⟩ := List.mem_map.mp hu
  obtain ⟨hr, htaken⟩ := List.mem_filter.mp hr
  obtain ⟨hx, hnone⟩ := List.mem_filter.mp hx
  obtain rfl : x = r := parity_inj_of_pairwise ho.1 hx hr (congrArg parity heq)
  refine h.2 x hx ?_ (by simpa using hnone)
  rw [show x.stage = .taken by simpa using htaken]
  decide

end Release

/-! ### An acceptance (R44, R58) -/

theorem State.accept_settled {s : State} (h : s.hlc.Settled) : s.accept.hlc.Settled := by
  have hbefore := s.accept_heads.settled h
  rw [State.accept_hlc]
  generalize ({ s with tu := s.tu.accept }.offerAll s.tu.fixEvents).closePrevious.hlc = c at hbefore
  refine ⟨List.forall_mem_append.mpr ⟨hbefore.1, List.forall_mem_singleton.mpr ?_⟩,
    List.forall_mem_append.mpr ⟨hbefore.2, List.forall_mem_singleton.mpr fun hstage => absurd rfl hstage⟩⟩
  simp [ScanRecord.isComplete]

theorem State.accept_takenScans (s : State) : s.accept.hlc.takenScans = s.hlc.takenScans := by
  rw [Hlc.takenScans_core, State.accept_core, Hlc.takenScans_core]
  simp

theorem State.accept_unmeasured (s : State) : s.accept.hlc.unmeasured = s.hlc.unmeasured ++ [s.tu.scan + 1] := by
  rw [Hlc.unmeasured_core, State.accept_core, Hlc.unmeasured_core]
  simp [Tu.header_scan]

end Sys2Proof.Machine
end

section
/-! PROOFS. The bank pairs stay owned as the scan records in flight say, and the scan path stays the list of the taken
ones, row by row (R42 to R44, R51, R52, R58). -/

namespace Sys2Proof.Machine

/-! ## The invariant by its parts -/

/-- `State.banksOwned` with its parts named, through the lists of taken and of unmeasured scans. -/
structure State.Lanes (s : State) : Prop where
  owned : s.hlc.Owned
  settled : s.hlc.Settled
  path : s.pathScans.Perm s.hlc.takenScans
  standby : s.mode = .standby → s.hlc.scans = [] ∧ s.sets = [] ∧ s.mcv.sequences = []
  closing : s.closing = true → s.mode = .stopping ∧ s.hlc.scans = [] ∧ s.sets.length = 1
  running : s.closing = false → s.sets.all (fun set => !set.runEnd)
  single : s.wru.valuing = none ∨ s.wru.offered = none
  sequences : s.mcv.sequences = s.hlc.unmeasured

/-- A record with its sample that gathers on has an open answer. -/
theorem ScanRecord.isComplete_eq_false_iff (r : ScanRecord) : r.isComplete = false ↔
    (r.stage = .gathering → r.motion = none ∨ ∃ h : HeadNo, (r.answers[h]).isOpen = true) := by
  rw [Bool.eq_false_iff, ne_eq, ScanRecord.isComplete_iff]
  cases r.motion <;> simp

theorem State.banksOwned_iff (s : State) : s.banksOwned ↔ s.Lanes := by
  constructor
  · intro h
    have hcomplete := h.not_complete
    obtain ⟨apart, used, unused, path, standby, closing, running, single, sequences, -, hmotion⟩ := h
    exact ⟨⟨apart, used, unused⟩, ⟨hcomplete, hmotion⟩, path, standby, closing, running, single, sequences⟩
  · rintro ⟨⟨apart, used, unused⟩, ⟨hcomplete, hmotion⟩, path, standby, closing, running, single, sequences⟩
    exact ⟨apart, used, unused, path, standby, closing, running, single, sequences,
      fun r hr => r.isComplete_eq_false_iff.mp (hcomplete r hr), hmotion⟩

/-- A tracked scan gives a set of its own header, and no end-of-run set. -/
theorem Wtr.track_set (w : Wtr) (scan : HandedScan) :
    (w.track scan).2.1.header = scan.header ∧ (w.track scan).2.1.runEnd = false := by
  unfold Wtr.track
  split <;> exact ⟨rfl, rfl⟩

namespace State.Lanes

variable {s t : State}

/-! ## States that hold the same path -/

/-- The invariant stays where the records differ at most in answers and completion, and the path holds the same scans in
sets of the same two kinds. -/
theorem of_path (h : s.Lanes) (mode : t.mode = s.mode) (closing : t.closing = s.closing)
    (sets : t.sets.map (·.runEnd) = s.sets.map (·.runEnd)) (path : t.pathScans = s.pathScans)
    (single : t.wru.valuing = none ∨ t.wru.offered = none) (sequences : t.mcv.sequences = s.mcv.sequences)
    (core : s.hlc.SameCore t.hlc) (owned : t.hlc.Owned) (settled : t.hlc.Settled) : t.Lanes := by
  have hnil : s.sets = [] → t.sets = [] := fun hs => by simpa [hs] using sets
  have hlength : t.sets.length = s.sets.length := by simpa using congrArg List.length sets
  have hall : t.sets.all (fun set => !set.runEnd) = s.sets.all (fun set => !set.runEnd) := by
    simpa [List.all_map, Function.comp_def] using congrArg (List.all · (!·)) sets
  exact {
    owned, settled, single
    path := by rw [path, core.takenScans]; exact h.path
    standby := fun hm => by
      obtain ⟨hscans, hsets, hseq⟩ := h.standby (mode ▸ hm)
      exact ⟨core.scans_eq_nil hscans, hnil hsets, sequences.trans hseq⟩
    closing := fun hc => by
      obtain ⟨hm, hscans, hone⟩ := h.closing (closing ▸ hc)
      exact ⟨mode.trans hm, core.scans_eq_nil hscans, hlength.trans hone⟩
    running := fun hc => hall ▸ h.running (closing ▸ hc)
    sequences := by rw [sequences, core.unmeasured]; exact h.sequences }

/-- A row that leaves the scan path and the records alone. -/
theorem of_blocks (h : s.Lanes) (mode : t.mode = s.mode) (closing : t.closing = s.closing) (hlc : t.hlc = s.hlc)
    (sequences : t.mcv.sequences = s.mcv.sequences) (pxu : t.pxu = s.pxu) (wtr : t.wtr = s.wtr) (wru : t.wru = s.wru) :
    t.Lanes :=
  h.of_path mode closing (by simp only [State.sets, wtr, wru]) (by simp only [State.pathScans, State.sets, pxu, wtr, wru])
    (wru ▸ h.single) sequences (by rw [hlc]; rfl) (hlc ▸ h.owned) (hlc ▸ h.settled)

/-- With nothing in flight and no closing work begun. -/
theorem of_idle (hscans : s.hlc.scans = []) (hfree : ∀ k : Fin 2, (s.hlc.pairs[k]).owner = .free) (hsets : s.sets = [])
    (hinbox : s.wtr.inbox = []) (hcurrent : s.pxu.current = none) (hseq : s.mcv.sequences = [])
    (hclosing : s.closing = false) (hsingle : s.wru.valuing = none ∨ s.wru.offered = none) : s.Lanes where
  owned := Hlc.owned_of_no_scans hscans hfree
  settled := Hlc.settled_of_no_scans hscans
  path := by simp [State.pathScans, Hlc.takenScans, hscans, hsets, hinbox, hcurrent]
  standby _ := ⟨hscans, hsets, hseq⟩
  closing hc := by rw [hclosing] at hc; cases hc
  running _ := by rw [hsets]; rfl
  single := hsingle
  sequences := by simp [Hlc.unmeasured, hscans, hseq]

/-! ## What a state without scan records holds -/

/-- With no record in flight nothing stands behind the extractor. -/
theorem path_eq_nil (h : s.Lanes) (hscans : s.hlc.scans = []) : s.pathScans = [] := by
  have hpath := h.path
  rw [show s.hlc.takenScans = [] by simp [Hlc.takenScans, hscans]] at hpath
  exact hpath.eq_nil

theorem inbox_eq_nil (h : s.Lanes) (hscans : s.hlc.scans = []) : s.wtr.inbox = [] := by
  have hpath := h.path_eq_nil hscans
  simp only [State.pathScans, List.append_eq_nil_iff, List.map_eq_nil_iff] at hpath
  exact hpath.1.2

/-- Before closing work has begun, no record in flight means no set on the path. -/
theorem sets_eq_nil (h : s.Lanes) (hscans : s.hlc.scans = []) (hclosing : s.closing = false) : s.sets = [] := by
  have hpath := h.path_eq_nil hscans
  simp only [State.pathScans, List.append_eq_nil_iff, List.map_eq_nil_iff] at hpath
  rw [← List.filter_eq_self.mpr (List.all_eq_true.mp (h.running hclosing))]
  exact hpath.1.1

/-- A scan in flight behind the extractor excludes STANDBY and closing work. -/
theorem open_of_scan (h : s.Lanes) (hscans : s.hlc.scans ≠ []) : s.mode ≠ .standby ∧ s.closing = false :=
  ⟨fun hm => hscans (h.standby hm).1, Bool.eq_false_iff.mpr fun hc => hscans (h.closing hc).2.1⟩

theorem not_closing_of_running (h : s.Lanes) (hm : s.mode = .running) : s.closing = false :=
  Bool.eq_false_iff.mpr fun hc => by
    have := (h.closing hc).1
    rw [hm] at this
    cases this

/-! ## Heads, timers and triggers -/

theorem headStep (h : s.Lanes) (k : HeadStep s t) : t.Lanes := by
  obtain ⟨-, -, hmode, hclosing, -, hmcv, hpxu, hwtr, hwru, -⟩ := k.behind
  exact h.of_path hmode hclosing (by simp only [State.sets, hwtr, hwru])
    (by simp only [State.pathScans, State.sets, hpxu, hwtr, hwru]) (hwru ▸ h.single) (by rw [hmcv]) k.core
    (k.owned h.owned) (k.settled h.settled)

theorem elapse (h : s.Lanes) : s.elapse.Lanes :=
  h.of_path (t := s.elapse) rfl rfl rfl rfl h.single rfl s.elapse_core (State.elapse_owned h.owned)
    (State.elapse_settled h.settled)

theorem trigger (h : s.Lanes) (hm : s.mode = .running) : s.trigger.Lanes := by
  cases ha : s.accepts with
  | false =>
    rw [State.trigger_refused ha]
    exact h.of_blocks rfl rfl rfl rfl rfl rfl rfl
  | true =>
    have hclosing := h.not_closing_of_running hm
    have hsets : s.accept.sets = s.sets := by simp [State.sets]
    rw [State.trigger_accepted ha]
    exact {
      owned := State.accept_owned h.owned ha
      settled := State.accept_settled h.settled
      path := by
        rw [State.accept_takenScans, show s.accept.pathScans = s.pathScans by simp [State.pathScans, hsets]]
        exact h.path
      standby := fun hs => by rw [State.accept_mode, hm] at hs; cases hs
      closing := fun hc => by rw [State.accept_closing, hclosing] at hc; cases hc
      running := fun _ => hsets ▸ h.running hclosing
      single := by rw [State.accept_wru]; exact h.single
      sequences := by rw [State.accept_mcv, State.accept_unmeasured, ← h.sequences]; rfl }

theorem pulse (h : s.Lanes) (toward : CarEnd) : (s.pulse toward).Lanes := by
  rcases s.pulse_cases toward with ⟨u, hu, hhlc, hmcv, -, hpxu, hwtr, hwru, hmode, hclosing, hm, -⟩ | ⟨hhlc, hmcv, -, -⟩
  · rw [hu]
    exact (h.of_blocks hmode hclosing hhlc (by rw [hmcv]) hpxu hwtr hwru).trigger (hmode.trans hm)
  · exact h.of_blocks (s.pulse_mode toward) (s.pulse_closing toward) hhlc (by rw [hmcv]) (s.pulse_pxu toward)
      (s.pulse_wtr toward) (s.pulse_wru toward)

theorem timeDue (h : s.Lanes) : s.timeDue.Lanes := by
  rcases s.timeDue_cases with ⟨u, hu, hhlc, hmcv, -, hpxu, hwtr, hwru, hmode, hclosing, hm, -⟩ | hsame
  · rw [hu]
    exact (h.of_blocks hmode hclosing hhlc (by rw [hmcv]) hpxu hwtr hwru).trigger (hmode.trans hm)
  · rwa [hsame]

/-! ## The rows of the scan path -/

/-- R58, R65: the oldest sequence is that of the oldest record without its sample. -/
theorem motionEnd (h : s.Lanes) (codes : Vector Nat 4) : (s.motionEnd codes).Lanes := by
  unfold State.motionEnd
  split
  · exact h
  · rename_i n rest hn
    let m := sampleOf s.mcv.spacing (judgeAll s.mcv.channels codes)
    have hcore : (s.hlc.delivered n m).SameCore (s.hlc.delivered n m).complete := Hlc.complete_core _
    have hnonempty : s.hlc.scans ≠ [] := fun hnil => by
      have := h.sequences
      simp [Hlc.unmeasured, hnil, hn] at this
    obtain ⟨hmode, hclosing⟩ := h.open_of_scan hnonempty
    exact {
      owned := (Hlc.delivered_owned h.owned n m).complete
      settled := Hlc.delivered_settled h.settled n m
      path := (hcore.takenScans.trans (s.hlc.delivered_takenScans n m)).symm ▸ h.path
      standby := fun hs => absurd hs hmode
      closing := fun hc => by rw [show s.closing = true from hc] at hclosing; cases hclosing
      running := h.running
      single := h.single
      sequences := (hcore.unmeasured.trans (Hlc.delivered_measures h.owned (h.sequences.symm.trans hn) m)).symm }

theorem extractNext (h : s.Lanes) : s.extractNext.Lanes := by
  unfold State.extractNext
  split
  · rename_i r hnone hr
    split
    · rename_i m _
      obtain ⟨a, b, hl, hstage, ha⟩ := find_complete hr
      obtain ⟨hmode, hclosing⟩ := h.open_of_scan (by rw [hl]; simp)
      exact {
        owned := Hlc.extracted_owned h.owned hl hstage ha
        settled := Hlc.extracted_settled h.settled hl hstage ha
        path := by
          refine List.Perm.trans ?_ (Hlc.extracted_takenScans hl hstage ha).symm
          have hpath := h.path.append_right [r.header.scan]
          simpa [State.pathScans, State.sets, hnone, extract] using hpath
        standby := fun hs => absurd hs hmode
        closing := fun hc => by rw [show s.closing = true from hc] at hclosing; cases hclosing
        running := h.running
        single := h.single
        sequences := h.sequences.trans (Hlc.extracted_unmeasured hl hstage ha).symm }
    · exact h
  · exact h

theorem handOver (h : s.Lanes) : s.handOver.Lanes := by
  unfold State.handOver
  split
  · rename_i scan hscan
    exact h.of_path rfl rfl rfl (by simp [State.pathScans, State.sets, hscan]) h.single rfl rfl h.owned h.settled
  · exact h

/-- The tracker's set takes the place of its scan. -/
theorem trackNext (h : s.Lanes) : s.trackNext.Lanes := by
  unfold State.trackNext
  split
  · exact h
  · rename_i scan rest hinbox
    have hnonempty : s.hlc.scans ≠ [] := fun hnil => by
      have := h.inbox_eq_nil hnil
      rw [hinbox] at this
      cases this
    obtain ⟨hmode, hclosing⟩ := h.open_of_scan hnonempty
    obtain ⟨hheader, hscan⟩ := Wtr.track_set s.wtr scan
    have hpath := h.path
    have hrun := h.running hclosing
    simp only [State.pathScans, State.sets, hinbox] at hpath hrun
    exact {
      owned := h.owned
      settled := h.settled
      path := by
        simp only [State.pathScans, State.sets, State.offerAll_wtr, State.offerAll_wru, State.offerAll_pxu,
          State.offerAll_hlc, Wtr.track_outbox]
        simpa [hheader, hscan] using hpath
      standby := fun hs => absurd hs hmode
      closing := fun hc => by rw [show s.closing = true from hc] at hclosing; cases hclosing
      running := fun _ => by
        simp only [State.sets, State.offerAll_wtr, State.offerAll_wru, Wtr.track_outbox]
        simpa [hscan] using hrun
      single := h.single
      sequences := h.sequences }

theorem takeSet (h : s.Lanes) : s.takeSet.Lanes := by
  unfold State.takeSet
  split
  · rename_i set rest hvaluing hoffered houtbox
    refine h.of_path rfl rfl ?_ ?_ (.inr hoffered) rfl rfl h.owned h.settled
    · simp [State.sets, hvaluing, hoffered, houtbox]
    · simp [State.pathScans, State.sets, hvaluing, hoffered, houtbox]
  · exact h

theorem offerSet (h : s.Lanes) : s.offerSet.Lanes := by
  unfold State.offerSet
  split
  · rename_i set hvaluing
    have hoffered : s.wru.offered = none := h.single.resolve_left (by rw [hvaluing]; simp)
    refine h.of_path rfl rfl ?_ ?_ (.inl rfl) rfl rfl h.owned h.settled
    · simp [State.sets, hvaluing, hoffered, Wru.value]
    · cases hend : set.runEnd <;> simp [State.pathScans, State.sets, hvaluing, hoffered, Wru.value, hend]
  · exact h

/-! ## The end of a set (R52, R178) -/

/-- A set that both consumers have taken ends its scan record, or the run. -/
theorem setTaken (h : s.Lanes) {o : Offered} (ho : s.wru.offered.map (·.set) = some o.set) : (s.setTaken o).Lanes := by
  obtain ⟨p, hp, hset⟩ := Option.map_eq_some_iff.mp ho
  have hvaluing : s.wru.valuing = none := h.single.resolve_right (by rw [hp]; simp)
  have hsets : s.sets = o.set :: s.wtr.outbox := by simp [State.sets, ho, hvaluing]
  unfold State.setTaken
  dsimp only
  split
  · split
    · rename_i hend
      have hclosing : s.closing = true := by
        by_contra hnot
        have hrun := h.running (by simpa using hnot)
        simp [hsets, hend] at hrun
      obtain ⟨-, hscans, hone⟩ := h.closing hclosing
      have houtbox : s.wtr.outbox = [] := by simpa [hsets] using hone
      have hpath := h.path_eq_nil hscans
      have hcurrent : s.pxu.current = none := by
        simp only [State.pathScans, List.append_eq_nil_iff] at hpath
        simpa using hpath.2
      exact of_idle hscans (fun k => h.owned.2.2 k (by simp [hscans]))
        (by simp [State.sets, State.endRun, hvaluing, houtbox]) (h.inbox_eq_nil hscans) hcurrent
        (h.sequences.trans (by simp [Hlc.unmeasured, hscans])) rfl (.inl hvaluing)
    · rename_i hend
      have hlist : s.pathScans = o.set.header.scan :: (s.wtr.outbox.filter fun set => !set.runEnd).map (·.header.scan) ++
          s.wtr.inbox.map (·.header.scan) ++ (s.pxu.current.map (·.header.scan)).toList := by
        simp [State.pathScans, hsets, hend]
      have hpath := h.path
      rw [hlist, List.cons_append, List.cons_append] at hpath
      have hmem : o.set.header.scan ∈ s.hlc.takenScans := hpath.mem_iff.mp List.mem_cons_self
      obtain ⟨hmode, hclosing⟩ := h.open_of_scan fun hnil => by simp [Hlc.takenScans, hnil] at hmem
      exact {
        owned := Hlc.release_owned h.owned hmem
        settled := Hlc.release_settled h.settled
        path := by
          refine List.Perm.trans ?_ (.of_eq (Hlc.release_takenScans _ _).symm)
          have hrest := hpath.filter (· ≠ o.set.header.scan)
          rw [filter_ne_head (hpath.nodup_iff.mpr h.owned.takenScans_nodup)] at hrest
          simpa [State.pathScans, State.sets, hvaluing] using hrest
        standby := fun hs => absurd hs hmode
        closing := fun hc => by rw [show s.closing = true from hc] at hclosing; cases hclosing
        running := fun _ => by
          have hrun := h.running hclosing
          rw [hsets, List.all_cons, Bool.and_eq_true] at hrun
          simpa [State.sets, hvaluing] using hrun.2
        single := .inr rfl
        sequences := by
          refine h.sequences.trans (Eq.trans ?_ (Hlc.release_unmeasured _ _).symm)
          refine (List.filter_eq_self.mpr fun n hn => ?_).symm
          simpa using fun heq : n = o.set.header.scan =>
            Hlc.not_unmeasured_of_taken h.owned h.settled hmem (heq ▸ hn) }
  · refine h.of_path rfl rfl ?_ ?_ (.inl hvaluing) rfl rfl h.owned h.settled
    · simp [State.sets, hvaluing, hp, hset]
    · simp [State.pathScans, State.sets, hvaluing, hp, hset]

theorem spanTake (h : s.Lanes) : s.spanTake.Lanes := by
  unfold State.spanTake
  split
  · rename_i o ho
    split
    · exact h
    · have hwork : (s.spanWork o.set).Lanes :=
        h.of_blocks (s.spanWork_mode _) (s.spanWork_closing _) (s.spanWork_hlc _) (by rw [s.spanWork_mcv])
          (s.spanWork_pxu _) (s.spanWork_wtr _) (s.spanWork_wru _)
      exact hwork.setTaken (by rw [s.spanWork_wru, ho]; rfl)
  · exact h

theorem limitTake (h : s.Lanes) : s.limitTake.Lanes := by
  unfold State.limitTake
  split
  · rename_i o ho
    split
    · exact h
    · have hwork : (s.limitWork o).Lanes :=
        h.of_blocks (s.limitWork_mode _) (s.limitWork_closing _) (s.limitWork_hlc _) (by rw [s.limitWork_mcv])
          (s.limitWork_pxu _) (s.limitWork_wtr _) (s.limitWork_wru _)
      exact hwork.setTaken (by rw [s.limitWork_wru, ho]; rfl)
  · exact h

/-! ## Runs -/

/-- R178: closing work begins with nothing in flight, and its set is then the one on the path. -/
theorem closeIfDue (h : s.Lanes) : s.closeIfDue.Lanes := by
  unfold State.closeIfDue
  split
  · rename_i hdue
    obtain ⟨hmode, hscans, hclosing⟩ := hdue
    have hsets := h.sets_eq_nil hscans hclosing
    simp only [State.sets, List.append_eq_nil_iff] at hsets
    obtain ⟨⟨hoffered, hvaluing⟩, houtbox⟩ := hsets
    have hone : s.beginClosing.sets = [s.runEndSet] := by
      simp [State.sets, State.beginClosing, hoffered, hvaluing, houtbox]
    exact {
      owned := h.owned
      settled := h.settled
      path := by
        refine List.Perm.trans (.of_eq ?_) h.path
        have hold := h.path_eq_nil hscans
        rw [hold]
        simp only [State.pathScans, List.append_eq_nil_iff] at hold
        simp only [State.pathScans, hone, List.append_eq_nil_iff]
        exact ⟨⟨rfl, hold.1.2⟩, hold.2⟩
      standby := fun hs => by rw [show s.mode = .standby from hs] at hmode; cases hmode
      closing := fun _ => ⟨hmode, hscans, by rw [hone]; rfl⟩
      running := fun hc => by cases hc
      single := h.single
      sequences := h.sequences }
  · exact h

theorem stopRun (h : s.Lanes) (hm : s.mode = .running) : s.stopRun.Lanes := by
  refine closeIfDue ?_
  have hclosing := h.not_closing_of_running hm
  exact { h with
    standby := fun hs => by cases hs
    closing := fun hc => by rw [show s.closing = true from hc] at hclosing; cases hclosing }

theorem startRun (h : s.Lanes) (hm : s.mode = .standby) (a : RunStart) : (s.startRun a).Lanes := by
  obtain ⟨hscans, -, -⟩ := h.standby hm
  have hclosing : s.closing = false := Bool.eq_false_iff.mpr fun hc => by
    have := (h.closing hc).1
    rw [hm] at this
    cases this
  exact of_idle hscans (fun k => h.owned.2.2 k (by simp [hscans])) rfl rfl rfl rfl hclosing (.inl rfl)

theorem restart (s : State) : s.restart.Lanes := by
  refine of_idle rfl (fun k => ?_) rfl rfl rfl rfl rfl (.inl rfl)
  match k with
  | 0 => rfl
  | 1 => rfl

theorem powerOn : State.powerOn.Lanes := by
  refine of_idle rfl (fun k => ?_) rfl rfl rfl rfl rfl (.inl rfl)
  match k with
  | 0 => rfl
  | 1 => rfl

end State.Lanes

/-! ## Rows and steps -/

theorem State.lanes_kept : State.Kept State.Lanes where
  line h _ _ _ := h.of_blocks rfl rfl rfl rfl rfl rfl rfl
  elapse h := h.elapse
  heads h k := h.headStep k
  happens {c s t} h b hc := by
    cases b with
    | hostFrame | transmissionEnd | mastPulse => exact h.of_blocks rfl rfl rfl rfl rfl rfl rfl
    | odometerPulse toward => exact h.pulse toward
    | timeTriggerDue => exact h.timeDue
    | motionSequenceEnd => exact h.motionEnd _
    | scanExtraction => exact h.extractNext
    | candidateListHandover => exact h.handOver
    | trackScan => exact h.trackNext
    | setValuing => exact h.takeSet
    | setOffer => exact h.offerSet
    | spanSetTake => exact h.spanTake
    | limitSetTake => exact h.limitTake
    | closingWork => exact h.closeIfDue
    | ready | profile | headUnusableFrame | headBadFrame | clearingTimerExpiry | responseWindowExpiry => cases hc
  takes {c s t} h b hc := by
    cases b with
    | getStatus | getTracks => exact h
    | setHead | setTestProfile | setMotion | setExtract | setTracker | setWearTable =>
      exact h.of_path rfl rfl rfl rfl h.single rfl rfl h.owned h.settled
    | setDefaultSection | clearRoute | appendSection | setRule | setPolicy | setTrigger | setReporting
    | positionFix => exact h.of_blocks rfl rfl rfl rfl rfl rfl rfl
    | startRun a _ hm => exact h.startRun hm a
    | stopRun _ hm => exact h.stopRun hm
    | scanOnce _ hm => exact h.trigger hm
    | restart => exact .restart s
    | headInit | headRestore | headIsolate | headIsolateClearing | headDisabled | headDisable | headDisableIdle
    | testSourceOn | testSourceOff => cases hc

/-- Settles O55: the records, the path behind the extractor and the conversion sequences move together in every row. -/
theorem banksStayOwnedByScans : Obligations.BanksStayOwnedByScans := fun s t hs h =>
  t.banksOwned_iff.mpr (State.lanes_kept.step (s.banksOwned_iff.mp hs) (fun _ => .powerOn) h)

end Sys2Proof.Machine
end

section
/-! PROOFS. The step on its two kinds of state, the idle microsecond in the order of log entry 1, and power-on reset. -/

namespace Sys2Proof.Machine

/-! ## A step -/

/-- Settles O1. -/
theorem stepRunsFrontCommand : Obligations.StepRunsFrontCommand := fun s c rest hq => by
  unfold step
  rw [hq]

theorem step_of_empty {s : State} (hq : s.pending = []) : step s = .next s.idle := by
  unfold step
  rw [hq]

/-! ## The rows of events -/

section Rows

variable (s : State)

theorem exec_hostFrame (bytes : List Byte) : exec (.hostFrame bytes) s =
    act (fun t => { t with hli := t.hli.bytes bytes }) s := rfl

theorem exec_transmissionEnd : exec .transmissionEnd s = act (fun t => { t with hli := { t.hli with tx := none } }) s := rfl

theorem exec_odometerPulse (toward : CarEnd) : exec (.odometerPulse toward) s = act (fun t => t.pulse toward) s := rfl

theorem exec_ready (h : HeadNo) (bytes : List Byte) : exec (.ready h bytes) s = act (fun t => t.headBytes h bytes) s := rfl

theorem exec_profile (h : HeadNo) (bytes : List Byte) :
    exec (.profile h bytes) s = act (fun t => t.headBytes h bytes) s := rfl

theorem exec_headUnusableFrame (h : HeadNo) (bytes : List Byte) :
    exec (.headUnusableFrame h bytes) s = act (fun t => t.headBytes h bytes) s := rfl

theorem exec_headBadFrame (h : HeadNo) (bytes : List Byte) :
    exec (.headBadFrame h bytes) s = act (fun t => t.headBytes h bytes) s := rfl

theorem exec_motionSequenceEnd (a1 b1 a2 b2 : Code) : exec (.motionSequenceEnd a1 b1 a2 b2) s =
    act (fun t => t.motionEnd #v[a1.toNat, b1.toNat, a2.toNat, b2.toNat]) s := rfl

end Rows

/-! ## What expires in an idle step -/

/-- A fold that acts where a test holds is the fold over what passes the test at first, when acting for one element does
not change the test of another. -/
theorem foldl_if_eq_foldl_filter {α β : Type} {c : β → α → Bool} {f : β → α → β}
    (hc : ∀ b a x, x ≠ a → c (f b a) x = c b x) {l : List α} (hl : l.Nodup) (b : β) :
    l.foldl (fun b a => if c b a then f b a else b) b = (l.filter (c b)).foldl f b := by
  induction l generalizing b with
  | nil => rfl
  | cons a l ih =>
    obtain ⟨hnew, hl⟩ := List.nodup_cons.mp hl
    cases ha : c b a with
    | false => simp [ha, ih hl]
    | true =>
      have hrest : l.filter (c (f b a)) = l.filter (c b) :=
        List.filter_congr fun x hx => hc b a x fun heq => hnew (heq ▸ hx)
      simp [ha, ih hl, hrest]

theorem heads4_nodup : heads4.Nodup := by decide

/-- The answer that the head still owes. -/
def State.openAnswer (s : State) (h : HeadNo) : Option Answer := (s.openScan h).map fun r => r.answers[h]

theorem State.openAnswer_eq (s : State) (h : HeadNo) :
    s.openAnswer h = (s.hlc.scans.map fun r => r.answers[h]).find? Answer.isOpen := by
  rw [List.find?_map]
  rfl

theorem State.windowOut_eq (s : State) (h : HeadNo) : s.windowOut h = decide (s.openAnswer h = some (.open 0)) := by
  unfold State.windowOut State.openAnswer
  cases s.openScan h <;> simp [beq_eq_decide]

theorem answerIn_answers_ne {h j : HeadNo} (hj : j ≠ h) (a : Answer) (l : List ScanRecord) :
    ((answerIn h a l).map fun r => r.answers[j]) = l.map fun r => r.answers[j] := by
  induction l with
  | nil => rfl
  | cons r l ih =>
    unfold answerIn
    split
    · have hne : h.val ≠ j.val := fun heq => hj (Fin.ext heq.symm)
      simp [Vector.getElem_set_ne _ _ hne]
    · exact congrArg (r.answers[j] :: ·) ih

theorem State.miss_scans (s : State) (h : HeadNo) (reason : Reason) : (s.miss h reason).hlc.scans = s.hlc.scans := by
  unfold State.miss
  dsimp only
  split
  · rw [State.moveHead_eq]
    rfl
  · rfl

/-- A miss of one head leaves what the others owe. -/
theorem State.missAnswer_openAnswer_ne (s : State) {h j : HeadNo} (hj : j ≠ h) (reason : Reason) :
    (s.missAnswer h reason).openAnswer j = s.openAnswer j := by
  unfold State.missAnswer
  split
  · rw [State.openAnswer_eq, State.openAnswer_eq, State.miss_scans, State.closeAnswer_scans, List.map_map,
      ← answerIn_answers_ne hj (.absent reason)]
    rfl
  · rfl

theorem State.miss_clearing (s : State) (h : HeadNo) (reason : Reason) (j : HeadNo) :
    ((s.miss h reason).head j).clearing = (s.head j).clearing := by
  unfold State.miss
  dsimp only
  split
  · rw [State.moveHead_eq]
    change ((s.setHead h _).head j).clearing = _
    rw [State.head_setHead]
    split
    · next heq => rw [heq]
    · rfl
  · rw [State.head_setHead]
    split
    · next heq => rw [heq]
    · rfl

theorem State.missAnswer_clearing (s : State) (h : HeadNo) (reason : Reason) (j : HeadNo) :
    ((s.missAnswer h reason).head j).clearing = (s.head j).clearing := by
  unfold State.missAnswer
  split
  · rw [State.miss_clearing, State.head_closeAnswer]
  · rfl

theorem State.clearingExpires_head_ne (s : State) {h j : HeadNo} (hj : j ≠ h) :
    (s.clearingExpires h).head j = s.head j := by
  unfold State.clearingExpires
  dsimp only
  split
  · rw [State.moveHead_eq]
    exact State.head_setHead_ne s _ hj
  · rfl

theorem State.expireWindows_eq (s : State) : s.expireWindows =
    (heads4.filter fun h => s.openAnswer h = some (.open 0)).foldl (fun t h => t.missAnswer h .noAnswer) s := by
  have hstable : ∀ (t : State) (h j : HeadNo), j ≠ h → (t.missAnswer h .noAnswer).windowOut j = t.windowOut j :=
    fun t h j hj => by rw [State.windowOut_eq, State.windowOut_eq, t.missAnswer_openAnswer_ne hj]
  rw [show heads4.filter (fun h => s.openAnswer h = some (.open 0)) = heads4.filter s.windowOut from
    List.filter_congr fun h _ => (s.windowOut_eq h).symm]
  exact foldl_if_eq_foldl_filter hstable heads4_nodup s

theorem State.expireClearing_eq (s : State) : s.expireClearing =
    (heads4.filter fun h => (s.head h).clearing = some 0).foldl (fun t h => t.clearingExpires h) s := by
  have hstable : ∀ (t : State) (h j : HeadNo), j ≠ h →
      (((t.clearingExpires h).head j).clearing == some 0) = ((t.head j).clearing == some 0) :=
    fun t h j hj => by rw [t.clearingExpires_head_ne hj]
  rw [show heads4.filter (fun h => (s.head h).clearing = some 0) = heads4.filter fun h => (s.head h).clearing == some 0 from
    List.filter_congr fun h _ => (beq_eq_decide _ _).symm]
  exact foldl_if_eq_foldl_filter hstable heads4_nodup s

theorem State.expireWindows_clearing (s : State) (j : HeadNo) :
    (s.expireWindows.head j).clearing = (s.head j).clearing := by
  rw [State.expireWindows_eq]
  exact foldl_keeps (fun t : State => (t.head j).clearing = (s.head j).clearing) rfl fun (t : State) h _ ht =>
    (t.missAnswer_clearing h _ j).trans ht

/-- What an idle step does before a trigger may fall due: windows, then timers, both as they stand at its beginning. -/
theorem State.expired_eq (s : State) : s.expireWindows.expireClearing =
    (heads4.filter fun h => (s.head h).clearing = some 0).foldl (fun t h => t.clearingExpires h)
      ((heads4.filter fun h => s.openAnswer h = some (.open 0)).foldl (fun t h => t.missAnswer h .noAnswer) s) := by
  rw [State.expireClearing_eq, ← State.expireWindows_eq]
  simp only [State.expireWindows_clearing]

theorem State.expired_headStep (s : State) : HeadStep s s.expireWindows.expireClearing :=
  (HeadStep.expireWindows s).trans (.expireClearing _)

/-! ## The trigger that may fall due -/

theorem State.timeDue_of_not {s : State}
    (h : ¬ (s.mode = .running ∧ s.tu.config.mode = .time ∧ ∃ due, s.tu.nextDue = some due)) : s.timeDue = s := by
  unfold State.timeDue
  split
  · rename_i due hm hc hdue
    exact absurd ⟨hm, hc, due, hdue⟩ h
  · rfl

theorem Tu.accept_p (t : Tu) : t.accept.p = t.p ∧ t.accept.high = t.high ∧ t.accept.stamp = t.stamp := by
  unfold Tu.accept Tu.applyFix
  split <;> exact ⟨rfl, rfl, rfl⟩

theorem State.trigger_p (s : State) :
    s.trigger.tu.p = s.tu.p ∧ s.trigger.tu.high = s.tu.high ∧ s.trigger.tu.stamp = s.tu.stamp := by
  unfold State.trigger
  split
  · rw [State.accept_tu]
    exact s.tu.accept_p
  · exact ⟨rfl, rfl, rfl⟩

/-- A due trigger leaves the time stamp at the due time, and the position as it is. -/
theorem State.timeDue_p {s : State} (h : s.tu.nextDue = some s.tu.stamp) :
    s.timeDue.tu.p = s.tu.p ∧ s.timeDue.tu.high = s.tu.high ∧ s.timeDue.tu.stamp = s.tu.stamp := by
  unfold State.timeDue
  split
  · rename_i due _ _ hdue
    obtain rfl : due = s.tu.stamp := Option.some.inj (hdue.symm.trans h)
    exact State.trigger_p _
  · exact ⟨rfl, rfl, rfl⟩

theorem State.tick_eq (s : State) : s.tick =
    if s.mode = .running ∧ s.tu.config.mode = .time ∧ s.tu.nextDue = some (s.tu.stamp + 1) then
      s.elapse.expireWindows.expireClearing.timeDue
    else s.elapse.expireWindows.expireClearing := by
  obtain ⟨-, -, hmode, -, htu, -⟩ := (State.expired_headStep s.elapse).behind
  have hdue : s.elapse.expireWindows.expireClearing.tu = { s.tu with stamp := s.tu.stamp + 1 } := htu
  unfold State.tick
  dsimp only
  rw [hdue]
  split
  · rename_i hnext
    split
    · rfl
    · rename_i hnot
      refine State.timeDue_of_not ?_
      rintro ⟨hrunning, htime, -⟩
      exact hnot ⟨hmode.symm.trans hrunning, by rw [hdue] at htime; exact htime, hnext⟩
  · rename_i hnext
    rw [if_neg fun h => hnext h.2.2]

theorem State.tick_tu (s : State) :
    s.tick.tu.p = s.tu.p ∧ s.tick.tu.high = s.tu.high ∧ s.tick.tu.stamp = s.tu.stamp + 1 := by
  obtain ⟨-, -, -, -, htu, -⟩ := (State.expired_headStep s.elapse).behind
  have hdue : s.elapse.expireWindows.expireClearing.tu = { s.tu with stamp := s.tu.stamp + 1 } := htu
  rw [State.tick_eq]
  split
  · rename_i hnext
    have := State.timeDue_p (s := s.elapse.expireWindows.expireClearing) (by rw [hdue]; exact hnext.2.2)
    rwa [hdue] at this
  · rw [hdue]
    exact ⟨rfl, rfl, rfl⟩

/-- A microsecond changes the travel unit, the heads with their scans, the conversion sequences and the route alone. -/
theorem State.tick_leaves (s : State) :
    s.tick.pending = s.pending ∧ s.tick.pin = s.pin ∧ s.tick.pxu = s.pxu ∧ s.tick.wtr = s.wtr ∧ s.tick.wru = s.wru ∧
      s.tick.spu = s.spu ∧ s.tick.lev = s.lev := by
  obtain ⟨u, hu, htick⟩ := s.tick_cases
  obtain ⟨hpending, hpin, -, -, -, -, hpxu, hwtr, hwru, -, hspu, hlev⟩ := hu.behind
  rcases htick with htick | htick <;> rw [htick]
  · exact ⟨hpending, hpin, hpxu, hwtr, hwru, hspu, hlev⟩
  · exact ⟨u.timeDue_pending.trans hpending, u.timeDue_pin.trans hpin, u.timeDue_pxu.trans hpxu, u.timeDue_wtr.trans hwtr,
      u.timeDue_wru.trans hwru, u.timeDue_spu.trans hspu, u.timeDue_lev.trans hlev⟩

theorem State.tick_events (s : State) : s.hli.Events s.tick.hli := by
  obtain ⟨u, hu, htick⟩ := s.tick_cases
  rcases htick with htick | htick <;> rw [htick]
  · exact hu.events
  · exact hu.events.trans u.timeDue_events

theorem Hli.Events.inbound {l m : Hli} (h : l.Events m) : m.inbound = l.inbound ∧ m.rx = l.rx := by
  obtain ⟨es, rfl⟩ := h
  exact ⟨l.offerAll_inbound _, l.offerAll_rx _⟩

/-- Settles O2: `State.expired_eq` gives the order, and `State.tick_eq` the due trigger. -/
theorem idleStepIsOneMicrosecond : Obligations.IdleStepIsOneMicrosecond := by
  refine ⟨fun s hq => ?_, fun s hq hp => ?_, fun s h hp => ⟨act_free _ hp, act_free _ hp, act_free _ hp⟩⟩
  · rw [step_of_empty hq]
    refine ⟨fun hp => by rw [State.idle, hp]; rfl, fun hp => ⟨s.tick.kick, by rw [State.idle, hp]; rfl, ?_⟩⟩
    obtain ⟨hpos, hhigh, hstamp⟩ := s.tick_tu
    obtain ⟨hpending, hpin, hpxu, hwtr, hwru, hspu, hlev⟩ := s.tick_leaves
    obtain ⟨hinbound, hrx⟩ := s.tick_events.inbound
    simp only [State.kick_tu, State.kick_pending, State.kick_pin, State.kick_mode, State.kick_pxu, State.kick_wtr,
      State.kick_wru, State.kick_spu, State.kick_lev, State.kick_hli, Hli.kick_inbound, Hli.kick_rx]
    exact ⟨hstamp, hpending.trans hq, hpin.trans hp, s.tick_mode, hpos, hhigh,
      ((SameSettings.tick s).trans (.kick _)).settings, hpxu, hwtr, hwru, hspu, hlev, hinbound, hrx⟩
  · intro answered u windows timers v due
    have hu : u = s.elapse := by
      have : answered = Answer.tick := funext fun a => by cases a <;> rfl
      simp only [u, this]
      rfl
    have hv : v = s.elapse.expireWindows.expireClearing := by
      rw [State.expired_eq, ← hu]
      rfl
    rw [step_of_empty hq, State.idle, hp, hv, State.tick_eq]
    exact ⟨fun h => by rw [if_pos h]; rfl, fun h => by rw [if_neg h]; rfl⟩

/-! ## Power-on reset (R180) -/

/-- While the pin is held, the rows but the pin's two all stand behind `act`. -/
theorem exec_held {s : State} {c : Instr} (hp : s.pin = true) (ha : c ≠ .powerOnResetAssert)
    (hr : c ≠ .powerOnResetRelease) : exec c s = .next s := by
  cases c
  case powerOnResetAssert => exact absurd rfl ha
  case powerOnResetRelease => exact absurd rfl hr
  case hostFrame => exact (exec_hostFrame _ _).trans (act_held _ hp)
  case transmissionEnd => exact (exec_transmissionEnd _).trans (act_held _ hp)
  case odometerPulse => exact (exec_odometerPulse _ _).trans (act_held _ hp)
  case ready => exact (exec_ready _ _ _).trans (act_held _ hp)
  case profile => exact (exec_profile _ _ _).trans (act_held _ hp)
  case headUnusableFrame => exact (exec_headUnusableFrame _ _ _).trans (act_held _ hp)
  case headBadFrame => exact (exec_headBadFrame _ _ _).trans (act_held _ hp)
  case motionSequenceEnd => exact (exec_motionSequenceEnd _ _ _ _ _).trans (act_held _ hp)
  all_goals exact act_held _ hp

theorem reset_hli : State.reset.hli = (Hli.powerOn.offer (.event (.started .powerOn))).kick := by decide

theorem exec_powerOnResetRelease (s : State) :
    exec .powerOnResetRelease s = .next { State.reset with pending := s.pending } := by
  unfold exec execPowerOnResetRelease State.kick State.event State.offer
  rw [show ({ State.powerOn with pending := s.pending } : State).hli = Hli.powerOn from rfl, ← reset_hli]
  rfl

theorem reset_head (h : HeadNo) : State.reset.head h = Head.powerOn := Vector.getElem_replicate _

/-- Settles O4. -/
theorem powerOnResetStopsAndRestores : Obligations.PowerOnResetStopsAndRestores := by
  refine ⟨fun s => rfl, fun s c => exec_held, exec_powerOnResetRelease, rfl, ?_, fun h => ?_, fun k => ?_⟩
  · exact ⟨rfl, rfl, rfl, rfl, rfl, rfl, rfl, rfl, rfl, rfl, rfl, rfl, rfl⟩
  · exact congrArg Head.state (reset_head h)
  · exact Vector.getElem_replicate _

/-- Settles O3. -/
theorem resetHoldsPowerOnValues : Obligations.ResetHoldsPowerOnValues := by
  refine ⟨⟨rfl, rfl, rfl, rfl, rfl, rfl, rfl, rfl, rfl, rfl, rfl, rfl, rfl, rfl⟩, fun h => ?_, ⟨fun k => ?_, rfl, rfl⟩,
    fun k => ?_, ⟨rfl, rfl, rfl, rfl, rfl, rfl⟩,
    ⟨fun k => Vector.getElem_replicate _, rfl, rfl, rfl, rfl, rfl, rfl⟩,
    ⟨fun k => Vector.getElem_replicate _, rfl, rfl⟩, ⟨rfl, rfl, rfl, rfl, rfl⟩,
    ⟨rfl, rfl, rfl, rfl, rfl, rfl, fun k => Vector.getElem_replicate _⟩,
    ⟨fun k => Vector.getElem_replicate _, rfl, rfl, rfl⟩, ⟨rfl, rfl, rfl, rfl, rfl, rfl, rfl⟩, by decide⟩
  · rw [reset_head, show State.reset.pxu.calibration[h] = Calibration.powerOn from Vector.getElem_replicate _]
    exact ⟨rfl, rfl, rfl, rfl, rfl, rfl, rfl, rfl⟩
  · exact congrArg BankPair.owner (Vector.getElem_replicate _)
  · rw [show State.reset.mcv.channels[k] = Channel.powerOn from Vector.getElem_replicate _]
    exact ⟨rfl, rfl, rfl, rfl⟩

/-- Settles O60. -/
theorem resetMeetsInvariants : Obligations.ResetMeetsInvariants := by
  refine ⟨?_, ?_, ?_, ?_, ?_, ?_, ?_⟩
  · rw [State.lineBounded_iff]
    exact ⟨⟨by decide, by decide, by decide⟩, fun _ h => by cases h⟩
  · exact idsDistinct_empty ⟨le_rfl, by decide⟩
  · exact keyed_nil
  · exact Scu.ordered_cleared Scu.powerOn .ascending
  · rw [State.banksOwned_iff]
    exact State.lanes_kept.line .powerOn _ [] false
  · rw [State.geometryFramed_iff]
    exact State.Framed.powerOn.of_blocks rfl rfl rfl rfl rfl (List.forall_mem_nil _)
  · rw [State.countersStopped_iff]
    exact ⟨State.stopped_kept.line .powerOn _ [] false, Nat.zero_le _, Nat.zero_le _, Nat.zero_le _, Nat.zero_le _,
      Nat.zero_le _⟩

end Sys2Proof.Machine
end

section
/-! PROOFS. The host line: the transmitter's choice and the frames (R171, R187), the gates and the admission (R174, R181,
R182, R184). -/

namespace Sys2Proof.Machine

/-! ## Admission (R181, R182) -/

theorem dropOldestTrace_append {a b : List Queued} {q : Queued} (ha : ∀ x ∈ a, x.report.isTrace = false)
    (hq : q.report.isTrace = true) : dropOldestTrace (a ++ q :: b) = a ++ b := by
  unfold dropOldestTrace
  rw [List.eraseP_append_right _ fun x hx => by simp [ha x hx], List.eraseP_cons_of_pos (p := fun x : Queued => x.report.isTrace) hq]

theorem traceCount_eq_zero_iff {q : List Queued} : traceCount q = 0 ↔ ∀ x ∈ q, x.report.isTrace = false := by
  simp [traceCount, List.countP_eq_zero]

section Enqueue

variable {l : Hli} {r : Report}

theorem Hli.enqueue_trace (hr : r.isTrace = true) : l.enqueue r =
    if traceCount l.queue < 64 ∧ l.queue.length < 96 then { l with queue := l.queue ++ [{ report := r, lostBefore := 0 }] }
    else { l with traceDropped := countUp l.traceDropped } := by
  unfold Hli.enqueue
  rw [if_pos hr]

theorem Hli.enqueue_of_room (hr : r.isTrace = false) (h : l.queue.length < 96) : l.enqueue r = l.enter r := by
  unfold Hli.enqueue
  rw [if_neg (by simp [hr]), if_pos h]

theorem Hli.enqueue_displacing (hr : r.isTrace = false) (h : 96 ≤ l.queue.length) (ht : 0 < traceCount l.queue) :
    l.enqueue r =
      { l with queue := dropOldestTrace l.queue, traceDropped := countUp l.traceDropped }.enter r := by
  unfold Hli.enqueue
  rw [if_neg (by simp [hr]), if_neg (by omega), if_pos ht]

theorem Hli.enqueue_lost (hr : r.isTrace = false) (h : 96 ≤ l.queue.length) (ht : traceCount l.queue = 0) :
    l.enqueue r = { l with loss := countUp l.loss, reportsLost := countUp l.reportsLost } := by
  unfold Hli.enqueue
  rw [if_neg (by simp [hr]), if_neg (by omega), if_neg (by omega)]

end Enqueue

/-! ## The gates (R174, R184) -/

theorem Hli.offer_of_passes {l : Hli} {r : Report} (h : l.passes r = true) : l.offer r = l.enqueue r := by
  unfold Hli.offer
  rw [if_pos h]

theorem Hli.offer_of_not_passes {l : Hli} {r : Report} (h : l.passes r = false) : l.offer r = l := by
  unfold Hli.offer
  rw [if_neg (by simp [h])]

/-- The EVENT gate holds back every event but STARTED. -/
theorem Hli.passes_event (l : Hli) {e : Event} (h : ∀ cause, e ≠ .started cause) : l.passes (.event e) = l.gates.event := by
  cases e with
  | started cause => exact absurd rfl (h cause)
  | _ => rfl

/-- Settles O8. -/
theorem outboundAdmission : Obligations.OutboundAdmission := by
  refine ⟨fun l r => ⟨fun hr ht hl => ?_, fun hr hfull => ?_, fun hr hl => Hli.enqueue_of_room hr hl,
    fun hr hl a q b hq ha htrace => ?_, fun hr hl hnone => Hli.enqueue_lost hr hl (traceCount_eq_zero_iff.mpr hnone)⟩,
    fun l => ⟨fun t => Hli.offer_of_passes rfl, fun r => ⟨fun h => Hli.offer_of_passes h, fun h => Hli.offer_of_not_passes h⟩,
      fun e closed => Hli.offer_of_passes rfl, fun cause => Hli.offer_of_passes rfl,
      fun e he => ⟨fun h => Hli.offer_of_passes ((l.passes_event he).trans h),
        fun h => Hli.offer_of_not_passes ((l.passes_event he).trans h)⟩⟩,
    fun r => ?_, fun l r rs => ⟨rfl, rfl⟩⟩
  · rw [← traceCount_eq] at ht
    rw [Hli.enqueue_trace hr, if_pos ⟨ht, hl⟩]
  · rw [← traceCount_eq] at hfull
    rw [Hli.enqueue_trace hr, if_neg (by omega)]
  · have ht : 0 < traceCount l.queue := Nat.pos_of_ne_zero fun hzero => by
      have := traceCount_eq_zero_iff.mp hzero q (by simp [hq])
      rw [htrace] at this
      cases this
    rw [Hli.enqueue_displacing hr hl ht, hq, dropOldestTrace_append ha htrace]
    rfl
  · cases r <;> simp [Report.isTrace]

/-! ## The transmitter (R171) -/

section Choose

variable {l : Hli}

theorem Hli.choose_of_reply {r : Reply} (h : l.slot = some r) : l.choose = { l with slot := none, tx := some r.frame } := by
  unfold Hli.choose
  rw [h]

theorem Hli.choose_of_record {q : Queued} {rest : List Queued} (hs : l.slot = none) (hq : l.queue = q :: rest) :
    l.choose = { l with queue := rest, tx := some q.frame } := by
  unfold Hli.choose
  rw [hs, hq]

theorem Hli.choose_of_empty (hs : l.slot = none) (hq : l.queue = []) : l.choose = { l with tx := none } := by
  unfold Hli.choose
  rw [hs, hq]

theorem Hli.kick_of_busy (h : l.tx ≠ none) : l.kick = l := by
  unfold Hli.kick
  rw [if_neg (by simpa using h)]

theorem Hli.kick_of_idle (h : l.tx = none) : l.kick = l.choose := by
  unfold Hli.kick
  rw [if_pos (by simp [h])]

end Choose

/-- The end of a transmission leaves the transmitter IDLE, so that it chooses. -/
theorem exec_transmissionEnd_free {s : State} (hp : s.pin = false) :
    exec .transmissionEnd s = .next { s with hli := ({ s.hli with tx := none } : Hli).choose } := by
  rw [exec_transmissionEnd, act_free _ hp]
  exact congrArg (fun l => Host.Outcome.next { s with hli := l }) (Hli.kick_of_idle (l := { s.hli with tx := none }) rfl)

theorem Queued.frame_tag (q : Queued) : q.frame.tag = 0 := by
  unfold Queued.frame
  cases q.report <;> rfl

/-! ## The frames (R187) -/

/-- A byte shifted up by one bit, with the bit 0 set or not, as a number. -/
theorem shiftIn_eq (b : Bool) (n : Nat) :
    (BitVec.ofNat 8 n <<< 1) ||| boolByte b = BitVec.ofNat 8 (b.toNat + 2 * n) := by
  have hshift : ∀ (c : Bool) (x : Byte), (x <<< 1) ||| boolByte c = BitVec.ofNat 8 c.toNat + 2#8 * x := by decide
  rw [hshift, BitVec.ofNat_add, BitVec.ofNat_mul]

theorem flagByte_eq_bitsByte (bits : List Bool) : flagByte bits = bitsByte bits := by
  unfold flagByte bitsByte
  induction bits with
  | nil => rfl
  | cons b bits ih => rw [List.foldr_cons, List.foldr_cons, ih, shiftIn_eq]

theorem Sample.bytes_eq (m : Sample) : m.bytes = fieldU 2 m.id ++ [bitsByte [m.role == .running, m.merged, m.belowTable,
    m.beyondTable], bitsByte [m.face.isSome, m.thickness.isSome]] ++ fieldS 2 m.x ++ fieldU 4 m.z ++
    fieldU 2 ((m.face.getD 0 : Nat) : Int) ++ fieldU 2 (m.thickness.getD 0) ++ fieldU 2 (m.wear.getD 0) := by
  simp only [Sample.bytes, flagByte_eq_bitsByte, beq_eq_decide]

theorem Accumulator.minThickness_getD (a : Accumulator) :
    (a.minThickness.getD (0, 0)).1 = (a.minThickness.map (·.1)).getD 0 ∧
      (a.minThickness.getD (0, 0)).2 = (a.minThickness.map (·.2)).getD 0 := by
  cases a.minThickness <;> exact ⟨rfl, rfl⟩

theorem SpanEntry.bytes_eq (e : SpanEntry) : e.bytes = fieldU 2 e.values.id ++ [bitsByte [e.values.runningSeen, e.ended],
    bitsByte [e.values.minThickness.isSome]] ++ fieldU 2 e.values.samples ++
    fieldU 2 ((e.values.minThickness.map (·.1)).getD 0) ++ fieldS 4 ((e.values.minThickness.map (·.2)).getD 0) ++
    fieldS 2 e.values.maxStagger.1 ++ fieldS 4 e.values.maxStagger.2 ++ fieldU 4 e.values.minHeight ++
    fieldU 4 e.values.maxHeight := by
  obtain ⟨hthickness, hplace⟩ := e.values.minThickness_getD
  simp only [SpanEntry.bytes, flagByte_eq_bitsByte, hthickness, hplace]

/-- Settles O7. -/
theorem transmitterChoosesNext : Obligations.TransmitterChoosesNext := by
  refine ⟨⟨fun s r hp hr => ?_, fun s q rest hp hs hq => ⟨?_, q.frame_tag⟩, fun s hp hs hq => ?_, fun l => ⟨Hli.kick_of_busy,
    fun h r hr => ?_, fun h hs q rest hq => ?_, fun h hs hq => ?_⟩, fun s => ⟨rfl, fun f result data => rfl⟩⟩,
    fun n r => ?_, fun n r => ?_, fun n e closed => ?_, fun n e => ?_, by decide⟩
  · rw [exec_transmissionEnd_free hp, Hli.choose_of_reply (l := { s.hli with tx := none }) hr]
    rfl
  · rw [exec_transmissionEnd_free hp, Hli.choose_of_record (l := { s.hli with tx := none }) hs hq]
  · rw [exec_transmissionEnd_free hp, Hli.choose_of_empty (l := { s.hli with tx := none }) hs hq]
  · rw [Hli.kick_of_idle h, Hli.choose_of_reply hr]
    rfl
  · rw [Hli.kick_of_idle h, Hli.choose_of_record hs hq]
  · rw [Hli.kick_of_idle h, Hli.choose_of_empty hs hq, ← h]
  · simp only [Queued.frame, TraceRecord.body, MotionFlags.byte, flagByte_eq_bitsByte, funext Sample.bytes_eq]
  · simp only [Queued.frame, SpanRecord.body, SpanFlags.byte, flagByte_eq_bitsByte, funext SpanEntry.bytes_eq]
  · rfl
  · cases e with
    | started cause => cases cause <;> rfl
    | _ => rfl

end Sys2Proof.Machine
end

section
/-! PROOFS. The limit evaluator: what decides a quantity (R153 to R155), how exceedances open, extend, are lost and close
(R160 to R166), and the set it takes (R118, R159). -/

namespace Sys2Proof.Machine

/-! ## The deciding rule (R153 to R155) -/

theorem LimitRule.passes_iff (r : LimitRule) (q : Quantity) (id : Nat) (role : Role) : r.passes q id role = true ↔
    r.enabled = true ∧ r.quantity = q ∧ r.firstId ≤ id ∧ id ≤ r.lastId ∧ (r.runningOnly = true → role = .running) := by
  unfold LimitRule.passes
  cases r.runningOnly <;> simp [and_assoc]

theorem decidingRule_eq_some {rules : Vector LimitRule 16} {q : Quantity} {id : Nat} {role : Role} {k : Fin 16}
    (hk : (rules[k]).passes q id role = true) (hlow : ∀ j : Fin 16, j < k → (rules[j]).passes q id role = false) :
    decidingRule rules q id role = some (rules[k], k.val) := by
  unfold decidingRule
  rw [List.find?_eq_some_iff_getElem]
  refine ⟨hk, k.val, by simp, by simp, fun j hj => ?_⟩
  simpa using hlow ⟨j, hj.trans k.isLt⟩ hj

theorem decidingRule_eq_none {rules : Vector LimitRule 16} {q : Quantity} {id : Nat} {role : Role}
    (h : ∀ k : Fin 16, (rules[k]).passes q id role = false) : decidingRule rules q id role = none := by
  unfold decidingRule
  rw [List.find?_eq_none]
  intro a ha
  obtain ⟨i, hi, rfl⟩ := List.mem_iff_getElem.mp ha
  simpa using h ⟨i, by simpa using hi⟩

section Decision

variable {l : Lev} {d : Design} {m : Sample} {q : Quantity} {v : Int}

theorem Lev.decision_of_absent (hv : m.value q = none) : l.decision d m q = .absent := by
  unfold Lev.decision
  rw [hv]

theorem Lev.decision_of_neutral (hv : m.value q = some v) (hd : d.neutral = true) : l.decision d m q = .undecided := by
  unfold Lev.decision
  rw [hv]
  exact if_pos hd

theorem Lev.decision_of_rule {r : LimitRule} {i : Nat} (hv : m.value q = some v) (hd : d.neutral = false)
    (hr : decidingRule l.rules q d.id m.role = some (r, i)) :
    l.decision d m q = .decided i r.severity r.report (q.violates v r.threshold) := by
  unfold Lev.decision
  simp [hv, hd, hr]

theorem Lev.decision_of_none (hv : m.value q = some v) (hd : d.neutral = false)
    (hr : decidingRule l.rules q d.id m.role = none) :
    (l.design = false ∨ designThreshold d q = none → l.decision d m q = .undecided) ∧
      ∀ t, l.design = true → designThreshold d q = some t →
        l.decision d m q = .decided 16 .action true (q.violates v t) := by
  unfold Lev.decision
  simp only [hv, hd, hr]
  constructor
  · rintro (h | h)
    · simp [h]
    · cases l.design <;> simp [h]
  · intro t h ht
    simp [h, ht]

end Decision

/-- Settles O45. -/
theorem Lev.decidingRule : Obligations.DecidingRule := by
  refine ⟨fun m => ⟨rfl, rfl, rfl, rfl, rfl⟩, fun v t => by simp [Quantity.violates], fun l d m q =>
    ⟨Lev.decision_of_absent, fun v hv => ?_⟩⟩
  intro passes
  have hpasses : ∀ r : LimitRule, ¬ passes r → r.passes q d.id m.role = false := fun r hr =>
    Bool.eq_false_iff.mpr fun h => hr ((r.passes_iff q d.id m.role).mp h)
  refine ⟨Lev.decision_of_neutral hv, fun hd k hk hlow => ?_, fun hd hnone => ?_⟩
  · exact Lev.decision_of_rule hv hd (decidingRule_eq_some (((l.rules[k]).passes_iff q d.id m.role).mpr hk)
      fun j hj => hpasses _ (hlow j hj))
  · obtain ⟨hundecided, hdecided⟩ :=
      Lev.decision_of_none hv hd (decidingRule_eq_none fun k => hpasses _ (hnone k))
    refine ⟨fun h => hundecided (h.imp_right fun hq => by rw [hq]; rfl), fun hdesign hq => ?_⟩
    cases q with
    | wear => exact absurd rfl hq
    | stagger => exact (hdecided _ hdesign rfl).trans (congrArg _ (decide_eq_decide.mpr Int.ofNat_lt))
    | _ => exact hdecided _ hdesign rfl

/-! ## A violated quantity (R161 to R163) -/

theorem find_hasKey_eq_none_iff {id ref : Nat} {es : List Exceedance} :
    es.find? (hasKey id ref) = none ↔ ∀ e ∈ es, ¬ (e.id = id ∧ e.ref = ref) := by
  simp [hasKey_iff, Exceedance.key]

theorem find_hasKey_append {id ref : Nat} {a b : List Exceedance} {e : Exceedance}
    (ha : ∀ x ∈ a, ¬ (x.id = id ∧ x.ref = ref)) (hid : e.id = id) (href : e.ref = ref) :
    (a ++ e :: b).find? (hasKey id ref) = some e := by
  rw [List.find?_append, find_hasKey_eq_none_iff.mpr ha, Option.none_or,
    List.find?_cons_of_pos (hasKey_iff.mpr (by simp [Exceedance.key, hid, href]))]

theorem extendIn_append {id ref : Nat} {v c : Int} {role : Role} {a b : List Exceedance} {e : Exceedance}
    (ha : ∀ x ∈ a, ¬ (x.id = id ∧ x.ref = ref)) (hid : e.id = id) (href : e.ref = ref) :
    extendIn id ref v c role (a ++ e :: b) = a ++ e.extend v c role :: b := by
  induction a with
  | nil => simp [extendIn, hasKey, hid, href]
  | cons x a ih =>
    obtain ⟨hx, ha⟩ := List.forall_mem_cons.mp ha
    have hkey : ¬ hasKey id ref x = true := by simpa [hasKey] using hx
    simp [extendIn, hkey, ih ha]

section JudgeQuantity

variable {g : Gates} {set : SampleSet} {m : Sample} {decide : Quantity → Decision} {w : Work} {q : Quantity} {ref : Nat}
  {sev : Severity} {rep : Bool} {v : Int}

theorem judgeQuantity_of_quiet (h : ∀ ref sev rep, decide q ≠ .decided ref sev rep true) :
    judgeQuantity g set m decide w q = w := by
  unfold judgeQuantity
  split
  · rename_i hd _
    exact absurd hd (h _ _ _)
  · rfl

theorem judgeQuantity_of_unkeyed (hd : decide q = .decided ref sev rep true) (hv : m.value q = some v)
    (hkey : w.entries.find? (hasKey m.id ref) = none) : judgeQuantity g set m decide w q =
      if w.entries.length < 16 then
        w.openEntry g { id := m.id, ref, quantity := q, severity := sev, report := rep, sectionId := set.snapshot.id,
                        start := set.header.chainage, last := set.header.chainage, worst := v,
                        worstAt := set.header.chainage, role := m.role, count := 1 }
      else w.lose := by
  unfold judgeQuantity
  simp only [hd, hv, hkey]

theorem judgeQuantity_of_keyed {e : Exceedance} (hd : decide q = .decided ref sev rep true) (hv : m.value q = some v)
    (hkey : w.entries.find? (hasKey m.id ref) = some e) : judgeQuantity g set m decide w q =
      if e.quantity = q then { w with entries := extendIn m.id ref v set.header.chainage m.role w.entries }
      else w.lose := by
  unfold judgeQuantity
  simp only [hd, hv, hkey]

end JudgeQuantity

/-- R166: an ONSET record is that of an URGENT entry. -/
theorem onsetRecord_eq (g : Gates) (e : Exceedance) : onsetRecord g e =
    if e.report = true ∧ g.urgent = true ∧ e.severity = .urgent then [.exceedance e none] else [] := by
  unfold onsetRecord
  cases e.severity <;> cases e.report <;> simp [Gates.severity]

/-! ## Closes (R164 to R166) -/

/-- The records of a round of closes, in list order. -/
theorem closeBy_records (g : Gates) (why : Exceedance → Option CloseReason) (w : Work) :
    (closeBy g why w).records = w.records ++ (w.entries.filter fun e => e.report && g.severity e.severity).filterMap
      fun e => (why e).map fun r => .exceedance e (some r) := by
  unfold closeBy
  dsimp only
  congr 1
  induction w.entries with
  | nil => rfl
  | cons e es ih =>
    rw [List.flatMap_cons, ih]
    cases hgate : e.report && g.severity e.severity <;> cases hwhy : why e <;> simp [closedRecord, hgate, hwhy]

/-- R165: a notice closes what is left of its track, by its gate. -/
theorem noticeCloses_entries (g : Gates) (w : Work) (n : Notice) :
    (noticeCloses g w n).entries = w.entries.filter (fun e => e.id != n.id) := by
  refine List.filter_congr fun e _ => ?_
  by_cases h : e.id = n.id <;> simp [h]

theorem noticeCloses_records (g : Gates) (w : Work) (n : Notice) : (noticeCloses g w n).records = w.records ++
    (w.entries.filter fun e => e.id == n.id && e.report && g.severity e.severity).map
      fun e => .exceedance e (some .trackEnded) := by
  refine (closeBy_records g _ w).trans (congrArg (w.records ++ ·) ?_)
  induction w.entries with
  | nil => rfl
  | cons e es ih =>
    by_cases h : e.id = n.id <;> cases hgate : e.report && g.severity e.severity <;>
      simp_all [-Bool.and_eq_true]

/-- R165: the end of the run closes every entry. -/
theorem Lev.work_runEnd (l : Lev) (g : Gates) {set : SampleSet} (h : set.runEnd = true) : l.work g set =
    closeBy g (fun _ => some .runEnd)
      { entries := l.entries, opened := l.opened, overflow := l.overflow, records := [], lost := false } := by
  unfold Lev.work
  rw [if_pos h]

/-- Settles O46: the parts are the lemmas above, one for each thing that can happen to an entry. -/
theorem exceedancesOpenExtendAndClose : Obligations.ExceedancesOpenExtendAndClose := by
  refine ⟨fun g => ⟨rfl, rfl, rfl⟩, fun v held => by simp [Quantity.worse], ?_,
    fun g set m decide w q => judgeQuantity_of_quiet, fun l g set w m => ?_, fun e d => ?_, fun g w n => ?_,
    fun l g set hend => ?_⟩
  · intro g set m decide w q ref sev rep v hd hv c new unkeyed
    refine ⟨fun hkey hroom => ?_, fun hkey hfull => ?_, fun a e b hw hid href ha => ⟨fun hq => ?_, fun hq => ?_⟩⟩
    · rw [judgeQuantity_of_unkeyed hd hv (find_hasKey_eq_none_iff.mpr hkey), if_pos hroom, Work.openEntry, onsetRecord_eq]
    · rw [judgeQuantity_of_unkeyed hd hv (find_hasKey_eq_none_iff.mpr hkey), if_neg (by omega)]
      rfl
    · rw [judgeQuantity_of_keyed hd hv (by rw [hw]; exact find_hasKey_append ha hid href), if_neg hq]
      rfl
    · refine ⟨e.extend v c m.role, ?_, rfl, rfl, rfl, rfl, rfl, rfl, rfl, rfl, rfl, fun h => ?_, fun h => ?_⟩
      · rw [judgeQuantity_of_keyed hd hv (by rw [hw]; exact find_hasKey_append ha hid href), if_pos hq, hw,
          extendIn_append ha hid href]
      · rw [← hq] at h
        simp [Exceedance.extend, h]
      · rw [← hq] at h
        simp [Exceedance.extend, h]
  · exact ⟨closeBy g _ w, rfl, rfl, rfl, rfl, closeBy_records g _ w, rfl⟩
  · refine ⟨fun h => by rw [h]; rfl, fun h => by rw [h]; rfl, fun ref sev rep viol h => ?_⟩
    rw [h]
    unfold closeReasonOf
    refine ⟨fun hne => if_pos hne, fun heq hviol => ?_, fun heq hviol => ?_⟩ <;> simp [heq, hviol]
  · exact ⟨noticeCloses_entries g w n, rfl, rfl, rfl, noticeCloses_records g w n⟩
  · rw [l.work_runEnd g hend]
    exact ⟨List.filter_eq_nil_iff.mpr (by simp), rfl, rfl, rfl,
      (closeBy_records g _ _).trans (by simp [List.filterMap_eq_map'])⟩

/-! ## The set of a scan (R118, R159) -/

section SetTaken

variable {s : State} {o : Offered}

theorem State.setTaken_of_waiting (h : (o.spanTaken && o.limitTaken) = false) :
    s.setTaken o = { s with wru := { s.wru with offered := some o } } := by
  unfold State.setTaken
  rw [if_neg (by simp [h])]

theorem State.setTaken_of_scan (h : (o.spanTaken && o.limitTaken) = true) (hend : o.set.runEnd = false) :
    s.setTaken o =
      { s with wru := { s.wru with offered := none }, hlc := s.hlc.release o.set.header.scan } := by
  unfold State.setTaken
  rw [if_pos h]
  dsimp only
  rw [if_neg (by simp [hend])]

theorem State.setTaken_of_runEnd (h : (o.spanTaken && o.limitTaken) = true) (hend : o.set.runEnd = true) :
    s.setTaken o = { s with wru := { s.wru with offered := none } }.endRun := by
  unfold State.setTaken
  rw [if_pos h]
  dsimp only
  rw [if_pos hend]

end SetTaken

theorem exec_limitSetTake_of_offered {s : State} {o : Offered} (hp : s.pin = false) (ho : s.wru.offered = some o)
    (hnew : o.limitTaken = false) :
    exec .limitSetTake s = .next ((s.limitWork o).setTaken { o with limitTaken := true }).kick := by
  change act State.limitTake s = _
  rw [act_free _ hp]
  unfold State.limitTake
  rw [ho]
  simp only [hnew, Bool.false_eq_true, ↓reduceIte]

/-- R143: a loss that comes before the span unit has taken the set waits with its scan, once. -/
theorem Spu.loseScan_waiting (u : Spu) (n : Nat) :
    u.loseScan false n = { u with losses := if n ∈ u.losses then u.losses else u.losses ++ [n] } := by
  simp [Spu.loseScan]

theorem State.limitWork_spu (s : State) (o : Offered) : (s.limitWork o).spu =
    if (s.lev.work s.hli.gates o.set).lost then s.spu.loseScan o.spanTaken o.set.header.scan else s.spu := rfl

/-- Settles O47. -/
theorem limitSetTaken : Obligations.LimitSetTaken := by
  refine ⟨fun l g set h => ?_, fun s o hp ho hnew hend => ?_⟩
  · unfold Lev.work
    rw [if_neg (by simp [h])]
  · intro w
    have hkept : w.lost = false → (s.limitWork o).spu = s.spu := fun h => by
      rw [State.limitWork_spu, if_neg (by simp [w, h])]
    have hlost : w.lost = true → (s.limitWork o).spu = s.spu.loseScan o.spanTaken o.set.header.scan := fun h => by
      rw [State.limitWork_spu, if_pos h]
    refine ⟨_, exec_limitSetTake_of_offered hp ho hnew, ?_⟩
    rcases Bool.eq_false_or_eq_true o.spanTaken with htaken | htaken
    · have hwaits : o.spanTaken ≠ false := by simp [htaken]
      rw [State.setTaken_of_scan (o := { o with limitTaken := true }) (by simp [htaken]) hend]
      exact ⟨rfl, rfl, hkept, fun _ h => absurd h hwaits, fun h _ => (hlost h).trans (by rw [htaken]; rfl),
        fun h => absurd h hwaits, fun _ => ⟨rfl, rfl⟩, rfl, rfl, rfl, rfl, rfl, rfl, rfl, rfl, rfl⟩
    · have hlast : o.spanTaken ≠ true := by simp [htaken]
      rw [State.setTaken_of_waiting (by simp [htaken])]
      exact ⟨rfl, rfl, hkept, fun h _ => (hlost h).trans (htaken ▸ s.spu.loseScan_waiting _),
        fun _ h => absurd h hlast, fun _ => ⟨rfl, rfl⟩, fun h => absurd h hlast, rfl, rfl, rfl, rfl, rfl, rfl, rfl, rfl,
        rfl⟩

end Sys2Proof.Machine
end

section
/-! PROOFS. What the host command rows have in common: the frames they take, the modes they take them in, and the lengths
of their bodies (R170, R172; section 11.9). -/

namespace Sys2Proof.Machine

/-! ## Bodies of another length -/

section BadLength

variable {body : List Byte}

theorem parseSetHead_badLength (h : body.length ≠ 12) : parseSetHead body = .error .badLength := by
  unfold parseSetHead
  rw [splitFields_none _ _ h]

theorem parseMotion_badLength (h : body.length ≠ 40) : parseMotion body = .error .badLength := by
  unfold parseMotion
  rw [splitFields_none _ _ h]

theorem parseExtract_badLength (h : body.length ≠ 18) : parseExtract body = .error .badLength := by
  unfold parseExtract
  rw [splitFields_none _ _ h]

theorem parseTracker_badLength (h : body.length ≠ 10) : parseTracker body = .error .badLength := by
  unfold parseTracker
  rw [splitFields_none _ _ h]

theorem parseDefaultSection_badLength (h : body.length ≠ 13) : parseDefaultSection body = .error .badLength := by
  unfold parseDefaultSection
  rw [splitFields_none _ _ h]

theorem parseSection_badLength (h : body.length ≠ 23) : parseSection body = .error .badLength := by
  unfold parseSection
  rw [splitFields_none _ _ h]

theorem parseRule_badLength (h : body.length ≠ 15) : parseRule body = .error .badLength := by
  unfold parseRule
  rw [splitFields_none _ _ h]

theorem parseTrigger_badLength (h : body.length ≠ 11) : parseTrigger body = .error .badLength := by
  unfold parseTrigger
  rw [splitFields_none _ _ h]

theorem parseReporting_badLength (h : body.length ≠ 5) : parseReporting body = .error .badLength := by
  unfold parseReporting
  rw [splitFields_none _ _ h]

theorem parseStart_badLength (h : body.length ≠ 6) : parseStart body = .error .badLength := by
  unfold parseStart
  rw [splitFields_none _ _ h]

end BadLength

section WorkBadLength

variable {f : HostFrame} (s : State)

theorem setDefaultSectionWork_of_error {r : Result} (h : parseDefaultSection f.body = .error r) :
    setDefaultSectionWork f s = .refused r := by
  unfold setDefaultSectionWork
  rw [h]

theorem setRuleWork_of_error {r : Result} (h : parseRule f.body = .error r) : setRuleWork f s = .refused r := by
  unfold setRuleWork
  rw [h]

theorem startRunWork_of_error {r : Result} (h : parseStart f.body = .error r) : startRunWork f s = .refused r := by
  unfold startRunWork
  rw [h]

theorem setPolicyWork_badLength (h : f.body.length ≠ 2) : setPolicyWork f s = .refused .badLength := by
  unfold setPolicyWork
  rw [splitFields_none _ _ h]

theorem positionFixWork_badLength (h : f.body.length ≠ 4) : positionFixWork f s = .refused .badLength := by
  unfold positionFixWork
  rw [splitFields_none _ _ h]

theorem scanOnceWork_badLength (h : f.body.length ≠ 0) : scanOnceWork f s = .refused .badLength := by
  unfold scanOnceWork
  rw [if_pos (by simpa using h)]

theorem emptyBody_badLength (work : State → Verdict) (h : f.body.length ≠ 0) :
    emptyBody work f s = .refused .badLength := by
  unfold emptyBody
  rw [if_neg (by simpa using h)]

theorem headControlWork_badLength (code : Byte) (action : HeadNo → State → Verdict) (h : f.body.length ≠ 2) :
    headControlWork code action f s = .refused .badLength := by
  unfold headControlWork
  split
  · rename_i hb
    simp [hb] at h
  · rfl

theorem headControlRow_of_form (code : Byte) (hk : f.kind = 0x11) (h : f.body.length ≠ 2) :
    headControlRow code f = true := by
  unfold headControlRow
  split
  · rename_i hb
    simp [hb] at h
  · simp [hk]

end WorkBadLength

/-! ## The rows -/

/-- The row's command acts as the wrapper of R170 with the frames it takes and the work it does: it takes frames of its
kind alone, and those in a mode it is not taken in and those of another length than its own among them; the latter it
refuses. -/
structure HostRow.Means (row : HostRow) (takes : HostFrame → Bool) (work : HostFrame → State → Verdict) : Prop where
  exec : ∀ s, exec row.command s = act (takeCommand takes row.modes work) s
  kind : ∀ {f}, takes f = true → f.kind = row.kind
  mode : ∀ {f m}, f.kind = row.kind → row.modes m = false → takes f = true
  length : ∀ {f n}, f.kind = row.kind → row.length = some n → f.body.length ≠ n →
    takes f = true ∧ ∀ s, work f s = .refused .badLength

/-- A row of one kind whose body has a fixed length. -/
theorem HostRow.Means.ofLength {c : Instr} {k : Byte} {modes : Mode → Bool} {n : Nat}
    {work : HostFrame → State → Verdict} (hexec : ∀ s, Machine.exec c s = act (takeCommand (ofKind k) modes work) s)
    (hform : ∀ (f : HostFrame) s, f.body.length ≠ n → work f s = .refused .badLength) :
    (⟨c, k, modes, some n⟩ : HostRow).Means (ofKind k) work where
  exec := hexec
  kind h := by simpa [ofKind] using h
  mode hk _ := by simpa [ofKind] using hk
  length hk hn hb := ⟨by simpa [ofKind] using hk, fun s => hform _ s (Option.some.inj hn ▸ hb)⟩

/-- A row of one kind whose body has a length of its own making. -/
theorem HostRow.Means.ofAnyLength {c : Instr} {k : Byte} {modes : Mode → Bool}
    {work : HostFrame → State → Verdict} (hexec : ∀ s, Machine.exec c s = act (takeCommand (ofKind k) modes work) s) :
    (⟨c, k, modes, none⟩ : HostRow).Means (ofKind k) work where
  exec := hexec
  kind h := by simpa [ofKind] using h
  mode hk _ := by simpa [ofKind] using hk
  length _ hn _ := by cases hn

theorem HostRow.Means.headControl {c : Instr} {code : Byte} {action : HeadNo → State → Verdict}
    (hexec : ∀ s, Machine.exec c s = act (takeCommand (headControlRow code) inAny (headControlWork code action)) s) :
    (⟨c, 0x11, inAny, some 2⟩ : HostRow).Means (headControlRow code) (headControlWork code action) where
  exec := hexec
  kind h := by
    simp only [headControlRow, Bool.and_eq_true, beq_iff_eq] at h
    exact h.1
  mode _ hm := by cases hm
  length hk hn hb := by
    cases hn
    exact ⟨headControlRow_of_form code hk hb, fun s => headControlWork_badLength s code action hb⟩

theorem hostRows_mean : ∀ row ∈ hostRows, ∃ takes work, row.Means takes work := by
  unfold hostRows
  simp only [List.forall_mem_cons, List.not_mem_nil, false_implies, implies_true, and_true]
  exact ⟨⟨_, _, .ofLength (fun _ => rfl) fun _ s hb => emptyBody_badLength s _ hb⟩,
    ⟨_, _, .ofLength (fun _ => rfl) fun _ s hb => emptyBody_badLength s _ hb⟩,
    ⟨_, _, .ofLength (fun _ => rfl) fun _ _ hb => judged_refused (parseSetHead_badLength hb)⟩,
    ⟨_, _, .headControl fun _ => rfl⟩,
    ⟨_, _, .headControl fun _ => rfl⟩,
    ⟨_, _, .headControl fun _ => rfl⟩,
    ⟨_, _, .headControl fun _ => rfl⟩,
    ⟨_, _, .headControl fun _ => rfl⟩,
    ⟨_, _, .headControl fun _ => rfl⟩,
    ⟨_, _, .ofAnyLength fun _ => rfl⟩,
    ⟨_, _, .ofLength (fun _ => rfl) fun _ _ hb => judged_refused (parseMotion_badLength hb)⟩,
    ⟨_, _, .ofLength (fun _ => rfl) fun _ _ hb => judged_refused (parseExtract_badLength hb)⟩,
    ⟨_, _, .ofLength (fun _ => rfl) fun _ _ hb => judged_refused (parseTracker_badLength hb)⟩,
    ⟨_, _, .ofAnyLength fun _ => rfl⟩,
    ⟨_, _, .ofLength (fun _ => rfl) fun _ s hb => setDefaultSectionWork_of_error s (parseDefaultSection_badLength hb)⟩,
    ⟨_, _, .ofLength (fun _ => rfl) fun _ _ hb => clearRouteWork_badLength hb⟩,
    ⟨_, _, .ofLength (fun _ => rfl) fun _ _ hb => appendSectionWork_of_error (parseSection_badLength hb)⟩,
    ⟨_, _, .ofLength (fun _ => rfl) fun _ s hb => setRuleWork_of_error s (parseRule_badLength hb)⟩,
    ⟨_, _, .ofLength (fun _ => rfl) fun _ s hb => setPolicyWork_badLength s hb⟩,
    ⟨_, _, .ofLength (fun _ => rfl) fun _ _ hb => judged_refused (parseTrigger_badLength hb)⟩,
    ⟨_, _, .ofLength (fun _ => rfl) fun _ _ hb => judged_refused (parseReporting_badLength hb)⟩,
    ⟨_, _, .ofLength (fun _ => rfl) fun _ s hb => startRunWork_of_error s (parseStart_badLength hb)⟩,
    ⟨_, _, .ofLength (fun _ => rfl) fun _ s hb => emptyBody_badLength s _ hb⟩,
    ⟨_, _, .ofLength (fun _ => rfl) fun _ s hb => scanOnceWork_badLength s hb⟩,
    ⟨_, _, .ofLength (fun _ => rfl) fun _ s hb => positionFixWork_badLength s hb⟩,
    ⟨_, _, .ofLength (fun _ => rfl) fun _ s hb => emptyBody_badLength s _ hb⟩⟩

/-- The kinds that UNKNOWN_COMMAND leaves to the rows are the kinds of the rows. -/
theorem commandKinds_subset : ∀ k ∈ commandKinds, k ∈ hostRows.map (·.kind) := by decide

/-- Settles O9. -/
theorem kindModeAndFormChecked : Obligations.KindModeAndFormChecked := by
  refine ⟨fun m => ⟨rfl, by simp [inStandby], by simp [inRunning]⟩, fun s f rest hf hk => ?_,
    fun row hrow s f rest hf hk => ?_⟩
  · have hother : (!commandKinds.contains f.kind) = true := by
      simpa using fun hmem : f.kind ∈ commandKinds => hk (commandKinds_subset _ hmem)
    exact act_take_refused (modes := inAny) hf hother rfl rfl
  · obtain ⟨takes, work, hrow⟩ := hostRows_mean row hrow
    rw [hrow.exec]
    refine ⟨fun hm => act_take_mode hf (hrow.mode hk hm) hm, fun n hn hm hb => ?_⟩
    obtain ⟨htakes, hwork⟩ := hrow.length hk hn hb
    exact act_take_refused hf htakes hm (hwork _)

/-- Settles O10. -/
theorem refusedCommandChangesNothing : Obligations.RefusedCommandChangesNothing := by
  intro row hrow s hp
  obtain ⟨takes, work, hrow⟩ := hostRows_mean row hrow
  rw [hrow.exec]
  refine ⟨act_take_idle hp, fun f rest hf => ⟨fun hk => ?_, fun t ht => ?_⟩⟩
  · exact act_take_other hf (Bool.eq_false_iff.mpr fun htakes => hk (hrow.kind htakes))
  · rw [act_free _ hp] at ht
    cases ht
    rcases takeCommand_cases takes row.modes work s with hsame | ⟨g, more, -, hin, -, hcases⟩
    · exact .inl (by rw [hsame])
    obtain ⟨-, -, hheld⟩ := hf
    obtain ⟨rfl, rfl⟩ : g = f ∧ more = rest := by simpa using hin.symm.trans hheld
    right
    rcases hcases with ⟨r, -, hr⟩ | ⟨r, -, -, hr⟩ | ⟨u, data, -, -, hr⟩
    · exact ⟨s.popped more, r, [], by rw [hr]; rfl, fun _ => ⟨rfl, rfl⟩⟩
    · exact ⟨s.popped more, r, [], by rw [hr]; rfl, fun _ => ⟨rfl, rfl⟩⟩
    · exact ⟨u, .done, data, by rw [hr]; rfl, fun h => absurd rfl h⟩

end Sys2Proof.Machine
end

section
/-! PROOFS. The setting commands, stage by stage: what their bodies are parsed to, and what the rows make of it (R19, R41,
R53, R57, R67, R84, R121, R136, R152, R156, R174). -/

namespace Sys2Proof.Machine

/-! ## A row that parses its body and takes the settings -/

section Judged

variable {α : Type} {parse : List Byte → Except Result α} {effect : α → State → State} {k : Byte}
  {modes : Mode → Bool} {s : State} {f : HostFrame} {rest : List HostFrame}

theorem act_judged_refused {r : Result} (hs : s.holds f rest) (hk : f.kind = k) (hm : modes s.mode = true)
    (hp : parse f.body = .error r) : act (takeCommand (ofKind k) modes fun g t => judged (parse g.body) effect t) s =
      .next ((s.popped rest).answered f r []) :=
  act_take_refused hs (beq_iff_eq.mpr hk) hm (judged_refused hp)

theorem act_judged_taken {a : α} (hs : s.holds f rest) (hk : f.kind = k) (hm : modes s.mode = true)
    (hp : parse f.body = .ok a) : act (takeCommand (ofKind k) modes fun g t => judged (parse g.body) effect t) s =
      .next ((effect a (s.popped rest)).answered f .done []) :=
  act_take_taken hs (beq_iff_eq.mpr hk) hm (judged_taken hp)

end Judged

/-! ## Enumerated fields -/

theorem boolOf_le {n : Nat} {b : Bool} (h : boolOf n = some b) : n ≤ 1 := by
  by_contra hn
  rw [boolOf_eq_none_of_not_le hn] at h
  cases h

theorem headOf_lt {n : Nat} {h : HeadNo} (hn : headOf n = some h) : n < 4 := by
  unfold headOf at hn
  split at hn
  · assumption
  · cases hn

/-! ## SET_HEAD (R41) -/

/-- R5, R41: the ranges of SET_HEAD's fields but the head number, the stagger offset read as a signed field. -/
abbrev HeadFieldsInRange (x : Int) (z m p i w win lim : Nat) : Prop :=
  (-10000 ≤ x ∧ x ≤ 10000) ∧ z ≤ 60000 ∧ m ≤ 1 ∧ (1 ≤ p ∧ p ≤ 50) ∧ i ≤ 255 ∧ w ≤ 1 ∧ (100 ≤ win ∧ win ≤ 5000) ∧
    1 ≤ lim ∧ lim ≤ 16

section SetHead

variable {h x z m p i w win lim : Nat}

theorem splitFields_setHead
    (hf : fits [(1, h), (2, x), (2, z), (1, m), (1, p), (1, i), (1, w), (2, win), (1, lim)]) :
    splitFields [1, 2, 2, 1, 1, 1, 1, 2, 1]
      (bodyOf [(1, h), (2, x), (2, z), (1, m), (1, p), (1, i), (1, w), (2, win), (1, lim)]) =
        some [h, x, z, m, p, i, w, win, lim] := splitFields_bodyOf _ hf

theorem parseSetHead_inRange {hd : HeadNo} {body : List Byte}
    (hsplit : splitFields [1, 2, 2, 1, 1, 1, 1, 2, 1] body = some [h, x, z, m, p, i, w, win, lim]) (hh : hd.val = h)
    (hr : HeadFieldsInRange (signedOf 2 x) z m p i w win lim) : parseSetHead body = .ok
      { head := hd, responseWindow := win, missLimit := lim, calibration :=
        { offset := signedOf 2 x, height := z, mirrored := m == 1, pitch := p, floor := i, wear := w == 1 } } := by
  obtain ⟨hx, hz, hm, hp, hi, hw, hwin, hlim⟩ := hr
  have hhead : headOf h = some hd := hh ▸ dif_pos hd.isLt
  simp only [parseSetHead, hsplit, hhead, boolOf_of_le hm, boolOf_of_le hw]
  exact if_pos ⟨by simpa [within] using hx, hz, hp, hi, hwin, hlim⟩

theorem parseSetHead_outOfRange {body : List Byte}
    (hsplit : splitFields [1, 2, 2, 1, 1, 1, 1, 2, 1] body = some [h, x, z, m, p, i, w, win, lim])
    (hr : 4 ≤ h ∨ ¬ HeadFieldsInRange (signedOf 2 x) z m p i w win lim) : parseSetHead body = .error .badValue := by
  unfold parseSetHead
  simp only [hsplit]
  split
  · rename_i hd b c hhead hm hw
    refine if_neg ?_
    rintro ⟨hx, hz, hp, hi, hwin, hlim⟩
    rcases hr with hh | hr
    · exact absurd (headOf_lt hhead) (by omega)
    · exact hr ⟨by simpa [within] using hx, hz, boolOf_le hm, hp, hi, boolOf_le hw, hwin, hlim⟩
  · rfl

end SetHead

/-- Settles O12. -/
theorem setHeadLoadsOrRefuses : Obligations.SetHeadLoadsOrRefuses := by
  intro s f rest h x z m p i w win lim hs hk hm hf hbody
  have hsplit : splitFields [1, 2, 2, 1, 1, 1, 1, 2, 1] f.body = some [h, x, z, m, p, i, w, win, lim] :=
    hbody ▸ splitFields_setHead hf
  have hi : i < 256 := hf (1, i) (by simp)
  refine ⟨fun hd hh hx hz hmirror hp hw hwin hlim => ?_, fun hr => ?_⟩
  · exact act_judged_taken hs hk (by rw [hm]; rfl)
      (parseSetHead_inRange hsplit hh ⟨hx, hz, hmirror, hp, by omega, hw, hwin, hlim⟩)
  · exact act_judged_refused hs hk (by rw [hm]; rfl) (parseSetHead_outOfRange hsplit (by omega))

/-! ## SET_MOTION (R57) -/

/-- R57: the ranges of a channel's fields. -/
abbrev ChannelInRange (e : Nat) (c : ChannelConfig) : Prop :=
  e ≤ 1 ∧ c.zero ≤ 4095 ∧ (1 ≤ c.scale ∧ c.scale ≤ 4096) ∧ c.low ≤ 4095 ∧ c.high ≤ 4095

theorem channelOf_eq (e : Nat) (c : ChannelConfig) : channelOf e c.zero c.scale c.low c.high =
    if ChannelInRange e c then some { c with enable := e == 1 } else none := by
  unfold channelOf
  by_cases he : e ≤ 1
  · rw [boolOf_of_le he]
    exact if_congr (by rw [ChannelInRange, and_iff_right he]) rfl rfl
  · rw [boolOf_eq_none_of_not_le he, if_neg fun hr => he hr.1]

theorem channelOf_some {e : Nat} {c d : ChannelConfig} (h : channelOf e c.zero c.scale c.low c.high = some d) :
    ChannelInRange e c := by
  rw [channelOf_eq] at h
  exact (Option.ite_none_right_eq_some.mp h).1

/-- The fields of a SET_MOTION body (R187). -/
def motionFields (e : Fin 4 → Nat) (c : Fin 4 → ChannelConfig) (t zr : Nat) : List (Nat × Nat) :=
  (heads4.flatMap fun k => [(1, e k), (2, (c k).zero), (2, (c k).scale), (2, (c k).low), (2, (c k).high)]) ++
    [(2, t), (2, zr)]

/-- R57: the ranges of SET_MOTION. -/
abbrev MotionInRange (e : Fin 4 → Nat) (c : Fin 4 → ChannelConfig) (t zr : Nat) : Prop :=
  (∀ k, ChannelInRange (e k) (c k)) ∧ (5000 ≤ t ∧ t ≤ 40000) ∧ zr ≤ 40000

theorem forall_fin4 {P : Fin 4 → Prop} : (∀ k, P k) ↔ P 0 ∧ P 1 ∧ P 2 ∧ P 3 := by
  simp [Fin.forall_fin_succ]

section SetMotion

variable {e : Fin 4 → Nat} {c : Fin 4 → ChannelConfig} {t zr : Nat}

theorem splitFields_motion (hf : fits (motionFields e c t zr)) :
    splitFields [1, 2, 2, 2, 2, 1, 2, 2, 2, 2, 1, 2, 2, 2, 2, 1, 2, 2, 2, 2, 2, 2] (bodyOf (motionFields e c t zr)) =
      some [e 0, (c 0).zero, (c 0).scale, (c 0).low, (c 0).high, e 1, (c 1).zero, (c 1).scale, (c 1).low, (c 1).high,
        e 2, (c 2).zero, (c 2).scale, (c 2).low, (c 2).high, e 3, (c 3).zero, (c 3).scale, (c 3).low, (c 3).high,
        t, zr] := splitFields_bodyOf _ hf

theorem parseMotion_inRange (hf : fits (motionFields e c t zr)) (hr : MotionInRange e c t zr) :
    parseMotion (bodyOf (motionFields e c t zr)) =
      if ∀ k, (c k).low < (c k).high then
        .ok { spacing := t, rollCentre := zr, channels := #v[{ c 0 with enable := e 0 == 1 },
          { c 1 with enable := e 1 == 1 }, { c 2 with enable := e 2 == 1 }, { c 3 with enable := e 3 == 1 }] }
      else .error .invalidCombination := by
  obtain ⟨hchannels, hrest⟩ := hr
  simp only [parseMotion, splitFields_motion hf, channelOf_eq, if_pos (hchannels _), if_pos hrest, forall_fin4]

theorem parseMotion_outOfRange (hf : fits (motionFields e c t zr)) (hr : ¬ MotionInRange e c t zr) :
    parseMotion (bodyOf (motionFields e c t zr)) = .error .badValue := by
  simp only [parseMotion, splitFields_motion hf]
  split
  · rename_i h0 h1 h2 h3
    refine if_neg fun hrest => hr ⟨forall_fin4.mpr ?_, hrest⟩
    exact ⟨channelOf_some h0, channelOf_some h1, channelOf_some h2, channelOf_some h3⟩
  · rfl

end SetMotion

/-- Settles O14. -/
theorem setMotionLoadsOrRefuses : Obligations.SetMotionLoadsOrRefuses := by
  intro s f rest e c t zr fields hs hk hm hf hbody inRange channel
  have hstandby : inStandby s.mode = true := by rw [hm]; rfl
  refine ⟨fun hr hlimits => ?_, fun hr => ?_, fun hr ⟨k, hlimits⟩ => ?_⟩
  · have hparse := parseMotion_inRange hf hr
    rw [if_pos hlimits] at hparse
    refine (act_judged_taken hs hk hstandby ((congrArg parseMotion hbody).trans hparse)).trans ?_
    simp [State.setMotionConfig, Channel.configure, Channel.rearm, channel]
  · exact act_judged_refused hs hk hstandby ((congrArg parseMotion hbody).trans (parseMotion_outOfRange hf hr))
  · have hparse := parseMotion_inRange hf hr
    rw [if_neg fun h => absurd (h k) (by omega)] at hparse
    exact act_judged_refused hs hk hstandby ((congrArg parseMotion hbody).trans hparse)

/-! ## SET_EXTRACT, SET_TRACKER, SET_TRIGGER and SET_REPORTING (R19, R67, R84, R136, R174) -/

/-- The fields of a SET_EXTRACT body (R187). -/
def extractFields (a : ExtractSettings) : List (Nat × Nat) :=
  [(2, a.gapX), (2, a.gapZ), (2, a.minPoints), (2, a.minExtent), (2, a.maxExtent), (2, a.faceIntensity),
    (2, a.faceTolerance), (2, a.mergeX), (2, a.mergeZ)]

/-- R67: the ranges of SET_EXTRACT. -/
abbrev ExtractInRange (a : ExtractSettings) : Prop :=
  (1 ≤ a.gapX ∧ a.gapX ≤ 500) ∧ (1 ≤ a.gapZ ∧ a.gapZ ≤ 500) ∧ (2 ≤ a.minPoints ∧ a.minPoints ≤ 32) ∧
    (10 ≤ a.minExtent ∧ a.minExtent ≤ 2000) ∧ (10 ≤ a.maxExtent ∧ a.maxExtent ≤ 2000) ∧ a.faceIntensity ≤ 255 ∧
    a.faceTolerance ≤ 200 ∧ a.mergeX ≤ 500 ∧ a.mergeZ ≤ 1000

theorem parseExtract_bodyOf {a : ExtractSettings} (hf : fits (extractFields a)) : parseExtract (bodyOf (extractFields a)) =
    if ExtractInRange a then if a.minExtent < a.maxExtent then .ok a else .error .invalidCombination
    else .error .badValue := by
  have hsplit : splitFields [2, 2, 2, 2, 2, 2, 2, 2, 2] (bodyOf (extractFields a)) =
      some [a.gapX, a.gapZ, a.minPoints, a.minExtent, a.maxExtent, a.faceIntensity, a.faceTolerance, a.mergeX,
        a.mergeZ] := splitFields_bodyOf _ hf
  simp only [parseExtract, hsplit]

/-- The fields of a SET_TRACKER body (R187). -/
def trackerFields (a : TrackerSettings) : List (Nat × Nat) :=
  [(2, a.gateX), (2, a.gateZ), (1, a.confirm), (1, a.coast), (2, a.band), (2, a.mismatch)]

/-- R84: the ranges of SET_TRACKER. -/
abbrev TrackerInRange (a : TrackerSettings) : Prop :=
  (1 ≤ a.gateX ∧ a.gateX ≤ 1000) ∧ (1 ≤ a.gateZ ∧ a.gateZ ≤ 2000) ∧ (1 ≤ a.confirm ∧ a.confirm ≤ 8) ∧
    (1 ≤ a.coast ∧ a.coast ≤ 64) ∧ a.band ≤ 5000 ∧ a.mismatch ≤ 1000

theorem parseTracker_bodyOf {a : TrackerSettings} (hf : fits (trackerFields a)) : parseTracker (bodyOf (trackerFields a)) =
    if TrackerInRange a then .ok a else .error .badValue := by
  have hsplit : splitFields [2, 2, 1, 1, 2, 2] (bodyOf (trackerFields a)) =
      some [a.gateX, a.gateZ, a.confirm, a.coast, a.band, a.mismatch] := splitFields_bodyOf _ hf
  simp only [parseTracker, hsplit]

/-- The fields of a SET_TRIGGER body (R187), the mode by its code. -/
def triggerFields (m : Nat) (a : TravelConfig) : List (Nat × Nat) :=
  [(1, m), (2, a.spacing), (2, a.interval), (2, a.ppm), (4, a.fixLimit)]

/-- R19: the ranges of SET_TRIGGER but the mode. -/
abbrev TriggerInRange (a : TravelConfig) : Prop :=
  (10 ≤ a.spacing ∧ a.spacing ≤ 500) ∧ (100 ≤ a.interval ∧ a.interval ≤ 50000) ∧ (100 ≤ a.ppm ∧ a.ppm ≤ 20000) ∧
    (100 ≤ a.fixLimit ∧ a.fixLimit ≤ 100000)

theorem triggerModeOf_none {m : Nat} (h : 2 < m) : triggerModeOf m = none := by
  match m, h with
  | _ + 3, _ => rfl

theorem parseTrigger_bodyOf {m : Nat} {a : TravelConfig} (hf : fits (triggerFields m a)) :
    (triggerModeOf m = some a.mode →
      parseTrigger (bodyOf (triggerFields m a)) = if TriggerInRange a then .ok a else .error .badValue) ∧
    (2 < m ∨ ¬ TriggerInRange a → parseTrigger (bodyOf (triggerFields m a)) = .error .badValue) := by
  have hsplit : splitFields [1, 2, 2, 2, 4] (bodyOf (triggerFields m a)) =
      some [m, a.spacing, a.interval, a.ppm, a.fixLimit] := splitFields_bodyOf _ hf
  refine ⟨fun hm => by simp only [parseTrigger, hsplit, hm], fun h => ?_⟩
  simp only [parseTrigger, hsplit]
  split
  · rename_i mode hmode
    refine if_neg (h.resolve_left fun hm => ?_)
    rw [triggerModeOf_none hm] at hmode
    cases hmode
  · rfl

/-- The class gates of a gates byte, bit by bit. -/
def gatesBits (g : Nat) : Gates :=
  { span := g % 2 == 1, advise := g / 2 % 2 == 1, action := g / 4 % 2 == 1, urgent := g / 8 % 2 == 1,
    event := g / 16 % 2 == 1 }

theorem gatesOf_eq (g : Nat) : gatesOf g = if g < 32 then some (gatesBits g) else none := by
  simp [gatesOf, gatesBits, Nat.testBit_eq_decide_div_mod_eq, beq_eq_decide]

/-- R136, R174: the ranges of SET_REPORTING. -/
abbrev ReportingInRange (g d lo hi : Nat) : Prop := g < 32 ∧ d ≤ 1000 ∧ (5 ≤ lo ∧ lo ≤ 100) ∧ (20 ≤ hi ∧ hi ≤ 200)

theorem parseReporting_bodyOf {g d lo hi : Nat} (hf : fits [(1, g), (2, d), (1, lo), (1, hi)]) :
    parseReporting (bodyOf [(1, g), (2, d), (1, lo), (1, hi)]) =
      if ReportingInRange g d lo hi then
        if lo < hi then .ok { gates := gatesBits g, decimation := d, minSpan := lo, maxSpan := hi }
        else .error .invalidCombination
      else .error .badValue := by
  have hsplit : splitFields [1, 2, 1, 1] (bodyOf [(1, g), (2, d), (1, lo), (1, hi)]) = some [g, d, lo, hi] :=
    splitFields_bodyOf _ hf
  simp only [parseReporting, hsplit, gatesOf_eq]
  by_cases hg : g < 32
  · rw [if_pos hg]
    exact if_congr (by rw [ReportingInRange, and_iff_right hg]) rfl rfl
  · rw [if_neg hg, if_neg fun hr => hg hr.1]

/-- Settles O15. -/
theorem settingCommandsLoadOrRefuse : Obligations.SettingCommandsLoadOrRefuse := by
  refine ⟨?_, ?_, ?_, ?_⟩
  · intro s f rest a fields hs hk hm hf hbody inRange
    have hstandby : inStandby s.mode = true := by rw [hm]; rfl
    have hparse := (congrArg parseExtract hbody).trans (parseExtract_bodyOf hf)
    refine ⟨fun hr hx => ?_, fun hr => ?_, fun hr hx => ?_⟩
    · rw [if_pos hr, if_pos hx] at hparse
      exact act_judged_taken hs hk hstandby hparse
    · rw [if_neg hr] at hparse
      exact act_judged_refused hs hk hstandby hparse
    · rw [if_pos hr, if_neg (by omega)] at hparse
      exact act_judged_refused hs hk hstandby hparse
  · intro s f rest a fields hs hk hm hf hbody inRange
    have hstandby : inStandby s.mode = true := by rw [hm]; rfl
    have hparse := (congrArg parseTracker hbody).trans (parseTracker_bodyOf hf)
    refine ⟨fun hr => ?_, fun hr => ?_⟩
    · rw [if_pos hr] at hparse
      exact act_judged_taken hs hk hstandby hparse
    · rw [if_neg hr] at hparse
      exact act_judged_refused hs hk hstandby hparse
  · intro s f rest m a fields hs hk hm hf hbody inRange
    have hstandby : inStandby s.mode = true := by rw [hm]; rfl
    obtain ⟨hgood, hbad⟩ := parseTrigger_bodyOf (m := m) hf
    refine ⟨fun hr hmode => ?_, fun hr => ?_⟩
    · have hcode : triggerModeOf m = some a.mode := by
        rcases hmode with ⟨rfl, h⟩ | ⟨rfl, h⟩ | ⟨rfl, h⟩ <;> rw [h] <;> rfl
      exact act_judged_taken hs hk hstandby ((congrArg parseTrigger hbody).trans ((hgood hcode).trans (if_pos hr)))
    · exact act_judged_refused hs hk hstandby ((congrArg parseTrigger hbody).trans (hbad hr.symm))
  · intro s f rest g d lo hi hs hk hf hbody inRange
    have hparse := (congrArg parseReporting hbody).trans (parseReporting_bodyOf hf)
    refine ⟨fun hr hx => ?_, fun hr => ?_, fun hr hx => ?_⟩
    · rw [if_pos hr, if_pos hx] at hparse
      exact act_judged_taken hs hk rfl hparse
    · rw [if_neg hr] at hparse
      exact act_judged_refused hs hk rfl hparse
    · rw [if_pos hr, if_neg (by omega)] at hparse
      exact act_judged_refused hs hk rfl hparse

/-! ## SET_DEFAULT_SECTION (R121) -/

/-- The fields of a SET_DEFAULT_SECTION body (R187). -/
def defaultFields (d : Design) (wire n : Nat) : List (Nat × Nat) :=
  [(1, wire), (1, d.expectedMin), (1, d.expectedMax), (4, d.height), (2, d.band), (2, d.staggerLimit),
    (1, d.minThickness), (1, n)]

theorem parseDefaultSection_bodyOf {d : Design} {wire n : Nat} (hf : fits (defaultFields d wire n)) (hid : d.id = 0)
    (hwire : d.wireType.val = wire ∨ 8 ≤ wire) (hn : d.neutral = (n == 1)) :
    parseDefaultSection (bodyOf (defaultFields d wire n)) =
      if DesignInRange d wire n then .ok d else .error .badValue := by
  have hsplit : splitFields [1, 1, 1, 4, 2, 2, 1, 1] (bodyOf (defaultFields d wire n)) =
      some [wire, d.expectedMin, d.expectedMax, d.height, d.band, d.staggerLimit, d.minThickness, n] :=
    splitFields_bodyOf _ hf
  simp only [parseDefaultSection, hsplit, ← hid, designOf_eq hwire hn]
  by_cases hd : DesignInRange d wire n
  · rw [if_pos hd, if_pos hd]
  · rw [if_neg hd, if_neg hd]

theorem setDefaultSectionWork_of_ok {f : HostFrame} {d : Design} (s : State) (h : parseDefaultSection f.body = .ok d) :
    setDefaultSectionWork f s =
      if d.expectedMax < d.expectedMin then .refused .invalidCombination
      else if s.wru.tables[d.wireType] = none then .refused .badTable
      else .taken { s with scu := { s.scu with default := d } } [] := by
  unfold setDefaultSectionWork
  rw [h]
  simp [← Bool.not_eq_true, State.tableLoaded_iff]

/-- Settles O17. -/
theorem setDefaultSectionStages : Obligations.SetDefaultSectionStages := by
  intro s f rest wire n d fields hs hk hm hf hbody hid hwire hn inRange
  have hstandby : inStandby s.mode = true := by rw [hm]; rfl
  have hkind : ofKind 0x17 f = true := beq_iff_eq.mpr hk
  have hparse := (congrArg parseDefaultSection hbody).trans (parseDefaultSection_bodyOf hf hid hwire hn)
  refine ⟨fun hr => ?_, fun hr hx => ?_, fun hr hx htable => ?_, fun hr hx htable => ?_⟩
  · rw [if_neg hr] at hparse
    exact act_take_refused hs hkind hstandby (setDefaultSectionWork_of_error _ hparse)
  all_goals
    rw [if_pos hr] at hparse
    have hwork := setDefaultSectionWork_of_ok (s.popped rest) hparse
  · exact act_take_refused hs hkind hstandby (hwork.trans (if_pos hx))
  · exact act_take_refused hs hkind hstandby (hwork.trans ((if_neg (by omega)).trans (if_pos htable)))
  · exact act_take_taken hs hkind hstandby (hwork.trans ((if_neg (by omega)).trans (if_neg htable)))

/-! ## SET_RULE and SET_POLICY (R152, R153, R156) -/

/-- The fields of a SET_RULE body (R187), the enumerated ones by their codes. -/
def ruleFields (i en q flt sev rep lk : Nat) (r : LimitRule) : List (Nat × Nat) :=
  [(1, i), (1, en), (1, q), (2, r.firstId), (2, r.lastId), (1, flt), (4, r.threshold), (1, sev), (1, rep), (1, lk)]

/-- R152, R153: the ranges of SET_RULE. -/
abbrev RuleInRange (i en q flt sev rep lk : Nat) (r : LimitRule) : Prop :=
  i < 16 ∧ en ≤ 1 ∧ q < 5 ∧ flt ≤ 1 ∧ sev < 3 ∧ rep ≤ 1 ∧ lk ≤ 1 ∧ r.threshold ≤ r.quantity.maxThreshold

theorem quantityOf_eq {q : Nat} {x : Quantity} (h : x.code = BitVec.ofNat 8 q ∨ 5 ≤ q) :
    quantityOf q = if q < 5 then some x else none := by
  match q with
  | 0 | 1 | 2 | 3 | 4 => cases x <;> simp_all [quantityOf, Quantity.code]
  | n + 5 => simp [quantityOf]

theorem severityOf_eq {n : Nat} {x : Severity} (h : x.code = BitVec.ofNat 8 n ∨ 3 ≤ n) :
    severityOf n = if n < 3 then some x else none := by
  match n with
  | 0 | 1 | 2 => cases x <;> simp_all [severityOf, Severity.code]
  | n + 3 => simp [severityOf]

section SetRule

variable {i en q flt sev rep lk : Nat} {r : LimitRule}

theorem splitFields_rule (hf : fits (ruleFields i en q flt sev rep lk r)) :
    splitFields [1, 1, 1, 2, 2, 1, 4, 1, 1, 1] (bodyOf (ruleFields i en q flt sev rep lk r)) =
      some [i, en, q, r.firstId, r.lastId, flt, r.threshold, sev, rep, lk] := splitFields_bodyOf _ hf

/-- The enumerated fields of the rule are those that the codes spell. -/
structure Spells (en q flt sev rep lk : Nat) (r : LimitRule) : Prop where
  enabled : r.enabled = (en == 1)
  runningOnly : r.runningOnly = (flt == 1)
  report : r.report = (rep == 1)
  lock : r.lock = (lk == 1)
  quantity : r.quantity.code = BitVec.ofNat 8 q ∨ 5 ≤ q
  severity : r.severity.code = BitVec.ofNat 8 sev ∨ 3 ≤ sev

theorem parseRule_inRange (hf : fits (ruleFields i en q flt sev rep lk r)) (hs : Spells en q flt sev rep lk r)
    (hr : RuleInRange i en q flt sev rep lk r) : parseRule (bodyOf (ruleFields i en q flt sev rep lk r)) =
      if r.firstId ≤ r.lastId then .ok (⟨i, hr.1⟩, r) else .error .invalidCombination := by
  obtain ⟨hi, hen, hq, hflt, hsev, hrep, hlk, hthreshold⟩ := hr
  obtain ⟨enabled, runningOnly, report, lock, quantity, severity⟩ := hs
  simp only [parseRule, splitFields_rule hf, boolOf_of_le hen, boolOf_of_le hflt, boolOf_of_le hrep, boolOf_of_le hlk,
    quantityOf_eq quantity, severityOf_eq severity, if_pos hq, if_pos hsev, dif_pos hi, if_pos hthreshold, ← enabled,
    ← runningOnly, ← report, ← lock]

theorem parseRule_outOfRange (hf : fits (ruleFields i en q flt sev rep lk r)) (hs : Spells en q flt sev rep lk r)
    (hr : ¬ RuleInRange i en q flt sev rep lk r) :
    parseRule (bodyOf (ruleFields i en q flt sev rep lk r)) = .error .badValue := by
  obtain ⟨-, -, -, -, quantity, severity⟩ := hs
  simp only [parseRule, splitFields_rule hf, quantityOf_eq quantity, severityOf_eq severity]
  split
  · rename_i hen hquantity hflt hseverity hrep hlk
    obtain ⟨hq, hsame⟩ := Option.ite_none_right_eq_some.mp hquantity
    obtain ⟨hsev, -⟩ := Option.ite_none_right_eq_some.mp hseverity
    cases hsame
    split
    · rename_i hi
      exact if_neg fun hthreshold =>
        hr ⟨hi, boolOf_le hen, hq, boolOf_le hflt, hsev, boolOf_le hrep, boolOf_le hlk, hthreshold⟩
    · rfl
  · rfl

end SetRule

theorem setRuleWork_of_ok {f : HostFrame} {k : Fin 16} {r : LimitRule} (s : State) (h : parseRule f.body = .ok (k, r)) :
    setRuleWork f s = if (s.lev.rules[k]).lock && !s.lev.bypass then .refused .locked
      else .taken { s with lev := { s.lev with rules := s.lev.rules.set k r } } [] := by
  unfold setRuleWork
  rw [h]

theorem splitFields_two_bytes (p b : Byte) : splitFields [1, 1] [p, b] = some [p.toNat, b.toNat] := by
  simp [splitFields, beNat]

theorem byte_le_one_iff {b : Byte} : b.toNat ≤ 1 ↔ b = 0 ∨ b = 1 := by
  rw [← BitVec.toNat_inj, ← BitVec.toNat_inj]
  change b.toNat ≤ 1 ↔ b.toNat = 0 ∨ b.toNat = 1
  omega

/-- R156, the protection stage: DESIGN does not go back, and the bypass does not open over a locked rule. -/
def Lev.Guarded (l : Lev) (p b : Byte) : Prop :=
  (l.design = true ∧ p = 0) ∨ (l.bypass = false ∧ b = 1 ∧ ∃ k : Fin 16, (l.rules[k]).lock = true)

theorem Lev.lockedCount_pos_iff {l : Lev} : 0 < l.lockedCount ↔ ∃ k : Fin 16, (l.rules[k]).lock = true := by
  constructor
  · intro h
    obtain ⟨r, hr, hlock⟩ := List.countP_pos_iff.mp h
    obtain ⟨i, hi, rfl⟩ := List.mem_iff_getElem.mp hr
    exact ⟨⟨i, by simpa using hi⟩, by simpa using hlock⟩
  · rintro ⟨k, hk⟩
    exact Lev.lockedCount_pos hk

theorem Lev.guarded_iff {l : Lev} {p b : Byte} (hp : p.toNat ≤ 1) (hb : b.toNat ≤ 1) :
    ((l.design && !(p.toNat == 1)) || (!l.bypass && (b.toNat == 1) && 0 < l.lockedCount)) = true ↔ l.Guarded p b := by
  rw [byte_le_one_iff] at hp hb
  unfold Lev.Guarded
  rw [← Lev.lockedCount_pos_iff]
  rcases hp with rfl | rfl <;> rcases hb with rfl | rfl <;> simp

section SetPolicy

variable {f : HostFrame} {p b : Byte} (s : State)

theorem setPolicyWork_badValue (hbody : f.body = [p, b]) (h : ¬ (p.toNat ≤ 1 ∧ b.toNat ≤ 1)) :
    setPolicyWork f s = .refused .badValue := by
  simp only [setPolicyWork, hbody, splitFields_two_bytes]
  split
  · rename_i hp hb
    exact absurd ⟨boolOf_le hp, boolOf_le hb⟩ h
  · rfl

theorem setPolicyWork_inRange (hbody : f.body = [p, b]) (hp : p.toNat ≤ 1) (hb : b.toNat ≤ 1) : setPolicyWork f s =
    if (s.lev.design && !(p.toNat == 1)) || (!s.lev.bypass && (b.toNat == 1) && 0 < s.lev.lockedCount) then
      .refused .locked
    else .taken { s with lev := { s.lev with design := p.toNat == 1, bypass := b.toNat == 1 } } [] := by
  simp only [setPolicyWork, hbody, splitFields_two_bytes, boolOf_of_le hp, boolOf_of_le hb]

end SetPolicy

theorem toNat_beq_one (b : Byte) : (b.toNat == 1) = (b == 1) := by
  rw [Bool.eq_iff_iff, beq_iff_eq, beq_iff_eq, ← BitVec.toNat_inj]
  rfl

/-- Settles O20. -/
theorem ruleAndPolicyStages : Obligations.RuleAndPolicyStages := by
  constructor
  · intro s f rest i en q flt sev rep lk r fields hs hk hm hf hbody enabled runningOnly report lock quantity severity
      limit inRange
    have hstandby : inStandby s.mode = true := by rw [hm]; rfl
    have hkind : ofKind 0x1A f = true := beq_iff_eq.mpr hk
    have hspells : Spells en q flt sev rep lk r := ⟨enabled, runningOnly, report, lock, quantity, severity⟩
    have hrange : inRange ↔ RuleInRange i en q flt sev rep lk r := by
      have hlimit : limit = r.quantity.maxThreshold := by simp only [limit]; cases r.quantity <;> rfl
      simp only [inRange, hlimit, RuleInRange]
    refine ⟨fun hr => ?_, fun hr hx => ?_, fun k hi hr hx => ?_⟩
    · have hparse := parseRule_outOfRange hf hspells fun h => hr (hrange.mpr h)
      exact act_take_refused hs hkind hstandby (setRuleWork_of_error _ ((congrArg parseRule hbody).trans hparse))
    · have hparse := (parseRule_inRange hf hspells (hrange.mp hr)).trans (if_neg (by omega))
      exact act_take_refused hs hkind hstandby (setRuleWork_of_error _ ((congrArg parseRule hbody).trans hparse))
    · have hparse := (parseRule_inRange hf hspells (hrange.mp hr)).trans (if_pos hx)
      rw [show (⟨i, (hrange.mp hr).1⟩ : Fin 16) = k from Fin.ext hi.symm] at hparse
      have hwork := setRuleWork_of_ok (s.popped rest) ((congrArg parseRule hbody).trans hparse)
      refine ⟨fun hlock hbypass => ?_, fun hopen => ?_⟩
      · have hlocked : ((s.lev.rules[k]).lock && !s.lev.bypass) = true := by rw [hlock, hbypass]; rfl
        exact act_take_refused hs hkind hstandby (hwork.trans (if_pos hlocked))
      · have hfree : ((s.lev.rules[k]).lock && !s.lev.bypass) = false := by
          rcases hopen with h | h <;> rw [h] <;> simp
        exact act_take_taken hs hkind hstandby (hwork.trans (if_neg (Bool.eq_false_iff.mp hfree)))
  · intro s f rest p b hs hk hm hbody inRange guarded
    have hstandby : inStandby s.mode = true := by rw [hm]; rfl
    have hkind : ofKind 0x1B f = true := beq_iff_eq.mpr hk
    refine ⟨fun hr => ?_, fun ⟨hp, hb⟩ hg => ?_, fun ⟨hp, hb⟩ hg => ?_⟩
    · exact act_take_refused hs hkind hstandby (setPolicyWork_badValue _ hbody hr)
    · have hguard := (Lev.guarded_iff (l := s.lev) hp hb).mpr hg
      exact act_take_refused hs hkind hstandby ((setPolicyWork_inRange _ hbody hp hb).trans (if_pos hguard))
    · have hguard := fun h => hg ((Lev.guarded_iff (l := s.lev) hp hb).mp h)
      rw [← toNat_beq_one, ← toNat_beq_one]
      exact act_take_taken hs hkind hstandby ((setPolicyWork_inRange _ hbody hp hb).trans (if_neg hguard))

end Sys2Proof.Machine
end

section
/-! PROOFS. The test profile and the test source (R53, R54): what a body of wires is read as, the stages of
SET_TEST_PROFILE, and the points that a wire contributes. -/

namespace Sys2Proof.Machine

/-! ## A body of wires -/

/-- R187: the eight bytes of a wire. -/
def TestWire.bytes (w : TestWire) : List Byte :=
  fieldS 2 w.centre ++ fieldU 2 w.v ++ fieldU 2 w.width ++ fieldU 2 w.face

/-- Each value of the wire is one its field can spell. -/
abbrev TestWire.Fits (w : TestWire) : Prop :=
  (-32768 ≤ w.centre ∧ w.centre ≤ 32767) ∧ w.v < 65536 ∧ w.width < 65536 ∧ w.face < 65536

theorem TestWire.bytes_length (w : TestWire) : w.bytes.length = 8 := by simp [TestWire.bytes]

theorem bytes_flatMap_length (ws : List TestWire) : (ws.flatMap TestWire.bytes).length = 8 * ws.length := by
  induction ws with
  | nil => rfl
  | cons w ws ih =>
    rw [List.flatMap_cons, List.length_append, ih, w.bytes_length, List.length_cons]
    omega

theorem wiresOf_bytes_append {w : TestWire} (hw : w.Fits) (more : List Byte) :
    wiresOf (w.bytes ++ more) = w :: wiresOf more := by
  obtain ⟨⟨hlo, hhi⟩, hv, hwidth, hface⟩ := hw
  obtain ⟨u1, u0, hu⟩ := List.length_eq_two.mp (fieldS_length 2 w.centre)
  obtain ⟨v1, v0, hv'⟩ := List.length_eq_two.mp (fieldU_length 2 w.v)
  obtain ⟨w1, w0, hw'⟩ := List.length_eq_two.mp (fieldU_length 2 w.width)
  obtain ⟨f1, f0, hf'⟩ := List.length_eq_two.mp (fieldU_length 2 w.face)
  have hread : wiresOf (w.bytes ++ more) =
      { centre := signedOf 2 (beNat [u1, u0]), v := beNat [v1, v0], width := beNat [w1, w0],
        face := beNat [f1, f0] } :: wiresOf more := by
    simp [TestWire.bytes, hu, hv', hw', hf', wiresOf]
  rw [hread, ← hu, ← hv', ← hw', ← hf', signedOf_fieldS_two _ hlo hhi, beNat_fieldU _ _ hv, beNat_fieldU _ _ hwidth,
    beNat_fieldU _ _ hface]

theorem wiresOf_bytes {ws : List TestWire} (h : ∀ w ∈ ws, w.Fits) : wiresOf (ws.flatMap TestWire.bytes) = ws := by
  induction ws with
  | nil => rfl
  | cons w ws ih =>
    obtain ⟨hw, hws⟩ := List.forall_mem_cons.mp h
    rw [List.flatMap_cons, wiresOf_bytes_append hw, ih hws]

/-! ## The stages (R53) -/

theorem roundDiv_two (n : Nat) : roundDiv n 2 = ((n + 1) / 2 : Nat) := by
  unfold roundDiv
  rw [if_pos (Int.natCast_nonneg n)]
  omega

theorem TestWire.half_eq (w : TestWire) : w.half = ((w.width + 1) / 2 : Nat) := roundDiv_two w.width

theorem TestWire.inRange_iff (w : TestWire) : w.inRange = true ↔
    (-6000 ≤ w.centre ∧ w.centre ≤ 6000) ∧ w.v ≤ 20000 ∧ w.width ≤ 4000 ∧ w.face ≤ w.width := by
  simp [TestWire.inRange, within, and_assoc]

theorem profileCombines_iff (ws : List TestWire) : profileCombines ws = true ↔
    (∀ w ∈ ws, -6000 ≤ w.low ∧ w.high ≤ 6000) ∧ ∀ a b, ws = [a, b] → a.high < b.low := by
  unfold profileCombines
  rw [Bool.and_eq_true, List.all_eq_true]
  refine and_congr (by simp) ?_
  split
  · simp
  · rename_i hnot
    simp only [true_iff]
    exact fun a b h => absurd h (hnot a b)

section SetTestProfile

variable {s : State} {f : HostFrame} {n : Byte} {wires : List Byte} {ws : List TestWire}

theorem setTestProfileWork_badLength (s : State) (h : ∀ n wires, f.body = n :: wires → wires.length ≠ 8 * n.toNat) :
    setTestProfileWork f s = .refused .badLength := by
  unfold setTestProfileWork
  split
  · rename_i n wires hbody
    exact if_pos (h n wires hbody)
  · rfl

theorem setTestProfileWork_of_wires (s : State) (hbody : f.body = n :: wires) (hlength : wires.length = 8 * n.toNat)
    (hws : wiresOf wires = ws) (hn : n.toNat = ws.length) : setTestProfileWork f s =
      if ¬ (ws.length ≤ 2 ∧ ∀ w ∈ ws, w.inRange = true) then .refused .badValue
      else if profileCombines ws = false then .refused .invalidCombination
      else .taken { s with hlc := { s.hlc with profile := ws } } [] := by
  simp only [setTestProfileWork, hbody, hlength, hws, hn, ne_eq, not_true_eq_false, ↓reduceIte, Bool.not_eq_true']
  refine if_congr ?_ rfl rfl
  rw [not_and_or, not_le, ← List.all_eq_true, Bool.not_eq_true]

end SetTestProfile

/-! ## The points of a wire (R54) -/

theorem TestWire.points_length_le (w : TestWire) (p : Nat) : (w.points p).length ≤ 480 := by
  simp [TestWire.points]

theorem testPoints_one (w : TestWire) (p : Nat) : testPoints [w] p = w.points p := by
  simp only [testPoints, List.flatMap_cons, List.flatMap_nil, List.append_nil]
  exact List.take_of_length_le (w.points_length_le p)

/-- A wire has a point at every step of the pitch up to its high end, and 480 at most. -/
theorem TestWire.point_exists_iff (w : TestWire) {p : Nat} (hp : 0 < p) (i : Nat) :
    i < min 480 ((2 * w.half).toNat / p + 1) ↔ i < 480 ∧ w.centre - w.half + i * p ≤ w.centre + w.half := by
  have hsteps : i < (2 * w.half).toNat / p + 1 ↔ i * p ≤ (2 * w.half).toNat :=
    Nat.lt_succ_iff.trans (Nat.le_div_iff_mul_le hp)
  rw [lt_min_iff, hsteps, w.half_eq, ← Int.ofNat_le, Int.natCast_mul]
  refine and_congr_right fun _ => ?_
  omega

theorem TestWire.points_get (w : TestWire) {p : Nat} (hp : 0 < p) (i : Nat) : (w.points p)[i]? =
    if i < 480 ∧ w.centre - w.half + i * p ≤ w.centre + w.half then
      some { u := w.centre - w.half + i * p, v := w.v, intensity :=
        if ((w.centre - w.half + i * p - w.centre).natAbs : Int) ≤ roundDiv w.face 2 then 250 else 100 }
    else none := by
  simp only [← w.point_exists_iff hp i, TestWire.points, List.getElem?_map]
  split
  · rename_i hi
    rw [List.getElem?_range hi, Option.map_some]
  · rename_i hi
    rw [List.getElem?_eq_none (by rw [List.length_range]; exact not_lt.mp hi), Option.map_none]

/-- Settles O13. -/
theorem testProfileAndTestSource : Obligations.TestProfileAndTestSource := by
  refine ⟨fun s f rest hs hk hform => ?_, ?_, fun s f rest h hs hk => ⟨fun hbody => ?_, fun hbody => ?_⟩,
    fun w p i hp => ?_, fun a b p => ?_, fun p => rfl⟩
  · exact act_take_refused hs (beq_iff_eq.mpr hk) rfl (setTestProfileWork_badLength _ hform)
  · intro s f rest ws hs hk hlt hfit hbody inRange half clear
    have hkind : ofKind 0x12 f = true := beq_iff_eq.mpr hk
    have hone : beBytes 1 ws.length = [BitVec.ofNat 8 ws.length] := rfl
    have hcount : (BitVec.ofNat 8 ws.length : Byte).toNat = ws.length := by
      rw [BitVec.toNat_ofNat]
      exact Nat.mod_eq_of_lt hlt
    have hwork := setTestProfileWork_of_wires (s.popped rest) (hbody.trans (congrArg (· ++ _) hone))
      ((bytes_flatMap_length ws).trans (by rw [hcount])) (wiresOf_bytes hfit) hcount
    have hrange : inRange ↔ ws.length ≤ 2 ∧ ∀ w ∈ ws, w.inRange = true := by
      simp only [inRange, TestWire.inRange_iff]
    have hclear : clear ↔ profileCombines ws = true := by
      rw [profileCombines_iff]
      simp only [clear, half, TestWire.low, TestWire.high, TestWire.half_eq]
      rfl
    refine ⟨fun hr hc => ?_, fun hr => ?_, fun hr hc => ?_⟩
    · rw [if_neg (not_not.mpr (hrange.mp hr)), if_neg (by simp [hclear.mp hc])] at hwork
      exact act_take_taken hs hkind rfl hwork
    · rw [if_pos fun h => hr (hrange.mpr h)] at hwork
      exact act_take_refused hs hkind rfl hwork
    · rw [if_neg (not_not.mpr (hrange.mp hr)),
        if_pos (Bool.eq_false_iff.mpr fun h => hc (hclear.mpr h))] at hwork
      exact act_take_refused hs hkind rfl hwork
  · exact act_take_taken hs (headControlRow_names hk hbody) rfl (headControlWork_names _ _ hbody)
  · exact act_take_taken hs (headControlRow_names hk hbody) rfl (headControlWork_names _ _ hbody)
  · intro half u
    have hget := w.points_get hp i
    rw [testPoints_one]
    rw [w.half_eq, roundDiv_two] at hget
    refine ⟨fun hu hi => ?_, fun hu => ?_⟩
    · rw [hget, if_pos ⟨hi, hu⟩]
      simp only [Int.ofNat_le]
      rfl
    · rw [hget, if_neg fun h => ?_]
      rcases hu with hu | hi
      · exact absurd h.2 (not_le.mpr hu)
      · exact absurd h.1 (by omega)
  · rw [testPoints_one, testPoints_one]
    simp only [testPoints, List.flatMap_cons, List.flatMap_nil, List.append_nil]

end Sys2Proof.Machine
end

section
/-! PROOFS. What the byte layouts spell and what the two receivers make of them (R1, R33, R56, R169, R187). -/

namespace Sys2Proof.Machine

/-! ## Numbers in bytes -/

theorem beNat_cons (b : Byte) (bytes : List Byte) : beNat (b :: bytes) = b.toNat * 256 ^ bytes.length + beNat bytes := by
  simpa [beNat] using beNat_append [b] bytes

theorem beNat_beBytes_mod (n v : Nat) : beNat (beBytes n v) = v % 256 ^ n := by
  induction n generalizing v with
  | zero => simp [beBytes, beNat, Nat.mod_one]
  | succ n ih =>
    rw [beBytes, beNat_append, ih, Nat.pow_succ', Nat.mod_mul]
    simp [beNat]
    omega

/-- R1: a signed field is two's complement. -/
theorem beNat_fieldS (n : Nat) (v : Int) (lo : -((256 ^ n / 2 : Nat) : Int) ≤ v)
    (hi : v < ((256 ^ n / 2 : Nat) : Int)) :
    (beNat (fieldS n v) : Int) = if v < 0 then v + (256 ^ n : Nat) else v := by
  have hpos : 0 < 256 ^ n := Nat.pow_pos (by omega)
  have hmod : (v % ((256 ^ n : Nat) : Int)).toNat % 256 ^ n = (v % ((256 ^ n : Nat) : Int)).toNat :=
    Nat.mod_eq_of_lt (by have := Int.emod_lt_of_pos v (b := ((256 ^ n : Nat) : Int)) (by omega); omega)
  have hnat : ((v % ((256 ^ n : Nat) : Int)).toNat : Int) = v % ((256 ^ n : Nat) : Int) :=
    Int.toNat_of_nonneg (Int.emod_nonneg _ (by omega))
  rw [fieldS, if_pos ⟨lo, hi⟩, beNat_beBytes_mod, hmod, hnat]
  split
  · rw [← Int.add_emod_right, Int.emod_eq_of_lt (by omega) (by omega)]
  · exact Int.emod_eq_of_lt (by omega) (by omega)

theorem signedOf_fieldS (n : Nat) (v : Int) (hn : 0 < n) (lo : -((256 ^ n / 2 : Nat) : Int) ≤ v)
    (hi : v < ((256 ^ n / 2 : Nat) : Int)) : signedOf n (beNat (fieldS n v)) = v := by
  obtain ⟨m, rfl⟩ : ∃ m, n = m + 1 := ⟨n - 1, by omega⟩
  have heven : 256 ^ (m + 1) = 2 * (256 ^ (m + 1) / 2) := by rw [Nat.pow_succ]; omega
  have hval := beNat_fieldS (m + 1) v lo hi
  unfold signedOf
  generalize 256 ^ (m + 1) = k at *
  split at hval <;> split <;> omega

/-! ## The frame check, bit by bit -/

/-- R1: the register of the frame check shifts by one bit. -/
def crcShift (r : BitVec 16) (b : Bool) : BitVec 16 :=
  if (r.msb != b) then (r <<< 1) ^^^ 0x1021#16 else r <<< 1

theorem crcBit_xor (r w : Word16) : crcBit (r ^^^ w) = crcShift r w.msb ^^^ (w <<< 1) := by
  unfold crcBit crcShift
  rw [BitVec.msb_xor, BitVec.shiftLeft_xor_distrib]
  cases r.msb <;> cases w.msb <;> simp [BitVec.xor_assoc, BitVec.xor_comm (w <<< 1)]

theorem crcBit_iterate (n : Nat) (r w : Word16) :
    crcBit^[n] (r ^^^ w) = ((List.range n).map fun i => w.getMsbD i).foldl crcShift r ^^^ (w <<< n) := by
  induction n with
  | zero => simp
  | succ n ih =>
    have hbit : (w <<< n).msb = w.getMsbD n := by simp [BitVec.msb, BitVec.getMsbD_shiftLeft]
    rw [Function.iterate_succ_apply', ih, crcBit_xor, hbit, List.range_succ, List.map_append, List.foldl_append,
      ← BitVec.shiftLeft_add]
    rfl

theorem crcByte_eq (r : Word16) (b : Byte) :
    crcByte r b = ((List.range 8).map fun i => b.getMsbD i).foldl crcShift r := by
  have hout : (b.setWidth 16 <<< 8) <<< 8 = 0#16 := by
    rw [← BitVec.shiftLeft_add]; exact BitVec.shiftLeft_eq_zero (by omega)
  have hbits : ((List.range 8).map fun i => (b.setWidth 16 <<< 8).getMsbD i) =
      (List.range 8).map fun i => b.getMsbD i := by
    refine List.map_congr_left fun i hi => ?_
    have hi := List.mem_range.mp hi
    rw [BitVec.getMsbD_shiftLeft, BitVec.getMsbD_setWidth]
    simp
  calc crcByte r b = crcBit^[8] (r ^^^ (b.setWidth 16 <<< 8)) := rfl
    _ = _ := by rw [crcBit_iterate, hout, hbits, BitVec.xor_zero]

theorem frameCheck_eq (bytes : List Byte) :
    frameCheck bytes = (bytes.flatMap fun x => (List.range 8).map fun i => x.getMsbD i).foldl crcShift 0xFFFF#16 := by
  rw [frameCheck, List.foldl_flatMap]
  exact congrArg (fun f => bytes.foldl f 0xFFFF#16) (funext₂ crcByte_eq)

/-! ## Frames read back -/

theorem Point.bytes_length (p : Point) : p.bytes.length = 5 := by simp [Point.bytes]

theorem points_bytes_length (points : List Point) : (points.flatMap Point.bytes).length = 5 * points.length := by
  simp only [List.length_flatMap, Point.bytes_length, List.map_const', List.sum_replicate, smul_eq_mul]
  omega

/-- The fields of a point stand in its bytes (R56). -/
theorem pointsOf_bytes_append {p : Point} (hu : -32768 ≤ p.u ∧ p.u ≤ 32767) (hv : p.v < 65536) (hi : p.intensity < 256)
    (rest : List Byte) : pointsOf (p.bytes ++ rest) = p :: pointsOf rest := by
  obtain ⟨u1, u0, hub⟩ := List.length_eq_two.mp (fieldS_length 2 p.u)
  obtain ⟨v1, v0, hvb⟩ := List.length_eq_two.mp (fieldU_length 2 p.v)
  obtain ⟨i, hib⟩ := List.length_eq_one_iff.mp (fieldU_length 1 p.intensity)
  have hu' : signedOf 2 (beNat [u1, u0]) = p.u := by rw [← hub]; exact signedOf_fieldS_two p.u hu.1 hu.2
  have hv' : beNat [v1, v0] = p.v := by rw [← hvb]; exact beNat_fieldU 2 p.v (by omega)
  have hi' : i.toNat = p.intensity := by
    have := beNat_fieldU 1 p.intensity (by omega)
    rw [hib] at this
    simpa [beNat] using this
  simp only [Point.bytes, hub, hvb, hib, List.cons_append, List.nil_append, pointsOf, hu', hv', hi']

theorem pointsOf_bytes {points : List Point}
    (h : ∀ p ∈ points, (-32768 ≤ p.u ∧ p.u ≤ 32767) ∧ p.v < 65536 ∧ p.intensity < 256) :
    pointsOf (points.flatMap Point.bytes) = points := by
  induction points with
  | nil => rfl
  | cons p points ih =>
    obtain ⟨hu, hv, hi⟩ := h p List.mem_cons_self
    rw [List.flatMap_cons, pointsOf_bytes_append hu hv hi, ih fun q hq => h q (List.mem_cons_of_mem p hq)]

theorem headEventOf_profile {n : Nat} (status : Byte) {points : List Point} (hn : n < 65536)
    (hlen : points.length ≤ 480)
    (h : ∀ p ∈ points, (-32768 ≤ p.u ∧ p.u ≤ 32767) ∧ p.v < 65536 ∧ p.intensity < 256) :
    headEventOf (0x82 :: (fieldU 2 n ++ [status] ++ fieldU 2 points.length ++ points.flatMap Point.bytes)) =
      .profile n status points := by
  obtain ⟨n1, n0, hnb⟩ := List.length_eq_two.mp (fieldU_length 2 n)
  obtain ⟨c1, c0, hcb⟩ := List.length_eq_two.mp (fieldU_length 2 points.length)
  have hn' : beNat [n1, n0] = n := by rw [← hnb]; exact beNat_fieldU 2 n (by omega)
  have hc' : beNat [c1, c0] = points.length := by rw [← hcb]; exact beNat_fieldU 2 points.length (by omega)
  have hmatch : headEventOf (0x82 :: n1 :: n0 :: status :: c1 :: c0 :: points.flatMap Point.bytes) =
      if (points.flatMap Point.bytes).length = 5 * beNat [c1, c0] then
        .profile (beNat [n1, n0]) status (pointsOf (points.flatMap Point.bytes)) else .unusable := rfl
  simp only [hnb, hcb, List.cons_append, List.nil_append]
  rw [hmatch, points_bytes_length, hc', if_pos rfl, hn', pointsOf_bytes h]

theorem hostReceive_bytes (f : HostFrame) (hb : f.body.length ≤ 506) : hostReceive [] f.bytes = ([some f], []) := by
  have hfound := hunt_frame (limit := Config.hostBodyLimit) [f.kind, f.tag] f.body rfl hb (by omega)
  simp only [hostReceive, List.nil_append, HostFrame.bytes, List.length_cons, List.length_nil] at *
  rw [hfound]
  rfl

theorem headReceive_headFrameBytes (kind : Byte) {body : List Byte} (hb : body.length ≤ Config.headBodyLimit) :
    headReceive [] (headFrameBytes kind body) = ([headEventOf (kind :: body)], []) := by
  have hlimit : Config.headBodyLimit < 65536 := by decide
  have hfound := hunt_frame [kind] body rfl hb (by omega)
  simp only [headReceive, List.nil_append, headFrameBytes, List.length_cons, List.length_nil] at *
  rw [hfound]
  rfl

theorem headReceive_profileBytes {n : Nat} (status : Byte) {points : List Point} (hn : n < 65536)
    (hlen : points.length ≤ 480)
    (h : ∀ p ∈ points, (-32768 ≤ p.u ∧ p.u ≤ 32767) ∧ p.v < 65536 ∧ p.intensity < 256) :
    headReceive [] (profileBytes n status points) = ([.profile n status points], []) := by
  have hlimit : Config.headBodyLimit = 2405 := by decide
  rw [profileBytes, headReceive_headFrameBytes, headEventOf_profile status hn hlen h]
  simp only [List.length_append, fieldU_length, List.length_singleton, points_bytes_length, hlimit]
  omega

/-- The low two bytes of a number are those of its remainder. -/
theorem beBytes_two_mod (n : Nat) : beBytes 2 (n % 65536) = beBytes 2 n := by
  have hhigh : n % 65536 / 256 % 256 = n / 256 % 256 := by omega
  have hlow : n % 65536 % 256 = n % 256 := by omega
  rw [beBytes_two, beBytes_two]
  simp only [List.cons.injEq, and_true]
  exact ⟨BitVec.eq_of_toNat_eq hhigh, BitVec.eq_of_toNat_eq hlow⟩

/-- Settles O6. -/
theorem receiversReadWhatSendersWrite : Obligations.ReceiversReadWhatSendersWrite := by
  refine ⟨⟨fun f => rfl, fun kind body => rfl,
    ⟨rfl, fun n => by rw [beBytes_two_mod]; rfl, fun status => rfl, fun n status points => rfl⟩,
    fun n v => ⟨beBytes_length n v, beNat_beBytes_mod n v⟩, beNat_cons, fieldU_of_fits,
    fun n v hn lo hi => ⟨fieldS_length n v, signedOf_fieldS n v hn lo hi, beNat_fieldS n v lo hi⟩,
    fun bytes => ⟨frameCheck_eq bytes, rfl⟩⟩,
    fun held a b => ⟨hostReceive_eq held a b, headReceive_eq held a b⟩, hostReceive_bytes, fun status => ?_,
    fun n status points hn hlen h => headReceive_profileBytes status hn hlen h⟩
  exact headReceive_headFrameBytes 0x81 (body := [status]) (by rw [List.length_singleton]; decide)

/-! ## What the host line makes of arriving bytes -/

/-- R169: two runs of bytes that a hunting receiver finds the same in, one of them behind a bad frame. -/
theorem Hli.bytes_of_receive {l : Hli} {a b : List Byte} (hrx : l.rx = [])
    (h : hostReceive [] a = (none :: (hostReceive [] b).1, (hostReceive [] b).2)) :
    l.bytes a = { l with badFrames := countUp l.badFrames }.bytes b := by
  simp only [Hli.bytes, hrx, h, List.foldl_cons, Hli.received]

/-- R169: a start byte that starts no good frame is passed as a bad one. -/
theorem hostReceive_of_hunt {b : Byte} {rest : List Byte}
    (h : hunt Config.hostBodyLimit 2 (rest.length + 1) (b :: rest) =
      (none :: (hunt Config.hostBodyLimit 2 rest.length rest).1, (hunt Config.hostBodyLimit 2 rest.length rest).2)) :
    hostReceive [] (b :: rest) = (none :: (hostReceive [] rest).1, (hostReceive [] rest).2) := by
  simp only [hostReceive, List.nil_append, List.length_cons, h, List.map_cons]

/-- R169: a whole frame whose check fails is bad, and the hunt goes on behind its start byte. -/
theorem hunt_wrong_check {limit : Nat} {lead body : List Byte} {c1 c0 : Byte} (hb : body.length ≤ limit)
    (hs : body.length < 65536) (hc : checkBytes (beBytes 2 body.length ++ lead ++ body) ≠ [c1, c0]) (n : Nat) :
    hunt limit lead.length (n + 1) (0xA5 :: (beBytes 2 body.length ++ lead ++ body ++ [c1, c0])) =
      (none :: (hunt limit lead.length n (beBytes 2 body.length ++ lead ++ body ++ [c1, c0])).1,
        (hunt limit lead.length n (beBytes 2 body.length ++ lead ++ body ++ [c1, c0])).2) := by
  have hlen : beNat (beBytes 2 body.length) = body.length := beNat_beBytes 2 _ (by omega)
  obtain ⟨hi, lo, hlb⟩ := List.length_eq_two.mp (beBytes_length 2 body.length)
  have hcovered : ((lead ++ body) ++ [c1, c0]).take (lead.length + body.length) = lead ++ body :=
    List.take_left' List.length_append
  have hcheck : ((lead ++ body) ++ [c1, c0]).drop (lead.length + body.length) = [c1, c0] :=
    List.drop_left' List.length_append
  simp only [hlb, List.append_assoc, List.cons_append, List.nil_append] at hc hlen hcovered hcheck ⊢
  exact hunt_bad n hi lo _ (by omega) (by simp; omega) (by rwa [hlen, hcovered, hcheck])

/-- Settles O5. -/
theorem hostFrameReceived : Obligations.HostFrameReceived := by
  have hbad : ∀ {s : State} {a b : List Byte}, s.pin = false → s.hli.rx = [] →
      hostReceive [] a = (none :: (hostReceive [] b).1, (hostReceive [] b).2) →
      exec (.hostFrame a) s =
        exec (.hostFrame b) { s with hli := { s.hli with badFrames := countUp s.hli.badFrames } } := by
    intro s a b hp hrx h
    rw [exec_hostFrame, exec_hostFrame, act_free _ hp, act_free _ (by exact hp), Hli.bytes_of_receive hrx h]
  refine ⟨fun s f hp hrx hb => ?_, fun s lead body c1 c0 hp hrx hl hb hc => ?_, fun s hi lo more hp hrx hlong => ?_,
    fun s b more hp hrx hne => ?_⟩
  · rw [exec_hostFrame, act_free _ hp]
    simp only [Hli.bytes, hrx, hostReceive_bytes f hb, List.foldl_cons, List.foldl_nil, Hli.received]
  · refine hbad hp hrx (hostReceive_of_hunt ?_)
    have hbytes := hunt_wrong_check (limit := Config.hostBodyLimit) hb (by omega) hc
    rw [hl] at hbytes
    exact hbytes _
  · exact hbad hp hrx (hostReceive_of_hunt (hunt_long _ hi lo more hlong))
  · have hsame : hostReceive [] (b :: more) = hostReceive [] more := by
      simp only [hostReceive, List.nil_append, List.length_cons, hunt_skip _ more hne]
    rw [exec_hostFrame, exec_hostFrame, act_free _ hp, act_free _ hp]
    simp only [Hli.bytes, hrx, hsame]

end Sys2Proof.Machine
end

section
/-! PROOFS. What commands, frames and expiries make of a head, its answers and its banks (R33 to R40, R44 to R51, R54). -/

namespace Sys2Proof.Machine

/-! ## A head that changes -/

@[simp] theorem State.setHead_head (s : State) (h : HeadNo) : s.setHead h (s.head h) = s := by
  simp [State.setHead, State.head]

@[simp] theorem State.setHead_setHead (s : State) (h : HeadNo) (x y : Head) :
    (s.setHead h x).setHead h y = s.setHead h y := by
  simp [State.setHead]

/-- R35 looks at the states of the heads alone. -/
theorem State.lastActive_congr {s t : State} (hm : t.mode = s.mode) (hs : ∀ j, (t.head j).state = (s.head j).state)
    (h : HeadNo) : t.lastActive h = s.lastActive h := by
  simp only [State.lastActive, hm, hs]

theorem State.lastActive_of_not_active {s : State} {h : HeadNo} (hst : (s.head h).state ≠ .active) :
    s.lastActive h = false := by
  simp [State.lastActive, hst]

/-- A head outside ACTIVE is no loss to the run (R35). -/
theorem State.moveHead_of_not_active {s : State} {h : HeadNo} (hst : (s.head h).state ≠ .active) (x : Head) :
    s.moveHead h x = { s.setHead h x with hli := s.hli.headMoved h x.state false } := by
  rw [State.moveHead_eq, State.lastActive_of_not_active hst, Bool.false_and]

/-! ## INIT and RESTORE (R36) -/

theorem State.startClearing_eq {s : State} {h : HeadNo} (hst : (s.head h).state ≠ .active) :
    s.startClearing h =
      { s.setHead h { s.head h with state := .clearing, clearing := some 2000000 } with
        hlc := { (s.setHead h { s.head h with state := .clearing, clearing := some 2000000 }).hlc with
          sent := s.hlc.sent ++ [(h, clearBytes)] }
        hli := s.hli.headMoved h .clearing false } := by
  exact State.moveHead_of_not_active (s := s.send h clearBytes) hst _

theorem headInitAction_starts {s : State} {h : HeadNo}
    (hst : (s.head h).state = .disabled ∨ ∃ r, (s.head h).state = .isolated r) :
    headInitAction h s = .taken (s.startClearing h) [] := by
  unfold headInitAction
  rcases hst with hst | ⟨r, hst⟩ <;> simp only [hst]

theorem headInitAction_refused {s : State} {h : HeadNo}
    (hst : (s.head h).state = .clearing ∨ (s.head h).state = .active) :
    headInitAction h s = .refused .invalidCombination := by
  unfold headInitAction
  rcases hst with hst | hst <;> simp only [hst]

theorem headRestoreAction_starts {s : State} {h : HeadNo} (hst : ∃ r, (s.head h).state = .isolated r) :
    headRestoreAction h s = .taken (s.startClearing h) [] := by
  unfold headRestoreAction
  obtain ⟨r, hst⟩ := hst
  simp only [hst]

theorem headRestoreAction_refused {s : State} {h : HeadNo} (hst : ∀ r, (s.head h).state ≠ .isolated r) :
    headRestoreAction h s = .refused .invalidCombination := by
  unfold headRestoreAction
  split
  · next r hr => exact absurd hr (hst r)
  · rfl

/-- R170: a head or an action of no meaning. -/
theorem headControlWork_badValue {f : HostFrame} {h a code : Byte} (action : HeadNo → State → Verdict) (s : State)
    (hb : f.body = [h, a]) (hcode : code.toNat < 6) (hbad : 4 ≤ h.toNat ∨ 6 ≤ a.toNat) :
    headControlWork code action f s = .refused .badValue := by
  simp only [headControlWork, hb]
  cases hh : headOf h.toNat with
  | none => rfl
  | some hd =>
    have hlt := headOf_lt hh
    have hne : a ≠ code := fun e => by subst e; omega
    simp only [if_neg hne]

theorem headControlRow_takes {f : HostFrame} {h a code : Byte} (hk : f.kind = 0x11) (hb : f.body = [h, a])
    (ha : a = code ∨ 6 ≤ a.toNat) : headControlRow code f = true := by
  have hlarge : (a == code || decide (5 < a.toNat)) = true := by
    rw [Bool.or_eq_true, beq_iff_eq, decide_eq_true_iff]
    exact ha
  simpa [headControlRow, hk, hb] using hlarge

/-- Settles O21. -/
theorem headInitAndRestore : Obligations.HeadInitAndRestore := by
  refine ⟨fun s f rest h hs hk => ?_, fun s f rest h a hs hk hb hbad row hrow ha => ?_, by decide, by decide⟩
  · refine ⟨fun hb => ⟨fun hst => ?_, fun hst => ?_⟩, fun hb => ⟨fun hst => ?_, fun hst => ?_⟩⟩
    · have hinactive : ((s.popped rest).head h).state ≠ .active := by
        rcases hst with hst | ⟨r, hst⟩ <;> simp [hst]
      exact act_take_taken hs (headControlRow_names hk hb) rfl ((headControlWork_names _ _ hb).trans
        ((headInitAction_starts (s := s.popped rest) hst).trans
          (congrArg (Verdict.taken · []) (State.startClearing_eq hinactive))))
    · exact act_take_refused hs (headControlRow_names hk hb) rfl
        ((headControlWork_names _ _ hb).trans (headInitAction_refused (s := s.popped rest) hst))
    · have hinactive : ((s.popped rest).head h).state ≠ .active := by
        obtain ⟨r, hst⟩ := hst
        simp [hst]
      exact act_take_taken hs (headControlRow_names hk hb) rfl ((headControlWork_names _ _ hb).trans
        ((headRestoreAction_starts (s := s.popped rest) hst).trans
          (congrArg (Verdict.taken · []) (State.startClearing_eq hinactive))))
    · exact act_take_refused hs (headControlRow_names hk hb) rfl
        ((headControlWork_names _ _ hb).trans (headRestoreAction_refused (s := s.popped rest) hst))
  · simp only [List.mem_cons, List.not_mem_nil, or_false] at hrow
    rcases hrow with rfl | rfl | rfl | rfl | rfl | rfl <;>
      exact act_take_refused hs (headControlRow_takes hk hb ha) rfl
        (headControlWork_badValue _ _ hb (by decide) hbad)

/-! ## READY and the clearing timer (R37, R40) -/

/-- R33: a hunting receiver that finds one frame in the bytes hands it to the head. -/
theorem State.headBytes_of_receive {s : State} {h : HeadNo} {bytes : List Byte} {e : HeadEvent}
    (hrx : (s.head h).rx = []) (he : headReceive [] bytes = ([e], [])) : s.headBytes h bytes = s.headEvent h e := by
  simp only [State.headBytes, hrx, he, List.foldl_cons, List.foldl_nil]
  rw [← hrx]
  exact congrArg (State.headEvent · h e) (s.setHead_head h)

theorem headReceive_readyBytes (status : Byte) : headReceive [] (readyBytes status) = ([.ready status], []) :=
  headReceive_headFrameBytes 0x81 (body := [status]) (by rw [List.length_singleton]; decide)

theorem exec_ready_whole {s : State} {h : HeadNo} (status : Byte) (hp : s.pin = false) (hrx : (s.head h).rx = []) :
    exec (.ready h (readyBytes status)) s = .next (s.takeReady h status).kick := by
  rw [exec_ready, act_free _ hp, State.headBytes_of_receive hrx (headReceive_readyBytes status)]
  rfl

theorem exec_clearingTimerExpiry {s : State} (h : HeadNo) (hp : s.pin = false) :
    exec (.clearingTimerExpiry h) s = .next (s.clearingExpires h).kick := act_free _ hp

/-- Settles O23. -/
theorem readyOrTimerEndsClearing : Obligations.ReadyOrTimerEndsClearing := by
  intro s h status hp hrx
  have hinactive : (s.head h).state = .clearing → (s.head h).state ≠ .active := fun hst => by simp [hst]
  rw [exec_ready_whole status hp hrx, exec_clearingTimerExpiry h hp]
  refine ⟨fun hst hfault => ?_, fun hst hfault => ?_, fun hst => ?_, fun hst => ⟨?_, ?_⟩⟩
  · rw [State.takeReady, if_pos hst, statusFault, hfault, if_neg Bool.false_ne_true,
      State.moveHead_of_not_active (hinactive hst)]
    rfl
  · rw [State.takeReady, if_pos hst, statusFault, hfault, if_pos rfl, State.moveHead_of_not_active (hinactive hst)]
  · rw [State.clearingExpires, if_pos hst, State.moveHead_of_not_active (hinactive hst)]
  · rw [State.takeReady, if_neg hst]
  · rw [State.clearingExpires, if_neg hst]

/-! ## A miss (R50) -/

/-- Only the owners of the bank pairs matter to what banksOwned says of them. -/
theorem State.banksOwned.of_owners {s : State} (hs : s.banksOwned) {c : Hlc} (hc : c.scans = s.hlc.scans)
    (ho : ∀ k : Fin 2, (c.pairs[k]).owner = (s.hlc.pairs[k]).owner) : ({ s with hlc := c } : State).banksOwned := by
  obtain ⟨apart, used, unused, rest⟩ := hs
  unfold State.banksOwned
  simp only [hc, ho]
  exact ⟨apart, used, unused, rest⟩

/-- R50: the head, and the line, after a miss. -/
theorem State.missAnswer_eq {s : State} {h : HeadNo} {r : ScanRecord} (reason : Reason) (hr : s.openScan h = some r) :
    let limit := (s.head h).missLimit ≤ (s.head h).misses + 1
    s.missAnswer h reason = { (s.closeAnswer h (.absent reason)).setHead h { s.head h with
        misses := (s.head h).misses + 1
        missed := countUp (s.head h).missed
        state := if limit then .isolated reason else (s.head h).state } with
      hli := if limit then s.hli.headMoved h (.isolated reason) (s.lastActive h) else s.hli } := by
  intro limit
  have hmiss : s.missAnswer h reason = (s.closeAnswer h (.absent reason)).miss h reason := by
    rw [State.missAnswer, hr]; rfl
  rw [hmiss, State.miss, State.head_closeAnswer]
  dsimp only
  by_cases hlimit : limit
  · rw [if_pos hlimit, if_pos hlimit, if_pos hlimit, State.moveHead_eq,
      show ((HeadState.isolated reason != .active) = true) from rfl, Bool.and_true]
    rfl
  · rw [if_neg hlimit, if_neg hlimit, if_neg hlimit]
    rfl

/-- The open answer of an ACTIVE head closes as a miss; before it the head's frame errors may have risen. -/
theorem State.missAnswer_missed {s : State} {h : HeadNo} {r : ScanRecord} (reason : Reason) (errors : Nat)
    (hst : (s.head h).state = .active) (hr : s.openScan h = some r) :
    s.missed ((s.setHead h { s.head h with frameErrors := errors }).missAnswer h reason).kick h r reason errors := by
  let counted := s.setHead h { s.head h with frameErrors := errors }
  have hopen : counted.openScan h = some r := hr
  have hhead : counted.head h = { s.head h with frameErrors := errors } := State.head_setHead_same _ _ _
  have hothers : ∀ j, j ≠ h → counted.head j = s.head j := fun j hj => State.head_setHead_ne _ _ hj
  have hstate : ∀ j, (counted.head j).state = (s.head j).state := fun j => by
    by_cases hj : j = h
    · subst hj; rw [hhead]
    · rw [hothers j hj]
  have hlast : counted.lastActive h = s.lastActive h := State.lastActive_congr (s := s) (t := counted) rfl hstate h
  have hmiss := State.missAnswer_eq reason hopen
  rw [hlast, hhead] at hmiss
  change s.missed (counted.missAnswer h reason).kick h r reason errors
  rw [hmiss]
  refine ⟨?_, fun j hj => (State.head_setHead_ne _ _ hj).trans (hothers j hj), State.closeAnswer_answerIs _ hopen,
    (HeadStep.closeAnswer counted h (.absent reason)).behind, counted.closeAnswer_sameBanks h _,
    fun hs => State.closeAnswer_answerTakes (s := counted) _ (hs.of_owners rfl fun _ => rfl) hopen,
    fun hlimit => congrArg Hli.kick (if_pos hlimit), fun hlimit => congrArg Hli.kick (if_neg hlimit)⟩
  rw [← hst]
  exact State.head_setHead_same _ _ _

theorem State.missAnswer_of_none {s : State} {h : HeadNo} (hno : s.openScan h = none) (reason : Reason) :
    s.missAnswer h reason = s := by
  simp [State.missAnswer, hno]

/-! ## What costs a head its answer (R33, R34, R46 to R48) -/

/-- R46 and R47: a frame that is no use to an ACTIVE or CLEARING head is counted, and is a miss when an ACTIVE head's
answer is open; a head in another state does not see it. -/
def State.uselessFrame (s : State) (h : HeadNo) (reason : Reason) : State :=
  match (s.head h).state with
  | .clearing => s.frameError h
  | .active => (s.frameError h).missAnswer h reason
  | _ => s

/-- The three ways to miss, of MissClosesAnswer: what the row does to the state. -/
def State.missedBy (s : State) (h : HeadNo) (reason : Reason) (counted : Bool) : State :=
  if counted then s.uselessFrame h reason else s.missAnswer h reason

section MissedBy

variable {s : State} {h : HeadNo} {reason : Reason} {counted : Bool}

theorem State.missedBy_open {r : ScanRecord} (hst : (s.head h).state = .active) (hr : s.openScan h = some r) :
    s.missed (s.missedBy h reason counted).kick h r reason
      (if counted then countUp (s.head h).frameErrors else (s.head h).frameErrors) := by
  cases counted with
  | true =>
    rw [State.missedBy, if_pos rfl, if_pos rfl, State.uselessFrame, hst]
    exact State.missAnswer_missed reason _ hst hr
  | false =>
    have hmissed := State.missAnswer_missed reason (s.head h).frameErrors hst hr
    rwa [show ({ s.head h with frameErrors := (s.head h).frameErrors } : Head) = s.head h from rfl,
      State.setHead_head] at hmissed

theorem State.missedBy_none (hno : (s.head h).state = .active ∧ s.openScan h = none ∨
      (s.head h).state = .clearing ∧ counted = true) :
    s.missedBy h reason counted = s.setHead h { s.head h with
      frameErrors := if counted then countUp (s.head h).frameErrors else (s.head h).frameErrors } := by
  cases counted with
  | true =>
    rw [State.missedBy, if_pos rfl, if_pos rfl, State.uselessFrame]
    rcases hno with ⟨hst, hr⟩ | ⟨hst, -⟩
    · rw [hst]
      exact State.missAnswer_of_none (s := s.frameError h) hr reason
    · rw [hst]
      rfl
  | false =>
    rcases hno with ⟨-, hr⟩ | ⟨-, hfalse⟩
    · exact (State.missAnswer_of_none hr reason).trans (s.setHead_head h).symm
    · cases hfalse

theorem State.uselessFrame_discarded (hst : (s.head h).state = .disabled ∨ ∃ r, (s.head h).state = .isolated r) :
    s.uselessFrame h reason = s := by
  rcases hst with hst | ⟨r, hst⟩ <;> rw [State.uselessFrame, hst]

end MissedBy

/-- Settles O25. -/
theorem missClosesAnswer : Obligations.MissClosesAnswer := by
  intro s h bytes reason c counted hp hrx hc errors
  have hrun : exec c s = .next (s.missedBy h reason counted).kick := by
    rcases hc with ⟨rfl, he, rfl, rfl⟩ | ⟨rfl, he, rfl, rfl⟩ | ⟨rfl, rfl, rfl⟩
    · rw [exec_headBadFrame, act_free _ hp, State.headBytes_of_receive hrx he]
      rfl
    · rw [exec_headUnusableFrame, act_free _ hp, State.headBytes_of_receive hrx he]
      rfl
    · exact act_free _ hp
  rw [hrun]
  refine ⟨fun r hst hr => ⟨_, rfl, State.missedBy_open hst hr⟩, fun hno => ?_, fun hcounted hst => ?_⟩
  · rw [State.missedBy_none hno]
  · rw [State.missedBy, if_pos hcounted, State.uselessFrame_discarded hst]

/-! ## PROFILE (R40, R45, R46, R49, R54) -/

theorem Answer.isOpen_iff (a : Answer) : a.isOpen = true ↔ ∃ n, a = .open n := by
  cases a <;> simp [Answer.isOpen]

/-- R44: the record that is found is the first with an open answer of the head. -/
theorem State.openScan_eq_some_iff (s : State) (h : HeadNo) (r : ScanRecord) :
    s.openScan h = some r ↔ ∃ a b, s.hlc.scans = a ++ r :: b ∧ (∃ n, r.answers[h] = .open n) ∧
      ∀ x ∈ a, ¬ ∃ n, x.answers[h] = .open n := by
  rw [State.openScan, List.find?_eq_some_iff_append]
  simp only [← Answer.isOpen_iff, Bool.not_eq_true, Bool.not_eq_true']
  exact ⟨fun ⟨hr, a, b, hl, ha⟩ => ⟨a, b, hl, hr, ha⟩, fun ⟨a, b, hl, hr, ha⟩ => ⟨hr, a, b, hl, ha⟩⟩

theorem State.openScan_eq_none_iff (s : State) (h : HeadNo) :
    s.openScan h = none ↔ ∀ r ∈ s.hlc.scans, ¬ ∃ n, r.answers[h] = .open n := by
  rw [State.openScan, List.find?_eq_none]
  simp only [← Answer.isOpen_iff]

theorem increasing_iff (ps : List Point) : increasing ps = true ↔ ps.Pairwise fun a b => a.u < b.u := by
  induction ps with
  | nil => simp [increasing]
  | cons a ps ih =>
    cases ps with
    | nil => simp [increasing]
    | cons b ps =>
      rw [increasing, Bool.and_eq_true, decide_eq_true_iff, ih, List.pairwise_cons (a := a)]
      refine ⟨fun ⟨hab, hrest⟩ => ⟨fun c hc => ?_, hrest⟩, fun ⟨ha, hrest⟩ => ⟨ha b List.mem_cons_self, hrest⟩⟩
      rcases List.mem_cons.mp hc with rfl | hc
      · exact hab
      · exact hab.trans ((List.pairwise_cons.mp hrest).1 c hc)

theorem wellFormedPoints_iff (ps : List Point) : wellFormedPoints ps = true ↔
    ps.Pairwise (fun a b => a.u < b.u) ∧ ∀ p ∈ ps, (-6000 ≤ p.u ∧ p.u ≤ 6000) ∧ p.v ≤ 20000 := by
  simp [wellFormedPoints, increasing_iff, within]

section TakeProfile

variable {s : State} {h : HeadNo} {n : Nat} {status : Byte} {points : List Point}

theorem exec_profile_whole (hp : s.pin = false) (hrx : (s.head h).rx = []) (hn : n < 65536)
    (hlen : points.length ≤ 480)
    (hpoints : ∀ p ∈ points, (-32768 ≤ p.u ∧ p.u ≤ 32767) ∧ p.v < 65536 ∧ p.intensity < 256) :
    exec (.profile h (profileBytes n status points)) s = .next (s.takeProfile h n status points).kick := by
  rw [exec_profile, act_free _ hp, State.headBytes_of_receive hrx (headReceive_profileBytes status hn hlen hpoints)]
  rfl

theorem State.takeProfile_of_open {r : ScanRecord} (hst : (s.head h).state = .active) (hr : s.openScan h = some r)
    (hn : n = r.header.scan % 65536) : s.takeProfile h n status points =
      if statusFault status then
        (s.closeAnswer h (.absent .headFault)).moveHead h { s.head h with state := .isolated .headFault }
      else if !wellFormedPoints points then (s.frameError h).missAnswer h .malformed
      else s.presentAnswer h r.header.scan status points := by
  unfold State.takeProfile
  simp only [hst, hr, hn, ne_eq, not_true_eq_false, if_false]

theorem State.takeProfile_late (hst : (s.head h).state = .clearing ∨ (s.head h).state = .active ∧
      ∀ r, s.openScan h = some r → n ≠ r.header.scan % 65536) :
    s.takeProfile h n status points = s.setHead h { s.head h with late := countUp (s.head h).late } := by
  unfold State.takeProfile
  rcases hst with hst | ⟨hst, hlate⟩
  · simp only [hst]
  · simp only [hst]
    cases hr : s.openScan h with
    | none => rfl
    | some r => simp only [if_pos (hlate r hr)]

theorem State.takeProfile_discarded (hst : (s.head h).state = .disabled ∨ ∃ r, (s.head h).state = .isolated r) :
    s.takeProfile h n status points = s := by
  unfold State.takeProfile
  rcases hst with hst | ⟨r, hst⟩ <;> simp only [hst]

end TakeProfile

theorem vector_set_get {α : Type} {m : Nat} (v : Vector α m) (j k : Fin m) (a : α) :
    (v.set j a)[k] = if k = j then a else v[k] := by
  simp only [Fin.getElem_fin, Vector.getElem_set, Fin.ext_iff, eq_comm]

/-- R45 and R54: what a present answer leaves. -/
theorem State.presentAnswer_leaves {s : State} {h : HeadNo} {r : ScanRecord} (hr : s.openScan h = some r)
    (status : Byte) (points : List Point) :
    let window := (s.head h).window || statusWindow status
    let written := if (s.head h).testSource then testPoints s.hlc.profile (s.pxu.calibration[h]).pitch else points
    let t := s.presentAnswer h r.header.scan status points
    t.head h = { s.head h with misses := 0, window } ∧ (∀ j, j ≠ h → t.head j = s.head j) ∧
    t.answerIs r.header.scan h (.present window) ∧ (s.banksOwned → s.answerTakes t r h (.present window)) ∧
    (t.hlc.pairs[parity r.header.scan]).banks[h] = { status, points := written } ∧
    (∀ (k : Fin 2) (j : HeadNo), k ≠ parity r.header.scan ∨ j ≠ h →
      (t.hlc.pairs[k]).banks[j] = (s.hlc.pairs[k]).banks[j]) ∧
    t.hlc.profile = s.hlc.profile ∧ t.hlc.sent = s.hlc.sent ∧ s.sameBehindHeads t ∧ t.hli = s.hli := by
  intro window written
  let pair := s.hlc.pairs[parity r.header.scan]
  let pairs := s.hlc.pairs.set (parity r.header.scan)
    { pair with banks := pair.banks.set h { status, points := written } }
  let noted := s.setHead h { s.head h with misses := 0, window := window }
  let u : State := { noted with hlc := { noted.hlc with pairs := pairs } }
  have hpairs : ∀ k : Fin 2, pairs[k] =
      if k = parity r.header.scan then { pair with banks := pair.banks.set h { status, points := written } }
      else s.hlc.pairs[k] := fun k => vector_set_get _ _ k _
  have howner : ∀ k : Fin 2, (pairs[k]).owner = (s.hlc.pairs[k]).owner := fun k => by
    rw [hpairs]
    split
    · next hk => rw [hk]
    · rfl
  have hopen : u.openScan h = some r := hr
  have hbanks : ∀ k : Fin 2, ((u.closeAnswer h (.present window)).hlc.pairs[k]).banks = (pairs[k]).banks :=
    fun k => Hlc.complete_banks _ k
  have htakes : s.banksOwned → s.answerTakes (u.closeAnswer h (.present window)) r h (.present window) := by
    intro hs
    obtain ⟨hscans, hused, hunused⟩ := State.closeAnswer_answerTakes (s := u) (.present window)
      (hs.of_owners (c := u.hlc) rfl howner) hopen
    exact ⟨hscans, hused, fun k hk => (hunused k hk).trans (howner k)⟩
  intro t
  refine ⟨State.head_setHead_same _ _ _, fun j hj => State.head_setHead_ne _ _ hj, State.closeAnswer_answerIs _ hopen,
    htakes, (congrArg (·[h]) (hbanks _)).trans ?_, fun k j hkj => (congrArg (·[j]) (hbanks k)).trans ?_, rfl, rfl,
    (HeadStep.closeAnswer u h (.present window)).behind, rfl⟩
  · rw [hpairs, if_pos rfl]
    exact (vector_set_get _ _ _ _).trans (if_pos rfl)
  · rw [hpairs]
    split
    · next hk =>
      rw [show (pair.banks.set h { status, points := written })[j] = _ from vector_set_get _ _ _ _,
        if_neg (hkj.resolve_left fun hne => hne hk), hk]
    · rfl

/-- Settles O24. -/
theorem profileClosesItsAnswer : Obligations.ProfileClosesItsAnswer := by
  refine ⟨fun s h => ⟨s.openScan_eq_some_iff h, s.openScan_eq_none_iff h⟩,
    fun s h r status points hp hrx hst hr hlen hrise hrange hfault => ?_,
    fun s h n status points hp hrx hn hlen hpoints => ?_⟩
  · intro window written
    have hwell : wellFormedPoints points = true :=
      (wellFormedPoints_iff points).mpr ⟨hrise, fun p hp => ⟨(hrange p hp).1, (hrange p hp).2.1⟩⟩
    have hrun := exec_profile_whole (s := s) (status := status) hp hrx
      (Nat.mod_lt r.header.scan (by omega : 0 < 65536)) hlen fun p hp => by
        obtain ⟨⟨hlo, hhi⟩, hv, hi⟩ := hrange p hp
        exact ⟨⟨by omega, by omega⟩, by omega, hi⟩
    rw [State.takeProfile_of_open hst hr rfl, statusFault, hfault, if_neg Bool.false_ne_true, hwell,
      if_neg (by decide)] at hrun
    obtain ⟨hhead, hothers, his, htakes, hbank, hbanks, hprofile, hsent, hbehind, hline⟩ :=
      State.presentAnswer_leaves hr status points
    exact ⟨_, hrun, hhead, hothers, his, htakes, hbank, hbanks, hprofile, hsent, hbehind, congrArg Hli.kick hline⟩
  · intro run late
    have hrun : run = .next (s.takeProfile h n status points).kick := exec_profile_whole hp hrx hn hlen hpoints
    rw [hrun]
    refine ⟨fun hst hfault r hr hnum => ⟨_, rfl, ?_⟩, fun hst hfault hbad r hr hnum => ⟨_, rfl, ?_⟩, fun hst => ?_,
      fun hst hlate => ?_, fun hst => ?_⟩
    · rw [State.takeProfile_of_open hst hr hnum, statusFault, hfault, if_pos rfl, State.moveHead_eq]
      refine ⟨State.head_setHead_same _ _ _, fun j hj => State.head_setHead_ne _ _ hj,
        State.closeAnswer_answerIs _ hr, fun hs => State.closeAnswer_answerTakes _ hs hr, s.closeAnswer_sameBanks h _,
        (HeadStep.closeAnswer s h (.absent .headFault)).behind, ?_⟩
      rw [show ((HeadState.isolated Reason.headFault != .active) = true) from rfl, Bool.and_true]
      rfl
    · have hill : wellFormedPoints points = false :=
        Bool.eq_false_iff.mpr fun hwell => hbad ((wellFormedPoints_iff points).mp hwell)
      rw [State.takeProfile_of_open hst hr hnum, statusFault, hfault, if_neg Bool.false_ne_true, hill, Bool.not_false, if_pos rfl]
      exact State.missAnswer_missed .malformed _ hst hr
    · rw [State.takeProfile_late (.inl hst)]
    · rw [State.takeProfile_late (.inr ⟨hst, hlate⟩)]
    · rw [State.takeProfile_discarded hst]

end Sys2Proof.Machine
end

section
/-! PROOFS. Rounding and the chainage, mast pulses and position fixes, the close tests of a span, the offering of a
valued set, and the data of GET_STATUS and GET_TRACKS. -/

namespace Sys2Proof.Machine

/-! ## Rounding (R1) and the chainage (R18) -/

/-- Two integers next to each other cannot both be the rounding of one quotient: a half goes to the one farther from
zero. -/
theorem Rounds.not_lt {n d q k : Int} (hd : 0 < d) (hq : Rounds n d q) (hk : Rounds n d k) : ¬ q < k := by
  intro hlt
  obtain ⟨hq1, hq2⟩ := hq
  obtain ⟨hk1, hk2⟩ := hk
  have hgap : q * d + d ≤ k * d := by nlinarith
  have hnext : k * d = q * d + d := by omega
  have hsign : q * d + d ≤ 0 ∨ 0 ≤ q * d := by
    rcases Int.lt_or_le q 0 with h | h
    · exact .inl (by nlinarith)
    · exact .inr (Int.mul_nonneg h hd.le)
  rw [hnext] at hk1 hk2
  have hq3 := hq2 (by omega)
  have hk3 := hk2 (by omega)
  omega

theorem Rounds.unique {n d q k : Int} (hd : 0 < d) (hq : Rounds n d q) (hk : Rounds n d k) : q = k := by
  have hle := hq.not_lt hd hk
  have hge := hk.not_lt hd hq
  omega

/-- Settles O29. -/
theorem roundingAndChainage : Obligations.RoundingAndChainage := by
  refine ⟨fun n d q hd => ⟨fun h => h.unique hd (roundDiv_rounds n hd), fun h => h ▸ roundDiv_rounds n hd⟩,
    fun t => rfl, fun t p hppm => ⟨_, roundDiv_rounds (p * 1000) (Int.ofNat_lt.mpr hppm), ?_⟩⟩
  have hbound : -Config.chainageBound ≤ Config.chainageBound := by decide
  rw [Tu.chainageOf, clamp_eq_max_min hbound]
  cases t.dir
  · simp only [Dir.sign, one_mul]
    rfl
  · simp only [Dir.sign, neg_one_mul, ← sub_eq_add_neg]
    rfl

/-! ## Mast pulses (R30) and POSITION_FIX (R28) -/

theorem Tu.mastPulse_recorded {t : Tu} (hp : t.high ≤ t.p) (hm : t.mast = none) :
    t.mastPulse = { t with mast := some t.chainage } := if_pos ⟨hp, hm⟩

theorem Tu.mastPulse_ignored {t : Tu} (h : t.p < t.high ∨ t.mast ≠ none) :
    t.mastPulse = { t with mastsIgnored := countUp t.mastsIgnored } := by
  refine if_neg fun ⟨hp, hm⟩ => ?_
  rcases h with h | h
  · omega
  · exact h hm

theorem exec_mastPulse {s : State} (hp : s.pin = false) : exec .mastPulse s =
    .next (if s.mode = .running then { s with tu := s.tu.mastPulse } else s : State).kick :=
  act_free (fun t => if t.mode = .running then { t with tu := t.tu.mastPulse } else t) hp

section PositionFix

variable {s : State} {f : HostFrame} {v : Nat}

theorem positionFixWork_eq (hv : v < 256 ^ 4) (hb : f.body = bodyOf [(4, v)]) : positionFixWork f s =
    if !chainageOk (signedOf 4 v) then .refused .badValue
    else if !chainageOk (s.tu.fixOffset (signedOf 4 v)) then .refused .invalidCombination
    else .taken { s with tu := { s.tu with pendingFix := some (s.tu.fixOffset (signedOf 4 v)) } } [] := by
  have hfits : fits [(4, v)] := by simpa [fits] using hv
  have hfields : splitFields [4] f.body = some [v] := hb ▸ splitFields_bodyOf [(4, v)] hfits
  rw [positionFixWork, hfields]

end PositionFix

/-- Settles O28. -/
theorem mastPulseAndPositionFix : Obligations.MastPulseAndPositionFix := by
  refine ⟨fun s hp => ?_, fun s f rest v hs hk hm hv hb => ?_⟩
  · rw [exec_mastPulse hp]
    refine ⟨fun hm hhigh hmast => ?_, fun hm h => ?_, fun hm => ?_⟩
    · rw [if_pos hm, Tu.mastPulse_recorded hhigh hmast]
    · rw [if_pos hm, Tu.mastPulse_ignored h]
    · rw [if_neg hm]
  · intro c offset inRange near
    have hc : chainageOk c = true ↔ inRange := chainageOk_iff c
    have hoffset : chainageOk offset = true ↔ near := chainageOk_iff offset
    have hmodes : inRunning s.mode = true := by rw [hm]; rfl
    have hrow : ofKind 0x23 f = true := by rw [ofKind, hk]; rfl
    have hwork := positionFixWork_eq (s := s.popped rest) hv hb
    refine ⟨fun hr => act_take_refused hs hrow hmodes (hwork.trans (if_pos ?_)),
      fun hr hn => act_take_refused hs hrow hmodes (hwork.trans ((if_neg ?_).trans (if_pos ?_))),
      fun hr hn => act_take_taken hs hrow hmodes (hwork.trans ((if_neg ?_).trans (if_neg ?_)))⟩
    · simpa using fun h => hr (hc.mp h)
    · simpa using hc.mpr hr
    · simpa [Tu.fixOffset, offset, c] using fun h => hn (hoffset.mp h)
    · simpa using hc.mpr hr
    · simpa [Tu.fixOffset, offset, c] using hoffset.mpr hn

/-! ## The close tests of a span (R139) -/

/-- Settles O42. -/
theorem spanCloseTests : Obligations.SpanCloseTests := by
  intro lo hi sp h id far
  unfold closeTest
  refine ⟨fun hfix => if_pos hfix, fun hfix hsec => ?_, fun hfix hsec => ?_⟩
  · rw [if_neg hfix, if_pos hsec]
  · rw [if_neg hfix, if_neg (not_not.mpr hsec)]
    refine ⟨fun m hm hfar => ?_, fun m hm hnear => ?_, fun hm => ?_⟩
    · simp only [hm, if_pos hfar]
    · simp only [hm, if_neg (Nat.not_le.mpr hnear)]
      exact ⟨fun hf => by rw [if_pos hf], fun hf => by rw [if_neg hf]⟩
    · simp only [hm]
      exact ⟨fun hf => by rw [if_pos hf], fun hf => by rw [if_neg hf]⟩

/-! ## SET_VALUING and SET_OFFER (R111, R112, R118, R183) -/

theorem State.takeSet_of_ready {s : State} {set : SampleSet} {rest : List SampleSet} (hv : s.wru.valuing = none)
    (ho : s.wru.offered = none) (hq : s.wtr.outbox = set :: rest) : s.takeSet =
      { s with wru := { s.wru with valuing := some set }, wtr := { s.wtr with outbox := rest } } := by
  unfold State.takeSet
  rw [hv, ho, hq]

theorem State.takeSet_of_not_ready {s : State}
    (h : s.wru.valuing ≠ none ∨ s.wru.offered ≠ none ∨ s.wtr.outbox = []) : s.takeSet = s := by
  unfold State.takeSet
  split
  · next hv ho hq => simp [hv, ho, hq] at h
  · rfl

theorem Wru.value_flags (u : Wru) {set : SampleSet} {m : Sample} {rest : List Sample} (h : set.samples = m :: rest) :
    (u.value set).flags = m.flags := by
  have hflags : ∀ table, (valueSample table m).flags = m.flags := fun table => by
    unfold valueSample
    split <;> rfl
  simp only [SampleSet.flags, Wru.value, h, List.map_cons, hflags]

theorem valueSample_of_none {table : Option WearTable} {m : Sample} (h : m.face = none ∨ table = none) :
    valueSample table m = { m with thickness := none, wear := none, belowTable := false, beyondTable := false } := by
  unfold valueSample
  split
  · next hface =>
    rcases h with h | h
    · rw [h] at hface; cases hface
    · cases h
  · rfl

theorem State.offerSet_of_valuing {s : State} {set : SampleSet} (hv : s.wru.valuing = some set) : s.offerSet =
    { s with wru := { s.wru with
        valuing := none
        offered := some { set := s.wru.value set, spanTaken := false, limitTaken := false } } }.offerAll
      (traceOf s.hli.decimation (s.wru.value set)) := by
  unfold State.offerSet
  rw [hv]

/-- Settles O40. -/
theorem setValuedAndOffered : Obligations.SetValuedAndOffered := by
  refine ⟨fun s set rest hp hv ho hq => ?_, fun s hp h => ?_, fun s hp hv => ?_, fun s set hp hv => ?_⟩
  · exact (act_free State.takeSet hp).trans (by rw [State.takeSet_of_ready hv ho hq])
  · exact (act_free State.takeSet hp).trans (by rw [State.takeSet_of_not_ready h])
  · exact (act_free State.offerSet hp).trans (by unfold State.offerSet; rw [hv])
  · intro valued record traced offered
    have hrun : exec .setOffer s = .next s.offerSet.kick := act_free State.offerSet hp
    have hempty : valued.samples = [] ↔ set.samples = [] := List.map_eq_nil_iff
    have hguard : (!valued.runEnd && decide (s.hli.decimation ≠ 0) &&
        valued.header.scan % s.hli.decimation == 0 && !valued.samples.isEmpty) = true ↔ traced := by
      simp only [Bool.and_eq_true, Bool.not_eq_true', decide_eq_true_iff, beq_iff_eq, List.isEmpty_eq_false_iff,
        ne_eq, hempty, and_assoc]
      rfl
    rw [hrun, State.offerSet_of_valuing hv]
    refine ⟨fun m rest hm => s.wru.value_flags hm, fun ht => ?_, fun ht => ?_, fun m _ hm => valueSample_of_none hm⟩
    · rw [show traceOf s.hli.decimation (s.wru.value set) = [.trace record] from if_pos (hguard.mpr ht)]
      rfl
    · rw [show traceOf s.hli.decimation (s.wru.value set) = [] from if_neg fun h => ht (hguard.mp h)]
      rfl

/-! ## Data laid out in pieces (R187) -/

/-- One of the pieces of equal length that stand, one after another, at the head of a list. -/
theorem take_drop_flatMap {α β : Type} {f : α → List β} {m : Nat} (hf : ∀ a, (f a).length = m) (l : List α) (behind : List β)
    {i : Nat} (hi : i < l.length) : ((l.flatMap f ++ behind).drop (m * i)).take m = f l[i] := by
  induction l generalizing i with
  | nil => simp at hi
  | cons a l ih =>
    rw [List.flatMap_cons, List.append_assoc]
    cases i with
    | zero => exact take_of_length _ (hf a)
    | succ i =>
      rw [Nat.mul_succ, Nat.add_comm, ← List.drop_drop, drop_of_length _ (hf a)]
      exact ih (by simpa using hi)

/-- A piece by the lengths of what stands before it and of itself. -/
theorem take_drop_append {α : Type} {before piece : List α} {n m : Nat} (hn : before.length = n) (hm : piece.length = m)
    (behind : List α) : ((before ++ (piece ++ behind)).drop n).take m = piece := by
  rw [drop_of_length _ hn, take_of_length _ hm]

theorem countP_slots8 (is : Fin 8 → Bool) : slots8.countP is = ((List.finRange 8).filter is).length :=
  List.countP_eq_length_filter

theorem Lev.lockedCount_eq (l : Lev) : l.lockedCount = ((List.finRange 16).filter fun k => (l.rules[k]).lock).length := by
  have hrules : l.rules.toList = (List.finRange 16).map fun k => l.rules[k] := by
    rw [← List.ofFn_eq_map]
    exact (congrArg Vector.toList (Vector.ofFn_getElem (xs := l.rules)).symm).trans Vector.toList_ofFn
  rw [Lev.lockedCount, hrules, List.countP_map, List.countP_eq_length_filter]
  rfl

/-! ## GET_STATUS data (R173) -/

namespace State

/-- Mode and time stamp. -/
def modeBytes (s : State) : List Byte := [s.mode.code] ++ beBytes 4 s.tu.stamp.toNat

/-- Chainage, p, h, scan number and reverse watch. -/
def travelBytes (s : State) : List Byte :=
  fieldS 4 s.tu.chainage ++ fieldS 6 s.tu.p ++ fieldS 6 s.tu.high ++ fieldU 4 s.tu.scan ++ [s.tu.watch.code]

def headsBytes (s : State) : List Byte := heads4.flatMap fun h => (s.head h).status

def channelsBytes (s : State) : List Byte := heads4.map fun k => (s.mcv.channels[k]).state.code

/-- From the section in force to the loss count. -/
def countsBytes (s : State) : List Byte :=
  fieldU 2 s.scu.inForce.id ++ [s.scu.dir.code] ++
  fieldU 1 s.scu.queue.length ++ fieldU 1 (slots8.countP fun k => (s.wtr.table[k]).isTentative) ++
  fieldU 1 (slots8.countP fun k => (s.wtr.table[k]).isConfirmed) ++
  fieldU 1 (slots8.countP fun k => (s.wtr.table[k]).isCoasting) ++ fieldU 1 s.lev.entries.length ++
  [boolByte s.lev.design, boolByte s.lev.bypass] ++ fieldU 1 s.lev.lockedCount ++ fieldU 1 s.hli.queue.length ++
  fieldU 1 (traceCount s.hli.queue) ++ fieldU 1 s.hli.inbound.length ++ fieldU 2 s.hli.loss

def countersBytes (s : State) : List Byte := s.runCounters.flatMap fun (n : Nat) => fieldU 2 n

def linkBytes (s : State) : List Byte := fieldU 2 s.hli.badFrames ++ fieldU 2 s.hli.inboundOverruns

variable (s : State)

theorem statusData_eq : s.statusData = s.modeBytes ++ (s.travelBytes ++ (s.headsBytes ++ (s.channelsBytes ++
    (s.countsBytes ++ (s.countersBytes ++ s.linkBytes))))) := by
  unfold statusData modeBytes travelBytes headsBytes channelsBytes countsBytes countersBytes linkBytes
  simp only [List.append_assoc]

@[simp] theorem modeBytes_length : s.modeBytes.length = 5 := by simp [modeBytes]
@[simp] theorem travelBytes_length : s.travelBytes.length = 21 := by simp [travelBytes]
@[simp] theorem headsBytes_length : s.headsBytes.length = 40 := by simp [headsBytes, heads4]
@[simp] theorem channelsBytes_length : s.channelsBytes.length = 4 := by simp [channelsBytes, heads4]
@[simp] theorem countsBytes_length : s.countsBytes.length = 16 := by simp [countsBytes]
@[simp] theorem countersBytes_length : s.countersBytes.length = 28 := s.runCounters_bytes_length
@[simp] theorem linkBytes_length : s.linkBytes.length = 4 := by simp [linkBytes]

theorem statusData_length : s.statusData.length = 118 := by simp [statusData_eq]

theorem statusData_mode : s.statusData.take 5 = s.modeBytes := by
  rw [statusData_eq, take_of_length _ s.modeBytes_length]

theorem statusData_behind_mode : s.statusData.drop 5 = s.travelBytes ++ (s.headsBytes ++ (s.channelsBytes ++
    (s.countsBytes ++ (s.countersBytes ++ s.linkBytes)))) := by
  rw [statusData_eq, drop_of_length _ s.modeBytes_length]

theorem statusData_behind_travel : s.statusData.drop 26 = s.headsBytes ++ (s.channelsBytes ++
    (s.countsBytes ++ (s.countersBytes ++ s.linkBytes))) := by
  rw [show 26 = 5 + 21 from rfl, ← List.drop_drop, statusData_behind_mode, drop_of_length _ s.travelBytes_length]

theorem statusData_behind_heads : s.statusData.drop 66 = s.channelsBytes ++
    (s.countsBytes ++ (s.countersBytes ++ s.linkBytes)) := by
  rw [show 66 = 26 + 40 from rfl, ← List.drop_drop, statusData_behind_travel, drop_of_length _ s.headsBytes_length]

theorem statusData_behind_channels : s.statusData.drop 70 = s.countsBytes ++ (s.countersBytes ++ s.linkBytes) := by
  rw [show 70 = 66 + 4 from rfl, ← List.drop_drop, statusData_behind_heads, drop_of_length _ s.channelsBytes_length]

theorem statusData_behind_counts : s.statusData.drop 86 = s.countersBytes ++ s.linkBytes := by
  rw [show 86 = 70 + 16 from rfl, ← List.drop_drop, statusData_behind_channels, drop_of_length _ s.countsBytes_length]

theorem statusData_behind_counters : s.statusData.drop 114 = s.linkBytes := by
  rw [show 114 = 86 + 28 from rfl, ← List.drop_drop, statusData_behind_counts, drop_of_length _ s.countersBytes_length]

theorem statusData_head (h : HeadNo) : (s.statusData.drop (26 + 10 * h.val)).take 10 = (s.head h).status := by
  have hget : ∀ h : HeadNo, heads4[h.val]'(h.isLt) = h := by decide
  rw [← List.drop_drop, statusData_behind_travel, headsBytes,
    take_drop_flatMap (fun j => (s.head j).status_length) heads4 _ h.isLt, hget]

theorem statusData_channel (k : Fin 4) : s.statusData[66 + k.val]? = some (s.mcv.channels[k]).state.code := by
  have hget : ∀ k : Fin 4, heads4[k.val]? = some k := by decide
  rw [← List.getElem?_drop, statusData_behind_heads,
    List.getElem?_append_left (s.channelsBytes_length.symm ▸ k.isLt), channelsBytes, List.getElem?_map, hget]
  rfl

end State

theorem ChannelState.code_eq (x : ChannelState) : x.code = match x with
    | .armed => 0
    | .failed => 1
    | .off => 2 := by cases x <;> rfl

/-! ## GET_TRACKS data (R107) -/

theorem Wtr.tracksData_slot (w : Wtr) (k : Fin 8) :
    (w.tracksData.drop (11 + 17 * k.val)).take 17 = (w.table[k]).bytes := by
  have hget : ∀ k : Fin 8, slots8[k.val]'(k.isLt) = k := by decide
  have hbefore : (fieldU 2 w.nextId ++ fieldU 4 w.lastScan ++ w.watch.bytes).length = 11 := by simp
  have hslots := take_drop_flatMap (fun j => (w.table[j]).bytes_length) slots8 [] (i := k.val) k.isLt
  rw [List.append_nil, hget] at hslots
  rw [← List.drop_drop, Wtr.tracksData, drop_of_length _ hbefore, hslots]

theorem Wtr.tracksData_counter (w : Wtr) : w.tracksData.take 2 = fieldU 2 w.nextId := by
  rw [Wtr.tracksData, List.append_assoc, List.append_assoc, take_of_length _ (fieldU_length 2 _)]

theorem Wtr.tracksData_length (w : Wtr) : w.tracksData.length = 139 + 8 := by
  simp [Wtr.tracksData, slots8]

theorem Wtr.tracksData_watch (w : Wtr) :
    (w.tracksData.drop 2).take 9 = fieldU 4 w.lastScan ++ w.watch.bytes := by
  rw [Wtr.tracksData, List.append_assoc, List.append_assoc, drop_of_length _ (fieldU_length 2 _), ← List.append_assoc,
    take_of_length _ (by simp)]

theorem CountWatch.bytes_eq (w : CountWatch) : w.bytes = match w with
    | .normal => [0] ++ fieldS 4 0
    | .pending onset => [1] ++ fieldS 4 onset
    | .reported => [2] ++ fieldS 4 0 := by
  cases w <;> rfl

theorem Head.status_eq (x : Head) : x.status = [x.state.code, x.state.reasonCode] ++ fieldU 1 x.misses ++
    [if x.testSource then 1 else 0] ++ fieldU 2 x.missed ++ fieldU 2 x.late ++ fieldU 2 x.frameErrors := rfl

theorem ReverseWatch.code_eq (w : ReverseWatch) : w.code = if w = .forward then 0 else 1 := by
  cases w <;> rfl

theorem Role.code_eq (r : Role) : r.code = if r = .running then 0 else 1 := by
  cases r <;> rfl

/-- Settles O11. -/
theorem statusAndTracksRead : Obligations.StatusAndTracksRead := by
  refine ⟨fun s f rest hs hb => ⟨fun hk => ?_, fun hk => ?_⟩, fun s => ?_, fun s => ?_, ?_⟩
  · exact act_take_taken hs (beq_iff_eq.mpr hk) rfl (if_pos hb)
  · exact act_take_taken hs (beq_iff_eq.mpr hk) rfl (if_pos hb)
  · refine ⟨s.statusData_length, s.statusData_mode, ?_, rfl, s.statusData_behind_counters, s.wtr.tracksData_length,
      s.wtr.tracksData_counter, s.wtr.tracksData_slot⟩
    rw [State.statusData_behind_counts, take_of_length _ s.countersBytes_length, State.countersBytes]
  · intro number
    refine ⟨?_, fun h => ?_, fun k => ?_, ?_, ?_, by decide, ?_⟩
    · rw [State.statusData_behind_mode, take_of_length _ s.travelBytes_length, State.travelBytes, ReverseWatch.code_eq]
    · rw [State.statusData_head, Head.status_eq]
    · exact (s.statusData_channel k).trans (congrArg some (ChannelState.code_eq _))
    · have hnumber : ∀ is : Slot → Bool, fieldU 1 (slots8.countP fun k => is s.wtr.table[k]) = number is := fun is => by
        rw [countP_slots8]
      rw [State.statusData_behind_channels, take_of_length _ s.countsBytes_length, State.countsBytes,
        Lev.lockedCount_eq, hnumber, hnumber, hnumber, traceCount, List.countP_eq_length_filter, boolByte, boolByte]
      simp only [List.append_assoc, List.cons_append, List.nil_append]
      rfl
    · cases hc : s.scu.cache <;> simp [Scu.inForce, hc]
    · exact s.wtr.tracksData_watch.trans (congrArg (fieldU 4 s.wtr.lastScan ++ ·) (CountWatch.bytes_eq _))
  · intro held
    refine ⟨by decide, fun t n role => ?_⟩
    rw [← Role.code_eq]
    exact ⟨rfl, rfl, rfl⟩

end Sys2Proof.Machine
end

section
/-! PROOFS. An odometer pulse (R16, R17, R21, R27), and the end of a conversion sequence (R58, R63 to R65). -/

namespace Sys2Proof.Machine

/-! ## The travel unit at a trigger -/

/-- R24, R25 and R29: the travel unit after an acceptance. -/
theorem Tu.accept_eq (t : Tu) : t.accept = { t with
    scan := t.scan + 1, gap := 0, base := t.base + t.pendingFix.getD 0, pendingFix := none, mast := none,
    accepted := countUp t.accepted } := by
  unfold Tu.accept Tu.applyFix
  cases hfix : t.pendingFix with
  | none => simp [hfix]
  | some offset => rfl

theorem State.trigger_tu (s : State) : s.trigger.tu = if s.accepts then s.tu.accept else s.tu.overrun := by
  unfold State.trigger
  split
  · exact s.accept_tu
  · rfl

/-- A due trigger moves neither the pulse count nor what follows it. -/
theorem State.trigger_watch (s : State) :
    s.trigger.tu.watch = s.tu.watch ∧ s.trigger.tu.nextTrigger = s.tu.nextTrigger := by
  rw [State.trigger_tu]
  split
  · rw [Tu.accept_eq]
    exact ⟨rfl, rfl⟩
  · exact ⟨rfl, rfl⟩

theorem State.trigger_scan (s : State) :
    s.trigger.tu.scan = (if s.accepts then s.tu.scan + 1 else s.tu.scan) ∧
    s.trigger.tu.overruns = if s.accepts then s.tu.overruns else countUp s.tu.overruns := by
  rw [State.trigger_tu]
  split
  · rw [Tu.accept_eq]
    exact ⟨rfl, rfl⟩
  · exact ⟨rfl, rfl⟩

/-! ## A pulse -/

/-- R16: the count after a pulse. -/
def Tu.pulsed (t : Tu) (forward : Bool) : Int := if forward then t.p + 1 else t.p - 1

theorem Tu.pulse_eq (t : Tu) (forward : Bool) :
    t.pulse forward = { t with p := t.pulsed forward, high := max t.high (t.pulsed forward) } := by
  have hmax : (if t.high < t.pulsed forward then t.pulsed forward else t.high) = max t.high (t.pulsed forward) := by
    rw [max_def']
    split <;> split <;> omega
  exact congrArg (fun high => { t with p := t.pulsed forward, high := high }) hmax

/-- R27: the reverse watch after the pulse that made `old` into `t`. -/
def Tu.watchAfter (old t : Tu) : ReverseWatch :=
  match t.watch with
  | .forward => if t.p < old.p ∧ t.p ≤ t.high - t.config.ppm then .reversed else .forward
  | .reversed => if old.high < t.p then .forward else .reversed

theorem Tu.watchPulse_fst (old t : Tu) : (old.watchPulse t).1 = { t with watch := old.watchAfter t } := by
  unfold Tu.watchPulse Tu.watchAfter
  cases hw : t.watch <;> dsimp only <;> split <;> simp [← hw]

/-- R27: what the watch reports, each with its change. -/
theorem Tu.watchPulse_snd (old t : Tu) :
    old.watchAfter t = t.watch ∧ (old.watchPulse t).2 = [] ∨
    t.watch = .forward ∧ old.watchAfter t = .reversed ∧ (old.watchPulse t).2 = [.travelReversed t.chainage] ∨
    t.watch = .reversed ∧ old.watchAfter t = .forward ∧ (old.watchPulse t).2 = [.travelResumed t.chainage] := by
  unfold Tu.watchPulse Tu.watchAfter
  cases hw : t.watch <;> dsimp only <;> split <;> simp

/-- The state after the count and the watch have followed a pulse in RUNNING, before a trigger it makes due. -/
def State.followed (s : State) (forward : Bool) : State :=
  { s with tu := { s.tu.pulse forward with watch := s.tu.watchAfter (s.tu.pulse forward) } }.offerAll
    ((s.tu.watchPulse (s.tu.pulse forward)).2.map Report.event)

theorem State.pulse_running {s : State} (toward : CarEnd) (hm : s.mode = .running) : s.pulse toward =
    let u := s.followed (toward == s.pxu.leading)
    if s.tu.distanceDue (s.tu.pulse (toward == s.pxu.leading)) then
      { u with tu := { u.tu with nextTrigger := u.tu.nextTrigger + 1 } }.trigger
    else u := by
  simp only [State.pulse, if_pos hm, State.followed, Tu.watchPulse_fst]

theorem Tu.distanceDue_iff (t : Tu) (forward : Bool) :
    let k := t.nextTrigger
    let position : Int := ((k * t.config.spacing * t.config.ppm + 999) / 1000 : Nat)
    t.distanceDue (t.pulse forward) = true ↔
      t.config.mode = .distance ∧ t.p < t.pulsed forward ∧ t.pulsed forward = position ∧ t.high < position := by
  simp only [Tu.distanceDue, Tu.pulse_eq, Bool.and_eq_true, beq_iff_eq, decide_eq_true_iff, and_assoc]
  rfl

/-- The state that stands at the pulse, its due trigger's index taken, just before the trigger is presented. -/
def State.pulsedTo (s : State) (forward : Bool) : State :=
  let u := s.followed forward
  if s.tu.distanceDue (s.tu.pulse forward) then { u with tu := { u.tu with nextTrigger := s.tu.nextTrigger + 1 } } else u

theorem State.pulsedTo_eq (s : State) (forward : Bool) : s.pulsedTo forward = { s with
    tu := { s.tu with
      p := s.tu.pulsed forward
      high := max s.tu.high (s.tu.pulsed forward)
      watch := s.tu.watchAfter (s.tu.pulse forward)
      nextTrigger := if s.tu.distanceDue (s.tu.pulse forward) then s.tu.nextTrigger + 1 else s.tu.nextTrigger }
    hli := s.hli.offerAll ((s.tu.watchPulse (s.tu.pulse forward)).2.map Report.event) } := by
  unfold State.pulsedTo
  split <;> simp only [State.followed, Tu.pulse_eq] <;> rfl

theorem State.pulse_of_running {s : State} (toward : CarEnd) (hm : s.mode = .running) : s.pulse toward =
    if s.tu.distanceDue (s.tu.pulse (toward == s.pxu.leading)) then (s.pulsedTo (toward == s.pxu.leading)).trigger
    else s.pulsedTo (toward == s.pxu.leading) := by
  rw [State.pulse_running toward hm]
  unfold State.pulsedTo
  by_cases hdue : s.tu.distanceDue (s.tu.pulse (toward == s.pxu.leading)) = true
  · simp only [hdue, if_true]
    rfl
  · simp only [hdue]
    rfl

theorem State.pulse_of_not_running {s : State} (toward : CarEnd) (hm : s.mode ≠ .running) :
    s.pulse toward = { s with tu := s.tu.pulse (toward == s.pxu.leading) } := if_neg hm

/-- What a pulse leaves of the travel unit, whether or not a trigger falls due at it. -/
theorem State.pulse_tu {s : State} (toward : CarEnd) (hm : s.mode = .running) :
    let u := s.pulsedTo (toward == s.pxu.leading)
    (s.pulse toward).tu.p = u.tu.p ∧ (s.pulse toward).tu.high = u.tu.high ∧
    (s.pulse toward).tu.watch = u.tu.watch ∧ (s.pulse toward).tu.nextTrigger = u.tu.nextTrigger := by
  intro u
  rw [State.pulse_of_running toward hm]
  split
  · obtain ⟨hp, hhigh, -⟩ := u.trigger_p
    obtain ⟨hwatch, hnext⟩ := u.trigger_watch
    exact ⟨hp, hhigh, hwatch, hnext⟩
  · exact ⟨rfl, rfl, rfl, rfl⟩

/-- Settles O26. -/
theorem odometerPulseCounts : Obligations.OdometerPulseCounts := by
  intro s toward hp
  refine ⟨_, act_free (fun t => t.pulse toward) hp, ?_⟩
  intro p k position
  have hpulsed : s.tu.pulsed (toward == s.pxu.leading) = p := by simp [Tu.pulsed, p]
  have hdue := s.tu.distanceDue_iff (toward == s.pxu.leading)
  rw [hpulsed] at hdue
  have hpulse := s.tu.pulse_eq (toward == s.pxu.leading)
  rw [hpulsed] at hpulse
  by_cases hm : s.mode = .running
  · have hu := s.pulsedTo_eq (toward == s.pxu.leading)
    obtain ⟨htp, hthigh, htwatch, htnext⟩ := State.pulse_tu toward hm
    have hrun := State.pulse_of_running toward hm
    have hsnd := s.tu.watchPulse_snd (s.tu.pulse (toward == s.pxu.leading))
    rw [hpulsed] at hu
    rw [hu] at htp hthigh htwatch htnext
    refine ⟨htp, hthigh, s.pulse_pxu toward, s.pulse_wtr toward, s.pulse_wru toward, s.pulse_spu toward,
      s.pulse_lev toward, s.pulse_mode toward, fun hno => absurd hm hno, fun _ => ⟨?_, fun hd => ?_, fun hd => ?_,
      s.pulsedTo (toward == s.pxu.leading), ?_, ?_, fun hd => ?_, fun hd => ?_⟩⟩
    · exact htwatch.trans (congrArg s.tu.watchAfter hpulse)
    · have hfired : s.pulse toward = (s.pulsedTo (toward == s.pxu.leading)).trigger := hrun.trans (if_pos (hdue.mpr hd))
      obtain ⟨hscan, hoverruns⟩ := (s.pulsedTo (toward == s.pxu.leading)).trigger_scan
      rw [← hfired, hu] at hscan hoverruns
      exact ⟨htnext.trans (if_pos (hdue.mpr hd)), hscan, hoverruns⟩
    · have hidle : s.pulse toward = s.pulsedTo (toward == s.pxu.leading) := hrun.trans (if_neg fun h => hd (hdue.mp h))
      rw [hidle, hu]
      exact ⟨if_neg fun h => hd (hdue.mp h), rfl, rfl, rfl, rfl⟩
    · rw [hu]
      have hline : ∀ {events : List Event}, (s.tu.watchPulse (s.tu.pulse (toward == s.pxu.leading))).2 = events →
          s.hli.offerAll ((s.tu.watchPulse (s.tu.pulse (toward == s.pxu.leading))).2.map Report.event) =
            s.hli.offerAll (events.map Report.event) := fun he => by rw [he]
      have hchainage : (s.tu.pulse (toward == s.pxu.leading)).chainage = s.tu.chainageOf p := by rw [hpulse]; rfl
      rw [hchainage, show (s.tu.pulse (toward == s.pxu.leading)).watch = s.tu.watch by rw [hpulse]] at hsnd
      rcases hsnd with ⟨hw, he⟩ | ⟨hf, hw, he⟩ | ⟨hf, hw, he⟩
      · exact .inl ⟨hw, hline he⟩
      · exact .inr (.inl ⟨hf, hw, hline he⟩)
      · exact .inr (.inr ⟨hf, hw, hline he⟩)
    · rw [State.kick_tu, htwatch, htnext]
      exact hu.trans (by rw [hu])
    · rw [hrun, if_pos (hdue.mpr hd)]
    · rw [hrun, if_neg fun h => hd (hdue.mp h)]
  · rw [State.pulse_of_not_running toward hm]
    rw [hpulse]
    exact ⟨rfl, rfl, rfl, rfl, rfl, rfl, rfl, rfl, fun _ => rfl, fun h => absurd h hm⟩

/-! ## The end of a conversion sequence -/

section MotionEnd

variable {s : State} {n : Nat} {rest : List Nat}

theorem State.motionEnd_of_sequence (codes : Vector Nat 4) (hq : s.mcv.sequences = n :: rest) : s.motionEnd codes =
    let judged := judgeAll s.mcv.channels codes
    { s with
      mcv := { s.mcv with channels := map4 Judged.channel judged, sequences := rest }
      hlc := (s.hlc.delivered n (sampleOf s.mcv.spacing judged)).complete
      hli := s.hli.offerAll (failures judged) } := by
  unfold State.motionEnd
  rw [hq]
  rfl

theorem State.motionEnd_of_none (codes : Vector Nat 4) (hq : s.mcv.sequences = []) : s.motionEnd codes = s := by
  unfold State.motionEnd
  rw [hq]

end MotionEnd

theorem sideSum_eq_isSideSum (a b : Option Int) : sideSum a b = isSideSum a b := by
  cases a <;> cases b <;> rfl

/-- R64: the sample is formed from the side sums with the rounding of R1. -/
theorem motionSample_isMotionSample {spacing : Nat} (hs : 0 < spacing) (sa sb : Option Int) (held : Bool) :
    isMotionSample spacing sa sb (motionSample spacing sa sb held) := by
  have hspacing : (0 : Int) < spacing := Int.ofNat_lt.mpr hs
  match sa, sb with
  | some a, some b => exact ⟨roundDiv_rounds _ hspacing, roundDiv_rounds _ (by decide), rfl, rfl⟩
  | some a, none => exact ⟨rfl, roundDiv_rounds _ (by decide), rfl, rfl⟩
  | none, some b => exact ⟨rfl, roundDiv_rounds _ (by decide), rfl, rfl⟩
  | none, none => exact ⟨rfl, rfl, rfl, rfl⟩

theorem motionSample_held (spacing : Nat) (sa sb : Option Int) (held : Bool) :
    (motionSample spacing sa sb held).flags.held = held := by
  cases sa <;> cases sb <;> rfl

/-- R58: the failures are those of the channels, in channel order. -/
theorem failures_eq (j : Vector Judged 4) : failures j =
    (([(0, j[0]), (1, j[1]), (2, j[2]), (3, j[3])] : List (Fin 4 × Judged)).filter (·.2.failed)).map
      fun a => .event (.motionChannelFailed a.1) := by
  have hpairs : ([(0, j[0]), (1, j[1]), (2, j[2]), (3, j[3])] : List (Fin 4 × Judged)) =
      heads4.map fun k => (k, j[k]) := rfl
  rw [hpairs, List.filter_map, List.map_map]
  rfl

/-- R65: the sample stands in the record of its scan and in no other, whatever that completes. -/
theorem Hlc.delivered_complete_scans (c : Hlc) (n : Nat) (m : MotionSample) :
    (c.delivered n m).complete.scans.map (fun r => (r.header, r.snapshot, r.answers, r.motion)) =
      c.scans.map fun r => (r.header, r.snapshot, r.answers, if r.header.scan = n then some m else r.motion) := by
  rw [Hlc.complete_scans, List.map_map]
  unfold Hlc.delivered deliver
  rw [List.map_map]
  refine List.map_congr_left fun r _ => ?_
  simp only [Function.comp, ScanRecord.settled]
  split <;> rfl

/-- R51 and R65: where the bank pairs follow the records, the record of the scan alone takes the sample and settles. -/
theorem State.delivered_recordTakes {s t : State} (hs : s.banksOwned) (n : Nat) (m : MotionSample)
    (ht : t.hlc = (s.hlc.delivered n m).complete) : s.recordTakes t n fun r => { r with motion := some m } := by
  obtain ⟨-, -, unused⟩ := hs.owned
  obtain ⟨-, used', unused'⟩ := (Hlc.delivered_owned hs.owned n m).complete
  have hscans : t.hlc.scans =
      s.hlc.scans.map fun r => if r.header.scan = n then { r with motion := some m : ScanRecord }.settled else r := by
    rw [ht, Hlc.complete_scans]
    unfold Hlc.delivered deliver
    rw [List.map_map]
    refine List.map_congr_left fun r hr => ?_
    by_cases hn : r.header.scan = n
    · simp only [Function.comp, if_pos hn]
    · simp only [Function.comp, if_neg hn, ScanRecord.settled_of_not_complete (hs.not_complete r hr)]
  refine ⟨hscans, ht ▸ used', fun k hk => ?_⟩
  rw [unused k hk, ht]
  refine unused' k fun x hx => ?_
  rw [← ht, hscans] at hx
  obtain ⟨r, hr, rfl⟩ := List.mem_map.mp hx
  have hk' := hk r hr
  split <;> exact hk'

/-- Settles O31. -/
theorem motionSequenceDelivers : Obligations.MotionSequenceDelivers := by
  intro s a1 b1 a2 b2 hp
  rw [exec_motionSequenceEnd, act_free _ hp]
  refine ⟨fun hq => by rw [State.motionEnd_of_none _ hq], fun n rest hq hspacing => ?_⟩
  intro ja1 jb1 ja2 jb2 failed
  let judged : Vector Judged 4 := #v[ja1, jb1, ja2, jb2]
  let m := sampleOf s.mcv.spacing judged
  have hend := State.motionEnd_of_sequence #v[a1.toNat, b1.toNat, a2.toNat, b2.toNat] hq
  refine ⟨_, m, congrArg (fun t : State => Host.Outcome.next t.kick) hend, rfl, ?_, motionSample_held _ _ _ _,
    Hlc.delivered_complete_scans _ n m, fun hs => State.delivered_recordTakes hs n m rfl, ?_, rfl,
    ⟨fun k => Hlc.complete_banks _ k, rfl, rfl⟩, rfl, rfl, rfl, rfl, rfl, rfl, rfl, rfl, rfl, rfl, rfl⟩
  · rw [← sideSum_eq_isSideSum, ← sideSum_eq_isSideSum]
    exact motionSample_isMotionSample hspacing _ _ _
  · exact congrArg (fun rs => (s.hli.offerAll rs).kick) (failures_eq judged)

end Sys2Proof.Machine
end

section
/-! PROOFS. START_RUN (R175), RESTART (R179), STOP_RUN and the closing work (R105, R177, R178). -/

namespace Sys2Proof.Machine

/-! ## START_RUN -/

theorem dirOf_eq (d : Nat) : dirOf d = if d ≤ 1 then some (if d = 0 then .ascending else .descending) else none := by
  match d with
  | 0 => rfl
  | 1 => rfl
  | d + 2 => rw [dirOf_eq_none_of_two_le (by omega), if_neg (by omega)]

theorem endOf_eq (e : Nat) : endOf e = if e ≤ 1 then some (if e = 0 then .end1 else .end2) else none := by
  match e with
  | 0 => rfl
  | 1 => rfl
  | e + 2 =>
    rw [if_neg (by omega)]
    rfl

/-- What a START_RUN body asks for. -/
def runAsked (c d e : Nat) : RunStart :=
  { start := signedOf 4 c, dir := if d = 0 then .ascending else .descending,
    leading := if e = 0 then .end1 else .end2 }

theorem parseStart_bodyOf {c d e : Nat} (hf : fits [(4, c), (1, d), (1, e)]) :
    parseStart (bodyOf [(4, c), (1, d), (1, e)]) =
      if (-2000000000 ≤ signedOf 4 c ∧ signedOf 4 c ≤ 2000000000) ∧ d ≤ 1 ∧ e ≤ 1 then .ok (runAsked c d e)
      else .error .badValue := by
  have hfields : splitFields [4, 1, 1] (bodyOf [(4, c), (1, d), (1, e)]) = some [c, d, e] :=
    splitFields_bodyOf [(4, c), (1, d), (1, e)] hf
  rw [parseStart, hfields]
  dsimp only
  rw [dirOf_eq, endOf_eq]
  simp only [← chainageOk_iff]
  by_cases hd : d ≤ 1
  · by_cases he : e ≤ 1
    · simp only [hd, he, if_true, and_self, and_true]
      rfl
    · simp only [hd, he, if_true, if_false, and_false]
  · simp only [hd, if_false, false_and, and_false]

theorem State.anyActive_iff (s : State) : s.anyActive = true ↔ ∃ h, (s.head h).state = .active := by
  have hmem : ∀ h : HeadNo, h ∈ heads4 := by decide
  rw [State.anyActive, List.any_eq_true]
  exact ⟨fun ⟨h, _, hst⟩ => ⟨h, beq_iff_eq.mp hst⟩, fun ⟨h, hst⟩ => ⟨h, hmem h, beq_iff_eq.mpr hst⟩⟩

theorem startRunWork_of_ok {f : HostFrame} {a : RunStart} (s : State) (h : parseStart f.body = .ok a) :
    startRunWork f s = if a.dir ≠ s.scu.dir then .refused .invalidCombination
      else if !s.anyActive then .refused .noHeads else .taken (s.startRun a) [] := by
  unfold startRunWork
  rw [h]

/-- Settles O48. -/
theorem startRunStages : Obligations.StartRunStages := by
  intro s f rest c d e hs hk hm hf hb start inRange dir leading active
  have hrow : ofKind 0x20 f = true := beq_iff_eq.mpr hk
  have hmodes : inStandby s.mode = true := by rw [hm]; rfl
  have hparse := parseStart_bodyOf hf
  rw [← hb] at hparse
  refine ⟨fun hr => ?_, fun hr hd => ?_, fun hr hd ha => ?_, fun hr hd ha => ?_⟩
  · exact act_take_refused hs hrow hmodes (startRunWork_of_error _ (hparse.trans (if_neg hr)))
  · exact act_take_refused hs hrow hmodes ((startRunWork_of_ok _ (hparse.trans (if_pos hr))).trans (if_pos hd))
  · refine act_take_refused hs hrow hmodes ((startRunWork_of_ok _ (hparse.trans (if_pos hr))).trans
      ((if_neg (not_not.mpr hd)).trans (if_pos ?_)))
    rw [Bool.not_eq_true', Bool.eq_false_iff]
    exact fun h => ha (((s.popped rest).anyActive_iff).mp h)
  · refine ⟨_, act_take_taken hs hrow hmodes ((startRunWork_of_ok _ (hparse.trans (if_pos hr))).trans
      ((if_neg (not_not.mpr hd)).trans (if_neg ?_))), ?_⟩
    · rw [((s.popped rest).anyActive_iff).mpr ha]
      decide
    · exact ⟨rfl, rfl, rfl, rfl, rfl, rfl, rfl, rfl, rfl, rfl, rfl, rfl, rfl, rfl, rfl,
        fun h => map4_get Head.zeroCounts s.hlc.heads h,
        fun k => (map4_get Channel.startRun s.mcv.channels k).trans (by unfold Channel.startRun; split <;> rfl),
        fun k => Vector.getElem_replicate _, rfl, rfl, rfl, rfl, rfl, rfl, rfl, rfl,
        fun k => Vector.getElem_replicate _, rfl, rfl,
        (SameSettings.startRun (s := s.popped rest) (runAsked c d e)).settings, rfl⟩

/-! ## RESTART -/

/-- Settles O50. -/
theorem restartAborts : Obligations.RestartAborts := by
  intro s f rest hs hk hb
  refine ⟨_, act_take_taken hs (beq_iff_eq.mpr hk) rfl (if_pos hb), rfl,
    (SameSettings.restart (s := s.popped rest)).settings, rfl, rfl, rfl, rfl, rfl, fun k => ?_, rfl,
    fun h => map4_get Head.zeroCounts s.hlc.heads h, rfl, fun k => ?_, rfl, rfl,
    fun k => map4_get Channel.rearm s.mcv.channels k, rfl, rfl, fun k => Vector.getElem_replicate _, rfl, rfl, rfl, rfl,
    rfl, rfl, rfl, rfl, rfl, rfl, rfl, rfl, fun k => Vector.getElem_replicate _, rfl, rfl, rfl, rfl⟩
  · match k with
    | 0 | 1 => rfl
  · match k with
    | 0 | 1 => rfl

/-! ## The end-of-run set (R105) and the beginning of the closing work -/

theorem runEndNotices_eq (table : Vector Slot 8) : runEndNotices table =
    ((List.finRange 8).filter fun k => (table[k]).established).filterMap fun k =>
      (table[k]).track?.map fun u => { slot := k, id := u.id, reason := .runEnd } :=
  List.filterMap_filter.symm

theorem State.runEndSet_of_taken {s : State} {header : Header} {design : Design}
    (h : s.wtr.lastTaken = some (header, design)) : s.runEndSet.header = header ∧ s.runEndSet.snapshot = design := by
  simp [State.runEndSet, State.runEndSource, h]

theorem State.runEndSet_of_none {s : State} (h : s.wtr.lastTaken = none) : s.runEndSet.snapshot = s.scu.default ∧
    s.runEndSet.header =
      { scan := 0, stamp := s.tu.stamp, chainage := s.tu.base, gap := 0, fix := none, mast := none } := by
  simp [State.runEndSet, State.runEndSource, h]

section StopRun

variable {s : State}

theorem State.stopRun_begins (hscans : s.hlc.scans = []) (hclosing : s.closing = false) : s.stopRun =
    { s with mode := .stopping, tu := { s.tu with pendingFix := none, mast := none } }.beginClosing :=
  if_pos ⟨rfl, hscans, hclosing⟩

theorem State.stopRun_waits (h : s.hlc.scans ≠ [] ∨ s.closing = true) : s.stopRun =
    { s with mode := .stopping, tu := { s.tu with pendingFix := none, mast := none } } := by
  refine if_neg fun ⟨_, hscans, hclosing⟩ => ?_
  rcases h with h | h
  · exact h hscans
  · exact Bool.false_ne_true (hclosing.symm.trans h)

end StopRun

theorem exec_closingWork {s : State} (hp : s.pin = false) : exec .closingWork s = .next s.closeIfDue.kick :=
  act_free State.closeIfDue hp

/-! ## The end-of-run set taken (R141, R165, R178) -/

section RunEndTaken

variable {s : State} {o : Offered}

theorem exec_spanSetTake_of_offered (hp : s.pin = false) (ho : s.wru.offered = some o) (hnew : o.spanTaken = false) :
    exec .spanSetTake s = .next ((s.spanWork o.set).setTaken { o with spanTaken := true }).kick := by
  change act State.spanTake s = _
  rw [act_free _ hp]
  unfold State.spanTake
  rw [ho]
  simp only [hnew, Bool.false_eq_true, ↓reduceIte]

theorem State.spanWork_of_runEnd {sp : OpenSpan} {set : SampleSet} (hsp : s.spu.span = some sp)
    (hend : set.runEnd = true) :
    s.spanWork set = { s with spu := (s.spu.workRunEnd sp set).1 }.offerAll (s.spu.workRunEnd sp set).2 := by
  unfold State.spanWork
  rw [hsp]
  exact if_pos hend

/-- R165: what the limit evaluator makes of the end-of-run set. -/
theorem State.limitWork_of_runEnd (hend : o.set.runEnd = true) : s.limitWork o =
    { s with lev := { s.lev with entries := [] } }.offerAll
      ((s.lev.entries.filter fun e : Exceedance => e.report && s.hli.gates.severity e.severity).map
        fun e => .exceedance e (some .runEnd)) := by
  let w := s.lev.work s.hli.gates o.set
  have hw := s.lev.work_runEnd s.hli.gates hend
  have hentries : w.entries = [] := (congrArg Work.entries hw).trans (List.filter_eq_nil_iff.mpr (by simp))
  have hopened : w.opened = s.lev.opened := congrArg Work.opened hw
  have hoverflow : w.overflow = s.lev.overflow := congrArg Work.overflow hw
  have hlost : w.lost = false := congrArg Work.lost hw
  have hrecords : w.records = (s.lev.entries.filter fun e : Exceedance => e.report && s.hli.gates.severity e.severity).map
      fun e => .exceedance e (some .runEnd) :=
    (congrArg Work.records hw).trans ((closeBy_records _ _ _).trans (by simp [List.filterMap_eq_map']))
  change ({ s with
    lev := { s.lev with entries := w.entries, opened := w.opened, overflow := w.overflow }
    spu := if w.lost then s.spu.loseScan o.spanTaken o.set.header.scan else s.spu } : State).offerAll w.records = _
  rw [hentries, hopened, hoverflow, hlost, hrecords]
  rfl

end RunEndTaken

/-- Settles O49. -/
theorem runEndsInOrder : Obligations.RunEndsInOrder := by
  refine ⟨?_, fun s o hp ho hend => ⟨fun sp hsp hnew => ?_, fun hnew => ?_⟩⟩
  · intro begun others
    have hbegun : ∀ s : State, begun s s.beginClosing := fun s =>
      ⟨rfl, fun k => Vector.getElem_replicate _, rfl, rfl, rfl, rfl, s.runEndSet, rfl, rfl, rfl, rfl,
        runEndNotices_eq _, fun _ _ h => State.runEndSet_of_taken h, fun h => State.runEndSet_of_none h⟩
    refine ⟨fun s f rest hs hk hb hm => ?_, fun s hp hm hscans hclosing => ?_, fun s hp h => ?_⟩
    · have hrun : exec .stopRun s = .next ((s.popped rest).stopRun.answered f .done []) :=
        act_take_taken hs (beq_iff_eq.mpr hk) (by rw [hm]; rfl) (if_pos hb)
      by_cases hnow : s.hlc.scans = [] ∧ s.closing = false
      · rw [State.stopRun_begins (s := s.popped rest) hnow.1 hnow.2] at hrun
        exact ⟨_, hrun, rfl, rfl, rfl, ⟨rfl, rfl, rfl, rfl, rfl, rfl, rfl, rfl, rfl⟩, fun h => absurd hnow.1 h,
          fun _ _ => hbegun
            { s.popped rest with mode := .stopping, tu := { s.tu with pendingFix := none, mast := none } }⟩
      · have hwaits : s.hlc.scans ≠ [] ∨ s.closing = true := by
          rw [← Bool.not_eq_false]
          exact not_and_or.mp hnow
        rw [State.stopRun_waits (s := s.popped rest) hwaits] at hrun
        exact ⟨_, hrun, rfl, rfl, rfl, ⟨rfl, rfl, rfl, rfl, rfl, rfl, rfl, rfl, rfl⟩, fun _ => ⟨rfl, rfl⟩,
          fun hscans hclosing => absurd ⟨hscans, hclosing⟩ hnow⟩
    · exact ⟨s.beginClosing.kick, (exec_closingWork hp).trans (by rw [State.closeIfDue, if_pos ⟨hm, hscans, hclosing⟩]), hm, rfl, rfl,
        ⟨rfl, rfl, rfl, rfl, rfl, rfl, rfl, rfl, rfl⟩, hbegun s⟩
    · refine (exec_closingWork hp).trans ?_
      rw [State.closeIfDue, if_neg]
      rintro ⟨hm, hscans, hclosing⟩
      rcases h with h | h | h
      · exact h hm
      · exact h hscans
      · rw [h] at hclosing
        cases hclosing
  · intro noticed record
    refine ⟨_, (exec_spanSetTake_of_offered hp ho hnew).trans (by rw [State.spanWork_of_runEnd hsp hend]), ?_⟩
    rcases Bool.eq_false_or_eq_true o.limitTaken with htaken | htaken
    · rw [State.setTaken_of_runEnd (o := { o with spanTaken := true }) (by simp [htaken]) hend]
      exact ⟨rfl, rfl, rfl, rfl, rfl, rfl, rfl, rfl, rfl, fun h => absurd (htaken.symm.trans h) (by decide),
        fun _ => ⟨rfl, rfl, rfl, rfl, rfl⟩⟩
    · rw [State.setTaken_of_waiting (o := { o with spanTaken := true }) (by simp [htaken])]
      exact ⟨rfl, rfl, rfl, rfl, rfl, rfl, rfl, rfl, rfl, fun _ => ⟨rfl, rfl, rfl, rfl⟩,
        fun h => absurd (htaken.symm.trans h) (by decide)⟩
  · refine ⟨_, (exec_limitSetTake_of_offered hp ho hnew).trans (by rw [State.limitWork_of_runEnd hend]), ?_⟩
    rcases Bool.eq_false_or_eq_true o.spanTaken with htaken | htaken
    · rw [State.setTaken_of_runEnd (o := { o with limitTaken := true }) (by simp [htaken]) hend]
      exact ⟨rfl, rfl, rfl, rfl, rfl, rfl, rfl, rfl, rfl, fun h => absurd (htaken.symm.trans h) (by decide),
        fun _ => ⟨rfl, rfl, rfl, rfl, rfl⟩⟩
    · rw [State.setTaken_of_waiting (o := { o with limitTaken := true }) (by simp [htaken])]
      exact ⟨rfl, rfl, rfl, rfl, rfl, rfl, rfl, rfl, rfl, fun _ => ⟨rfl, rfl, rfl, rfl⟩,
        fun h => absurd (htaken.symm.trans h) (by decide)⟩

end Sys2Proof.Machine
end

section
/-! PROOFS. The span unit takes the offered set of a scan (R138 to R149). -/

namespace Sys2Proof.Machine

/-! ## Counting a set -/

/-- R142 and R143: the open span after a set; `lost` says that the scan had a pending loss. -/
theorem OpenSpan.account_eq (sp : OpenSpan) (set : SampleSet) (losses : List Nat) :
    sp.account set (losses.contains set.header.scan) = { sp with
      scans := countUp sp.scans
      skipped := countBy sp.skipped set.header.gap
      flags := { sp.flags with
        blind := sp.flags.blind || set.blind
        uncompensated := sp.flags.uncompensated || decide (∃ m ∈ set.samples, m.flags.rollLost || m.flags.riseLost)
        exceedanceLost := sp.flags.exceedanceLost || decide (set.header.scan ∈ losses)
        chainageFix := sp.flags.chainageFix || decide (set.header.fix = some false) } } := by
  have hany : (set.samples.any fun m => m.flags.rollLost || m.flags.riseLost) =
      decide (∃ m ∈ set.samples, m.flags.rollLost || m.flags.riseLost) := by
    rw [Bool.eq_iff_iff, List.any_eq_true, decide_eq_true_iff]
  rw [OpenSpan.account, hany, List.contains_eq_mem, beq_eq_decide]

/-! ## The work of a set (R138) -/

section WorkScan

variable {u : Spu} {sp : OpenSpan} {set : SampleSet}

/-- What R138 step 2 makes of the accumulators, the retain list and PARTIAL. -/
def Spu.noticed (u : Spu) (sp : OpenSpan) (set : SampleSet) : Applied :=
  set.notices.foldl applyNotice
    { accumulators := u.accumulators, retain := u.retain, isPartial := sp.flags.isPartial }

/-- The open span with its section and with what the notices set in it. -/
def Spu.current (u : Spu) (sp : OpenSpan) (set : SampleSet) : OpenSpan :=
  { sp with
    inSection? := some (sp.inSection?.getD set.snapshot.id)
    flags := { sp.flags with isPartial := (u.noticed sp set).isPartial } }

theorem Spu.prepare_eq : u.prepare sp set =
    ({ u with accumulators := (u.noticed sp set).accumulators, retain := (u.noticed sp set).retain,
              span := some (u.current sp set) }, u.current sp set) := rfl

/-- The record of a close (R148). -/
def Spu.closingRecord (u : Spu) (sp : OpenSpan) (set : SampleSet) (reason : SpanReason) (stop : Int) : SpanRecord :=
  (u.prepare sp set).1.record (u.current sp set) reason stop

theorem Spu.workScan_goesOn
    (h : (closeTest u.minSpan u.maxSpan (u.current sp set) set.header set.snapshot.id).1 = none) :
    (u.workScan sp set).1 = { u with
      span := some ((u.current sp set).account set (u.losses.contains set.header.scan))
      accumulators := set.samples.foldl (foldSample set.header.chainage) (u.noticed sp set).accumulators
      retain := (u.noticed sp set).retain
      losses := u.losses.filter (· ≠ set.header.scan) } ∧ (u.workScan sp set).2.1 = [] := by
  constructor <;> simp only [Spu.workScan, Spu.prepare_eq, h]

theorem Spu.workScan_closes {reason : SpanReason} {stop : Int}
    (h : (closeTest u.minSpan u.maxSpan (u.current sp set) set.header set.snapshot.id).1 = some (reason, stop)) :
    (u.workScan sp set).1 = { u with
      span := some ((OpenSpan.fresh (sp.number + 1) (some set.snapshot.id) stop).account set
        (u.losses.contains set.header.scan))
      accumulators := set.samples.foldl (foldSample set.header.chainage) (Vector.replicate 8 none)
      retain := []
      losses := u.losses.filter (· ≠ set.header.scan)
      closed := countUp u.closed } ∧
    (u.workScan sp set).2.1 = [.span (u.closingRecord sp set reason stop)] := by
  constructor
  · simp only [Spu.workScan, Spu.prepare_eq, h]
    rfl
  · simp only [Spu.workScan, Spu.prepare_eq, h]
    rfl

theorem Spu.workScan_ignored : (u.workScan sp set).2.2 =
    (closeTest u.minSpan u.maxSpan (u.current sp set) set.header set.snapshot.id).2 := rfl

end WorkScan

theorem State.spanWork_of_scan {s : State} {sp : OpenSpan} {set : SampleSet} (hsp : s.spu.span = some sp)
    (hend : set.runEnd = false) : s.spanWork set =
      { s with
        spu := (s.spu.workScan sp set).1
        tu := { s.tu with mastsIgnored :=
          if (s.spu.workScan sp set).2.2 then countUp s.tu.mastsIgnored else s.tu.mastsIgnored }
        hli := s.hli.offerAll (s.spu.workScan sp set).2.1 } := by
  unfold State.spanWork
  rw [hsp]
  exact if_neg (by simp [hend])

/-- R146: what one notice does. -/
theorem applyNotice_of_none {u : Applied} {n : Notice} (h : u.accumulators[n.slot] = none) : applyNotice u n = u := by
  unfold applyNotice
  rw [h]

theorem applyNotice_of_some {u : Applied} {n : Notice} {a : Accumulator} (h : u.accumulators[n.slot] = some a) :
    applyNotice u n = { accumulators := u.accumulators.set n.slot none, retain := (retainEntry u.retain a).1,
                        isPartial := u.isPartial || (retainEntry u.retain a).2 } := by
  unfold applyNotice
  rw [h]

/-- Settles O44. -/
theorem spanSetTaken : Obligations.SpanSetTaken := by
  refine ⟨fun s o sp hp ho hnew hsp hend => ?_, fun u n => ⟨applyNotice_of_none, fun a => applyNotice_of_some⟩⟩
  intro set id noticed current test counted folded losses
  have hcounted : ∀ u : OpenSpan, u.account set (s.spu.losses.contains set.header.scan) = counted u :=
    fun u => u.account_eq set s.spu.losses
  have hline : ∀ {t : State} {rs : List Report}, t.hli = s.hli.offerAll (s.spu.workScan sp set).2.1 →
      (s.spu.workScan sp set).2.1 = rs → t.kick.hli = (s.hli.offerAll rs).kick := fun ht hrs =>
    congrArg Hli.kick (ht.trans (congrArg s.hli.offerAll hrs))
  have hon : test.1 = none → (s.spu.workScan sp set).1 = { s.spu with
      span := some (counted current), accumulators := folded noticed.accumulators, retain := noticed.retain,
      losses := losses } := fun h => hcounted current ▸ (Spu.workScan_goesOn h).1
  have hclose : ∀ reason stop, test.1 = some (reason, stop) → (s.spu.workScan sp set).1 = { s.spu with
      span := some (counted (OpenSpan.fresh (sp.number + 1) (some set.snapshot.id) stop)),
      accumulators := folded (Vector.replicate 8 none), retain := [], losses := losses,
      closed := countUp s.spu.closed } := fun reason stop h => hcounted _ ▸ (Spu.workScan_closes h).1
  refine ⟨_, (exec_spanSetTake_of_offered hp ho hnew).trans (by rw [State.spanWork_of_scan hsp hend]), ?_⟩
  rcases Bool.eq_false_or_eq_true o.limitTaken with htaken | htaken
  · rw [State.setTaken_of_scan (o := { o with spanTaken := true }) (by simp [htaken]) hend]
    exact ⟨fun h => ⟨hline rfl (Spu.workScan_goesOn h).2, hon h⟩,
      fun reason stop h => ⟨hline rfl (Spu.workScan_closes h).2, hclose reason stop h⟩, rfl,
      fun h => absurd (htaken.symm.trans h) (by decide), fun _ => ⟨rfl, rfl⟩, rfl, rfl, rfl, rfl, rfl, rfl, rfl, rfl, rfl⟩
  · rw [State.setTaken_of_waiting (o := { o with spanTaken := true }) (by simp [htaken])]
    exact ⟨fun h => ⟨hline rfl (Spu.workScan_goesOn h).2, hon h⟩,
      fun reason stop h => ⟨hline rfl (Spu.workScan_closes h).2, hclose reason stop h⟩, rfl, fun _ => ⟨rfl, rfl⟩,
      fun h => absurd (htaken.symm.trans h) (by decide), rfl, rfl, rfl, rfl, rfl, rfl, rfl, rfl, rfl⟩

end Sys2Proof.Machine
end

section
/-! PROOFS. A due trigger: the closing of the answers still open, the acceptance seen by every block, and the overrun
(R22 to R26, R29, R43, R44, R48). -/

namespace Sys2Proof.Machine

/-! ## The answers of one head -/

/-- The scans in flight with the head's answer to each, oldest first. -/
def State.answersOf (s : State) (h : HeadNo) : List (Nat × Answer) :=
  s.hlc.scans.map fun r => (r.header.scan, r.answers[h])

theorem State.answerIs_iff (s : State) (n : Nat) (h : HeadNo) (a : Answer) :
    s.answerIs n h a ↔ (n, a) ∈ s.answersOf h := by
  simp [State.answerIs, State.answersOf, List.mem_map]

theorem State.find_answersOf (s : State) (h : HeadNo) :
    (s.answersOf h).find? (·.2.isOpen) = (s.openScan h).map fun r => (r.header.scan, r.answers[h]) := by
  rw [State.answersOf, List.find?_map]
  rfl

theorem State.openScan_isSome_congr {s t : State} {h : HeadNo} (ha : t.answersOf h = s.answersOf h) :
    (t.openScan h).isSome = (s.openScan h).isSome := by
  have hfind := (s.find_answersOf h).symm.trans (ha ▸ t.find_answersOf h)
  simpa using (congrArg Option.isSome hfind).symm

theorem answerIn_scan_answers_ne {h j : HeadNo} (hj : j ≠ h) (a : Answer) (l : List ScanRecord) :
    ((answerIn h a l).map fun r => (r.header.scan, r.answers[j])) = l.map fun r => (r.header.scan, r.answers[j]) := by
  have hscans := answerIn_map (fun r => r.header.scan) (fun _ _ => rfl) h a l
  have hzip : ∀ m : List ScanRecord, (m.map fun r => (r.header.scan, r.answers[j])) =
      (m.map fun r => r.header.scan).zip (m.map fun r => r.answers[j]) := fun m => List.zip_map'.symm
  rw [hzip, hzip, hscans, answerIn_answers_ne hj]

/-! ## A miss, whatever the head's state -/

theorem State.missAnswer_setTu (s : State) (t : Tu) (h : HeadNo) (reason : Reason) :
    ({ s with tu := t } : State).missAnswer h reason = { s.missAnswer h reason with tu := t } := by
  cases hr : s.openScan h with
  | none =>
    rw [State.missAnswer_of_none hr, State.missAnswer_of_none (s := { s with tu := t }) hr]
  | some r =>
    rw [State.missAnswer_eq reason hr, State.missAnswer_eq (s := { s with tu := t }) reason hr]
    rfl

theorem State.missAnswer_head_ne (s : State) {h j : HeadNo} (hj : j ≠ h) (reason : Reason) :
    (s.missAnswer h reason).head j = s.head j := by
  cases hr : s.openScan h with
  | none => rw [State.missAnswer_of_none hr]
  | some r =>
    rw [State.missAnswer_eq reason hr]
    exact State.head_setHead_ne _ _ hj

theorem State.missAnswer_answersOf_ne (s : State) {h j : HeadNo} (hj : j ≠ h) (reason : Reason) :
    (s.missAnswer h reason).answersOf j = s.answersOf j := by
  cases hr : s.openScan h with
  | none => rw [State.missAnswer_of_none hr]
  | some r =>
    rw [State.missAnswer_eq reason hr]
    refine Eq.trans ?_ (answerIn_scan_answers_ne hj (.absent reason) s.hlc.scans)
    change (s.closeAnswer h (.absent reason)).answersOf j = _
    rw [State.answersOf, State.closeAnswer_scans, List.map_map]
    rfl

/-! ## The misses of several heads (R48) -/

/-- The open answers of the heads of a list close as NO_ANSWER, in its order. -/
def State.missAll (s : State) (l : List HeadNo) : State := l.foldl (fun t h => t.missAnswer h .noAnswer) s

theorem State.missAll_setTu (s : State) (t : Tu) (l : List HeadNo) :
    ({ s with tu := t } : State).missAll l = { s.missAll l with tu := t } := by
  induction l generalizing s with
  | nil => rfl
  | cons h l ih => exact (congrArg (State.missAll · l) (s.missAnswer_setTu t h .noAnswer)).trans (ih _)

theorem State.missAll_of_not_mem (s : State) {l : List HeadNo} {h : HeadNo} (hl : h ∉ l) :
    (s.missAll l).head h = s.head h ∧ (s.missAll l).answersOf h = s.answersOf h := by
  induction l generalizing s with
  | nil => exact ⟨rfl, rfl⟩
  | cons j l ih =>
    obtain ⟨hne, hl⟩ := not_or.mp fun hmem => hl (List.mem_cons.mpr hmem)
    obtain ⟨hhead, hanswers⟩ := ih (s.missAnswer j .noAnswer) hl
    exact ⟨hhead.trans (s.missAnswer_head_ne hne _), hanswers.trans (s.missAnswer_answersOf_ne hne _)⟩

/-- Each head of the list closes its own answer, whatever the others before and after it did. -/
theorem State.missAll_of_mem (s : State) {l : List HeadNo} (hl : l.Nodup) {h : HeadNo} (hmem : h ∈ l) {q : ScanRecord}
    (hq : s.openScan h = some q) :
    (s.missAll l).answerIs q.header.scan h (.absent .noAnswer) ∧ (s.missAll l).head h = { s.head h with
      misses := (s.head h).misses + 1
      missed := countUp (s.head h).missed
      state := if (s.head h).missLimit ≤ (s.head h).misses + 1 then .isolated .noAnswer else (s.head h).state } := by
  obtain ⟨before, behind, rfl⟩ := List.append_of_mem hmem
  obtain ⟨-, hbehind, hapart⟩ := List.nodup_append.mp hl
  have hnotBefore : h ∉ before := fun hb => hapart h hb h List.mem_cons_self rfl
  let u := s.missAll before
  obtain ⟨hhead, hanswers⟩ := s.missAll_of_not_mem hnotBefore
  have hopen : (u.openScan h).map (fun r => (r.header.scan, r.answers[h])) = some (q.header.scan, q.answers[h]) := by
    rw [← u.find_answersOf, hanswers, s.find_answersOf, hq]
    rfl
  obtain ⟨r, hr, hrq⟩ := Option.map_eq_some_iff.mp hopen
  have hscan : r.header.scan = q.header.scan := congrArg Prod.fst hrq
  have hsplit : s.missAll (before ++ h :: behind) = (u.missAnswer h .noAnswer).missAll behind := by
    simp only [State.missAll, List.foldl_append, List.foldl_cons, u]
  obtain ⟨hlast, hkept⟩ := (u.missAnswer h .noAnswer).missAll_of_not_mem (List.nodup_cons.mp hbehind).1
  rw [hsplit, hlast, State.answerIs_iff, hkept, ← State.answerIs_iff, ← hscan, ← hhead, State.missAnswer_eq .noAnswer hr]
  exact ⟨State.closeAnswer_answerIs _ hr, State.head_setHead_same _ _ _⟩

theorem State.closePrevious_eq (s : State) :
    s.closePrevious = s.missAll (heads4.filter fun h => (s.openScan h).isSome) := by
  have hmiss : (fun (t : State) h => if (t.openScan h).isSome then t.missAnswer h .noAnswer else t) =
      fun t h => t.missAnswer h .noAnswer := by
    funext t h
    split
    · rfl
    · next hno => exact (State.missAnswer_of_none (Option.not_isSome_iff_eq_none.mp hno) _).symm
  have hstable : ∀ (t : State) (h j : HeadNo), j ≠ h →
      ((t.missAnswer h .noAnswer).openScan j).isSome = (t.openScan j).isSome :=
    fun t h j hj => State.openScan_isSome_congr (t.missAnswer_answersOf_ne hj .noAnswer)
  have hfold := foldl_if_eq_foldl_filter (c := fun t h => (State.openScan t h).isSome)
    (f := fun t h => t.missAnswer h .noAnswer) hstable heads4_nodup s
  rw [hmiss] at hfold
  exact hfold

/-! ## The header (R25, R26, R29) -/

theorem Tu.header_eq (t : Tu) : t.header =
    { scan := t.scan + 1, stamp := t.stamp, chainage := { t with base := t.base + t.pendingFix.getD 0 }.chainage,
      gap := t.gap, fix := t.pendingFix.map fun o => decide (t.config.fixLimit < o.natAbs),
      mast := t.mast.map (· + t.pendingFix.getD 0) } := by
  unfold Tu.header Tu.applyFix Tu.fixMark
  cases t.pendingFix with
  | none =>
    simp only [Option.getD_none, add_zero, Option.map_id']
    rfl
  | some offset => rfl

theorem Tu.fixEvents_toList (t : Tu) :
    t.fixEvents = (t.pendingFix.map fun o => Report.event (.positionFixed o)).toList := by
  unfold Tu.fixEvents
  cases t.pendingFix <;> rfl

theorem Scu.inForce_eq (u : Scu) : u.inForce = (u.cache.map (·.design)).getD u.default := by
  unfold Scu.inForce
  cases u.cache <;> rfl

/-! ## An acceptance (R24, R43, R44) -/

namespace State

variable (s : State)

/-- The line once a pending fix has been reported. -/
def fixedLine : Hli := s.hli.offerAll (s.tu.pendingFix.map fun o => Report.event (.positionFixed o)).toList

/-- The heads with an answer still open. -/
def waiting : List HeadNo := heads4.filter fun h => (s.openScan h).isSome

/-- The state once the scan before has been closed, but for the travel unit. -/
def settledBefore : State := ({ s with hli := s.fixedLine } : State).missAll s.waiting

theorem closePrevious_of_accept : ({ s with tu := s.tu.accept }.offerAll s.tu.fixEvents).closePrevious =
    { s.settledBefore with tu := s.tu.accept } := by
  rw [closePrevious_eq, Tu.fixEvents_toList]
  exact missAll_setTu { s with hli := s.fixedLine } s.tu.accept s.waiting

theorem settledBefore_headStep : HeadStep { s with hli := s.fixedLine } s.settledBefore := by
  have hprevious := closePrevious_eq { s with hli := s.fixedLine }
  have hstep := HeadStep.closePrevious { s with hli := s.fixedLine }
  rw [hprevious] at hstep
  exact hstep

theorem settledBefore_sameBanks : s.sameBanks s.settledBefore := by
  have hsame := closePrevious_sameBanks { s with hli := s.fixedLine }
  rw [closePrevious_eq] at hsame
  exact hsame

/-- The record that an acceptance opens. -/
def acceptedRecord : ScanRecord :=
  { header := s.tu.header, snapshot := (s.scu.activate s.tu.header.chainage).1.inForce, motion := none,
    answers := map4 Head.firstAnswer s.settledBefore.hlc.heads, stage := .gathering }

theorem accept_hlc_eq : s.accept.hlc =
    s.settledBefore.hlc.openScan s.tu.header (s.scu.activate s.tu.header.chainage).1.inForce := by
  rw [accept_hlc, closePrevious_of_accept]

theorem accept_hli_eq : s.accept.hli =
    s.settledBefore.hli.offerAll ((s.scu.activate s.tu.header.chainage).2.map Report.event) := by
  have hscu : s.settledBefore.scu = s.scu := by
    obtain ⟨-, -, -, -, -, -, -, -, -, hscu, -⟩ := s.settledBefore_headStep.behind
    exact hscu
  unfold accept
  dsimp only
  rw [closePrevious_of_accept]
  simp only [hscu]
  rfl

theorem accept_head (h : HeadNo) : s.accept.head h = s.settledBefore.head h := by
  rw [head, accept_hlc_eq]
  rfl

theorem accepts_iff :
    s.accepts = true ↔ (s.hlc.pairs[parity (s.tu.scan + 1)]).owner = .free ∧ s.tu.scan < 4294967295 := by
  rw [accepts, Bool.and_eq_true, beq_iff_eq, decide_eq_true_iff]
  rfl

theorem settledBefore_of_none (h : s.waiting = []) : s.settledBefore = { s with hli := s.fixedLine } := by
  rw [settledBefore, h]
  rfl

theorem settledBefore_hli_of_one {h : HeadNo} (hw : s.waiting = [h]) : s.settledBefore.hli =
    if (s.head h).missLimit ≤ (s.head h).misses + 1 then
      s.fixedLine.headMoved h (.isolated .noAnswer) (s.lastActive h) else s.fixedLine := by
  have hopen : (s.openScan h).isSome = true :=
    (List.mem_filter.mp (show h ∈ s.waiting from hw ▸ List.mem_singleton_self h)).2
  obtain ⟨r, hr⟩ := Option.isSome_iff_exists.mp hopen
  have hmiss := missAnswer_eq (s := { s with hli := s.fixedLine }) .noAnswer hr
  rw [settledBefore, hw]
  exact congrArg State.hli hmiss

theorem settledBefore_head_of_open {h : HeadNo} {q : ScanRecord} (hq : s.openScan h = some q) :
    s.settledBefore.answerIs q.header.scan h (.absent .noAnswer) ∧ s.settledBefore.head h = { s.head h with
      misses := (s.head h).misses + 1
      missed := countUp (s.head h).missed
      state := if (s.head h).missLimit ≤ (s.head h).misses + 1 then .isolated .noAnswer else (s.head h).state } := by
  have hall : ∀ h : HeadNo, h ∈ heads4 := by decide
  have hmem : h ∈ s.waiting := List.mem_filter.mpr ⟨hall h, by rw [hq]; rfl⟩
  exact missAll_of_mem { s with hli := s.fixedLine } (heads4_nodup.filter _) hmem hq

theorem settledBefore_head_of_none {h : HeadNo} (hno : s.openScan h = none) : s.settledBefore.head h = s.head h := by
  have hmem : h ∉ s.waiting := fun hw => by simp [waiting, hno] at hw
  exact (missAll_of_not_mem { s with hli := s.fixedLine } hmem).1

end State

theorem scanOnceWork_eq {f : HostFrame} (s : State) (hb : f.body = []) : scanOnceWork f s =
    if s.tu.config.mode ≠ .command then .refused .invalidCombination else .taken s.trigger [] :=
  if_neg (not_not.mpr hb)

/-- Settles O27. -/
theorem triggersDueAcceptedOrOverrun : Obligations.TriggersDueAcceptedOrOverrun := by
  refine ⟨fun n => ⟨rfl, ?_⟩, fun s => ⟨s.accepts_iff, fun hfree => ?_, fun hbusy => ?_⟩, fun s due hp hm hc hd => ?_,
    fun s hp h => ?_, fun s f rest hs hk hb hm => ⟨fun hc => ?_, fun hc => ?_⟩⟩
  · have hlen : beBytes 2 (beBytes 2 n).length = [0, 2] := by rw [beBytes_length]; decide
    rw [beBytes_two_mod]
    change frameBytes [2] (beBytes 2 n) = _
    simp only [frameBytes, hlen]
    rfl
  · rw [State.trigger_accepted (s.accepts_iff.mpr hfree)]
    have hbanks := s.settledBefore_sameBanks
    have hopened := s.accept_hlc_eq
    refine ⟨s.acceptedRecord, ?_, s.tu.header_eq, congrArg Scu.inForce s.accept_scu.symm, ?_, rfl, rfl, fun h => ?_, ?_,
      s.accept_mcv, ?_, s.accept_tu.trans s.tu.accept_eq, s.accept_scu, s.accept_pxu, s.accept_wtr, s.accept_wru,
      s.accept_spu, s.accept_lev, s.accept_mode, s.accept_pending, s.accept_pin, s.accept_closing, s.accept_profile,
      fun k => ?_, s.accept_hli_eq, ?_, fun k hk => ?_, fun h hw => s.settledBefore_hli_of_one hw, fun hw => ?_,
      fun h => ⟨fun q hq => ?_, fun hno => ?_⟩⟩
    · rw [hopened]
      exact List.getLast?_concat
    · rw [s.accept_scu]
      exact Scu.inForce_eq _
    · rw [s.accept_head]
      exact map4_get Head.firstAnswer _ h
    · rw [hopened]
      exact (setOwner_owner _ _ _ _).trans (if_pos rfl)
    · have hsent : s.settledBefore.hlc.sent = s.hlc.sent := hbanks.2.2
      rw [hopened, ← hsent]
      simp only [State.accept_head]
      rfl
    · rw [hopened]
      exact (setOwner_banks _ _ _ _).trans (hbanks.1 k)
    · rw [hopened]
      rfl
    · rw [hopened]
      exact (setOwner_owner _ _ _ _).trans (if_neg hk)
    · have hbefore := s.settledBefore_of_none hw
      exact ⟨(congrArg State.hli hbefore :), (congrArg State.hlc hbefore :)⟩
    · obtain ⟨⟨r, hr, hscan, hanswer⟩, hhead⟩ := s.settledBefore_head_of_open hq
      exact ⟨⟨r, by rw [hopened]; exact List.mem_append_left _ hr, hscan, hanswer⟩, (s.accept_head h).trans hhead⟩
    · exact (s.accept_head h).trans (s.settledBefore_head_of_none hno)
  · have hrefused : s.accepts = false := Bool.eq_false_iff.mpr fun h => hbusy (s.accepts_iff.mp h)
    rw [State.trigger_refused hrefused]
    rfl
  · refine (act_free State.timeDue hp).trans ?_
    unfold State.timeDue
    rw [hm, hc, hd]
  · refine (act_free State.timeDue hp).trans ?_
    rw [State.timeDue_of_not]
    rintro ⟨hm, hc, due, hd⟩
    rcases h with h | h | h
    · exact h hm
    · exact h hc
    · rw [h] at hd
      cases hd
  · exact act_take_taken hs (beq_iff_eq.mpr hk) (by rw [hm]; rfl)
      ((scanOnceWork_eq _ hb).trans (if_neg (not_not.mpr hc)))
  · exact act_take_refused hs (beq_iff_eq.mpr hk) (by rw [hm]; rfl) ((scanOnceWork_eq _ hb).trans (if_pos hc))

end Sys2Proof.Machine
end

section
/-! PROOFS. The extractor: how points are cut into clusters (R70), the lowest height and the face of a cluster (R71, R74),
what one answer gives (R69 to R76), and what one scan gives (R68, R77, R80, R81). -/

namespace Sys2Proof.Machine

/-! ## Clusters (R70) -/

/-- No point that begins a cluster would have joined the point that ends the cluster before it. -/
def cutApart (set : ExtractSettings) (c d : List TrackPoint) : Prop :=
  ∀ p q, c.getLast? = some p → d.head? = some q → joins set p q = false

theorem joins_iff (set : ExtractSettings) (a b : TrackPoint) :
    joins set a b = true ↔ (b.x - a.x).natAbs ≤ set.gapX ∧ (b.z - a.z).natAbs ≤ set.gapZ := by
  simp [joins]

section Clusters

variable {set : ExtractSettings}

/-- The clusters behind a point begin with the next point. -/
theorem clusters_cons_head (b : TrackPoint) (rest : List TrackPoint) :
    ∃ c cs, clusters set (b :: rest) = c :: cs ∧ c.head? = some b := by
  have hflat := clusters_flatten set (b :: rest)
  cases hc : clusters set (b :: rest) with
  | nil => simp [hc] at hflat
  | cons c cs =>
    have hne := clusters_ne_nil set (b :: rest) c (by simp [hc])
    obtain ⟨p, tail, rfl⟩ := List.exists_cons_of_ne_nil hne
    rw [hc, List.flatten_cons, List.cons_append, List.cons.injEq] at hflat
    exact ⟨p :: tail, cs, rfl, by rw [hflat.1]; rfl⟩

theorem clusters_cons_cons {a b : TrackPoint} {rest : List TrackPoint} {c : List TrackPoint}
    {cs : List (List TrackPoint)} (hc : clusters set (b :: rest) = c :: cs) :
    clusters set (a :: b :: rest) = if joins set a b then (a :: c) :: cs else [a] :: c :: cs := by
  rw [clusters.eq_def]
  simp only [hc]

/-- R70: within a cluster each point joins the one before it, and between clusters it does not. -/
theorem clusters_cut (points : List TrackPoint) :
    (∀ c ∈ clusters set points, c.IsChain fun a b => joins set a b = true) ∧
    (clusters set points).IsChain (cutApart set) := by
  induction points with
  | nil => simp [clusters]
  | cons a rest ih =>
    cases rest with
    | nil => simp [clusters]
    | cons b rest =>
      obtain ⟨c, cs, hc, hhead⟩ := clusters_cons_head (set := set) b rest
      obtain ⟨hin, hbetween⟩ := ih
      obtain ⟨tail, rfl⟩ : ∃ tail, c = b :: tail := by
        cases c with
        | nil => simp at hhead
        | cons p tail => exact ⟨tail, by simpa using hhead⟩
      rw [hc] at hin hbetween
      rw [clusters_cons_cons hc]
      obtain ⟨hchain, hrest⟩ := List.forall_mem_cons.mp hin
      split
      · next hjoin =>
        refine ⟨List.forall_mem_cons.mpr ⟨List.isChain_cons_cons.mpr ⟨hjoin, hchain⟩, hrest⟩, ?_⟩
        cases cs with
        | nil => exact List.isChain_singleton _
        | cons d cs =>
          obtain ⟨hcd, htail⟩ := List.isChain_cons_cons.mp hbetween
          exact List.isChain_cons_cons.mpr ⟨fun p q hp hq => hcd p q (by simpa using hp) hq, htail⟩
      · next hjoin =>
        refine ⟨List.forall_mem_cons.mpr ⟨List.isChain_singleton _, hin⟩,
          List.isChain_cons_cons.mpr ⟨fun p q hp hq => ?_, hbetween⟩⟩
        obtain rfl : a = p := by simpa using hp
        obtain rfl : b = q := by simpa using hq
        simpa using hjoin

end Clusters

/-! ## The figures of a cluster (R71) -/

theorem clusterFirst_of_head {c : List TrackPoint} {p : TrackPoint} (h : c.head? = some p) : clusterFirst c = p.x := by
  simp [clusterFirst, h]

theorem clusterLast_of_getLast {c : List TrackPoint} {p : TrackPoint} (h : c.getLast? = some p) :
    clusterLast c = p.x := by
  simp [clusterLast, h]

theorem foldl_min_le (l : List TrackPoint) (m : Int) :
    l.foldl (fun m p => min m p.z) m ≤ m ∧ ∀ p ∈ l, l.foldl (fun m p => min m p.z) m ≤ p.z := by
  induction l generalizing m with
  | nil => simp
  | cons a l ih =>
    obtain ⟨hle, hall⟩ := ih (min m a.z)
    simp only [List.foldl_cons, List.forall_mem_cons]
    exact ⟨hle.trans (min_le_left _ _), hle.trans (min_le_right _ _), hall⟩

theorem clusterLow_le {c : List TrackPoint} {p : TrackPoint} (hp : p ∈ c) : clusterLow c ≤ p.z := by
  cases c with
  | nil => cases hp
  | cons a rest =>
    obtain ⟨hle, hall⟩ := foldl_min_le rest a.z
    rcases List.mem_cons.mp hp with rfl | hp
    · exact hle
    · exact hall p hp

theorem clusterLow_of_lowest {c : List TrackPoint} {lowest : TrackPoint} (hmem : lowest ∈ c)
    (hlow : ∀ p ∈ c, lowest.z ≤ p.z) : clusterLow c = lowest.z := by
  obtain ⟨p, hp, heq⟩ := clusterLow_mem (List.ne_nil_of_mem hmem)
  exact le_antisymm (clusterLow_le hmem) (heq ▸ hlow p hp)

/-! ## The face of a cluster (R74) -/

section FaceRuns

variable {set : ExtractSettings} {low : Int}

/-- Face points one after another, by the indices they were sent with. -/
def FaceRun (set : ExtractSettings) (low : Int) (l : List TrackPoint) : Prop :=
  (∀ p ∈ l, isFace set low p = true) ∧ l.IsChain fun p q => q.index = p.index + 1

theorem FaceRun.tail {a : TrackPoint} {l : List TrackPoint} (h : FaceRun set low (a :: l)) : FaceRun set low l :=
  ⟨fun p hp => h.1 p (List.mem_cons_of_mem a hp), h.2.tail⟩

/-- The point `a` and the point behind it are of one run. -/
def runsOn (set : ExtractSettings) (low : Int) (a : TrackPoint) (rest : List TrackPoint) : Prop :=
  ∃ b more, rest = b :: more ∧ isFace set low b = true ∧ b.index = a.index + 1

theorem faceRuns_of_not_face {a : TrackPoint} (ha : isFace set low a = false) (rest : List TrackPoint) :
    faceRuns set low (a :: rest) = faceRuns set low rest := by
  rw [faceRuns.eq_def]
  simp [ha]

theorem faceRuns_of_runsOn {a : TrackPoint} {rest r : List TrackPoint} {rs : List (List TrackPoint)}
    (ha : isFace set low a = true) (hon : runsOn set low a rest) (hr : faceRuns set low rest = r :: rs) :
    faceRuns set low (a :: rest) = (a :: r) :: rs := by
  obtain ⟨b, more, rfl, hb, hindex⟩ := hon
  rw [faceRuns.eq_def]
  simp [ha, hb, hindex, hr]

theorem faceRuns_of_stop {a : TrackPoint} {rest : List TrackPoint} (ha : isFace set low a = true)
    (hstop : ¬ runsOn set low a rest) : faceRuns set low (a :: rest) = [a] :: faceRuns set low rest := by
  rw [faceRuns.eq_def]
  simp only [ha, Bool.not_true, Bool.false_eq_true, if_false]
  split
  · next b more r rs hruns =>
    have hno : (isFace set low b && b.index == a.index + 1) = false := by
      rw [Bool.eq_false_iff, ne_eq, Bool.and_eq_true, beq_iff_eq]
      exact fun h => hstop ⟨b, more, rfl, h⟩
    simp [hno, hruns]
  · rfl

/-- At a face point the first run is the longest that begins there. -/
theorem faceRuns_first {a : TrackPoint} (ha : isFace set low a = true) (rest : List TrackPoint) :
    ∃ r rs, faceRuns set low (a :: rest) = (a :: r) :: rs ∧ FaceRun set low (a :: r) ∧ (∃ after, rest = r ++ after) ∧
      ∀ other after, a :: rest = other ++ after → FaceRun set low other → other.length ≤ r.length + 1 := by
  induction rest generalizing a with
  | nil =>
    refine ⟨[], [], faceRuns_of_stop ha (by simp [runsOn]), ⟨by simpa using ha, List.isChain_singleton _⟩, ⟨[], rfl⟩, ?_⟩
    intro other after h _
    have := congrArg List.length h
    simp at this
    simp
    omega
  | cons b more ih =>
    by_cases hon : runsOn set low a (b :: more)
    · obtain ⟨_, _, hcons, hb, hindex⟩ := hon
      obtain ⟨rfl, rfl⟩ := List.cons.inj hcons
      obtain ⟨r, rs, hruns, hrun, ⟨after, hafter⟩, hmax⟩ := ih hb
      refine ⟨b :: r, rs, faceRuns_of_runsOn ha ⟨b, more, rfl, hb, hindex⟩ hruns, ⟨?_, ?_⟩, ⟨after, by rw [hafter]; rfl⟩, ?_⟩
      · exact List.forall_mem_cons.mpr ⟨ha, hrun.1⟩
      · exact List.isChain_cons_cons.mpr ⟨hindex, hrun.2⟩
      · intro other behind h hother
        cases other with
        | nil => simp
        | cons p other =>
          simpa using hmax other behind (List.cons.inj h).2 hother.tail
    · refine ⟨[], faceRuns set low (b :: more), faceRuns_of_stop ha hon, ⟨by simpa using ha, List.isChain_singleton _⟩,
        ⟨b :: more, rfl⟩, ?_⟩
      intro other behind h hother
      match other with
      | [] => simp
      | [_] => simp
      | p :: q :: other =>
        obtain ⟨rfl, htail⟩ := List.cons.inj h
        obtain ⟨rfl, -⟩ := List.cons.inj htail
        exact absurd ⟨b, more, rfl, hother.1 b (by simp), (List.isChain_cons_cons.mp hother.2).1⟩ hon

/-- What is behind a face point has the same runs, but for the first when that runs on to it. -/
theorem faceRuns_behind {a : TrackPoint} {rest r : List TrackPoint} {rs : List (List TrackPoint)}
    (ha : isFace set low a = true) (h : faceRuns set low (a :: rest) = (a :: r) :: rs) :
    faceRuns set low rest = rs ∨ faceRuns set low rest = r :: rs := by
  by_cases hon : runsOn set low a rest
  · obtain ⟨b, more, rfl, hb, hindex⟩ := hon
    obtain ⟨q, qs, hruns, -⟩ := faceRuns_first hb more
    rw [faceRuns_of_runsOn ha ⟨b, more, rfl, hb, hindex⟩ hruns] at h
    obtain ⟨hq, rfl⟩ := List.cons.inj h
    obtain ⟨-, rfl⟩ := List.cons.inj hq
    exact .inr hruns
  · rw [faceRuns_of_stop ha hon] at h
    exact .inl (List.cons.inj h).2

/-- `r` is the first of the longest runs of `c`, or empty when `c` has no run. -/
def LongestRun (set : ExtractSettings) (low : Int) (c r : List TrackPoint) : Prop :=
  ∃ before after, c = before ++ r ++ after ∧ FaceRun set low r ∧
    ∀ pre other post, c = pre ++ other ++ post → FaceRun set low other →
      other.length ≤ r.length ∧ (r ≠ [] → other.length = r.length → before.length ≤ pre.length)

/-- A run of `a :: rest` begins at `a`, or is one of `rest`. -/
theorem occurs_cons {a : TrackPoint} {rest pre other post : List TrackPoint} (h : a :: rest = pre ++ other ++ post) :
    (pre = [] ∧ a :: rest = other ++ post) ∨ ∃ more, pre = a :: more ∧ rest = more ++ other ++ post := by
  cases pre with
  | nil => exact .inl ⟨rfl, h⟩
  | cons p more =>
    obtain ⟨rfl, hrest⟩ := List.cons.inj h
    exact .inr ⟨more, rfl, hrest⟩

/-- The longest run of what is behind `a` stays the first longest when no run that begins at `a` is as long. -/
theorem LongestRun.cons {a : TrackPoint} {rest r : List TrackPoint} (h : LongestRun set low rest r)
    (hshort : ∀ other post, a :: rest = other ++ post → FaceRun set low other → other.length ≤ r.length ∧
      (r ≠ [] → other.length < r.length)) : LongestRun set low (a :: rest) r := by
  obtain ⟨before, after, hc, hrun, hmax⟩ := h
  refine ⟨a :: before, after, by rw [hc]; rfl, hrun, fun pre other post hocc hother => ?_⟩
  rcases occurs_cons hocc with ⟨-, hbegin⟩ | ⟨more, rfl, hrest⟩
  · obtain ⟨hle, hlt⟩ := hshort other post hbegin hother
    exact ⟨hle, fun hne heq => absurd heq (Nat.ne_of_lt (hlt hne))⟩
  · obtain ⟨hle, hfirst⟩ := hmax more other post hrest hother
    exact ⟨hle, fun hne heq => by simpa using hfirst hne heq⟩

/-- A run that begins at `a` is the first longest when it is as long as every other that begins there or behind. -/
theorem LongestRun.of_prefix {a : TrackPoint} {rest r longest after : List TrackPoint}
    (h : LongestRun set low rest longest) (hr : FaceRun set low r) (hc : a :: rest = r ++ after)
    (hbegin : ∀ other post, a :: rest = other ++ post → FaceRun set low other → other.length ≤ r.length)
    (hlen : longest.length ≤ r.length) : LongestRun set low (a :: rest) r := by
  obtain ⟨_, _, -, -, hmax⟩ := h
  refine ⟨[], after, hc, hr, fun pre other post hocc hother => ⟨?_, fun _ _ => Nat.zero_le _⟩⟩
  rcases occurs_cons hocc with ⟨-, hb⟩ | ⟨more, rfl, hrest⟩
  · exact hbegin other post hb hother
  · exact (hmax more other post hrest hother).1.trans hlen

theorem longestRun_faceRuns (c : List TrackPoint) : LongestRun set low c (longestRun (faceRuns set low c)) := by
  induction c with
  | nil =>
    refine ⟨[], [], rfl, ⟨List.forall_mem_nil _, List.isChain_nil⟩, fun pre other post h _ => ?_⟩
    obtain ⟨hpre, -⟩ := List.append_eq_nil_iff.mp h.symm
    obtain ⟨-, rfl⟩ := List.append_eq_nil_iff.mp hpre
    exact ⟨Nat.zero_le _, fun hne => absurd rfl hne⟩
  | cons a rest ih =>
    by_cases ha : isFace set low a = true
    · obtain ⟨r, rs, hruns, hrun, ⟨after, rfl⟩, hmax⟩ := faceRuns_first ha rest
      have hlonger : (a :: r).length < (longestRun rs).length → longestRun (faceRuns set low (r ++ after)) = longestRun rs := by
        intro hlt
        rcases faceRuns_behind ha hruns with hrest | hrest
        · rw [hrest]
        · rw [hrest, longestRun, if_pos (Nat.lt_of_succ_lt hlt)]
      have hnotLonger : ¬ (a :: r).length < (longestRun rs).length →
          (longestRun (faceRuns set low (r ++ after))).length ≤ (a :: r).length := by
        intro hle
        rcases faceRuns_behind ha hruns with hrest | hrest <;> rw [hrest]
        · omega
        · rw [longestRun]
          split
          · omega
          · simp
      rw [hruns, longestRun]
      split
      · next hlt =>
        rw [hlonger hlt] at ih
        refine ih.cons fun other post h hother => ?_
        have hle := hmax other post h hother
        rw [List.length_cons] at hlt
        exact ⟨by omega, fun _ => by omega⟩
      · next hle => exact ih.of_prefix hrun rfl hmax (hnotLonger hle)
    · rw [faceRuns_of_not_face (by simpa using ha)]
      refine ih.cons fun other post h hother => ?_
      cases other with
      | nil => exact ⟨Nat.zero_le _, fun hne => List.length_pos_iff.mpr hne⟩
      | cons p other =>
        obtain ⟨rfl, -⟩ := List.cons.inj h
        exact absurd (hother.1 _ List.mem_cons_self) ha

end FaceRuns

theorem isFace_iff (set : ExtractSettings) (low : Int) (p : TrackPoint) :
    isFace set low p = true ↔ set.faceIntensity ≤ p.intensity ∧ p.z ≤ low + set.faceTolerance := by
  simp [isFace]

theorem faceRun_iff (set : ExtractSettings) (low : Int) (l : List TrackPoint) : FaceRun set low l ↔
    (∀ p ∈ l, set.faceIntensity ≤ p.intensity ∧ p.z ≤ low + set.faceTolerance) ∧
    ∀ a p q b, l = a ++ p :: q :: b → q.index = p.index + 1 := by
  simp only [FaceRun, isFace_iff, List.isChain_iff_forall_rel_of_append_cons_cons]
  exact and_congr_right fun _ => ⟨fun h a p q b hl => h hl, fun h p q a b hl => h a p q b hl⟩

/-- R74: the width is that of the first longest run, when it has two points or more. -/
theorem faceWidth_eq_some {set : ExtractSettings} {pitch w : Nat} {c : List TrackPoint}
    (h : faceWidth set pitch c = some w) : ∃ before face after a b, c = before ++ face ++ after ∧
      FaceRun set (clusterLow c) face ∧ 2 ≤ face.length ∧ face.head? = some a ∧ face.getLast? = some b ∧
      w = (b.x - a.x).natAbs + pitch ∧ ∀ pre other post, c = pre ++ other ++ post → FaceRun set (clusterLow c) other →
        other.length ≤ face.length ∧ (other.length = face.length → before.length ≤ pre.length) := by
  let face := longestRun (faceRuns set (clusterLow c) c)
  obtain ⟨before, after, hc, hrun, hmax⟩ := longestRun_faceRuns (set := set) (low := clusterLow c) c
  have hwidth : (if 2 ≤ face.length then some ((clusterLast face - clusterFirst face).natAbs + pitch) else none) =
      some w := h
  by_cases hlen : 2 ≤ face.length
  · have hne : face ≠ [] := List.ne_nil_of_length_pos (by omega)
    have hfirst := List.head?_eq_some_head hne
    have hlast := List.getLast?_eq_some_getLast hne
    rw [if_pos hlen, clusterFirst_of_head hfirst, clusterLast_of_getLast hlast, Option.some.injEq] at hwidth
    exact ⟨before, face, after, _, _, hc, hrun, hlen, hfirst, hlast, hwidth.symm, fun pre other post hocc hother =>
      ⟨(hmax pre other post hocc hother).1, (hmax pre other post hocc hother).2 hne⟩⟩
  · rw [if_neg hlen] at hwidth
    cases hwidth

theorem faceWidth_eq_none {set : ExtractSettings} {pitch : Nat} {c pre other post : List TrackPoint}
    (h : faceWidth set pitch c = none) (hocc : c = pre ++ other ++ post)
    (hother : FaceRun set (clusterLow c) other) : other.length ≤ 1 := by
  obtain ⟨_, _, -, -, hmax⟩ := longestRun_faceRuns (set := set) (low := clusterLow c) c
  have hle := (hmax pre other post hocc hother).1
  by_contra hlong
  rw [faceWidth, if_pos (by omega)] at h
  cases h

/-! ## One answer (R69 to R76) -/

/-- R69: the points at or above the noise floor keep their indices. -/
theorem transformed_eq (cal : Calibration) (m : MotionSample) (zr : Nat) (lead : CarEnd) (points : List Point) (i : Nat) :
    transformed cal m zr lead i points = ((points.zipIdx i).filter fun a => cal.floor ≤ a.1.intensity).map fun a =>
      { index := a.2, x := (trackFrame cal m zr lead a.1).1, z := (trackFrame cal m zr lead a.1).2,
        intensity := a.1.intensity } := by
  induction points generalizing i with
  | nil => rfl
  | cons p rest ih =>
    rw [transformed, List.zipIdx_cons]
    by_cases hp : p.intensity < cal.floor
    · rw [if_pos hp, ih, List.filter_cons_of_neg (by simpa using hp)]
    · rw [if_neg hp, ih, List.filter_cons_of_pos (by simpa using hp)]
      rfl

theorem inFrame_eq (p : TrackPoint) :
    inFrame (p.x, p.z) = decide (-7000 ≤ p.x ∧ p.x ≤ 7000 ∧ 0 ≤ p.z ∧ p.z ≤ 99999) := by
  rw [Bool.eq_iff_iff, inFrame_iff, decide_eq_true_iff]
  exact and_assoc

/-- What a filter drops of a list. -/
theorem length_sub_filter {α : Type} (p : α → Bool) (l : List α) :
    l.length - (l.filter p).length = (l.filter fun a => !p a).length := by
  have := List.length_eq_length_filter_add (l := l) p
  omega

theorem headYield_eq (x : Pxu) (zr : Nat) (m : MotionSample) (d : Design) (h : HeadNo) (window : Bool)
    (points : List Point) :
    let cal := x.calibration[h]
    let all := transformed cal m zr x.leading 0 points
    let cut := clusters x.settings (all.filter fun p => inFrame (p.x, p.z))
    let judge := acceptance x.settings cal.pitch d
    let accepted := cut.filter fun c => judge c = .accepted
    headYield x zr m d h window points =
      { candidates := headCap (accepted.map (candidateOf x.settings h cal window))
        outOfFrame := (all.filter fun p => !inFrame (p.x, p.z)).length
        verdicts := cut.map judge
        dropped := accepted.length - 6 } := by
  intro cal all cut judge accepted
  have hdropped : (accepted.map (candidateOf x.settings h cal window)).length -
      (headCap (accepted.map (candidateOf x.settings h cal window))).length = accepted.length - 6 := by
    rw [headCap_length, List.length_map]
    omega
  have haccepted : (cut.filter fun c => judge c == .accepted) = accepted :=
    List.filter_congr fun c _ => beq_eq_decide _ _
  simp only [headYield]
  rw [length_sub_filter, haccepted, hdropped]

/-! ## One scan (R51, R68, R77, R80, R81) -/

theorem ScanRecord.presentAnswers_eq (r : ScanRecord) (pair : BankPair) : presentAnswers r pair =
    (heads4.filterMap fun h => match r.answers[h] with
      | .present window => some (h, window)
      | _ => none).map fun a => (a.1, a.2, (pair.banks[a.1]).points) := by
  rw [List.map_filterMap]
  refine List.filterMap_congr fun h _ => ?_
  cases r.answers[h] <;> rfl

theorem ScanRecord.blind_eq (r : ScanRecord) : r.blind = decide ((heads4.filterMap fun h => match r.answers[h] with
    | .present window => some (h, window)
    | _ => none) = []) := by
  rw [Bool.eq_iff_iff, ScanRecord.blind, List.all_eq_true, decide_eq_true_iff, List.filterMap_eq_nil_iff]
  refine forall₂_congr fun h _ => ?_
  cases r.answers[h] <;> simp [Answer.isPresent]

theorem extract_eq (x : Pxu) (zr : Nat) (r : ScanRecord) (m : MotionSample) (pair : BankPair) :
    let yields := (presentAnswers r pair).map fun a => headYield x zr m r.snapshot a.1 a.2.1 a.2.2
    let formed := (groups x.settings (sequenceOf yields)).map groupOf
    extract x zr r m pair = { x with
      current := some { header := r.header, snapshot := r.snapshot, flags := m.flags, blind := r.blind,
                        groups := scanCap formed }
      counters := x.counters.add yields (formed.length - 12) } := by
  intro yields formed
  have hdropped : formed.length - (scanCap formed).length = formed.length - 12 := by
    rw [scanCap_length_eq]
    omega
  rw [← hdropped]
  rfl

/-- R72: what the run counters take from the verdicts of all answers. -/
theorem sum_count_verdicts (yields : List HeadYield) (v : Acceptance) :
    (yields.map fun y => y.verdicts.count v).sum = (yields.flatMap (·.verdicts)).count v :=
  List.count_flatMap.symm

theorem countBy_zero (n : Nat) : countBy n 0 = n := by
  simp [countBy]

theorem countBy_eq {n : Nat} (hn : n ≤ 65535) (k : Nat) : countBy n k = min 65535 (n + k) := by
  have hstop : Config.counterStop = 65535 := rfl
  rw [countBy, hstop]
  omega

theorem countUp_eq {n : Nat} (hn : n ≤ 65535) : countUp n = min 65535 (n + 1) := by
  have hstop : Config.counterStop = 65535 := rfl
  rw [countUp, hstop]
  split <;> omega

/-! ## The rows (R68, R81) -/

section Rows

variable {s : State}

theorem State.extractNext_of_complete {a b : List ScanRecord} {r : ScanRecord} {m : MotionSample}
    (hcur : s.pxu.current = none) (hl : s.hlc.scans = a ++ r :: b) (ha : ∀ x ∈ a, x.stage ≠ .complete)
    (hr : r.stage = .complete) (hm : r.motion = some m) : s.extractNext = { s with
      pxu := extract s.pxu s.mcv.rollCentre r m s.hlc.pairs[parity r.header.scan]
      hlc := { s.hlc with scans := a ++ { r with stage := .taken } :: b } } := by
  have hfind : s.hlc.scans.find? (fun r => r.stage == .complete) = some r :=
    List.find?_eq_some_iff_append.mpr ⟨by simp [hr], a, b, hl, fun x hx => by simpa using ha x hx⟩
  unfold State.extractNext
  rw [hcur, hfind]
  simp only [hm, hl, takeComplete_eq ha hr]

theorem State.extractNext_of_none (h : s.pxu.current ≠ none ∨ ∀ r ∈ s.hlc.scans, r.stage ≠ .complete) :
    s.extractNext = s := by
  unfold State.extractNext
  split
  · next r hcur hfind =>
    obtain ⟨a, b, hl, hr, -⟩ := find_complete hfind
    rcases h with h | h
    · exact absurd hcur h
    · exact absurd hr (h r (by simp [hl]))
  · rfl

theorem State.handOver_of_some {c : HandedScan} (hc : s.pxu.current = some c) : s.handOver = { s with
    pxu := { s.pxu with current := none }, wtr := { s.wtr with inbox := s.wtr.inbox ++ [c] } } := by
  unfold State.handOver
  rw [hc]

theorem State.handOver_of_none (hc : s.pxu.current = none) : s.handOver = s := by
  unfold State.handOver
  rw [hc]

end Rows

/-- Settles O33. -/
theorem scanExtractedAndHandedOver : Obligations.ScanExtractedAndHandedOver := by
  refine ⟨⟨fun s a b r m hp hcur hl ha hr hm => ?_, fun s hp h => ?_, fun s c hp hc => ?_, fun s hp hc => ?_⟩,
    fun x zr r m pair => ?_, fun n k hn => ⟨countBy_eq hn k, countUp_eq hn⟩, fun x zr m d h window points => ?_,
    fun set points => ?_, fun set pitch d cluster first last lowest hfirst hlast hmem hlow => ?_⟩
  · exact (act_free State.extractNext hp).trans (by rw [State.extractNext_of_complete hcur hl ha hr hm])
  · exact (act_free State.extractNext hp).trans (by rw [State.extractNext_of_none h])
  · exact (act_free State.handOver hp).trans (by rw [State.handOver_of_some hc])
  · exact (act_free State.handOver hp).trans (by rw [State.handOver_of_none hc])
  · intro present yields formed rejected c
    have hyields : (presentAnswers r pair).map (fun a => headYield x zr m r.snapshot a.1 a.2.1 a.2.2) = yields :=
      (congrArg (List.map _) (r.presentAnswers_eq pair)).trans List.map_map
    have hblind : r.blind = decide (present = []) := r.blind_eq
    rw [extract_eq x zr r m pair, hyields, hblind]
    refine ⟨?_, fun hnone => ?_⟩
    · simp only [ExtractCounters.add, sum_count_verdicts]
      rfl
    · have hyields : yields = [] := by simp only [yields, hnone, List.map_nil]
      have hformed : formed = [] := by
        simp only [formed, hyields]
        rfl
      refine ⟨hformed, ?_⟩
      change x.counters.add yields (formed.length - 12) = c
      rw [hformed, hyields]
      simp only [ExtractCounters.add, List.map_nil, List.sum_nil, List.length_nil, Nat.zero_sub, Nat.add_zero,
        countBy_zero]
      rfl
  · have hyield := headYield_eq x zr m d h window points
    simp only [transformed_eq, inFrame_eq] at hyield
    exact hyield
  · obtain ⟨hin, hbetween⟩ := clusters_cut (set := set) points
    refine ⟨clusters_flatten set points, fun c hc => ⟨clusters_ne_nil set points c hc, fun a p q b h => ?_⟩,
      fun a c d b p q h hp hq hnear => ?_⟩
    · exact (joins_iff set p q).mp (List.isChain_iff_forall_rel_of_append_cons_cons.mp (hin c hc) h)
    · have hcut := List.isChain_iff_forall_rel_of_append_cons_cons.mp hbetween h p q hp hq
      exact Bool.false_ne_true (hcut.symm.trans ((joins_iff set p q).mpr hnear))
  · intro extent shape run
    have hlowest : clusterLow cluster = lowest.z := clusterLow_of_lowest hmem hlow
    have hrun : ∀ l, FaceRun set (clusterLow cluster) l ↔ run l := fun l => hlowest ▸ faceRun_iff set _ l
    refine ⟨?_, fun h cal window => ⟨_, roundDiv_rounds (first.x + last.x) (by decide), ?_⟩, fun w hw => ?_,
      fun hw pre other post hocc hother => faceWidth_eq_none hw hocc ((hrun other).mpr hother)⟩
    · simp only [acceptance, Machine.extent, clusterFirst_of_head hfirst, clusterLast_of_getLast hlast, hlowest]
      rfl
    · have hface : (if cal.wear && !window then faceWidth set cal.pitch cluster else none) =
          if cal.wear = true ∧ window = false then faceWidth set cal.pitch cluster else none := by
        cases cal.wear <;> cases window <;> rfl
      simp only [candidateOf, clusterFirst_of_head hfirst, clusterLast_of_getLast hlast, hlowest, hface]
    · obtain ⟨before, face, after, a, b, hc, hface, hlen, ha, hb, hwidth, hmax⟩ := faceWidth_eq_some hw
      exact ⟨before, face, after, a, b, hc, (hrun face).mp hface, hlen, ha, hb, hwidth,
        fun pre other post hocc hother => hmax pre other post hocc ((hrun other).mpr hother)⟩

end Sys2Proof.Machine
end

section
/-! PROOFS. What one scan does to a slot of the track table: the candidate it stands with (R90), its move (R92 to R95), the
births into it (R96 to R98); and from these the samples of CONFIRMED tracks and the notices of ended ones (R99, R101). -/

namespace Sys2Proof.Machine

/-! ## The candidate of a slot (R90) -/

section CandidateAt

variable {pairs : List (Group × Option (Fin 8))} {k : Fin 8} {g : Group}

theorem mem_of_candidateAt_eq_some (h : candidateAt pairs k = some g) : (g, some k) ∈ pairs := by
  obtain ⟨⟨g, chosen⟩, hfind, rfl⟩ := Option.map_eq_some_iff.mp h
  obtain rfl : chosen = some k := by simpa using List.find?_some hfind
  exact List.mem_of_find?_eq_some hfind

theorem candidateAt_eq_none_iff : candidateAt pairs k = none ↔ some k ∉ pairs.map (·.2) := by
  simp only [candidateAt, Option.map_eq_none_iff, List.find?_eq_none, beq_iff_eq, List.mem_map, not_exists, not_and]

/-- Where no slot is taken twice, a slot stands with the one candidate that took it. -/
theorem candidateAt_of_mem (hnodup : (pairs.filterMap (·.2)).Nodup) (h : (g, some k) ∈ pairs) :
    candidateAt pairs k = some g := by
  induction pairs with
  | nil => cases h
  | cons a rest ih =>
    rcases List.mem_cons.mp h with rfl | hrest
    · simp [candidateAt]
    · obtain ⟨f, chosen⟩ := a
      have hk : k ∈ rest.filterMap (·.2) := List.mem_filterMap.mpr ⟨_, hrest, rfl⟩
      have hother : chosen ≠ some k := by
        rintro rfl
        exact (List.nodup_cons.mp hnodup).1 hk
      have htail : (rest.filterMap (·.2)).Nodup := hnodup.sublist ((List.sublist_cons_self _ _).filterMap _)
      simpa [candidateAt, hother] using ih htail hrest

theorem track_of_mem_associate {set : TrackerSettings} {table : Vector Slot 8} {taken : List (Fin 8)} {gs : List Group}
    (h : (g, some k) ∈ associate set table taken gs) : ∃ t, (table[k]).track? = some t := by
  obtain ⟨a, b, hsplit⟩ := List.append_of_mem h
  obtain ⟨t, ⟨ht, -⟩, -⟩ := fits_of_nearest_eq_some (associate_chosen hsplit).symm
  exact ⟨t, ht⟩

end CandidateAt

/-! ## Slots -/

theorem Slot.established_iff (x : Slot) :
    x.established = true ↔ (∃ t role, x = .confirmed t role) ∨ ∃ t n role, x = .coasting t n role := by
  cases x <;> simp [Slot.established]

theorem Slot.track?_eq_some_iff (x : Slot) (t : Seen) : x.track? = some t ↔
    (∃ n, x = .tentative t n) ∨ (∃ role, x = .confirmed t role) ∨ ∃ n role, x = .coasting t n role := by
  cases x <;> simp [Slot.track?]

/-- The slot holds an established track with this id. -/
def Slot.EstablishedAs (x : Slot) (id : Nat) : Prop := x.established = true ∧ ∃ t, x.track? = some t ∧ t.id = id

/-- The slot stands with the candidate: it holds a track seen in the scan, at the candidate's position. -/
def Slot.StandsWith (x : Slot) (g : Group) : Prop :=
  x.coastMisses = none ∧ ∃ t, x.track? = some t ∧ t.x = g.x ∧ t.z = g.z ∧ t.face = g.face

/-- A birth may take the slot: it is EMPTY or COASTING. -/
def Slot.Vacant (x : Slot) : Prop := x = .empty ∨ ∃ t n role, x = .coasting t n role

theorem Slot.StandsWith.not_vacant {x : Slot} {g : Group} (h : x.StandsWith g) : ¬ x.Vacant := by
  obtain ⟨hseen, t, ht, -⟩ := h
  rintro (rfl | ⟨u, n, role, rfl⟩)
  · cases ht
  · cases hseen

/-! ## Moves (R92 to R95) -/

section MoveSlot

variable {set : TrackerSettings} {k : Fin 8} {g : Group} {c : Option Group} {x : Slot} {t : Seen}

theorem moveSlot_standsWith (h : x.track? = some t) : (moveSlot set k (some g) x).1.StandsWith g := by
  cases x with
  | empty => cases h
  | tentative u n =>
    rw [moveSlot]
    split <;> exact ⟨rfl, _, rfl, rfl, rfl, rfl⟩
  | confirmed u role => exact ⟨rfl, _, rfl, rfl, rfl, rfl⟩
  | coasting u n role => exact ⟨rfl, _, rfl, rfl, rfl, rfl⟩

/-- R94, R99: an established track is still held after its move, or is LOST. -/
theorem moveSlot_establishedAs_or_lost {id : Nat} (h : x.EstablishedAs id) :
    (moveSlot set k c x).1.EstablishedAs id ∨
      (moveSlot set k c x).2 = some { slot := k, id := id, reason := .lost } := by
  obtain ⟨hest, t, ht, rfl⟩ := h
  cases x with
  | empty => cases hest
  | tentative u n => cases hest
  | confirmed u role | coasting u n role =>
    cases ht
    cases c with
    | some g => exact .inl ⟨rfl, _, rfl, rfl⟩
    | none =>
      rw [moveSlot]
      split
      · exact .inr rfl
      · exact .inl ⟨rfl, _, rfl, rfl⟩

theorem moveSlot_notice {n : Notice} (h : (moveSlot set k c x).2 = some n) :
    n.slot = k ∧ n.reason = .lost ∧ x.EstablishedAs n.id := by
  unfold moveSlot at h
  split at h
  case h_5 | h_7 => split at h <;> cases h; exact ⟨rfl, rfl, rfl, _, rfl, rfl⟩
  case h_2 => split at h <;> cases h
  all_goals cases h

/-- A slot that is COASTING after its move held that track, established, before it. -/
theorem moveSlot_coasting {n : Nat} {role : Role} (h : (moveSlot set k c x).1 = .coasting t n role) :
    x.EstablishedAs t.id := by
  unfold moveSlot at h
  split at h
  case h_5 | h_7 => split at h <;> cases h; exact ⟨rfl, _, rfl, rfl⟩
  case h_2 => split at h <;> cases h
  all_goals cases h

end MoveSlot

/-! ## Births (R96 to R98) -/

/-- What a slot is when a track with this id is born into it. -/
def bornSlot (set : TrackerSettings) (id : Nat) (g : Group) : Slot :=
  if set.confirm ≤ 1 then .confirmed { id, x := g.x, z := g.z, face := g.face, age := 1 } .running
  else .tentative { id, x := g.x, z := g.z, face := g.face, age := 1 } 1

theorem bornSlot_standsWith (set : TrackerSettings) (id : Nat) (g : Group) : (bornSlot set id g).StandsWith g := by
  unfold bornSlot
  split <;> exact ⟨rfl, _, rfl, rfl, rfl, rfl⟩

theorem Births.bear_get (set : TrackerSettings) (b : Births) (k : Fin 8) (g : Group) (j : Fin 8) :
    (b.bear set k g).table[j] =
      if j = k then bornSlot set (freeTrackId (heldIds b.table) 8 b.nextId) g else b.table[j] := set_get _ k j _

theorem Births.replace_get (b : Births) (k j : Fin 8) :
    (b.replace k).table[j] = if j = k then .empty else b.table[j] := set_get _ k j _

/-- R97: the notice of the track that gives way. -/
theorem Births.replace_notices {b : Births} {k : Fin 8} {t : Seen} {n : Nat} {role : Role}
    (h : b.table[k] = .coasting t n role) :
    (b.replace k).notices = b.notices ++ [{ slot := k, id := t.id, reason := .replaced }] := by
  rw [Births.replace, h]
  rfl

theorem Slot.isEmpty_iff (x : Slot) : x.isEmpty = true ↔ x = .empty := by
  cases x <;> simp [Slot.isEmpty, Slot.track?]

theorem slots8_get {i : Nat} (h : i < slots8.length) : slots8[i] = ⟨i, h⟩ := by
  have : ∀ k : Fin 8, slots8[k.val]'k.isLt = k := by decide
  exact this ⟨i, h⟩

/-- R96: a birth takes the lowest EMPTY slot. -/
theorem lowestEmpty_eq_some_iff {table : Vector Slot 8} {k : Fin 8} :
    lowestEmpty table = some k ↔ table[k] = .empty ∧ ∀ j, j < k → table[j] ≠ .empty := by
  simp only [lowestEmpty, List.find?_eq_some_iff_getElem, slots8_get, Slot.isEmpty_iff, Bool.not_eq_true',
    Bool.eq_false_iff, ne_eq]
  refine and_congr_right fun _ => ⟨?_, fun h => ⟨k, k.isLt, rfl, fun j hj => h ⟨j, hj.trans k.isLt⟩ hj⟩⟩
  rintro ⟨i, hi, rfl, hbefore⟩ j hj
  exact hbefore j hj

theorem lowestEmpty_eq_none_iff {table : Vector Slot 8} :
    lowestEmpty table = none ↔ ∀ j : Fin 8, table[j] ≠ .empty := by
  simp [lowestEmpty, List.find?_eq_none, mem_slots8, Slot.isEmpty_iff]

/-- What the search for the slot to replace knows of the slots it has seen: none is COASTING, or the best has the
greatest misses, the lowest slot among equals. -/
def WorstOf (misses : Fin 8 → Option Nat) (slots : List (Fin 8)) : Option (Fin 8 × Nat) → Prop
  | none => ∀ j ∈ slots, misses j = none
  | some (k, m) => misses k = some m ∧ k ∈ slots ∧ ∀ j ∈ slots, ∀ n, misses j = some n → n < m ∨ (n = m ∧ k ≤ j)

/-- One slot of that search. -/
def worstStep (misses : Fin 8 → Option Nat) (best : Option (Fin 8 × Nat)) (k : Fin 8) : Option (Fin 8 × Nat) :=
  match misses k, best with
  | none, _ => best
  | some m, none => some (k, m)
  | some m, some (k', m') => if m' < m then some (k, m) else some (k', m')

theorem worstCoasting_eq_search (table : Vector Slot 8) : worstCoasting table =
    (slots8.foldl (worstStep fun k => (table[k]).coastMisses) none).map (·.1) := rfl

theorem WorstOf.worstStep {misses : Fin 8 → Option Nat} {slots : List (Fin 8)} {best : Option (Fin 8 × Nat)}
    (h : WorstOf misses slots best) {k : Fin 8} (hk : ∀ j ∈ slots, j < k) :
    WorstOf misses (slots ++ [k]) (worstStep misses best k) := by
  unfold Machine.worstStep
  cases hm : misses k with
  | none =>
    rcases best with _ | ⟨k', m'⟩
    · exact List.forall_mem_append.mpr ⟨h, by simpa using hm⟩
    · obtain ⟨hmisses, hmem, hworst⟩ := h
      exact ⟨hmisses, List.mem_append_left _ hmem, List.forall_mem_append.mpr ⟨hworst, by simp [hm]⟩⟩
  | some m =>
    rcases best with _ | ⟨k', m'⟩
    · have hnone : ∀ j ∈ slots, misses j = none := h
      refine ⟨hm, by simp, List.forall_mem_append.mpr ⟨fun j hj n hn => ?_, by simp [hm]⟩⟩
      cases (hnone j hj).symm.trans hn
    · obtain ⟨hmisses, hmem, hworst⟩ := h
      dsimp only
      split
      case isTrue hmore =>
        refine ⟨hm, by simp, List.forall_mem_append.mpr ⟨fun j hj n hn => ?_, by simp [hm]⟩⟩
        have := hworst j hj n hn
        omega
      case isFalse hless =>
        refine ⟨hmisses, List.mem_append_left _ hmem, List.forall_mem_append.mpr ⟨hworst, ?_⟩⟩
        have := hk k' hmem
        simp only [List.forall_mem_singleton, hm, Option.some.injEq, forall_eq']
        omega

theorem worstOf_search (misses : Fin 8 → Option Nat) {slots : List (Fin 8)} (h : slots.Pairwise (· < ·)) :
    WorstOf misses slots (slots.foldl (worstStep misses) none) := by
  induction slots using List.reverseRecOn with
  | nil => exact fun j hj => by cases hj
  | append_singleton slots k ih =>
    obtain ⟨hslots, -, hbelow⟩ := List.pairwise_append.mp h
    rw [List.foldl_concat]
    exact (ih hslots).worstStep fun j hj => hbelow j hj k (List.mem_singleton_self k)

theorem Slot.coastMisses_eq_some_iff (x : Slot) (n : Nat) :
    x.coastMisses = some n ↔ ∃ t role, x = .coasting t n role := by
  cases x <;> simp [Slot.coastMisses, eq_comm]

theorem not_coasting_of_worstCoasting {table : Vector Slot 8} (h : worstCoasting table = none) (j : Fin 8) :
    (table[j]).coastMisses = none := by
  rw [worstCoasting_eq_search, Option.map_eq_none_iff] at h
  have hsearch := worstOf_search (fun k => (table[k]).coastMisses) (slots := slots8) (by decide)
  rw [h] at hsearch
  exact hsearch j (mem_slots8 j)

/-- R97: the slot replaced has the greatest misses, and is the lowest among equals. -/
theorem coasting_of_worstCoasting {table : Vector Slot 8} {k : Fin 8} (h : worstCoasting table = some k) :
    ∃ m, (table[k]).coastMisses = some m ∧
      ∀ j n, (table[j]).coastMisses = some n → n < m ∨ (n = m ∧ k ≤ j) := by
  rw [worstCoasting_eq_search, Option.map_eq_some_iff] at h
  obtain ⟨⟨k, m⟩, hfold, rfl⟩ := h
  have hsearch := worstOf_search (fun k => (table[k]).coastMisses) (slots := slots8) (by decide)
  rw [hfold] at hsearch
  obtain ⟨hmisses, -, hworst⟩ := hsearch
  exact ⟨m, hmisses, fun j n => hworst j (mem_slots8 j) n⟩

/-- The outcomes of one birth. -/
inductive BirthOf (set : TrackerSettings) (b : Births) (g : Group) : Births × Option (Fin 8) → Prop
  | empty (k : Fin 8) (h : b.table[k] = .empty) : BirthOf set b g (b.bear set k g, some k)
  | replaced (k : Fin 8) (t : Seen) (n : Nat) (role : Role) (h : b.table[k] = .coasting t n role) :
      BirthOf set b g ((b.replace k).bear set k g, some k)
  | full : BirthOf set b g ({ b with full := countUp b.full }, none)

theorem birthOf_birth (set : TrackerSettings) (b : Births) (g : Group) : BirthOf set b g (birth set b g) := by
  unfold birth
  split
  case h_1 k hk => exact .empty k ((lowestEmpty_eq_some_iff.mp hk).1)
  case h_2 =>
    split
    case h_1 k hk =>
      obtain ⟨m, hm, -⟩ := coasting_of_worstCoasting hk
      obtain ⟨t, role, hcoasting⟩ := (Slot.coastMisses_eq_some_iff _ _).mp hm
      exact .replaced k t m role hcoasting
    case h_2 => exact .full

namespace BirthOf

variable {set : TrackerSettings} {b : Births} {g : Group} {r : Births × Option (Fin 8)}

/-- A birth gives its slot a track at the candidate, the slot having been vacant, and leaves the other slots. -/
theorem slots (h : BirthOf set b g r) : (∀ k, r.2 = some k → (b.table[k]).Vacant ∧ (r.1.table[k]).StandsWith g) ∧
    ∀ j, r.2 ≠ some j → r.1.table[j] = b.table[j] := by
  cases h with
  | empty k hk =>
    refine ⟨?_, fun j hj => ?_⟩
    · intro j hj
      cases hj
      refine ⟨.inl hk, ?_⟩
      rw [Births.bear_get, if_pos rfl]
      exact bornSlot_standsWith _ _ _
    · rw [Births.bear_get, if_neg (by rintro rfl; exact hj rfl)]
  | replaced k t n role hk =>
    refine ⟨?_, fun j hj => ?_⟩
    · intro j hj
      cases hj
      refine ⟨.inr ⟨t, n, role, hk⟩, ?_⟩
      rw [Births.bear_get, if_pos rfl]
      exact bornSlot_standsWith _ _ _
    · have hjk : j ≠ k := by rintro rfl; exact hj rfl
      rw [Births.bear_get, if_neg hjk, Births.replace_get, if_neg hjk]
  | full => exact ⟨fun k hk => by (cases hk), fun _ _ => rfl⟩

theorem keeps_standsWith (h : BirthOf set b g r) {j : Fin 8} {f : Group} (hj : (b.table[j]).StandsWith f) :
    (r.1.table[j]).StandsWith f := by
  by_cases hchosen : r.2 = some j
  · exact absurd (h.slots.1 j hchosen).1 hj.not_vacant
  · rwa [h.slots.2 j hchosen]

/-- R97, R99: the notices gained are of COASTING tracks that gave way. -/
theorem notices (h : BirthOf set b g r) : ∃ new, r.1.notices = b.notices ++ new ∧
    (∀ n ∈ new, n.reason = .replaced ∧ ∃ t m role, b.table[n.slot] = .coasting t m role ∧ t.id = n.id) ∧
    ∀ k t m role, r.2 = some k → b.table[k] = .coasting t m role →
      { slot := k, id := t.id, reason := .replaced } ∈ new := by
  cases h with
  | empty k hk =>
    refine ⟨[], (List.append_nil _).symm, by simp, ?_⟩
    intro j t m role hj hcoasting
    cases hj
    cases hk.symm.trans hcoasting
  | replaced k t n role hk =>
    refine ⟨_, Births.replace_notices hk, List.forall_mem_singleton.mpr ⟨rfl, t, n, role, hk, rfl⟩, ?_⟩
    intro j u m r hj hcoasting
    cases hj
    cases hk.symm.trans hcoasting
    exact List.mem_singleton_self _
  | full => exact ⟨[], (List.append_nil _).symm, by simp, by simp⟩

end BirthOf

/-- A property of the table, counter, notices and count that one birth keeps is kept by all. -/
theorem births_keep {P : Births → Prop} {set : TrackerSettings}
    (hbirth : ∀ b g, P b → P (birth set b g).1) (pairs : List (Group × Option (Fin 8))) {b : Births} (h : P b) :
    P (births set b pairs).1 := by
  induction pairs generalizing b with
  | nil => exact h
  | cons a rest ih =>
    obtain ⟨g, _ | k⟩ := a
    · exact ih (hbirth b g h)
    · exact ih h

theorem births_keep_standsWith (set : TrackerSettings) (pairs : List (Group × Option (Fin 8))) {b : Births} {j : Fin 8}
    {f : Group} (h : (b.table[j]).StandsWith f) : ((births set b pairs).1.table[j]).StandsWith f :=
  births_keep (P := fun b => (b.table[j]).StandsWith f) (fun b g => (birthOf_birth set b g).keeps_standsWith) pairs h

/-- Every candidate with a slot has that slot's track standing with it. -/
def PairsStand (table : Vector Slot 8) (pairs : List (Group × Option (Fin 8))) : Prop :=
  ∀ g k, (g, some k) ∈ pairs → (table[k]).StandsWith g

/-- The births done, every candidate that has a slot stands with it. -/
theorem births_stand (set : TrackerSettings) (pairs : List (Group × Option (Fin 8))) {b : Births}
    (h : PairsStand b.table pairs) : PairsStand (births set b pairs).1.table (births set b pairs).2 := by
  induction pairs generalizing b with
  | nil => exact fun g k hg => by cases hg
  | cons a rest ih =>
    obtain ⟨f, chosen⟩ := a
    have hrest : PairsStand b.table rest := fun g k hg => h g k (List.mem_cons_of_mem _ hg)
    intro g k hg
    cases chosen with
    | some j =>
      rcases List.mem_cons.mp hg with heq | hg
      · cases heq
        exact births_keep_standsWith set rest (h _ _ (List.mem_cons_self ..))
      · exact ih hrest g k hg
    | none =>
      have hborn := birthOf_birth set b f
      rcases List.mem_cons.mp hg with heq | hg
      · obtain ⟨rfl, hk⟩ : g = f ∧ some k = (birth set b f).2 := Prod.mk.inj heq
        exact births_keep_standsWith set rest (hborn.slots.1 k hk.symm).2
      · exact ih (fun g k hg => hborn.keeps_standsWith (hrest g k hg)) g k hg

/-- The births done, no slot has two candidates; a slot that gained one was vacant. -/
theorem births_nodup (set : TrackerSettings) (pairs : List (Group × Option (Fin 8))) {b : Births}
    (h : PairsStand b.table pairs) (hnodup : (pairs.filterMap (·.2)).Nodup) :
    ((births set b pairs).2.filterMap (·.2)).Nodup ∧
      ∀ k ∈ (births set b pairs).2.filterMap (·.2), k ∈ pairs.filterMap (·.2) ∨ (b.table[k]).Vacant := by
  induction pairs generalizing b with
  | nil => exact ⟨List.nodup_nil, fun k hk => by cases hk⟩
  | cons a rest ih =>
    obtain ⟨f, chosen⟩ := a
    have hrest : PairsStand b.table rest := fun g k hg => h g k (List.mem_cons_of_mem _ hg)
    cases chosen with
    | some j =>
      obtain ⟨hj, hnodup⟩ := List.nodup_cons.mp hnodup
      obtain ⟨hdone, hfrom⟩ := ih hrest hnodup
      refine ⟨List.nodup_cons.mpr ⟨fun hmem => ?_, hdone⟩, List.forall_mem_cons.mpr ⟨.inl (by simp), fun k hk => ?_⟩⟩
      · exact (hfrom j hmem).elim hj (h f j (List.mem_cons_self ..)).not_vacant
      · exact (hfrom k hk).imp_left (List.mem_cons_of_mem j)
    | none =>
      have hborn := birthOf_birth set b f
      obtain ⟨hdone, hfrom⟩ := ih (fun g k hg => hborn.keeps_standsWith (hrest g k hg)) hnodup
      have hvacant : ∀ k ∈ ((births set (birth set b f).1 rest).2).filterMap (·.2), (birth set b f).2 ≠ some k ∧
          (k ∈ rest.filterMap (·.2) ∨ (b.table[k]).Vacant) := by
        intro k hk
        rcases hfrom k hk with hold | hnew
        · obtain ⟨⟨g, chosen⟩, hg, rfl⟩ := List.mem_filterMap.mp hold
          exact ⟨fun hchosen => (hrest g k hg).not_vacant (hborn.slots.1 k hchosen).1, .inl hold⟩
        · have hother : (birth set b f).2 ≠ some k := fun hchosen => (hborn.slots.1 k hchosen).2.not_vacant hnew
          exact ⟨hother, .inr (hborn.slots.2 k hother ▸ hnew)⟩
      cases hslot : (birth set b f).2 with
      | none => simpa [births, hslot] using And.intro hdone fun k hk => (hvacant k hk).2
      | some j =>
        simp only [births, hslot, List.filterMap_cons]
        refine ⟨List.nodup_cons.mpr ⟨fun hmem => (hvacant j hmem).1 hslot, hdone⟩,
          List.forall_mem_cons.mpr ⟨.inr (hborn.slots.1 j hslot).1, fun k hk => (hvacant k hk).2⟩⟩

/-! ## One scan (R87) -/

/-- The candidates of a seen scan with the slots they are associated with (R90). -/
def Wtr.pairs (w : Wtr) (scan : HandedScan) : List (Group × Option (Fin 8)) :=
  associate w.settings w.table [] scan.groups

/-- The table and notices of a seen scan before its births. -/
def Wtr.moved (w : Wtr) (scan : HandedScan) : Births :=
  { table := (moveAll w.settings (w.pairs scan) w.table).1, nextId := w.nextId,
    notices := (moveAll w.settings (w.pairs scan) w.table).2, full := w.tableFull }

/-- The table and notices of a seen scan after its births, and the slot of every candidate. -/
def Wtr.born (w : Wtr) (scan : HandedScan) : Births × List (Group × Option (Fin 8)) :=
  births w.settings (w.moved scan) (w.pairs scan)

section Seen

variable (w : Wtr) (scan : HandedScan)

theorem Wtr.trackSeen_table :
    (w.trackSeen scan).1.table = giveRoles w.settings (w.born scan).2 (w.born scan).1.table := rfl

theorem Wtr.trackSeen_notices : (w.trackSeen scan).2.1.notices = (w.born scan).1.notices := rfl

theorem Wtr.trackSeen_samples : (w.trackSeen scan).2.1.samples =
    (w.born scan).2.filterMap (sampleFor scan.flags (w.trackSeen scan).1.table) := rfl

theorem Wtr.moved_get (k : Fin 8) : (w.moved scan).table[k] =
    (moveSlot w.settings k (candidateAt (w.pairs scan) k) w.table[k]).1 := moveAll_get _ _ _ k

theorem Wtr.mem_moved_notices {n : Notice} : n ∈ (w.moved scan).notices ↔
    ∃ k, (moveSlot w.settings k (candidateAt (w.pairs scan) k) w.table[k]).2 = some n := by
  simp only [Wtr.moved, moveAll, List.mem_filterMap, mem_slots8, true_and, map8_get]

theorem Wtr.pairs_nodup : ((w.pairs scan).filterMap (·.2)).Nodup := (associate_nodup _ _ _ _).1

/-- R91: a track that has a candidate stands with it once moved. -/
theorem Wtr.moved_stand : PairsStand (w.moved scan).table (w.pairs scan) := by
  intro g k hg
  obtain ⟨t, ht⟩ := track_of_mem_associate hg
  rw [Wtr.moved_get, candidateAt_of_mem (w.pairs_nodup scan) hg]
  exact moveSlot_standsWith ht

theorem Wtr.born_stand : PairsStand (w.born scan).1.table (w.born scan).2 := births_stand _ _ (w.moved_stand scan)

theorem Wtr.born_nodup : ((w.born scan).2.filterMap (·.2)).Nodup :=
  (births_nodup _ _ (w.moved_stand scan) (w.pairs_nodup scan)).1

end Seen

/-! ## Samples (R101) -/

theorem sampleFor_eq_some_iff {flags : MotionFlags} {table : Vector Slot 8} {g : Group} {chosen : Option (Fin 8)}
    {m : Sample} : sampleFor flags table (g, chosen) = some m ↔
      ∃ k t role, chosen = some k ∧ table[k] = .confirmed t role ∧
        m = { id := t.id, slot := k, role := role, x := g.x, z := g.z, face := g.face, thickness := none, wear := none,
              merged := g.merged, flags := flags, belowTable := false, beyondTable := false } := by
  cases chosen with
  | none => simp [sampleFor]
  | some k => cases hk : table[k] <;> simp [sampleFor, -Fin.getElem_fin, hk, @eq_comm _ _ m]

theorem sampleFor_slot {flags : MotionFlags} {table : Vector Slot 8} {a : Group × Option (Fin 8)} {m : Sample}
    (h : sampleFor flags table a = some m) : a.2 = some m.slot := by
  obtain ⟨k, t, role, hk, -, rfl⟩ := sampleFor_eq_some_iff.mp h
  exact hk

/-- The slots of the samples are among the slots of the candidates, in their order. -/
theorem sampleFor_slots_sublist (flags : MotionFlags) (table : Vector Slot 8) (pairs : List (Group × Option (Fin 8))) :
    ((pairs.filterMap (sampleFor flags table)).map (·.slot)).Sublist (pairs.filterMap (·.2)) := by
  induction pairs with
  | nil => exact List.Sublist.slnil
  | cons a rest ih =>
    cases hm : sampleFor flags table a with
    | none =>
      rw [List.filterMap_cons_none hm]
      exact ih.trans ((List.sublist_cons_self a rest).filterMap _)
    | some m =>
      rw [List.filterMap_cons_some hm, List.filterMap_cons_some (sampleFor_slot hm)]
      exact ih.cons_cons m.slot

/-- R101: a sample is of the CONFIRMED track that stands with its candidate. -/
theorem Wtr.trackSeen_sample {w : Wtr} {scan : HandedScan} {m : Sample}
    (h : m ∈ (w.trackSeen scan).2.1.samples) : ∃ t, (w.trackSeen scan).1.table[m.slot] = .confirmed t m.role ∧
      t.id = m.id ∧ t.x = m.x ∧ t.z = m.z ∧ t.face = m.face ∧ m.flags = scan.flags ∧ m.thickness = none ∧
      m.wear = none := by
  rw [Wtr.trackSeen_samples] at h
  obtain ⟨⟨g, chosen⟩, hg, hm⟩ := List.mem_filterMap.mp h
  obtain ⟨k, t, role, rfl, hk, rfl⟩ := sampleFor_eq_some_iff.mp hm
  obtain ⟨-, u, hu, hx, hz, hface⟩ := w.born_stand scan g k hg
  have htrack := giveRoles_track w.settings (w.born scan).2 (w.born scan).1.table k
  rw [← Wtr.trackSeen_table, hk, hu] at htrack
  cases htrack
  exact ⟨t, hk, rfl, hx, hz, hface, rfl, rfl, rfl⟩

/-! ## Notices (R99) -/

/-- The established track of slot `k` is still held as such, or a notice tells its end. -/
def Births.Accounts (k : Fin 8) (id : Nat) (b : Births) : Prop :=
  (b.table[k]).EstablishedAs id ∨ ∃ n ∈ b.notices, n.slot = k ∧ n.id = id ∧ n.reason ≠ .runEnd

theorem Births.Accounts.birth {k : Fin 8} {id : Nat} {b : Births} (h : b.Accounts k id) (set : TrackerSettings)
    (g : Group) : (birth set b g).1.Accounts k id := by
  have hborn := birthOf_birth set b g
  obtain ⟨new, hnotices, -, hreplaced⟩ := hborn.notices
  rcases h with hest | ⟨n, hn, hended⟩
  · by_cases hchosen : (Machine.birth set b g).2 = some k
    · obtain ⟨hestablished, u, hu, rfl⟩ := hest
      rcases (hborn.slots.1 k hchosen).1 with hempty | ⟨t, m, role, hcoasting⟩
      · rw [hempty] at hu
        cases hu
      · rw [hcoasting] at hu
        cases hu
        have hnotice := List.mem_append_right b.notices (hreplaced k u m role hchosen hcoasting)
        exact .inr ⟨_, hnotices ▸ hnotice, rfl, rfl, by simp⟩
    · refine .inl ?_
      rwa [hborn.slots.2 k hchosen]
  · refine .inr ⟨n, ?_, hended⟩
    rw [hnotices]
    exact List.mem_append_left _ hn

/-- R94, R97, R99: no established track vanishes without its notice. -/
theorem Wtr.born_accounts {w : Wtr} (scan : HandedScan) {k : Fin 8} {id : Nat} (h : (w.table[k]).EstablishedAs id) :
    (w.born scan).1.Accounts k id := by
  refine births_keep (P := Births.Accounts k id) (fun b g hb => hb.birth w.settings g) _ ?_
  rcases moveSlot_establishedAs_or_lost (set := w.settings) (k := k) (c := candidateAt (w.pairs scan) k) h with hest | hlost
  · left
    rwa [Wtr.moved_get]
  · exact .inr ⟨_, (w.mem_moved_notices scan).mpr ⟨k, hlost⟩, rfl, rfl, by simp⟩

/-- The notices, and the COASTING tracks that may still give way, are of tracks established before the scan. -/
def Births.Knows (before : Vector Slot 8) (b : Births) : Prop :=
  (∀ n ∈ b.notices, n.reason ≠ .runEnd ∧ (before[n.slot]).EstablishedAs n.id) ∧
  ∀ (k : Fin 8) t m role, b.table[k] = .coasting t m role → (before[k]).EstablishedAs t.id

theorem Births.Knows.birth {before : Vector Slot 8} {b : Births} (h : b.Knows before) (set : TrackerSettings)
    (g : Group) : (birth set b g).1.Knows before := by
  have hborn := birthOf_birth set b g
  obtain ⟨new, hnotices, hnew, -⟩ := hborn.notices
  obtain ⟨hold, hcoasting⟩ := h
  refine ⟨?_, fun k t m role hk => ?_⟩
  · rw [hnotices]
    refine List.forall_mem_append.mpr ⟨hold, fun n hn => ?_⟩
    obtain ⟨hreason, t, m, role, hslot, hid⟩ := hnew n hn
    exact ⟨by simp [hreason], hid ▸ hcoasting n.slot t m role hslot⟩
  · have hother : (Machine.birth set b g).2 ≠ some k := by
      intro hchosen
      exact (hborn.slots.1 k hchosen).2.not_vacant (.inr ⟨t, m, role, hk⟩)
    rw [hborn.slots.2 k hother] at hk
    exact hcoasting k t m role hk

/-- R99: a notice is of a track that was established before the scan. -/
theorem Wtr.born_knows (w : Wtr) (scan : HandedScan) : (w.born scan).1.Knows w.table := by
  refine births_keep (P := Births.Knows w.table) (fun b g hb => hb.birth w.settings g) _ ⟨fun n hn => ?_, ?_⟩
  · obtain ⟨k, hk⟩ := (w.mem_moved_notices scan).mp hn
    obtain ⟨rfl, hreason, hest⟩ := moveSlot_notice hk
    exact ⟨by simp [hreason], hest⟩
  · intro k t m role hk
    rw [Wtr.moved_get] at hk
    exact moveSlot_coasting hk

/-- Settles O37: samples by the candidates that stand with CONFIRMED tracks, notices by what the moves and then each birth
keep of the tracks established before. -/
theorem samplesAndNoticesOfTracks : Obligations.SamplesAndNoticesOfTracks := by
  refine ⟨fun w scan hseen => ?_, fun w scan k t hest ht => ?_, fun w scan n hn => ?_,
    fun x => ⟨x.established_iff, x.track?_eq_some_iff⟩⟩
  · rw [Wtr.track_of_not_blind hseen]
    refine ⟨fun m hm => Wtr.trackSeen_sample hm, ?_⟩
    rw [Wtr.trackSeen_samples]
    exact (w.born_nodup scan).sublist (sampleFor_slots_sublist _ _ _)
  · have hheld : (w.table[k]).EstablishedAs t.id := ⟨hest, t, ht, rfl⟩
    cases hblind : scan.blind with
    | true =>
      rw [Wtr.track_of_blind hblind]
      exact .inl hheld
    | false =>
      rw [Wtr.track_of_not_blind hblind]
      refine (Wtr.born_accounts scan hheld).imp_left fun h => ?_
      rw [Wtr.trackSeen_table, giveRoles_established, giveRoles_track]
      exact h
  · cases hblind : scan.blind with
    | true =>
      rw [Wtr.track_of_blind hblind] at hn
      cases hn
    | false =>
      rw [Wtr.track_of_not_blind hblind] at hn
      exact (w.born_knows scan).1 n hn

end Sys2Proof.Machine
end

section
/-! PROOFS. The tracker takes a scan whole (R87, R88, R102): its table, counter, watch, set and events; the id of a birth
(R86), the slot it takes (R96 to R98), and the roles (R100). -/

namespace Sys2Proof.Machine

/-! ## The row (R87, R102) -/

theorem State.trackNext_of_empty {s : State} (h : s.wtr.inbox = []) : s.trackNext = s := by
  rw [State.trackNext, h]

theorem State.trackNext_of_cons {s : State} {scan : HandedScan} {rest : List HandedScan}
    (h : s.wtr.inbox = scan :: rest) : s.trackNext = { s with
      wtr := { (s.wtr.track scan).1 with
        inbox := rest, outbox := (s.wtr.track scan).1.outbox ++ [(s.wtr.track scan).2.1],
        lastScan := scan.header.scan, lastTaken := some (scan.header, scan.snapshot) }
      hli := s.hli.offerAll ((s.wtr.track scan).2.2.map Report.event) } := by
  rw [State.trackNext, h]
  rfl

theorem Wtr.trackSeen_eq (w : Wtr) (scan : HandedScan) :
    let table := giveRoles w.settings (w.born scan).2 (w.born scan).1.table
    let count := ((List.finRange 8).filter fun k => (table[k]).established).length
    let watched := watchScan w.watch w.settings.mismatch scan.snapshot scan.header.chainage count
    w.trackSeen scan =
      ({ w with table := table, nextId := (w.born scan).1.nextId, tableFull := (w.born scan).1.full,
                watch := watched.1 },
       { header := scan.header, snapshot := scan.snapshot, blind := scan.blind, runEnd := false,
         notices := (w.born scan).1.notices, samples := (w.born scan).2.filterMap (sampleFor scan.flags table) },
       watched.2) := by
  intro table count watched
  simp only [watched, count, ← establishedCount_eq]
  rfl

theorem moveAll_notices (set : TrackerSettings) (pairs : List (Group × Option (Fin 8))) (table : Vector Slot 8) :
    (moveAll set pairs table).2 =
      (List.finRange 8).filterMap fun k => (moveSlot set k (candidateAt pairs k) table[k]).2 := by
  simp only [moveAll, map8_get]
  rfl

/-! ## The id of a birth (R86) -/

/-- R86 step 1: the search passes over held values only. -/
theorem freeTrackId_eq_iterate (held : List Nat) (fuel v : Nat) :
    ∃ n, freeTrackId held fuel v = nextTrackId^[n] v ∧ ∀ i, i < n → nextTrackId^[i] v ∈ held := by
  induction fuel generalizing v with
  | zero => exact ⟨0, rfl, by simp⟩
  | succ fuel ih =>
    rw [freeTrackId]
    split
    case isTrue hheld =>
      obtain ⟨n, hn, hbefore⟩ := ih (nextTrackId v)
      refine ⟨n + 1, hn, fun i hi => ?_⟩
      cases i with
      | zero => simpa using hheld
      | succ i => exact hbefore i (Nat.lt_of_succ_lt_succ hi)
    case isFalse => exact ⟨0, rfl, by simp⟩

/-- The value is the id of a track in another slot than `k`. -/
def HeldElsewhere (table : Vector Slot 8) (k : Fin 8) (v : Nat) : Prop :=
  ∃ j t, j ≠ k ∧ (table[(j : Fin 8)]).track? = some t ∧ t.id = v

theorem mem_heldIds_iff {table : Vector Slot 8} {k : Fin 8} (h : (table[k]).track? = none) {v : Nat} :
    v ∈ heldIds table ↔ HeldElsewhere table k v := by
  simp only [heldIds, List.mem_filterMap, mem_slots8, true_and, Option.map_eq_some_iff, HeldElsewhere]
  refine exists_congr fun j => exists_congr fun t => ⟨fun ⟨ht, hid⟩ => ⟨?_, ht, hid⟩, fun ⟨_, ht, hid⟩ => ⟨ht, hid⟩⟩
  rintro rfl
  cases h.symm.trans ht

/-- R86, R96: the birth into a slot that holds no track. -/
def BornAt (set : TrackerSettings) (b : Births) (g : Group) (k : Fin 8) (u : Births) : Prop :=
  ∃ n, (∀ i, i < n → HeldElsewhere b.table k (nextTrackId^[i] b.nextId)) ∧
    ¬ HeldElsewhere b.table k (nextTrackId^[n] b.nextId) ∧
    u.nextId = nextTrackId (nextTrackId^[n] b.nextId) ∧ u.full = b.full ∧
    u.table = b.table.set k (bornSlot set (nextTrackId^[n] b.nextId) g)

theorem Births.bear_bornAt {b : Births} {k : Fin 8} (hk : (b.table[k]).track? = none)
    (hid : 1 ≤ b.nextId ∧ b.nextId ≤ 65535) (set : TrackerSettings) (g : Group) :
    BornAt set b g k (b.bear set k g) := by
  obtain ⟨n, hn, hbefore⟩ := freeTrackId_eq_iterate (heldIds b.table) 8 b.nextId
  refine ⟨n, fun i hi => (mem_heldIds_iff hk).mp (hbefore i hi), ?_, ?_, rfl, ?_⟩
  · rintro ⟨j, t, -, ht, heq⟩
    exact freeTrackId_new hk hid ht (heq.trans hn.symm)
  · exact congrArg nextTrackId hn
  · exact congrArg (fun id => b.table.set k (bornSlot set id g)) hn

/-- R97: with the track that gives way gone, the birth is the one into its slot. -/
theorem BornAt.of_replace {set : TrackerSettings} {b : Births} {g : Group} {k : Fin 8} {u : Births}
    (h : BornAt set (b.replace k) g k u) : BornAt set b g k u := by
  have hheld : ∀ v, HeldElsewhere (b.replace k).table k v ↔ HeldElsewhere b.table k v := fun v =>
    exists_congr fun j => exists_congr fun t => and_congr_right fun hj => by rw [Births.replace_get, if_neg hj]
  obtain ⟨n, hbefore, hfree, hnext, hfull, htable⟩ := h
  refine ⟨n, fun i hi => (hheld _).mp (hbefore i hi), mt (hheld _).mpr hfree, hnext, hfull, htable.trans ?_⟩
  simp [Births.replace]

/-! ## The slot of a birth (R96 to R98) -/

section Birth

variable {set : TrackerSettings} {b : Births} {k : Fin 8}

theorem birth_of_empty (g : Group) (hk : b.table[k] = .empty) (hlow : ∀ j, j < k → b.table[j] ≠ .empty) :
    birth set b g = (b.bear set k g, some k) := by
  rw [birth, lowestEmpty_eq_some_iff.mpr ⟨hk, hlow⟩]

/-- R97: two slots that each have the greatest misses, and are each the lowest among equals, are one. -/
theorem worstCoasting_eq_some {table : Vector Slot 8} {t : Seen} {m : Nat} {role : Role}
    (hk : table[k] = .coasting t m role)
    (hworst : ∀ (j : Fin 8) (v : Seen) (n : Nat) (r : Role), table[j] = .coasting v n r → n < m ∨ (n = m ∧ k ≤ j)) :
    worstCoasting table = some k := by
  have hmisses : (table[k]).coastMisses = some m := (Slot.coastMisses_eq_some_iff _ _).mpr ⟨t, role, hk⟩
  cases hfound : worstCoasting table with
  | none => cases hmisses.symm.trans (not_coasting_of_worstCoasting hfound k)
  | some j =>
    obtain ⟨n, hn, hleast⟩ := coasting_of_worstCoasting hfound
    obtain ⟨v, r, hj⟩ := (Slot.coastMisses_eq_some_iff _ _).mp hn
    have hj_le := hleast k m hmisses
    have hk_le := hworst j v n r hj
    rw [Option.some_inj]
    omega

theorem birth_of_coasting (g : Group) (hfull : ∀ j : Fin 8, b.table[j] ≠ .empty)
    (hk : worstCoasting b.table = some k) : birth set b g = ((b.replace k).bear set k g, some k) := by
  rw [birth, lowestEmpty_eq_none_iff.mpr hfull, hk]

theorem birth_of_full (g : Group) (h : ∀ j : Fin 8, b.table[j] ≠ .empty ∧ ∀ v n r, b.table[j] ≠ .coasting v n r) :
    birth set b g = ({ b with full := countUp b.full }, none) := by
  have hnone : worstCoasting b.table = none := by
    cases hfound : worstCoasting b.table with
    | none => rfl
    | some k =>
      obtain ⟨m, hm, -⟩ := coasting_of_worstCoasting hfound
      obtain ⟨t, role, hk⟩ := (Slot.coastMisses_eq_some_iff _ _).mp hm
      exact absurd hk ((h k).2 t m role)
  rw [birth, lowestEmpty_eq_none_iff.mpr fun j => (h j).1, hnone]

end Birth

/-! ## Roles (R100) -/

/-- One height of the search for the least. -/
def lower (m : Option Int) (z : Int) : Option Int := some (match m with | some v => min v z | none => z)

theorem foldl_lower (zs : List Int) : zs.foldl lower none = zs.min? := by
  have from_some : ∀ (zs : List Int) (z : Int), zs.foldl lower (some z) = some (zs.foldl min z) := by
    intro zs
    induction zs with
    | nil => exact fun z => rfl
    | cons a rest ih => exact fun z => ih (min z a)
  cases zs with
  | nil => rfl
  | cons z rest => exact from_some rest z

section Roles

variable {set : TrackerSettings} {pairs : List (Group × Option (Fin 8))} {table : Vector Slot 8}

/-- The heights of the CONFIRMED tracks associated in the scan. -/
def seenHeights (table : Vector Slot 8) (pairs : List (Group × Option (Fin 8))) : List Int :=
  pairs.filterMap fun a => a.2.bind fun k => (table[k]).confirmedHeight

theorem lowestConfirmed_eq (table : Vector Slot 8) (pairs : List (Group × Option (Fin 8))) :
    lowestConfirmed table pairs = (seenHeights table pairs).min? := foldl_lower _

theorem Slot.confirmedHeight_eq_some_iff (x : Slot) (z : Int) :
    x.confirmedHeight = some z ↔ ∃ t role, x = .confirmed t role ∧ t.z = z := by
  cases x <;> simp [Slot.confirmedHeight]

theorem mem_seenHeights_iff {z : Int} : z ∈ seenHeights table pairs ↔
    ∃ (j : Fin 8) (u : Seen) (r : Role), table[j] = .confirmed u r ∧ some j ∈ pairs.map (·.2) ∧ u.z = z := by
  simp only [seenHeights, List.mem_filterMap, Option.bind_eq_some_iff, Slot.confirmedHeight_eq_some_iff, List.mem_map]
  constructor
  · rintro ⟨a, ha, j, hj, u, r, hu, hz⟩
    exact ⟨j, u, r, hu, ⟨a, ha, hj⟩, hz⟩
  · rintro ⟨j, u, r, hu, ⟨a, ha, hj⟩, hz⟩
    exact ⟨a, ha, j, hj, u, r, hu, hz⟩

/-- R100: the role of a CONFIRMED track that was seen, by its height over the lowest such track. -/
theorem giveRoles_of_seen {k : Fin 8} {t : Seen} {role : Role} (hk : table[k] = .confirmed t role)
    (hseen : some k ∈ pairs.map (·.2)) : ∃ zmin, (seenHeights table pairs).min? = some zmin ∧
      (giveRoles set pairs table)[k] = .confirmed t (if t.z ≤ zmin + set.band then .running else .raised) := by
  cases hmin : (seenHeights table pairs).min? with
  | none =>
    have hmem : t.z ∈ seenHeights table pairs := mem_seenHeights_iff.mpr ⟨k, t, role, hk, hseen, rfl⟩
    rw [List.min?_eq_none_iff.mp hmin] at hmem
    cases hmem
  | some zmin =>
    obtain ⟨g, hg⟩ := Option.ne_none_iff_exists'.mp fun h => candidateAt_eq_none_iff.mp h hseen
    refine ⟨zmin, rfl, ?_⟩
    rw [giveRoles, lowestConfirmed_eq, hmin]
    dsimp only
    rw [map8_get, hk, hg]

theorem giveRoles_of_unseen {k : Fin 8}
    (h : (∀ t role, table[k] ≠ .confirmed t role) ∨ some k ∉ pairs.map (·.2)) :
    (giveRoles set pairs table)[k] = table[k] := by
  rw [giveRoles]
  split
  · rfl
  · rw [map8_get]
    split
    case h_1 t r g hk hg =>
      rcases h with hno | hunseen
      · exact absurd hk (hno t r)
      · cases (candidateAt_eq_none_iff.mpr hunseen).symm.trans hg
    case h_2 => rfl

end Roles

/-- Settles O35: the row by the inbox, the scan by its stages, and each stage by its own lemma. -/
theorem scanTracked : Obligations.ScanTracked := by
  refine ⟨fun s scan rest hpin hinbox => ⟨fun hblind => ?_, fun hseen => ?_⟩, fun s hpin hinbox => ?_,
    fun w scan => w.trackSeen_eq scan,
    fun set pairs table => ⟨fun k => ⟨moveAll_get set pairs table k, fun g => mem_of_candidateAt_eq_some⟩,
      fun k => candidateAt_eq_none_iff.mp, moveAll_notices set pairs table⟩,
    fun set k t g n role => ⟨fun c => rfl, ?_, rfl, rfl, ?_, rfl, ?_⟩,
    fun set b g hlow hhigh => ⟨fun k hk hbelow => ?_, fun k t m role hfull hk hworst => ?_, birth_of_full g⟩,
    fun set b g k rest => ⟨rfl, rfl, rfl⟩,
    fun flags table g => ⟨rfl, fun k => ⟨fun t role hk => ?_, fun hno => ?_⟩⟩,
    fun set pairs table k => ⟨fun t role hk hseen => ?_, giveRoles_of_unseen⟩⟩
  · refine (act_free State.trackNext hpin).trans ?_
    rw [State.trackNext_of_cons hinbox, Wtr.track_of_blind hblind, setOf, hblind]
    rfl
  · refine (act_free State.trackNext hpin).trans ?_
    rw [State.trackNext_of_cons hinbox, Wtr.track_of_not_blind hseen]
    rfl
  · refine (act_free State.trackNext hpin).trans ?_
    rw [State.trackNext_of_empty hinbox]
  · exact apply_ite (fun x : Slot => (x, (none : Option Notice))) _ _ _ |>.symm
  · rfl
  · rfl
  · refine ⟨_, birth_of_empty g hk hbelow, Births.bear_bornAt ?_ ⟨hlow, hhigh⟩ set g, rfl⟩
    rw [hk]
    rfl
  · refine ⟨_, birth_of_coasting g hfull (worstCoasting_eq_some hk hworst),
      (Births.bear_bornAt (b := b.replace k) ?_ ⟨hlow, hhigh⟩ set g).of_replace, Births.replace_notices hk⟩
    rw [Births.replace_get, if_pos rfl]
    rfl
  · exact sampleFor_eq_some_iff.mpr ⟨k, t, role, rfl, hk, rfl⟩
  · refine Option.eq_none_iff_forall_ne_some.mpr fun m hm => ?_
    obtain ⟨j, t, role, hj, htable, -⟩ := sampleFor_eq_some_iff.mp hm
    cases hj
    exact hno t role htable
  · obtain ⟨zmin, hmin, hrole⟩ := giveRoles_of_seen (set := set) hk hseen
    obtain ⟨hmem, hleast⟩ := List.min?_eq_some_iff.mp hmin
    rw [hrole]
    refine ⟨fun hall => ?_, fun j u r hu huseen hfar => ?_⟩
    · obtain ⟨j, u, r, hu, huseen, hz⟩ := mem_seenHeights_iff.mp hmem
      rw [if_pos (hz ▸ hall j u r hu huseen)]
    · have := hleast u.z (mem_seenHeights_iff.mpr ⟨j, u, r, hu, huseen, rfl⟩)
      rw [if_neg (by omega)]

end Sys2Proof.Machine
end
